-- ==== Sys2Proof/Word.lean ====
section
/-!
DEFINITION. Sys2Proof/Word.lean: the word types of Uliermier (R2, R23, R64).
-/
namespace Sys2Proof

/-- One byte of memory. -/
abbrev Byte := BitVec 8
/-- One 32-bit register. -/
abbrev Word := BitVec 32
/-- One 64-bit code word, address or register pair (R23, R33). -/
abbrev DWord := BitVec 64
/-- A latch, up to 128 bits (R33). -/
abbrev QWord := BitVec 128

end Sys2Proof
end

