-- ==== Sys2Proof/Config.lean ====
section
/-!
DEFINITION. Sys2Proof/Config.lean: what the specification leaves without a value. Each constant has no body that a proof
can see; a statement holds whatever it is. The log entry of notes/assumptions that names each is given with it.
-/
namespace Sys2Proof.Config

/-- Whether .rne of ±1.5 × 2⁻¹³ into .mk8 takes the larger magnitude: both candidate codes are even and R71 gives no
rule for that (log entry 12). The argument is the sign. -/
opaque mk8EvenTieUp : Bool → Bool

/-- LMIN with no live member (R375, R382): no rule gives the smallest of no steps (log entry 34). The argument is CLK. -/
opaque lminNone : Nat → Word

/-- The digest of CMAP or LMAP in a log entry (R387): no rule names the function (log entry 35). The argument is the bitmap. -/
opaque mapDigest : Nat → DWord

/-- Whether the ECDSA P-256 signature of a firmware image verifies against the fused key (R404; log entry 38). -/
opaque imageValid : List Byte → Bool
/-- The security version of a firmware image: its place in the image is not given (R404; log entry 38). -/
opaque imageSvn : List Byte → BitVec 16
/-- The SHA-256 digest of bytes (R407; log entry 38). -/
opaque sha256 : List Byte → List Byte
/-- The certificate chain of slot 0 (R407; log entry 38). -/
opaque certChain : List Byte
/-- The ECDSA P-256 signature by the identity key, which never leaves the die (R407; log entry 38). -/
opaque signature : List Byte → List Byte
/-- The fused configuration of measurement 3 (R407; log entry 38). -/
opaque fusedConfig : List Byte
/-- The guard band of a path-delay margin at 2.4 GHz, and the number of 5 mV steps to the maximum voltage (R411; log entry 39). -/
opaque guardBand : Nat
opaque maxVoltSteps : Nat

/-- The hash that chooses the port of a flow among the ports in use: no rule names it (R346; log entry 58). The arguments are
the member and the line of its window. -/
opaque flowHash : Nat → Nat → Nat
/-- The port, among those in use, over which a message of the collective class arrives: the spec fixes none (R344, R349; log entry
58). The argument is CLK. -/
opaque sprayPort : Nat → Nat

/-- Whether the uncorrectable fault that halts the module at a CLK makes the memory of a home slice unreachable: the spec leaves open
what a fault takes with it (R22; log entry 65). -/
opaque unreachable : Nat → Nat → Bool

end Sys2Proof.Config
end

