-- ==== Sys2Proof/Syntax.lean ====
section
/-!
DEFINITION. Sys2Proof/Syntax.lean: the instructions and events of spec/opcode_table.json, one constructor of `Instr`
for each row. Instruction words carry their decoded fields (R29 to R38, R51 to R59); events carry what names the
object they happen to and, where something outside the module supplies a value, that value.
-/
namespace Sys2Proof

/-! ### Codes shared across classes (R49, R51) -/

/-- The integer types in the order of their codes (R51). -/
inductive IntTy where
  | i32 | n32 | i64 | n64 | i16 | n16 | i8 | n8
  deriving DecidableEq, Repr, Inhabited

/-- The float formats (R51, column F3; R65, R69). -/
inductive Fmt where
  | f32 | f64 | f16 | bf16 | e4m3 | e5m2 | mk8
  deriving DecidableEq, Repr, Inhabited

/-- The rounding modes in the order of their codes (R49). -/
inductive Rnd where
  | rne | rtz | rdn | rup | rsr
  deriving DecidableEq, Repr, Inhabited

/-- Access widths in the order of their codes (R51, column W). -/
inductive Width where
  | n8 | n16 | b32 | b64 | b128 | i8 | i16
  deriving DecidableEq, Repr, Inhabited

/-- The scopes in rising order (R57, R205). -/
inductive Scope where
  | lane | group | team | cluster | die | module | pod | system
  deriving DecidableEq, Repr, Inhabited

/-- The kinds of a fence (R57). -/
inductive FenceKind where
  | acq | rel | ar
  deriving DecidableEq, Repr, Inhabited

/-- Integer and float comparisons in opcode order (R54, R55). -/
inductive Cmp where
  | eq | ne | lt | le | gt | ge
  deriving DecidableEq, Repr, Inhabited

/-- The folding operators of `xred` and `xscan` (R195), and of `atom` and `red` but for `exch` (R58). -/
inductive FoldOp where
  | add | min | max | and | or | xor
  deriving DecidableEq, Repr, Inhabited

/-- The operations of `atom` (R58). -/
inductive AtomOp where
  | fold (o : FoldOp) | exch
  deriving DecidableEq, Repr, Inhabited

/-- The comparisons of `waitc` (R58, R269). -/
inductive WaitCmp where
  | eq | ne | ge | lt
  deriving DecidableEq, Repr, Inhabited

/-- The votes (R193). -/
inductive Vote where
  | any | all | eq
  deriving DecidableEq, Repr, Inhabited

/-- The forms of `movi` (R160). -/
inductive MoviKind where
  | b32 | i64 | n64
  deriving DecidableEq, Repr, Inhabited

/-- The formats of `fpack` and `funpack` (R55, R179, R180). -/
inductive PackFmt where
  | f16 | bf16 | e4m3 | e5m2 | mk8 | bx16 | bx24
  deriving DecidableEq, Repr, Inhabited

/-- The special registers of R94. -/
inductive SReg where
  | gwid | gbase | laneix | grpix | teamixX | teamixY | teamixZ | cluix | gridix | gst | ftv | step | clk | ctxid
  | coreno | hbase | hlim | hofs | ptroot | tqbase | svbase | rkey | bkey | ctxcfg | lead | ftvd | zwt | dln
  deriving DecidableEq, Repr, Inhabited

/-! ### Fields of instruction words -/

/-- The predicate prefix, bits [51:48] of every word (R29). -/
structure Pfx where
  neg : Bool
  pr : Fin 8
  deriving DecidableEq, Repr, Inhabited

/-- A 10-bit operand field (R31). -/
inductive Operand where
  | v (i : Fin 64)
  | s (i : Fin 256)
  | lat (i : Fin 16)
  | lit (x : BitVec 8)
  deriving DecidableEq, Repr, Inhabited

/-- A source that may be a predicate: class 11 with [7:3] = 0 (R37, R192). -/
inductive PSrc where
  | v (i : Fin 64)
  | s (i : Fin 256)
  | lat (i : Fin 16)
  | p (i : Fin 8)
  deriving DecidableEq, Repr, Inhabited

/-- The tests of a branch that reads its condition, CTEST 1 to 4 (R37). -/
inductive CTest where
  | nz | z | neg | pos
  deriving DecidableEq, Repr, Inhabited

/-- CTEST and COND together: with CTEST 0 there is no condition (R37). -/
inductive BrCond where
  | always
  | test (t : CTest) (c : PSrc)
  deriving DecidableEq, Repr, Inhabited

/-- The address fields of an M word (R36). -/
structure MemRef where
  base : Operand
  index : Operand
  ofs : BitVec 13
  scale : Bool
  deriving DecidableEq, Repr, Inhabited

/-- The INC fields of a T word with INCEN = 1: index and INCAMT (R38). -/
structure TInc where
  ix : Fin 64
  amt : Fin 128
  deriving DecidableEq, Repr, Inhabited

/-- The WAIT fields of a T word with WEN = 1: WIX and WTHR (R38). -/
structure TWait where
  ix : Fin 64
  thr : Fin 256
  deriving DecidableEq, Repr, Inhabited

/-- A T word (R38). -/
structure TW where
  p : Pfx
  pbase : Fin 256
  inc : Option TInc
  wait : Option TWait
  batch : Fin 16
  sb : Fin 8
  deriving DecidableEq, Repr, Inhabited

/-- Integer forms of one source (R153, R155, R158, R159). `dst` is `none` when WS = 1 (R40). -/
structure I1 where
  p : Pfx
  ty : IntTy
  dst : Option Operand
  a : Operand
  deriving DecidableEq, Repr, Inhabited

/-- Integer forms of two sources. -/
structure I2 where
  p : Pfx
  ty : IntTy
  dst : Option Operand
  a : Operand
  b : Operand
  deriving DecidableEq, Repr, Inhabited

/-- Integer forms of three sources. -/
structure I3 where
  p : Pfx
  ty : IntTy
  dst : Option Operand
  a : Operand
  b : Operand
  c : Operand
  deriving DecidableEq, Repr, Inhabited

/-- Float forms of one source, fixed latency (R168 to R176). -/
structure F1 where
  p : Pfx
  f : Fmt
  m : Rnd
  dst : Option Operand
  a : Operand
  deriving DecidableEq, Repr, Inhabited

/-- Float forms of two sources. -/
structure F2 where
  p : Pfx
  f : Fmt
  m : Rnd
  dst : Option Operand
  a : Operand
  b : Operand
  deriving DecidableEq, Repr, Inhabited

/-- Float forms of three sources. -/
structure F3 where
  p : Pfx
  f : Fmt
  m : Rnd
  dst : Option Operand
  a : Operand
  b : Operand
  c : Operand
  deriving DecidableEq, Repr, Inhabited

/-- The scoreboarded float forms of one source (R174). -/
structure FS1 where
  p : Pfx
  f : Fmt
  m : Rnd
  dst : Operand
  a : Operand
  sb : Fin 8
  deriving DecidableEq, Repr, Inhabited

/-- The predicate family of two sources (R164). -/
structure P2 where
  p : Pfx
  dst : Option (Fin 8)
  a : Fin 8
  b : Fin 8
  deriving DecidableEq, Repr, Inhabited

/-- The loads that return through a slot (R216, R247): for `ldv` the index is the minimum step. -/
structure MLoad where
  p : Pfx
  w : Width
  d : Operand
  m : MemRef
  sb : Fin 8
  deriving DecidableEq, Repr, Inhabited

/-- The stores (R217, R249). -/
structure MStore where
  p : Pfx
  w : Width
  d : Operand
  m : MemRef
  deriving DecidableEq, Repr, Inhabited

/-- An M word of no width with DATA and a slot: `cwb`, `cwbi`, `cinv`, `vpub` (R219, R250). -/
structure MRange where
  p : Pfx
  d : Operand
  m : MemRef
  sb : Fin 8
  deriving DecidableEq, Repr, Inhabited

/-- The two operands of a semaphore form: index k and operand a (R267). -/
structure Sem2 where
  p : Pfx
  k : Operand
  a : Operand
  deriving DecidableEq, Repr, Inhabited

/-! ### Payloads of events -/

/-- The parameters of a collective that every message carries: the record of R352 but for RVA and STEP0 (R367). -/
structure CollParams where
  nblk : Nat
  frac : Bool
  op : Nat
  w24 : Bool
  obf16 : Bool
  chb : Nat
  lcap : Nat
  quorum : Nat
  timer : Nat
  mva : Nat
  nmem : Nat
  cid : Nat
  deriving DecidableEq, Repr, Inhabited

/-- What a peer's sequencer sends (R355 to R364). Blocks are lists of elements; `none` is the element NaN mark. -/
inductive CollBody where
  /-- Every chunk's block exponents of the member at `pos` are delivered; it arrives (R359). -/
  | exponents (pos : Nat) (xs : List Nat)
  /-- The coordinator's close: on-time set, late set of t − 1, agreed exponents, closed by T, late ones discarded, and late ones
  dropped for poison. -/
  | close (onTime late : List Nat) (xa : List Nat) (timed : Bool) (ndisc : Nat) (gone : List Nat := [])
  /-- The mantissas of the member at `pos`, converted at the agreed exponents, and whether one was limited (R360). -/
  | mantissas (pos : Nat) (ms : List (List (Option Int))) (limited : Bool)
  /-- The coordinator's decision at the mantissa close: members that left the on-time set (R360, R363). -/
  | depart (late poisoned : List Nat)
  /-- A root's result elements of chunk `c` (R364) and its header flags (R365). -/
  | result (c : Nat) (codes : List Nat) (flags : Nat)
  /-- A peer's report that its instance of this step is FREE (R357). -/
  | freed (pos : Nat)
  /-- The packed blocks of the late contribution of the member at `pos` to this step (R362). -/
  | late (pos : Nat) (blocks : List (Nat × List (Option Int)))
  /-- A root's report that it dropped the poisoned late contribution of the member at `pos` to this step (R363). -/
  | lateGone (pos : Nat)
  deriving DecidableEq, Repr, Inhabited

/-- One message of the collective class (R349, R358, R367). -/
structure CollMsg where
  handle : Nat
  params : CollParams
  step : Nat
  poisoned : Bool
  body : CollBody
  deriving DecidableEq, Repr, Inhabited

/-- A drain of an exposure ends (R242, R385): that of a frame set, named by its region's record, of the module's own exposure; the whole of it, which fails when
the buddy is silent or its slot too small; or that of the module whose buddy this is, with the bytes that it sent. -/
inductive DrainEnd where
  | frame (record : Nat)
  | own (ok : Bool)
  | kept (bytes : List Byte)
  deriving DecidableEq, Repr, Inhabited

/-- What the chunk roots get of a late contribution: the sender's parameters, poison perhaps, and the packed blocks (R362, R363). -/
structure LateMsg where
  params : CollParams
  poisoned : Bool
  blocks : List (Nat × List (Option Int))
  deriving DecidableEq, Repr, Inhabited

/-- What happens now of entry `id` of a table of a core: the units that the mask names (R42, R211). -/
structure Portion where
  id : Nat
  mask : Nat
  deriving DecidableEq, Repr, Inhabited

/-- How the access of a lane returns: with poison, the bytes that a plain read reads now (R211), and the register writes that take
place (R42), each as a mask. -/
structure Returned where
  poisoned : Bool
  units : Nat
  regs : Nat
  deriving DecidableEq, Repr, Inhabited

/-- One request a pod peer sends to this module's export window (R344, R346, R347). -/
inductive PeerOp where
  | read (n : Nat)
  /-- bytes, and the places among them of those that are poisoned (R279) -/
  | write (bytes : List Byte) (bad : List Nat := [])
  | atom (op : AtomOp) (ty : IntTy) (x : DWord)
  | cas (w64 : Bool) (old new : DWord)
  deriving DecidableEq, Repr, Inhabited

/-- The PCIe AtomicOps that the module completes (R344). -/
inductive HostOp where
  | fetchAdd | swap | cas
  deriving DecidableEq, Repr, Inhabited

/-- A write to the link register file: a store of a core on its way, or the host's at an offset of BAR0 (R345, R347). -/
inductive LinkWrite where
  | flight (core id : Nat)
  | host (ofs : Nat) (x : DWord) (w64 : Bool)
  deriving DecidableEq, Repr, Inhabited

/-- What a link reports of one codeword or flit (R351). -/
inductive FecEvent where
  | corrected | uncorrected | retransmitted
  deriving DecidableEq, Repr, Inhabited

/-- What self-test measured, the record of R403 but for what the module derives. -/
structure SelfTest where
  dieMap : BitVec 24
  mdMap : BitVec 4
  stage : Nat
  unit : Nat
  margins : List Nat
  deriving DecidableEq, Repr, Inhabited

/-- What a join pulls from its peers (R388): whether HOLD has the exposure, its image, for each listed region the stamp
and the bytes by offset, the LSN of the oldest entry that PEER holds, and PEER's log as (LSN, KIND, CID, STEP, A, H). For
a join of another member (this module runs none), the rank that joined and its step. -/
structure JoinData where
  found : Bool
  image : List Byte
  regions : List (Nat × List (Nat × Byte))
  logFrom : Nat
  log : List (Nat × Nat × Nat × Nat × Nat × Nat)
  rank : Nat
  step : BitVec 32
  deriving DecidableEq, Repr, Inhabited

/-- Every instruction and every event of spec/opcode_table.json, in the order of the table. -/
inductive Instr where
  /-- CLAUSE_ISSUE (R27): port `port` of core `core` chooses and issues. Ports: 0 to 3 vector, 4 scalar, 5 memory,
  6 sync, 7 copy, 8 matrix. -/
  | clauseIssue (core port : Nat)
  | nop (p : Pfx)
  | br (p : Pfx) (c : BrCond) (ofs : BitVec 32)
  | brc (p : Pfx) (c : BrCond) (ofs : BitVec 32)
  | jmp (p : Pfx) (a : Operand)
  | jmpv (p : Pfx) (a : Operand)
  | call (p : Pfx) (c : BrCond) (ofs : BitVec 32)
  | ret (p : Pfx) (a : Operand)
  | exit (p : Pfx)
  | yieldpt (p : Pfx) (pbase : Fin 256)
  | gsplit (p : Pfx) (d a : Operand)
  | gfuse (p : Pfx) (d a : Operand)
  /-- GFUSE_LIMIT_EXPIRY (R149): the limit of the group in context `ctx` of `core` passes. -/
  | gfuseLimitExpiry (core ctx : Nat)
  | launch (t : TW)
  | mov (o : I1)
  | add (o : I2)
  | sub (o : I2)
  | addc (o : I3)
  | subb (o : I3)
  | neg (o : I1)
  | abs (o : I1)
  | min (o : I2)
  | max (o : I2)
  | mad (o : I3)
  | mul (o : I2)
  | mulh (o : I2)
  | and (o : I2)
  | or (o : I2)
  | xor (o : I2)
  | andn (o : I2)
  | not (o : I1)
  | shl (o : I2)
  | shr (o : I2)
  | sar (o : I2)
  | rol (o : I2)
  | bfx (o : I2)
  | bfi (o : I3)
  | popc (o : I1)
  | clz (o : I1)
  | ctz (o : I1)
  | brev (o : I1)
  | sel (o : I3)
  /-- `cvt.<d>.<s>`: `o.ty` is the destination type, `src` the source type (R161). -/
  | cvt (src : IntTy) (o : I1)
  | dp4 (p : Pfx) (natural : Bool) (dst : Option Operand) (a b c : Operand)
  | movi (p : Pfx) (k : MoviKind) (dst : Option Operand) (imm : BitVec 32)
  | cmp (p : Pfx) (c : Cmp) (ty : IntTy) (dst : Option (Fin 8)) (a b : Operand)
  | pand (o : P2)
  | por (o : P2)
  | pxor (o : P2)
  | pnot (p : Pfx) (dst : Option (Fin 8)) (a : Fin 8)
  | fadd (o : F2)
  | fsub (o : F2)
  | fmul (o : F2)
  | ffma (o : F3)
  | fmin (o : F2)
  | fmax (o : F2)
  | fclass (o : F1)
  | fround (o : F1)
  | fscale (o : F2)
  | frcp (o : FS1)
  | frsq (o : FS1)
  | fsqrt (o : FS1)
  | fdiv (o : FS1) (b : Operand)
  /-- DIVIDE_UNIT_COMPLETION (R42, R175): of an entry of the core's pending results the register writes that the portion
  names take place; with the last one it completes. -/
  | divideUnitCompletion (core : Nat) (p : Portion)
  | fexp2 (o : F1)
  | flog2 (o : F1)
  | fsin (o : F1)
  | fcos (o : F1)
  | ftanh (o : F1)
  | ferf (o : F1)
  | fsig (o : F1)
  | fdot2 (o : F3)
  | fdot4 (o : F3)
  /-- `b` and `c` are `none` in the forms that have no such source (R179, R180). -/
  | fpack (p : Pfx) (f : PackFmt) (m : Rnd) (dst : Option Operand) (a : Operand) (b c : Option Operand)
  | funpack (p : Pfx) (f : PackFmt) (dst : Option Operand) (a b : Operand)
  | fcmp (p : Pfx) (c : Cmp) (f : Fmt) (dst : Option (Fin 8)) (a b : Operand)
  /-- `fcvt.<d>.<s>`: `o.f` is the destination format, `src` the source format (R177). -/
  | fcvt (src : Fmt) (o : F1)
  | ftoi (ty : IntTy) (o : F1)
  | itof (ty : IntTy) (o : F1)
  | rng (p : Pfx) (f32 : Bool) (dst : Option Operand) (a : Operand)
  | xidx (o : I2)
  | xup (o : I2)
  | xdn (o : I2)
  | xxor (o : I2)
  | xbcast (o : I2)
  | ballot (p : Pfx) (dst : Option Operand) (a : PSrc)
  | vote (p : Pfx) (k : Vote) (dst : Option (Fin 8)) (a : PSrc)
  | popm (p : Pfx) (dst : Option Operand) (a : PSrc)
  | xred (p : Pfx) (op : FoldOp) (ty : IntTy) (d a : Operand) (sb : Fin 8)
  | xscan (p : Pfx) (inclusive : Bool) (op : FoldOp) (ty : IntTy) (d a : Operand) (sb : Fin 8)
  /-- REDUCTION_COMPLETION (R42, R189), likewise. -/
  | reductionCompletion (core : Nat) (p : Portion)
  | ld (o : MLoad)
  | lds (o : MLoad)
  | ldc (o : MLoad)
  /-- LOAD_DATA_RETURN (R216): the access of lane position `pos` of request `id` is performed and returns. For an
  access on path 0xA to another member, `data` and `r.poisoned` are what the member answered (R346 to R348); for one at a home
  of this module, `r.poisoned` is an HBM4 error confined to its data (R22). -/
  | loadDataReturn (core id pos : Nat) (data : List Byte) (r : Returned)
  | st (o : MStore)
  /-- `ldx`: the width is one of .n8, .n16, .b32 (R286). -/
  | ldx (o : MLoad)
  | pref (p : Pfx) (m : MemRef)
  | cwb (o : MRange)
  | cwbi (o : MRange)
  | cinv (o : MRange)
  | fence (p : Pfx) (sc : Scope) (k : FenceKind)
  | atom (p : Pfx) (op : AtomOp) (team : Bool) (ty : IntTy) (d : Operand) (m : MemRef) (sb : Fin 8)
  | red (p : Pfx) (op : FoldOp) (team : Bool) (ty : IntTy) (d : Operand) (m : MemRef)
  | cas (p : Pfx) (team w64 : Bool) (d : Operand) (m : MemRef) (sb : Fin 8)
  | bar (p : Pfx) (q : Operand)
  | barArr (p : Pfx) (dst : Option Operand) (q : Operand)
  | barW (p : Pfx) (q t : Operand)
  | cbar (p : Pfx)
  | gbar (p : Pfx)
  /-- HELD_LANE_RELEASE (R258): the released lanes of one group pass and acquire. -/
  | heldLaneRelease (core ctx : Nat)
  | smadd (o : Sem2)
  | smset (o : Sem2)
  | smwait (o : Sem2)
  /-- SEMAPHORE_BIND (R265): index `k` of the team in place `place` is bound. -/
  | semaphoreBind (core place k : Nat)
  | waitc (p : Pfx) (c : WaitCmp) (w64 : Bool) (d : Operand) (m : MemRef) (sb : Fin 8)
  | tcp (t : TW)
  | tcpz (t : TW)
  | copyStart (core id : Nat)
  | copyCompletion (core id : Nat)
  | copyElementRetry (core id : Nat)
  | cseal (t : TW)
  | cwait (t : TW)
  | acalloc (d a : Operand) (p : Pfx) (sb : Fin 8)
  | acfree (p : Pfx) (a n : Operand)
  | aczero (t : TW)
  | acrd (t : TW)
  | acwr (t : TW)
  | mma (t : TW)
  | acst (t : TW)
  | zsplit (t : TW)
  | mmz (t : TW)
  | zfold (t : TW)
  | matrixCommandStart (core id : Nat)
  | matrixCommandCompletion (core id : Nat)
  | ldv (o : MLoad)
  | ldvNt (o : MLoad)
  /-- LDV_RESOLUTION (R247): the lanes of request `id` in the region at `region` resolve. -/
  | ldvResolution (core id region : Nat)
  | staleLimitExpiry (core id region : Nat)
  | pinRelease (core id region : Nat)
  | stv (o : MStore)
  | stvResolution (core id : Nat)
  | stvWriteCompletion (core id : Nat)
  | vpub (o : MRange)
  /-- PUBLICATION_ACCEPTANCE (R244): the next undecided lane of `vpub` request `id` reaches its region home. -/
  | publicationAcceptance (core id : Nat)
  /-- PUBLISH (R244): the oldest accepted publication of the record at physical address `rec` is performed. -/
  | publish (rec : Nat)
  | stepadv (p : Pfx) (d a : Operand)
  | steprd (p : Pfx) (d a : Operand) (sb : Fin 8)
  | colopen (t : TW)
  | colput (t : TW)
  | colwait (t : TW)
  | colstat (p : Pfx) (d a : Operand) (sb : Fin 8)
  | colclose (t : TW)
  | trap (p : Pfx) (n : BitVec 27)
  /-- `x` is the vector register of the resume address, `none` for literal 0 (R340). -/
  | tret (p : Pfx) (keep : Bool) (x : Option (Fin 64))
  | sget (p : Pfx) (dst : Option Operand) (r : SReg)
  | sput (p : Pfx) (r : SReg) (a : Operand)
  | ctxldLoad (t : TW)
  | ctxldUpdate (t : TW)
  | ctxldResume (t : TW)
  | ctxsvSnapshot (t : TW)
  | ctxsvStop (t : TW)
  | ctxsvEvict (t : TW)
  | exposeExpose (t : TW)
  | exposeConfig (t : TW)
  | exposeJoin (t : TW)
  /-- EXPOSURE_DRAIN_COMPLETION (R385). -/
  | exposureDrainCompletion (d : DrainEnd)
  /-- WRITE_AT_HOME (R201, R211): of a write or a retired request of core `core` the units that the portion names are performed. -/
  | writeAtHome (core : Nat) (p : Portion)
  /-- WCB_DRAIN (R200): the buffer line of line number `line` drains. -/
  | wcbDrain (core line : Nat)
  | wcbLineTimeout (core line : Nat)
  | l1DirtyTimeout (core line : Nat)
  | cleanLineExpiry (core line : Nat)
  /-- PAGE_WALK_COMPLETION (R228): a walk of context `ctx` for `va` on behalf of `core` finishes. -/
  | pageWalkCompletion (core ctx va : Nat)
  /-- LOG_RETRY (R236): entry `id` of the core's operand log retries; `timed` for the 65,536-clock retry. -/
  | logRetry (core id : Nat) (timed : Bool)
  | deferredTrapDelivery (core ctx : Nat)
  | dlnExpiry (slot : Nat)
  /-- TEAM_RESTORE (R338): directory entry of the saved team with index `n` in slot `slot`, admitted on `core`. -/
  | teamRestore (slot entry core : Nat)
  | zenithInterval (slot : Nat)
  | genWake (die : Nat)
  | queueLinkArrival (die q : Nat)
  | nodeKernel (die q : Nat)
  | nodeCopy (die q : Nat)
  | nodeCond (die q : Nat)
  | nodeLoop (die q : Nat)
  | nodeWait (die q : Nat)
  | nodeWaitTimeout (die q : Nat)
  | nodeSignal (die q : Nat)
  | nodeColl (die q : Nat)
  | nodeExpose (die q : Nat)
  | nodeEnd (die q : Nat)
  /-- NODE_COMPLETION (R108): node `node` (its address) of the queue completes. -/
  | nodeCompletion (die q node : Nat)
  /-- RANGE_HAND_DOWN (R119): to die distributor `die`, or with `some c` from it to its cluster distributor `c`. -/
  | rangeHandDown (die : Nat) (cluster : Option Nat)
  | rangeSteal (die : Nat) (cluster : Option Nat) (victim : Nat)
  | gbarGridPlacement (grid : Nat)
  /-- TEAM_ADMISSION (R122): `core` admits the next team it may, or its die places a cluster whose corner it is. -/
  | teamAdmission (core : Nat)
  | teamPark (core : Nat)
  | teamUnpark (core place : Nat)
  | teamExit (core place : Nat)
  | groupContextFree (core ctx : Nat)
  /-- HOST_BAR_READ (R209, R345): a read of `n` bytes at offset `o` of BAR0 or BAR2. -/
  | hostBarRead (bar0 : Bool) (o n : Nat)
  | hostBarWrite (pa : Nat) (bytes : List Byte)
  /-- HOST_ATOMICOP (R209, R344): an AtomicOp on `n` bytes at a physical address. -/
  | hostAtomicop (op : HostOp) (n pa : Nat) (x y : DWord)
  /-- REGISTER_WRITE (R4): a write of a register without behaviour of its own, by the host at an offset of BAR0, or at a
  physical address that a register map in device memory holds (R102, R335). -/
  | registerWrite (bar0 : Bool) (a : Nat) (x : DWord) (w64 : Bool)
  /-- LINK_REGISTER_WRITE (R347): a store to the link register file takes effect. -/
  | linkRegisterWrite (w : LinkWrite)
  | pstatWrite (port : Nat) (x : DWord)
  | windowAnnouncement (m : Nat) (explog : Fin 16)
  | podPeerRequest (sender : Nat) (port : Nat) (ofs : Nat) (op : PeerOp)
  | podPeerTimeout (core id pos port : Nat)
  | podFlush (sender : Nat)
  | portSignalDetect (port : Nat)
  | portTrainingDone (port lanes : Nat)
  | portLaneLost (port : Nat)
  | portErrorLimit (port : Nat)
  | msixPendingSend (vec : Nat)
  /-- COLLECTIVE_ARRIVAL (R359): this module's contribution to step `t` is read and its exponents delivered. -/
  | collectiveArrival (handle t : Nat)
  | exponentTimerExpiry (handle t : Nat)
  | mantissaClose (handle t : Nat)
  | mantissaTimerExpiry (handle t : Nat)
  | resultPublication (handle t : Nat)
  /-- LATE_CONTRIBUTION (R362): what the member at `pos` contributes late to step `t` is delivered to the chunk roots; for the
  module's own position its own late contribution is. -/
  | lateContribution (handle t pos : Nat) (m : LateMsg)
  | collectiveMessage (m : CollMsg)
  | memberAdvanceMessage (replica podix : Nat) (step : BitVec 32)
  | podBeaconSend
  /-- POD_BEACON_RECEIVE (R375, R378): `need` is the highest step that a wait of that pod needs. -/
  | podBeaconReceive (replica pod : Nat) (min : BitVec 32) (nlive : Nat) (epoch need : BitVec 32)
  /-- SILENT_MARKING (R378): a member (`pod` false) or a pod (`pod` true) is marked at epoch `epoch`; `byPeer` when
  another module's leader decided it. -/
  | silentMarking (pod : Bool) (rank : Nat) (epoch : BitVec 32) (byPeer : Bool)
  | detmCommit (grid team : Nat)
  /-- MODULE_HALT (R22). -/
  | moduleHalt
  | powerPeriod
  | thermalSense (temps : List Nat)
  | ageingSense (margins : List Nat)
  | pwrgdAssert
  | pwrgdDeassert
  | resetNAssert
  | selftestCompletion (r : SelfTest)
  | mctpRecover
  | mctpCommit (len : Nat)
  | getSelftest
  | getVersion
  | getCapabilities
  | negotiateAlgorithms (algos : List Nat)
  | getDigests
  | getCertificate (slot ofs len : Nat)
  | challenge (slot : Nat) (nonce : List Byte)
  | getMeasurements (index : Nat)
  | podixAssignment (n : Fin 1024)
  | exposureStopEnd
  | joinCompletion (d : JoinData)
  | engineElementRetry (core id : Nat)
  | fetchFaultReplay (core ctx : Nat)
  | fecCodewordEvent (port : Nat) (e : FecEvent)
  /-- STEPADV_NEED_ANNOUNCE (R378): a waiting `stepadv` of group `ctx` of `core` announces the step it needs, or, with
  `own` false, a member of this pod announces `step` to this module, its leader. -/
  | stepadvNeedAnnounce (own : Bool) (core ctx : Nat) (step : BitVec 32)
  deriving DecidableEq, Repr

end Sys2Proof
end

