-- ==== Sys2Proof/Machine/Bits.lean ====
section
/-!
DEFINITION. Sys2Proof/Machine/Bits.lean: bit fields, sign extension and wrapping (R50), byte order (R2), integer types
(R51, R64), and the finite maps the state is made of.
-/
namespace Sys2Proof.Machine

/-- Bits [lo+n−1 : lo] of `w`. -/
def fld (w lo n : Nat) : Nat := w / 2 ^ lo % 2 ^ n

/-- ZExt(x, n) (R50). -/
def zext (x n : Nat) : Nat := x % 2 ^ n

/-- SExt(x, n) (R50). -/
def sext (x n : Nat) : Int :=
  if x % 2 ^ n < 2 ^ (n - 1) then (x % 2 ^ n : Nat) else (x % 2 ^ n : Nat) - (2 ^ n : Nat)

/-- Wrap(x, n) (R50). -/
def wrap (x : Int) (n : Nat) : Nat := (x % (2 ^ n : Nat)).toNat

/-- Sat(x, lo, hi) (R50). -/
def sat (x lo hi : Int) : Int := if x < lo then lo else if hi < x then hi else x

/-- Bit `i` of `x`. -/
def bitAt (x i : Nat) : Bool := x / 2 ^ i % 2 == 1

/-- 1 or 0. -/
def b2n (b : Bool) : Nat := if b then 1 else 0

/-- The width of an integer type (R64). -/
def tyWidth : IntTy → Nat
  | .i32 | .n32 => 32
  | .i64 | .n64 => 64
  | .i16 | .n16 => 16
  | .i8 | .n8 => 8

/-- Whether a type is signed (R64). -/
def tySigned : IntTy → Bool
  | .i32 | .i64 | .i16 | .i8 => true
  | .n32 | .n64 | .n16 | .n8 => false

/-- max(w, 32), the width of an operand of type T (R150). -/
def tyOpWidth (t : IntTy) : Nat := if tyWidth t = 64 then 64 else 32

/-- The bytes of a width-`n`-byte little-endian value (R2). -/
def leBytes : Nat → Nat → List Byte
  | 0, _ => []
  | n + 1, x => BitVec.ofNat 8 x :: leBytes n (x / 256)

/-- The natural value of little-endian bytes (R2). -/
def ofLe : List Byte → Nat
  | [] => 0
  | b :: bs => b.toNat + 256 * ofLe bs

/-- `n` consecutive naturals from `a`. -/
def natRange : Nat → Nat → List Nat
  | _, 0 => []
  | a, n + 1 => a :: natRange (a + 1) n

/-- ⌈a / b⌉. -/
def ceilDiv (a b : Nat) : Nat := (a + b - 1) / b

/-- The largest power-of-two exponent not above ⌊log₂ x⌋, 0 for 0 and 1. -/
def log2f (x : Nat) : Nat := Nat.log2 x

/-! ### Finite maps -/

/-- A finite map as a list of pairs with rising keys. -/
abbrev Tab (α : Type) := List (Nat × α)

/-- The entry at a key. -/
def tabGet? {α : Type} : Tab α → Nat → Option α
  | [], _ => none
  | (j, x) :: t, k => if j = k then some x else tabGet? t k

/-- The entry at a key, or a default. -/
def tabGet {α : Type} (d : α) (t : Tab α) (k : Nat) : α := (tabGet? t k).getD d

/-- Sets the entry at a key, keeping the keys rising. -/
def tabSet {α : Type} : Tab α → Nat → α → Tab α
  | [], k, x => [(k, x)]
  | (j, y) :: t, k, x => if j = k then (k, x) :: t else if k < j then (k, x) :: (j, y) :: t else (j, y) :: tabSet t k x

/-- Removes the entry at a key. -/
def tabDel {α : Type} : Tab α → Nat → Tab α
  | [], _ => []
  | (j, y) :: t, k => if j = k then tabDel t k else (j, y) :: tabDel t k

/-- The smallest natural that is no key of a map with rising keys. -/
def tabFresh {α : Type} (t : Tab α) : Nat := t.foldl (fun n p => if p.1 < n then n else p.1 + 1) 0

/-- Replaces the element at an index, if the list has it. -/
def listSet {α : Type} : List α → Nat → α → List α
  | [], _, _ => []
  | _ :: t, 0, x => x :: t
  | y :: t, i + 1, x => y :: listSet t i x

/-- The element at an index, or a default. -/
def listGet {α : Type} (d : α) : List α → Nat → α
  | [], _ => d
  | x :: _, 0 => x
  | _ :: t, i + 1 => listGet d t i

/-- Removes the first element that satisfies a test. -/
def listDelFirst {α : Type} (p : α → Bool) : List α → List α
  | [] => []
  | x :: t => if p x then t else x :: listDelFirst p t

/-- The index of the first element that satisfies a test. -/
def listIdx {α : Type} (p : α → Bool) : List α → Option Nat
  | [] => none
  | x :: t => if p x then some 0 else (listIdx p t).map (· + 1)

/-- The smallest element. -/
def listMin? : List Nat → Option Nat
  | [] => none
  | x :: t => match listMin? t with
    | none => some x
    | some y => some (if x ≤ y then x else y)

/-- Insertion into a rising list without repeats. -/
def insSorted (x : Nat) : List Nat → List Nat
  | [] => [x]
  | y :: t => if x = y then y :: t else if x < y then x :: y :: t else y :: insSorted x t

end Sys2Proof.Machine
end

