-- ==== Sys2Proof/Machine/Form.lean ====
section
/-!
DEFINITION. Sys2Proof/Machine/Form.lean: what an instruction word must satisfy whatever clause it stands in: the operand
classes and register alignment of R31 and R33 and of each entry, the block limits of R38, the prefixes of R143, the
engine classes of R53 to R59, the roles of R60 and the privilege of R61.
-/
namespace Sys2Proof.Machine

/-- Why a word is no instruction, or an instruction is ill-formed. Every one raises T.ILLOP (R62). -/
inductive Reject where
  /-- The opcode map leaves the opcode, the format, width, type or operation value unassigned (R62). -/
  | unassigned
  /-- An operand field names a register or latch that does not exist (R31). -/
  | operandField
  /-- FMOD holds no mode or value the entry permits (R49). -/
  | modeField
  /-- A reserved field is not zero, or SBE, SBK or WS breaks the latency rule (R29, R30, R40, R52). -/
  | reservedField
  /-- An operand class that the slot does not allow (R31). -/
  | operandClass
  /-- A register whose index breaks R33. -/
  | registerAlign
  /-- A predicate destination of p0 (R31). -/
  | predicateDest
  /-- A parameter block past s255, or fields a T form does not take (R38). -/
  | blockFields
  /-- A prefix other than p0 where only p0 is admitted (R143). -/
  | prefixField
  /-- Equal source and destination types of a conversion (R54, R55). -/
  | equalTypes
  deriving DecidableEq, Repr

/-- The classes a slot admits. -/
structure Cls where
  v : Bool := false
  s : Bool := false
  l : Bool := false
  i : Bool := false
  deriving DecidableEq, Repr

/-- One use of an operand field: its width in bits, the classes admitted, whether it is a destination, and whether a
per-lane clause admits a scalar destination there. -/
structure Use where
  o : Operand
  w : Nat
  cls : Cls
  dst : Bool := false
  laneS : Bool := true
  deriving DecidableEq, Repr

def clsAny : Cls := { v := true, s := true, l := true, i := true }
def clsReg : Cls := { v := true, s := true }
def clsV : Cls := { v := true }
def clsS : Cls := { s := true }
def clsSI : Cls := { s := true, i := true }
def clsBase : Cls := { v := true, s := true, l := true }

def srcUse (o : Operand) (w : Nat) : Use := { o := o, w := w, cls := clsAny }
/-- A register result: vector in a per-lane clause, scalar in a clause that runs once (R31). -/
def dstUse (o : Option Operand) (w : Nat) : List Use :=
  match o with
  | some d => [{ o := d, w := w, cls := clsReg, dst := true, laneS := false }]
  | none => []

/-- The access size in bytes of a width code (R214). -/
def widthBytes : Width → Nat
  | .n8 | .i8 => 1
  | .n16 | .i16 => 2
  | .b32 => 4
  | .b64 => 8
  | .b128 => 16

/-- The register width of an access: max(8n, 32) bits. -/
def widthReg (w : Width) : Nat := if widthBytes w ≤ 4 then 32 else 8 * widthBytes w

def memUses (m : MemRef) : List Use := [{ o := m.base, w := 64, cls := clsBase }, srcUse m.index 32]

def i1Uses (o : I1) : List Use := dstUse o.dst (tyOpWidth o.ty) ++ [srcUse o.a (tyOpWidth o.ty)]
def i2Uses (o : I2) : List Use :=
  dstUse o.dst (tyOpWidth o.ty) ++ [srcUse o.a (tyOpWidth o.ty), srcUse o.b (tyOpWidth o.ty)]
/-- A count operand: one 32-bit register at every type (R150). -/
def shiftUses (o : I2) : List Use := dstUse o.dst (tyOpWidth o.ty) ++ [srcUse o.a (tyOpWidth o.ty), srcUse o.b 32]
def countUses (o : I1) : List Use := dstUse o.dst 32 ++ [srcUse o.a (tyOpWidth o.ty)]
def fW (f : Fmt) : Nat := if f = .f64 then 64 else 32
def f1Uses (o : F1) : List Use := dstUse o.dst (fW o.f) ++ [srcUse o.a (fW o.f)]
def f2Uses (o : F2) : List Use := dstUse o.dst (fW o.f) ++ [srcUse o.a (fW o.f), srcUse o.b (fW o.f)]
def fs1Uses (o : FS1) : List Use := dstUse (some o.dst) (fW o.f) ++ [srcUse o.a (fW o.f)]
def xUses (o : I2) : List Use :=
  (match o.dst with
    | some d => [{ o := d, w := tyOpWidth o.ty, cls := clsV, dst := true }]
    | none => []) ++ [srcUse o.a (tyOpWidth o.ty), srcUse o.b 32]
def psrcUse : PSrc → List Use
  | .v i => [{ o := .v i, w := 32, cls := clsAny }]
  | .s i => [{ o := .s i, w := 32, cls := clsAny }]
  | .lat i => [{ o := .lat i, w := 32, cls := clsAny }]
  | .p _ => []

/-- The width of a special register (R94). -/
def sregWidth : SReg → Nat
  | .clk | .hbase | .hlim | .hofs | .ptroot | .tqbase | .svbase | .rkey => 64
  | _ => 32

/-- Every operand field an instruction uses, with what its entry admits there. -/
def usesOf : Instr → List Use
  | .jmp _ a => [{ o := a, w := 64, cls := clsS }]
  | .jmpv _ a | .ret _ a => [{ o := a, w := 64, cls := clsReg }]
  | .br _ c _ => match c with
    | .test _ (.s i) => [{ o := .s i, w := 32, cls := clsS }]
    | .test _ (.v i) => [{ o := .v i, w := 32, cls := clsS }]
    | .test _ (.lat i) => [{ o := .lat i, w := 32, cls := clsS }]
    | .test _ (.p i) => [{ o := .lit (BitVec.ofNat 8 i), w := 32, cls := clsS }]
    | .always => []
  | .brc _ c _ | .call _ c _ => match c with
    | .test _ (.lat i) => [{ o := .lat i, w := 32, cls := clsReg }]
    | .test _ x => psrcUse x
    | .always => []
  | .gsplit _ d a | .gfuse _ d a => [{ o := d, w := 32, cls := clsS, dst := true }, { o := a, w := 32, cls := clsSI }]
  | .mov o | .neg o | .abs o | .not o | .brev o => i1Uses o
  | .add o | .sub o | .min o | .max o | .mul o | .mulh o | .and o | .or o | .xor o | .andn o => i2Uses o
  | .addc o | .subb o =>
    dstUse o.dst (2 * tyOpWidth o.ty) ++ [srcUse o.a (tyOpWidth o.ty), srcUse o.b (tyOpWidth o.ty), srcUse o.c 32]
  | .mad o =>
    dstUse o.dst (tyOpWidth o.ty) ++
      [srcUse o.a (tyOpWidth o.ty), srcUse o.b (tyOpWidth o.ty), srcUse o.c (tyOpWidth o.ty)]
  | .shl o | .shr o | .sar o | .rol o | .bfx o => shiftUses o
  | .bfi o | .sel o =>
    dstUse o.dst (tyOpWidth o.ty) ++ [srcUse o.a (tyOpWidth o.ty), srcUse o.b (tyOpWidth o.ty), srcUse o.c 32]
  | .popc o | .clz o | .ctz o => countUses o
  | .cvt s o => dstUse o.dst (tyOpWidth o.ty) ++ [srcUse o.a (tyOpWidth s)]
  | .dp4 _ _ d a b c => dstUse d 32 ++ [srcUse a 32, srcUse b 32, srcUse c 32]
  | .movi _ k d _ => dstUse d (if k = .b32 then 32 else 64)
  | .cmp _ _ t _ a b => [srcUse a (tyOpWidth t), srcUse b (tyOpWidth t)]
  | .fadd o | .fsub o | .fmul o | .fmin o | .fmax o => f2Uses o
  | .ffma o => dstUse o.dst (fW o.f) ++ [srcUse o.a (fW o.f), srcUse o.b (fW o.f), srcUse o.c (fW o.f)]
  | .fclass o => dstUse o.dst 32 ++ [srcUse o.a (fW o.f)]
  | .fround o | .fexp2 o | .flog2 o | .fsin o | .fcos o | .ftanh o | .ferf o | .fsig o => f1Uses o
  | .fscale o => dstUse o.dst (fW o.f) ++ [srcUse o.a (fW o.f), srcUse o.b 32]
  | .frcp o | .frsq o | .fsqrt o => fs1Uses o
  | .fdiv o b => fs1Uses o ++ [srcUse b (fW o.f)]
  | .fdot2 o | .fdot4 o => dstUse o.dst 32 ++ [srcUse o.a 32, srcUse o.b 32, srcUse o.c 32]
  | .fpack _ f _ d a b c =>
    dstUse d (if f = .bx16 ∨ f = .bx24 then 64 else 32) ++ [srcUse a 32] ++
      (match b with | some x => [srcUse x 32] | none => []) ++ (match c with | some x => [srcUse x 32] | none => [])
  | .funpack _ _ d a b => dstUse d 32 ++ [srcUse a 32, srcUse b 32]
  | .fcmp _ _ f _ a b => [srcUse a (fW f), srcUse b (fW f)]
  | .fcvt s o => dstUse o.dst (fW o.f) ++ [srcUse o.a (fW s)]
  | .ftoi t o => dstUse o.dst (tyOpWidth t) ++ [srcUse o.a (fW o.f)]
  | .itof t o => dstUse o.dst (fW o.f) ++ [srcUse o.a (tyOpWidth t)]
  | .rng _ _ d a => dstUse d 32 ++ [srcUse a 32]
  | .xidx o | .xup o | .xdn o | .xxor o => xUses o
  | .xbcast o =>
    (match o.dst with
      | some d => [{ o := d, w := tyOpWidth o.ty, cls := clsReg, dst := true }]
      | none => []) ++ [srcUse o.a (tyOpWidth o.ty), srcUse o.b 32]
  | .ballot _ d a =>
    (match d with | some d => [{ o := d, w := 32, cls := clsS, dst := true }] | none => []) ++ psrcUse a
  | .vote _ _ _ a => psrcUse a
  | .popm _ d a =>
    (match d with | some d => [{ o := d, w := 32, cls := clsReg, dst := true }] | none => []) ++ psrcUse a
  | .xred _ _ t d a _ => [{ o := d, w := tyOpWidth t, cls := clsReg, dst := true }, srcUse a (tyOpWidth t)]
  | .xscan _ _ _ t d a _ => [{ o := d, w := tyOpWidth t, cls := clsV, dst := true }, srcUse a (tyOpWidth t)]
  | .ld o | .ldc o | .ldv o | .ldvNt o => { o := o.d, w := widthReg o.w, cls := clsV, dst := true } :: memUses o.m
  | .lds o => { o := o.d, w := widthReg o.w, cls := clsReg, dst := true } :: memUses o.m
  | .st o | .stv o => { o := o.d, w := widthReg o.w, cls := clsAny } :: memUses o.m
  | .ldx o => { o := o.d, w := (match o.w with | .n16 => 64 | .b32 => 128 | _ => 32), cls := clsV, dst := true } :: memUses o.m
  | .pref _ m => memUses m
  | .cwb o | .cwbi o | .cinv o => { o := o.d, w := 32, cls := clsAny } :: memUses o.m
  | .vpub o => { o := o.d, w := 32, cls := clsV, dst := true } :: memUses o.m
  | .atom _ _ _ t d m _ => { o := d, w := tyOpWidth t, cls := clsV, dst := true } :: memUses m
  | .red _ _ _ t d m => { o := d, w := tyOpWidth t, cls := clsAny } :: memUses m
  | .cas _ _ w64 d m _ => { o := d, w := if w64 then 128 else 64, cls := clsV, dst := true } :: memUses m
  | .waitc _ _ w64 d m _ => { o := d, w := if w64 then 128 else 64, cls := clsV, dst := true } :: memUses m
  | .bar _ q => [{ o := q, w := 32, cls := clsSI }]
  | .barArr _ d q =>
    (match d with | some d => [{ o := d, w := 32, cls := clsV, dst := true }] | none => []) ++
      [{ o := q, w := 32, cls := clsSI }]
  | .barW _ q t => [{ o := q, w := 32, cls := clsSI }, { o := t, w := 32, cls := clsReg }]
  | .smadd o | .smset o | .smwait o => [{ o := o.k, w := 32, cls := clsSI }, { o := o.a, w := 32, cls := clsSI }]
  | .acalloc d a _ _ => [{ o := d, w := 64, cls := clsS, dst := true }, { o := a, w := 32, cls := clsSI }]
  | .acfree _ a n => [{ o := a, w := 32, cls := clsSI }, { o := n, w := 32, cls := clsSI }]
  | .stepadv _ d a => [{ o := d, w := 32, cls := clsS, dst := true }, { o := a, w := 32, cls := clsSI }]
  | .steprd _ d a _ => [{ o := d, w := 64, cls := clsS, dst := true }, { o := a, w := 32, cls := clsSI }]
  | .colstat _ d a _ => [{ o := d, w := 128, cls := clsS, dst := true }, { o := a, w := 32, cls := clsSI }]
  | .tret _ _ x => match x with
    | some i => [{ o := .v i, w := 64, cls := clsV }]
    | none => []
  | .sget _ d r => match d with
    | some d => [{ o := d, w := sregWidth r, cls := if r = .laneix then clsV else clsReg, dst := true }]
    | none => []
  | .sput _ _ a => [srcUse a 32]
  | _ => []

/-- The class of one operand is admitted (R31). -/
def useClass (u : Use) : Bool :=
  match u.o with
  | .v _ => u.cls.v
  | .s _ => u.cls.s
  | .lat _ => u.cls.l
  | .lit _ => u.cls.i

/-- The register index meets R33. -/
def useAlign (u : Use) : Bool :=
  match u.o with
  | .v i => i.val % (u.w / 32) == 0
  | .s i => i.val % (u.w / 32) == 0
  | .lat _ | .lit _ => true

/-- The predicate destination of an instruction (R31). -/
def predDst : Instr → Option (Fin 8)
  | .cmp _ _ _ d _ _ | .fcmp _ _ _ d _ _ | .pnot _ d _ | .vote _ _ d _ => d
  | .pand o | .por o | .pxor o => o.dst
  | _ => none

/-- The T word of an instruction, with its PBASE limit and which fields it takes: (word, limit, batch, inc, wait). -/
def tForm : Instr → Option (TW × Nat × Bool × Bool × Bool)
  | .launch t | .ctxldLoad t | .ctxldUpdate t | .ctxldResume t | .ctxsvSnapshot t | .ctxsvStop t | .ctxsvEvict t
  | .exposeExpose t | .exposeConfig t | .exposeJoin t | .colopen t => some (t, 252, false, true, true)
  | .tcp t | .tcpz t | .zfold t => some (t, 248, false, true, true)
  | .cseal t => some (t, 0, true, true, false)
  | .cwait t => some (t, 0, true, false, false)
  | .aczero t | .colwait t => some (t, 253, false, true, true)
  | .acrd t | .acwr t => some (t, 251, false, true, true)
  | .mma t => some (t, 249, false, true, true)
  | .acst t => some (t, 247, false, true, true)
  | .zsplit t | .mmz t => some (t, 246, false, true, true)
  | .colput t => some (t, 250, false, true, true)
  | .colclose t => some (t, 254, false, true, true)
  | _ => none

/-- The block limits and unused fields of R38 and of each entry. -/
def blockOk (i : Instr) : Bool :=
  match i with
  | .yieldpt _ b => b.val ≤ 245
  | _ => match tForm i with
    | none => true
    | some (t, lim, batch, inc, wait) =>
      t.pbase.val ≤ lim && (batch || t.batch = 0) && (inc || t.inc.isNone) && (wait || t.wait.isNone)

/-- p0 with PN = 0. -/
def pfx0 : Pfx := ⟨false, 0⟩

/-- The prefix of an instruction word; events have none. -/
def pfxOf : Instr → Option Pfx
  | .nop p | .br p _ _ | .brc p _ _ | .jmp p _ | .jmpv p _ | .call p _ _ | .ret p _ | .exit p | .yieldpt p _
  | .gsplit p _ _ | .gfuse p _ _ => some p
  | .launch t | .tcp t | .tcpz t | .cseal t | .cwait t | .aczero t | .acrd t | .acwr t | .mma t | .acst t | .zsplit t
  | .mmz t | .zfold t | .colopen t | .colput t | .colwait t | .colclose t | .ctxldLoad t | .ctxldUpdate t
  | .ctxldResume t | .ctxsvSnapshot t | .ctxsvStop t | .ctxsvEvict t | .exposeExpose t | .exposeConfig t
  | .exposeJoin t => some t.p
  | .mov o | .neg o | .abs o | .not o | .popc o | .clz o | .ctz o | .brev o | .cvt _ o => some o.p
  | .add o | .sub o | .min o | .max o | .mul o | .mulh o | .and o | .or o | .xor o | .andn o | .shl o | .shr o | .sar o
  | .rol o | .bfx o | .xidx o | .xup o | .xdn o | .xxor o | .xbcast o => some o.p
  | .addc o | .subb o | .mad o | .bfi o | .sel o => some o.p
  | .dp4 p _ _ _ _ _ | .movi p _ _ _ | .cmp p _ _ _ _ _ | .pnot p _ _ => some p
  | .pand o | .por o | .pxor o => some o.p
  | .fadd o | .fsub o | .fmul o | .fmin o | .fmax o | .fscale o => some o.p
  | .ffma o | .fdot2 o | .fdot4 o => some o.p
  | .fclass o | .fround o | .fexp2 o | .flog2 o | .fsin o | .fcos o | .ftanh o | .ferf o | .fsig o | .fcvt _ o | .ftoi _ o
  | .itof _ o => some o.p
  | .frcp o | .frsq o | .fsqrt o | .fdiv o _ => some o.p
  | .fpack p _ _ _ _ _ _ | .funpack p _ _ _ _ | .fcmp p _ _ _ _ _ | .rng p _ _ _ => some p
  | .ballot p _ _ | .vote p _ _ _ | .popm p _ _ | .xred p _ _ _ _ _ | .xscan p _ _ _ _ _ _ => some p
  | .ld o | .lds o | .ldc o | .ldx o | .ldv o | .ldvNt o => some o.p
  | .st o | .stv o => some o.p
  | .pref p _ | .fence p _ _ => some p
  | .cwb o | .cwbi o | .cinv o | .vpub o => some o.p
  | .atom p _ _ _ _ _ _ | .red p _ _ _ _ _ | .cas p _ _ _ _ _ | .waitc p _ _ _ _ _ => some p
  | .bar p _ | .barArr p _ _ | .barW p _ _ | .cbar p | .gbar p => some p
  | .smadd o | .smset o | .smwait o => some o.p
  | .acalloc _ _ p _ | .acfree p _ _ => some p
  | .stepadv p _ _ | .steprd p _ _ _ | .colstat p _ _ _ | .trap p _ | .tret p _ _ | .sget p _ _ | .sput p _ _ => some p
  | _ => none

/-- R143: the instructions that take p0 only. -/
def prefixOk (i : Instr) : Bool :=
  match i with
  | .br p _ _ | .jmp p _ | .yieldpt p _ | .gsplit p _ _ | .gfuse p _ _ => p == pfx0
  | _ => true

/-- Mode, type, scale and number rules of single entries (R54, R55, R95, R177, R181, R214). -/
def entryOk (i : Instr) : Option Reject :=
  match i with
  | .fmin o | .fmax o => if o.m = .rne then none else some .modeField
  | .fclass o => if o.m = .rne then none else some .modeField
  | .fdot2 o | .fdot4 o => if o.m = .rne then none else some .modeField
  | .cvt s o => if s = o.ty then some .equalTypes else none
  | .fcvt s o => if s = o.f then some .equalTypes else none
  | .pref _ m => if m.scale then some .reservedField else none
  | .cwb o | .cwbi o | .cinv o | .vpub o => if o.m.scale then some .reservedField else none
  | .ldv o | .ldvNt o => if o.m.scale then some .reservedField else none
  | .sput _ r _ => if r = .gst ∨ r = .ftv then none else some .operandField
  | .fpack _ f _ _ _ b c =>
    match f with
    | .f16 | .bf16 => if b.isSome && c.isNone then none else some .operandField
    | .e4m3 | .e5m2 | .mk8 => if b.isSome && c.isSome then none else some .operandField
    | .bx16 | .bx24 => if b.isNone && c.isNone then none else some .operandField
  | _ => none

/-- The formats of column F2 (R51). -/
def isFmt2 (f : Fmt) : Bool :=
  match f with
  | .f32 | .f64 | .f16 | .bf16 => true
  | .e4m3 | .e5m2 | .mk8 => false

/-- The opcode map assigns an opcode to the format, width or type (R54 to R58). -/
def assigned (i : Instr) : Bool :=
  match i with
  | .fadd o | .fsub o | .fmul o | .fmin o | .fmax o | .fscale o => isFmt2 o.f
  | .ffma o => isFmt2 o.f
  | .fclass o | .fround o | .ftoi _ o | .itof _ o => isFmt2 o.f
  | .frcp o | .frsq o | .fsqrt o | .fdiv o _ => isFmt2 o.f
  | .fcmp _ _ f _ _ _ => isFmt2 f
  | .fexp2 o | .flog2 o | .fsin o | .fcos o | .ftanh o | .ferf o | .fsig o => isFmt2 o.f && o.f != .f64
  | .fdot2 o => o.f == .f16 || o.f == .bf16
  | .fdot4 o => o.f == .e4m3 || o.f == .e5m2 || o.f == .mk8
  | .st o | .stv o => o.w != .i8 && o.w != .i16
  | .ldx o => o.w == .n8 || o.w == .n16 || o.w == .b32
  | .atom _ _ _ ty _ _ _ | .red _ _ _ ty _ _ => ty == .i32 || ty == .n32 || ty == .i64 || ty == .n64
  | _ => true

/-- The first context-free fault of an instruction's fields, by name. -/
def formError (i : Instr) : Option Reject :=
  match entryOk i with
  | some r => some r
  | none =>
    if !assigned i then some .unassigned
    else if !(usesOf i).all useClass then some .operandClass
    else if !(usesOf i).all useAlign then some .registerAlign
    else if predDst i = some 0 then some .predicateDest
    else if !blockOk i then some .blockFields
    else if !prefixOk i then some .prefixField
    else none

/-! ### Engine classes, roles and privilege -/

/-- The engine classes in the order of ECLASS (R24). -/
inductive EClass where
  | scalar | vector | memory | matrix | copy | sync | control
  deriving DecidableEq, Repr, Inhabited

/-- The roles, coded as ROLES (R113). -/
inductive Role where
  | vector | feeder | matrix
  deriving DecidableEq, Repr, Inhabited

/-- The classes of clause in which the opcode exists (column Eng of R53 to R59); none for an event. -/
def engOf : Instr → List EClass
  | .nop _ | .br _ _ _ | .brc _ _ _ | .jmp _ _ | .jmpv _ _ | .call _ _ _ | .ret _ _ | .exit _ | .yieldpt _ _
  | .gsplit _ _ _ | .gfuse _ _ _ | .launch _ => [.control]
  | .mov _ | .add _ | .sub _ | .addc _ | .subb _ | .neg _ | .abs _ | .min _ | .max _ | .mad _ | .mul _ | .mulh _ | .and _
  | .or _ | .xor _ | .andn _ | .not _ | .shl _ | .shr _ | .sar _ | .rol _ | .bfx _ | .bfi _ | .popc _ | .clz _ | .ctz _
  | .brev _ | .sel _ | .cvt _ _ | .dp4 _ _ _ _ _ _ | .movi _ _ _ _ | .cmp _ _ _ _ _ _ | .pand _ | .por _ | .pxor _
  | .pnot _ _ _ | .fadd _ | .fsub _ | .fmul _ | .ffma _ | .fmin _ | .fmax _ | .fclass _ | .fround _ | .fscale _ | .frcp _
  | .frsq _ | .fsqrt _ | .fdiv _ _ | .fexp2 _ | .flog2 _ | .fsin _ | .fcos _ | .ftanh _ | .ferf _ | .fsig _ | .fdot2 _
  | .fdot4 _ | .fcmp _ _ _ _ _ _ | .fcvt _ _ | .ftoi _ _ | .itof _ _ | .trap _ _ | .sget _ _ _ | .sput _ _ _ =>
    [.scalar, .vector]
  | .fpack _ f _ _ _ _ _ | .funpack _ f _ _ _ => if f = .bx16 ∨ f = .bx24 then [.vector] else [.scalar, .vector]
  | .rng _ _ _ _ | .xidx _ | .xup _ | .xdn _ | .xxor _ | .xbcast _ | .ballot _ _ _ | .vote _ _ _ _ | .popm _ _ _
  | .xred _ _ _ _ _ _ | .xscan _ _ _ _ _ _ _ | .tret _ _ _ => [.vector]
  | .ld _ | .lds _ | .ldc _ | .st _ | .ldx _ | .pref _ _ | .cwb _ | .cwbi _ | .cinv _ | .fence _ _ _ | .ldv _ | .ldvNt _
  | .stv _ | .vpub _ | .stepadv _ _ _ | .steprd _ _ _ _ | .colopen _ | .colput _ | .colwait _ | .colstat _ _ _ _
  | .colclose _ => [.memory]
  | .atom _ _ _ _ _ _ _ | .red _ _ _ _ _ _ | .cas _ _ _ _ _ _ | .bar _ _ | .barArr _ _ _ | .barW _ _ _ | .cbar _ | .gbar _
  | .smadd _ | .smset _ | .smwait _ | .waitc _ _ _ _ _ _ => [.sync]
  | .tcp _ | .tcpz _ | .cseal _ | .cwait _ => [.copy]
  | .acalloc _ _ _ _ | .acfree _ _ _ | .aczero _ | .acrd _ | .acwr _ | .mma _ | .acst _ | .zsplit _ | .mmz _ | .zfold _ =>
    [.matrix]
  | .ctxldLoad _ | .ctxldUpdate _ | .ctxldResume _ | .ctxsvSnapshot _ | .ctxsvStop _ | .ctxsvEvict _ | .exposeExpose _
  | .exposeConfig _ | .exposeJoin _ => [.scalar]
  | _ => []

/-- Whether the row is an instruction word, not an event. -/
def isWord (i : Instr) : Bool := !(engOf i).isEmpty

/-- Special registers that only a supervisor reads (R94). -/
def sregPriv : SReg → Bool
  | .hbase | .hlim | .hofs | .ptroot | .tqbase | .svbase | .rkey | .bkey | .ctxcfg | .lead | .ftvd | .zwt | .dln => true
  | _ => false

/-- The privileged opcodes and registers (R59, R61, R95). -/
def privOf : Instr → Bool
  | .colopen _ | .colclose _ | .ctxldLoad _ | .ctxldUpdate _ | .ctxldResume _ | .ctxsvSnapshot _ | .ctxsvStop _
  | .ctxsvEvict _ | .exposeExpose _ | .exposeConfig _ | .exposeJoin _ => true
  | .sget _ _ r => sregPriv r
  | _ => false

/-- The roles that may issue an instruction in a clause of class `e` (R60). -/
def roleOk (r : Role) (e : EClass) (i : Instr) : Bool :=
  match e with
  | .control | .sync | .scalar => true
  | .vector => r == .vector
  | .memory => r == .feeder || r == .vector
  | .copy => r == .feeder
  | .matrix => r == .matrix || (r == .vector && (match i with
    | .acrd _ | .acwr _ | .acst _ | .acfree _ _ _ => true
    | _ => false))

/-- Whether later words of the clause may name the instruction's latch (R39). -/
def latchable : Instr → Bool
  | .mov _ | .add _ | .sub _ | .addc _ | .subb _ | .neg _ | .abs _ | .min _ | .max _ | .mad _ | .mul _ | .mulh _ | .and _
  | .or _ | .xor _ | .andn _ | .not _ | .shl _ | .shr _ | .sar _ | .rol _ | .bfx _ | .bfi _ | .popc _ | .clz _ | .ctz _
  | .brev _ | .sel _ | .cvt _ _ | .dp4 _ _ _ _ _ _ | .movi _ _ _ _ | .cmp _ _ _ _ _ _ | .pand _ | .por _ | .pxor _
  | .pnot _ _ _ | .fadd _ | .fsub _ | .fmul _ | .ffma _ | .fmin _ | .fmax _ | .fclass _ | .fround _ | .fscale _ | .fexp2 _
  | .flog2 _ | .fsin _ | .fcos _ | .ftanh _ | .ferf _ | .fsig _ | .fdot2 _ | .fdot4 _ | .fcmp _ _ _ _ _ _ | .fcvt _ _
  | .ftoi _ _ | .itof _ _ | .fpack _ _ _ _ _ _ _ | .funpack _ _ _ _ _ | .rng _ _ _ _ | .xidx _ | .xup _ | .xdn _ | .xxor _
  | .xbcast _ | .ballot _ _ _ | .vote _ _ _ _ | .popm _ _ _ | .sget _ _ _ | .barArr _ _ _ | .stepadv _ _ _ => true
  | _ => false

/-- `yieldpt`, `gsplit` and `gfuse` must end their clause (R143). -/
def mustBeLast : Instr → Bool
  | .yieldpt _ _ | .gsplit _ _ _ | .gfuse _ _ _ => true
  | _ => false

/-- A clause that runs once for the group (R26). -/
def onceClass (e : EClass) : Bool := e == .scalar || e == .matrix

end Sys2Proof.Machine
end

