-- ==== Sys2Proof/WellFormed.lean ====
section
/-!
DEFINITION. Sys2Proof/WellFormed.lean: an instruction word is well-formed when no context-free rule of R29 to R38 and of
its entry refuses it. The rules that depend on the clause (R26, R39, R60, R61, R114) are checked when a word issues.
-/
namespace Sys2Proof

/-- An instruction word whose fields every rule admits. -/
def Instr.wellFormed (i : Instr) : Bool := Machine.isWord i && (Machine.formError i).isNone

end Sys2Proof
end

