-- ==== Sys2Proof/Decode.lean ====
section
/-!
DEFINITION. Sys2Proof/Decode.lean: the encodings of R29 to R38 and the opcode map of R51 to R59: an encoder, a decoder
total on every 64-bit word that rejects by name, and the reading of the words of spec/opcode_table.json. Some opcodes
carry their operation in the parameter block (`ctxld`, `ctxsv`, `expose`); `sel` is that operation.
-/
namespace Sys2Proof
open Sys2Proof.Machine

/-! ### Field codes -/

/-- The 10-bit code of an operand (R31). -/
def Operand.code : Operand → Nat
  | .v i => i.val
  | .s i => 256 + i.val
  | .lat i => 512 + i.val
  | .lit x => 768 + x.toNat

/-- The operand of a 10-bit field (R31). -/
def operandOf (x : Nat) : Except Reject Operand :=
  let r := x % 256
  if h0 : x / 256 % 4 = 0 then (if h : r < 64 then .ok (.v ⟨r, h⟩) else .error .operandField)
  else if h1 : x / 256 % 4 = 1 then .ok (.s ⟨r, Nat.mod_lt _ (by decide)⟩)
  else if h2 : x / 256 % 4 = 2 then (if h : r < 16 then .ok (.lat ⟨r, h⟩) else .error .operandField)
  else .ok (.lit (BitVec.ofNat 8 r))

/-- The code of a source that may be a predicate (R37, R192). -/
def PSrc.code : PSrc → Nat
  | .v i => i.val
  | .s i => 256 + i.val
  | .lat i => 512 + i.val
  | .p i => 768 + i.val

/-- A source that may be a predicate. -/
def psrcOf (x : Nat) : Except Reject PSrc :=
  match operandOf x with
  | .error e => .error e
  | .ok (.v i) => .ok (.v i)
  | .ok (.s i) => .ok (.s i)
  | .ok (.lat i) => .ok (.lat i)
  | .ok (.lit b) => if h : b.toNat < 8 then .ok (.p ⟨b.toNat, h⟩) else .error .operandField

/-- A predicate operand: class 11 with [7:3] = 0 (R31). -/
def predOf (x : Nat) : Except Reject (Fin 8) :=
  if h : x % 256 < 8 then (if x / 256 % 4 = 3 then .ok ⟨x % 256, h⟩ else .error .operandField) else .error .operandField

def predCode (p : Fin 8) : Nat := 768 + p.val

/-- The code of an integer type (R51). -/
def tyCode : IntTy → Nat
  | .i32 => 0 | .n32 => 1 | .i64 => 2 | .n64 => 3 | .i16 => 4 | .n16 => 5 | .i8 => 6 | .n8 => 7

def tyOf (x : Nat) : IntTy :=
  match x % 8 with
  | 0 => .i32 | 1 => .n32 | 2 => .i64 | 3 => .n64 | 4 => .i16 | 5 => .n16 | 6 => .i8 | _ => .n8

/-- The F3 code of a format (R51). -/
def fmtCode : Fmt → Nat
  | .f32 => 0 | .f64 => 1 | .f16 => 2 | .bf16 => 3 | .e4m3 => 4 | .e5m2 => 5 | .mk8 => 6

def fmtOf (x : Nat) : Except Reject Fmt :=
  match x % 8 with
  | 0 => .ok .f32 | 1 => .ok .f64 | 2 => .ok .f16 | 3 => .ok .bf16 | 4 => .ok .e4m3 | 5 => .ok .e5m2 | 6 => .ok .mk8
  | _ => .error .unassigned

/-- The format of an F2 code (R51). -/
def fmt2Of (x : Nat) : Fmt :=
  match x % 4 with
  | 0 => .f32 | 1 => .f64 | 2 => .f16 | _ => .bf16

/-- The code of a rounding mode (R49). -/
def rndCode : Rnd → Nat
  | .rne => 0 | .rtz => 1 | .rdn => 2 | .rup => 3 | .rsr => 4

def rndOf (x : Nat) : Except Reject Rnd :=
  match x % 8 with
  | 0 => .ok .rne | 1 => .ok .rtz | 2 => .ok .rdn | 3 => .ok .rup | 4 => .ok .rsr
  | _ => .error .modeField

/-- The code of an access width (R51). -/
def widthCode : Width → Nat
  | .n8 => 0 | .n16 => 1 | .b32 => 2 | .b64 => 3 | .b128 => 4 | .i8 => 5 | .i16 => 6

def widthOf (x : Nat) : Except Reject Width :=
  match x % 8 with
  | 0 => .ok .n8 | 1 => .ok .n16 | 2 => .ok .b32 | 3 => .ok .b64 | 4 => .ok .b128 | 5 => .ok .i8 | 6 => .ok .i16
  | _ => .error .unassigned

def scopeCode : Scope → Nat
  | .lane => 0 | .group => 1 | .team => 2 | .cluster => 3 | .die => 4 | .module => 5 | .pod => 6 | .system => 7

def scopeOf (x : Nat) : Scope :=
  match x % 8 with
  | 0 => .lane | 1 => .group | 2 => .team | 3 => .cluster | 4 => .die | 5 => .module | 6 => .pod | _ => .system

def kindCode : FenceKind → Nat
  | .acq => 0 | .rel => 1 | .ar => 2

def cmpCode : Cmp → Nat
  | .eq => 0 | .ne => 1 | .lt => 2 | .le => 3 | .gt => 4 | .ge => 5

def cmpOf (x : Nat) : Except Reject Cmp :=
  match x with
  | 0 => .ok .eq | 1 => .ok .ne | 2 => .ok .lt | 3 => .ok .le | 4 => .ok .gt | 5 => .ok .ge
  | _ => .error .unassigned

def foldCode : FoldOp → Nat
  | .add => 0 | .min => 1 | .max => 2 | .and => 3 | .or => 4 | .xor => 5

def foldOf (x : Nat) : Except Reject FoldOp :=
  match x with
  | 0 => .ok .add | 1 => .ok .min | 2 => .ok .max | 3 => .ok .and | 4 => .ok .or | 5 => .ok .xor
  | _ => .error .unassigned

def atomCode : AtomOp → Nat
  | .fold o => foldCode o
  | .exch => 6

def waitCode : WaitCmp → Nat
  | .eq => 0 | .ne => 1 | .ge => 2 | .lt => 3

def waitOf (x : Nat) : WaitCmp :=
  match x % 4 with
  | 0 => .eq | 1 => .ne | 2 => .ge | _ => .lt

def voteCode : Vote → Nat
  | .any => 0 | .all => 1 | .eq => 2

/-- The code of CTEST (R37). -/
def ctestCode : CTest → Nat
  | .nz => 1 | .z => 2 | .neg => 3 | .pos => 4

/-- The register numbers of R94. -/
def sregCode : SReg → Nat
  | .gwid => 0x00 | .gbase => 0x01 | .laneix => 0x02 | .grpix => 0x03 | .teamixX => 0x04 | .teamixY => 0x05
  | .teamixZ => 0x06 | .cluix => 0x07 | .gridix => 0x08 | .gst => 0x09 | .ftv => 0x0A | .step => 0x0B | .clk => 0x0C
  | .ctxid => 0x0D | .coreno => 0x0E | .hbase => 0x20 | .hlim => 0x21 | .hofs => 0x22 | .ptroot => 0x23
  | .tqbase => 0x24 | .svbase => 0x25 | .rkey => 0x26 | .bkey => 0x27 | .ctxcfg => 0x28 | .lead => 0x29 | .ftvd => 0x2A
  | .zwt => 0x2B | .dln => 0x2C

def sregOf (x : Nat) : Except Reject SReg :=
  match x with
  | 0x00 => .ok .gwid | 0x01 => .ok .gbase | 0x02 => .ok .laneix | 0x03 => .ok .grpix | 0x04 => .ok .teamixX
  | 0x05 => .ok .teamixY | 0x06 => .ok .teamixZ | 0x07 => .ok .cluix | 0x08 => .ok .gridix | 0x09 => .ok .gst
  | 0x0A => .ok .ftv | 0x0B => .ok .step | 0x0C => .ok .clk | 0x0D => .ok .ctxid | 0x0E => .ok .coreno
  | 0x20 => .ok .hbase | 0x21 => .ok .hlim | 0x22 => .ok .hofs | 0x23 => .ok .ptroot | 0x24 => .ok .tqbase
  | 0x25 => .ok .svbase | 0x26 => .ok .rkey | 0x27 => .ok .bkey | 0x28 => .ok .ctxcfg | 0x29 => .ok .lead
  | 0x2A => .ok .ftvd | 0x2B => .ok .zwt | 0x2C => .ok .dln
  | _ => .error .operandField

/-! ### Formats -/

/-- The prefix bits [51:48] (R29). -/
def Pfx.code (p : Pfx) : Nat := 8 * b2n p.neg + p.pr.val

def pfxAt (w : Nat) : Pfx := ⟨bitAt w 51, ⟨w / 2 ^ 48 % 8, Nat.mod_lt _ (by decide)⟩⟩

/-- Format A (R30). -/
def packA (opc : Nat) (p : Pfx) (ws : Bool) (d a b c : Nat) (sbe : Bool) (sbk fmod : Nat) : Nat :=
  opc * 2 ^ 52 + p.code * 2 ^ 48 + b2n ws * 2 ^ 47 + d * 2 ^ 37 + a * 2 ^ 27 + b * 2 ^ 17 + c * 2 ^ 7 + b2n sbe * 2 ^ 6 +
    sbk * 2 ^ 3 + fmod

/-- Format A of an optional destination: `none` sets WS (R40). -/
def packD (opc : Nat) (p : Pfx) (d : Option Operand) (a b c fmod : Nat) : Nat :=
  packA opc p d.isNone (match d with | some o => o.code | none => 0) a b c false 0 fmod

/-- Format I27 (R35). -/
def packI27 (opc : Nat) (p : Pfx) (ws : Bool) (d a imm : Nat) : Nat :=
  opc * 2 ^ 52 + p.code * 2 ^ 48 + b2n ws * 2 ^ 47 + d * 2 ^ 37 + a * 2 ^ 27 + imm

/-- Format M (R36). -/
def packM (opc : Nat) (p : Pfx) (d : Nat) (m : MemRef) (sbk : Nat) : Nat :=
  opc * 2 ^ 52 + p.code * 2 ^ 48 + d * 2 ^ 37 + m.base.code * 2 ^ 27 + m.index.code * 2 ^ 17 + m.ofs.toNat * 2 ^ 4 +
    b2n m.scale * 2 ^ 3 + sbk

/-- Format B (R37). -/
def packB (opc : Nat) (p : Pfx) (c : BrCond) (ofs : BitVec 32) : Nat :=
  opc * 2 ^ 52 + p.code * 2 ^ 48 + (match c with | .always => 0 | .test t x => x.code * 2 ^ 38 + ctestCode t * 2 ^ 35) +
    ofs.toNat

/-- Format T (R38). -/
def packT (opc : Nat) (t : TW) : Nat :=
  opc * 2 ^ 52 + t.p.code * 2 ^ 48 + t.pbase.val * 2 ^ 40 +
    (match t.inc with | some c => c.ix.val * 2 ^ 32 + 2 ^ 31 + c.amt.val * 2 ^ 24 | none => 0) +
    (match t.wait with | some c => 2 ^ 23 + c.ix.val * 2 ^ 17 + c.thr.val * 2 ^ 9 | none => 0) +
    t.batch.val * 2 ^ 5 + t.sb.val

def dstAt (w : Nat) : Except Reject (Option Operand) :=
  if bitAt w 47 then .ok none else (operandOf (fld w 37 10)).map some
def regAt (w : Nat) : Except Reject Operand := operandOf (fld w 37 10)
def pdstAt (w : Nat) : Except Reject (Option (Fin 8)) :=
  if bitAt w 47 then .ok none else (predOf (fld w 37 10)).map some
def aAt (w : Nat) : Except Reject Operand := operandOf (fld w 27 10)
def bAt (w : Nat) : Except Reject Operand := operandOf (fld w 17 10)
def cAt (w : Nat) : Except Reject Operand := operandOf (fld w 7 10)
def sbkAt (w : Nat) : Fin 8 := ⟨w / 2 ^ 3 % 8, Nat.mod_lt _ (by decide)⟩
def sbLow (w : Nat) : Fin 8 := ⟨w % 8, Nat.mod_lt _ (by decide)⟩

def i1At (w : Nat) : Except Reject I1 := do
  .ok ⟨pfxAt w, tyOf (w % 8), ← dstAt w, ← aAt w⟩
def i2At (w : Nat) : Except Reject I2 := do
  .ok ⟨pfxAt w, tyOf (w % 8), ← dstAt w, ← aAt w, ← bAt w⟩
def i3At (w : Nat) : Except Reject I3 := do
  .ok ⟨pfxAt w, tyOf (w % 8), ← dstAt w, ← aAt w, ← bAt w, ← cAt w⟩
def f1At (f : Fmt) (w : Nat) : Except Reject F1 := do
  .ok ⟨pfxAt w, f, ← rndOf (w % 8), ← dstAt w, ← aAt w⟩
def f2At (f : Fmt) (w : Nat) : Except Reject F2 := do
  .ok ⟨pfxAt w, f, ← rndOf (w % 8), ← dstAt w, ← aAt w, ← bAt w⟩
def f3At (f : Fmt) (w : Nat) : Except Reject F3 := do
  .ok ⟨pfxAt w, f, ← rndOf (w % 8), ← dstAt w, ← aAt w, ← bAt w, ← cAt w⟩
def fs1At (f : Fmt) (w : Nat) : Except Reject FS1 := do
  .ok ⟨pfxAt w, f, ← rndOf (w % 8), ← regAt w, ← aAt w, sbkAt w⟩
def p2At (w : Nat) : Except Reject P2 := do
  .ok ⟨pfxAt w, ← pdstAt w, ← predOf (fld w 27 10), ← predOf (fld w 17 10)⟩
def memAt (w : Nat) : Except Reject MemRef := do
  .ok ⟨← aAt w, ← bAt w, BitVec.ofNat 13 (fld w 4 13), bitAt w 3⟩
def mloadAt (w : Nat) : Except Reject MLoad := do
  .ok ⟨pfxAt w, ← widthOf (fld w 52 3), ← regAt w, ← memAt w, sbLow w⟩
def mstoreAt (w : Nat) : Except Reject MStore := do
  .ok ⟨pfxAt w, ← widthOf (fld w 52 3), ← regAt w, ← memAt w⟩
def mrangeAt (w : Nat) : Except Reject MRange := do
  .ok ⟨pfxAt w, ← regAt w, ← memAt w, sbLow w⟩
def sem2At (w : Nat) : Except Reject Sem2 := do
  .ok ⟨pfxAt w, ← aAt w, ← bAt w⟩
def condAt (w : Nat) : Except Reject BrCond :=
  match fld w 35 3 with
  | 0 => .ok .always
  | 1 => (psrcOf (fld w 38 10)).map (.test .nz)
  | 2 => (psrcOf (fld w 38 10)).map (.test .z)
  | 3 => (psrcOf (fld w 38 10)).map (.test .neg)
  | 4 => (psrcOf (fld w 38 10)).map (.test .pos)
  | _ => .error .unassigned
def wofsAt (w : Nat) : BitVec 32 := BitVec.ofNat 32 w
def twAt (w : Nat) : TW :=
  { p := pfxAt w, pbase := ⟨w / 2 ^ 40 % 256, Nat.mod_lt _ (by decide)⟩,
    inc := if bitAt w 31 then some ⟨⟨w / 2 ^ 32 % 64, Nat.mod_lt _ (by decide)⟩, ⟨w / 2 ^ 24 % 128, Nat.mod_lt _ (by decide)⟩⟩
      else none,
    wait := if bitAt w 23 then some ⟨⟨w / 2 ^ 17 % 64, Nat.mod_lt _ (by decide)⟩, ⟨w / 2 ^ 9 % 256, Nat.mod_lt _ (by decide)⟩⟩
      else none,
    batch := ⟨w / 2 ^ 5 % 16, Nat.mod_lt _ (by decide)⟩, sb := sbLow w }

def encI1 (opc : Nat) (o : I1) : Option Nat := some (packD opc o.p o.dst o.a.code 0 0 (tyCode o.ty))
def encI2 (opc : Nat) (o : I2) : Option Nat := some (packD opc o.p o.dst o.a.code o.b.code 0 (tyCode o.ty))
def encI3 (opc : Nat) (o : I3) : Option Nat := some (packD opc o.p o.dst o.a.code o.b.code o.c.code (tyCode o.ty))
/-- The F2 code, for the formats that have one. -/
def fmt2Code (f : Fmt) : Option Nat :=
  match f with
  | .f32 => some 0 | .f64 => some 1 | .f16 => some 2 | .bf16 => some 3
  | .e4m3 | .e5m2 | .mk8 => none
def encF1 (opc : Nat) (o : F1) : Option Nat :=
  (fmt2Code o.f).map fun f => packD (opc + f) o.p o.dst o.a.code 0 0 (rndCode o.m)
/-- The functions have no .f64 form (R55). -/
def encFn (opc : Nat) (o : F1) : Option Nat := if o.f = .f64 then none else encF1 opc o
def encF2 (opc : Nat) (o : F2) : Option Nat :=
  (fmt2Code o.f).map fun f => packD (opc + f) o.p o.dst o.a.code o.b.code 0 (rndCode o.m)
def encF3 (opc : Nat) (o : F3) : Option Nat :=
  (fmt2Code o.f).map fun f => packD (opc + f) o.p o.dst o.a.code o.b.code o.c.code (rndCode o.m)
def encFS1 (opc : Nat) (o : FS1) (b : Nat) : Option Nat :=
  (fmt2Code o.f).map fun f => packA (opc + f) o.p false o.dst.code o.a.code b 0 true o.sb.val (rndCode o.m)
def encP (opc : Nat) (p : Pfx) (d : Option (Fin 8)) (a b fmod : Nat) : Option Nat :=
  some (packA opc p d.isNone (match d with | some x => predCode x | none => 0) a b 0 false 0 fmod)
def encLd (opc : Nat) (o : MLoad) : Option Nat := some (packM (opc + widthCode o.w) o.p o.d.code o.m o.sb.val)
def encSt (opc : Nat) (o : MStore) : Option Nat :=
  if o.w = .i8 ∨ o.w = .i16 then none else some (packM (opc + widthCode o.w) o.p o.d.code o.m 0)
def encRange (opc : Nat) (o : MRange) : Option Nat := some (packM opc o.p o.d.code o.m o.sb.val)
def encSem (opc : Nat) (o : Sem2) : Option Nat := some (packA opc o.p false 0 o.k.code o.a.code 0 false 0 0)
def atomTy (t : IntTy) : Option Nat :=
  match t with
  | .i32 => some 0 | .n32 => some 1 | .i64 => some 2 | .n64 => some 3
  | .i16 | .n16 | .i8 | .n8 => none
/-- Opcode offset of each `fpack`/`funpack` format (R55): rows 22, 23 and 24, 25. -/
def packOpc (un : Bool) (f : PackFmt) : Nat :=
  match f with
  | .f16 => 0x258 + 4 * b2n un | .bf16 => 0x259 + 4 * b2n un | .e4m3 => 0x25A + 4 * b2n un | .e5m2 => 0x25B + 4 * b2n un
  | .mk8 => 0x260 + 4 * b2n un | .bx16 => 0x261 + 4 * b2n un | .bx24 => 0x262 + 4 * b2n un

def optCode (o : Option Operand) : Nat := match o with | some x => x.code | none => 0

/-- The word of an instruction under R53 to R59; none for an event, and for a form the map does not assign. DESIGN CHOICE
(log entry 69): `stepadv` has no form with WS = 1. R40 bars WS = 1 for scoreboarded opcodes and stores alone, R380 says that
DST is a scalar register, and R190 says the like of the vector register of `xidx`, which has both forms here. -/
def encodeNat : Instr → Option Nat
  | .nop p => some (packA 0x001 p false 0 0 0 0 false 0 0)
  | .br p c o => some (packB 0x002 p c o)
  | .brc p c o => some (packB 0x003 p c o)
  | .jmp p a => some (packA 0x004 p false 0 a.code 0 0 false 0 0)
  | .jmpv p a => some (packA 0x005 p false 0 a.code 0 0 false 0 0)
  | .call p c o => some (packB 0x006 p c o)
  | .ret p a => some (packA 0x007 p false 0 a.code 0 0 false 0 0)
  | .exit p => some (packA 0x008 p false 0 0 0 0 false 0 0)
  | .yieldpt p b => some (0x010 * 2 ^ 52 + p.code * 2 ^ 48 + b.val * 2 ^ 40)
  | .gsplit p d a => some (packA 0x020 p false d.code a.code 0 0 false 0 0)
  | .gfuse p d a => some (packA 0x021 p false d.code a.code 0 0 false 0 0)
  | .launch t => some (packT 0x030 t)
  | .mov o => encI1 0x100 o
  | .add o => encI2 0x101 o
  | .sub o => encI2 0x102 o
  | .addc o => encI3 0x103 o
  | .subb o => encI3 0x104 o
  | .neg o => encI1 0x105 o
  | .abs o => encI1 0x106 o
  | .min o => encI2 0x107 o
  | .max o => encI2 0x108 o
  | .mad o => encI3 0x109 o
  | .mul o => encI2 0x10A o
  | .mulh o => encI2 0x10B o
  | .and o => encI2 0x10C o
  | .or o => encI2 0x10D o
  | .xor o => encI2 0x10E o
  | .andn o => encI2 0x10F o
  | .not o => encI1 0x110 o
  | .shl o => encI2 0x111 o
  | .shr o => encI2 0x112 o
  | .sar o => encI2 0x113 o
  | .rol o => encI2 0x114 o
  | .bfx o => encI2 0x115 o
  | .bfi o => encI3 0x116 o
  | .popc o => encI1 0x117 o
  | .clz o => encI1 0x118 o
  | .ctz o => encI1 0x119 o
  | .brev o => encI1 0x11A o
  | .sel o => encI3 0x11B o
  | .cvt s o => encI1 (0x120 + tyCode s) o
  | .dp4 p n d a b c => some (packD 0x130 p d a.code b.code c.code (b2n n))
  | .movi p k d imm => some ((match k with | .b32 => 0x131 | .i64 => 0x132 | .n64 => 0x133) * 2 ^ 52 + p.code * 2 ^ 48 +
      b2n d.isNone * 2 ^ 47 + optCode d * 2 ^ 37 + imm.toNat)
  | .cmp p c t d a b => encP (0x140 + cmpCode c) p d a.code b.code (tyCode t)
  | .pand o => encP 0x150 o.p o.dst (predCode o.a) (predCode o.b) 0
  | .por o => encP 0x151 o.p o.dst (predCode o.a) (predCode o.b) 0
  | .pxor o => encP 0x152 o.p o.dst (predCode o.a) (predCode o.b) 0
  | .pnot p d a => encP 0x153 p d (predCode a) 0 0
  | .fadd o => encF2 0x200 o
  | .fsub o => encF2 0x204 o
  | .fmul o => encF2 0x208 o
  | .ffma o => encF3 0x20C o
  | .fmin o => encF2 0x210 o
  | .fmax o => encF2 0x214 o
  | .fclass o => encF1 0x218 o
  | .fround o => encF1 0x21C o
  | .fscale o => encF2 0x220 o
  | .frcp o => encFS1 0x224 o 0
  | .frsq o => encFS1 0x228 o 0
  | .fsqrt o => encFS1 0x22C o 0
  | .fdiv o b => encFS1 0x230 o b.code
  | .fexp2 o => encFn 0x234 o
  | .flog2 o => encFn 0x238 o
  | .fsin o => encFn 0x23C o
  | .fcos o => encFn 0x240 o
  | .ftanh o => encFn 0x244 o
  | .ferf o => encFn 0x248 o
  | .fsig o => encFn 0x24C o
  | .fdot2 o => match o.f with
    | .f16 => some (packD 0x252 o.p o.dst o.a.code o.b.code o.c.code (rndCode o.m))
    | .bf16 => some (packD 0x253 o.p o.dst o.a.code o.b.code o.c.code (rndCode o.m))
    | _ => none
  | .fdot4 o => match o.f with
    | .e4m3 => some (packD 0x254 o.p o.dst o.a.code o.b.code o.c.code (rndCode o.m))
    | .e5m2 => some (packD 0x255 o.p o.dst o.a.code o.b.code o.c.code (rndCode o.m))
    | .mk8 => some (packD 0x256 o.p o.dst o.a.code o.b.code o.c.code (rndCode o.m))
    | _ => none
  | .fpack p f m d a b c => some (packD (packOpc false f) p d a.code (optCode b) (optCode c) (rndCode m))
  | .funpack p f d a b => some (packD (packOpc true f) p d a.code b.code 0 0)
  | .fcmp p c f d a b => match fmt2Code f with
    | some k => encP (0x268 + 4 * cmpCode c + k) p d a.code b.code 0
    | none => none
  | .fcvt s o => some (packD (0x280 + 8 * fmtCode o.f + fmtCode s) o.p o.dst o.a.code 0 0 (rndCode o.m))
  | .ftoi t o => encF1 (0x2C0 + 4 * tyCode t) o
  | .itof t o => encF1 (0x2E0 + 4 * tyCode t) o
  | .rng p f d a => some (packD 0x920 p d a.code 0 0 (b2n f))
  | .xidx o => encI2 0x300 o
  | .xup o => encI2 0x301 o
  | .xdn o => encI2 0x302 o
  | .xxor o => encI2 0x303 o
  | .xbcast o => encI2 0x304 o
  | .ballot p d a => some (packD 0x310 p d a.code 0 0 0)
  | .vote p k d a => encP (0x311 + voteCode k) p d a.code 0 0
  | .popm p d a => some (packD 0x314 p d a.code 0 0 0)
  | .xred p op t d a sb => some (packA (0x320 + foldCode op) p false d.code a.code 0 0 true sb.val (tyCode t))
  | .xscan p inc op t d a sb => some (packA ((if inc then 0x330 else 0x338) + foldCode op) p false d.code a.code 0 0 true sb.val (tyCode t))
  | .ld o => encLd 0x400 o
  | .lds o => encLd 0x410 o
  | .ldc o => encLd 0x418 o
  | .st o => encSt 0x408 o
  | .ldx o => if o.w = .n8 ∨ o.w = .n16 ∨ o.w = .b32 then encLd 0x420 o else none
  | .pref p m => some (packM 0x440 p 0 m 0)
  | .cwb o => encRange 0x441 o
  | .cwbi o => encRange 0x442 o
  | .cinv o => encRange 0x443 o
  | .fence p s k => some (packA (0x450 + 4 * scopeCode s + kindCode k) p false 0 0 0 0 false 0 0)
  | .atom p op team t d m sb => match atomTy t with
    | some k => some (packM (0x500 + 32 * b2n team + 4 * atomCode op + k) p d.code m sb.val)
    | none => none
  | .red p op team t d m => match atomTy t with
    | some k => some (packM (0x540 + 32 * b2n team + 4 * foldCode op + k) p d.code m 0)
    | none => none
  | .cas p team w64 d m sb => some (packM (0x580 + 2 * b2n team + b2n w64) p d.code m sb.val)
  | .bar p q => some (packA 0x5C0 p false 0 q.code 0 0 false 0 0)
  | .barArr p d q => some (packD 0x5C1 p d q.code 0 0 0)
  | .barW p q t => some (packA 0x5C2 p false 0 q.code t.code 0 false 0 0)
  | .cbar p => some (packA 0x5C3 p false 0 0 0 0 false 0 0)
  | .gbar p => some (packA 0x5C4 p false 0 0 0 0 false 0 0)
  | .smadd o => encSem 0x5C8 o
  | .smwait o => encSem 0x5C9 o
  | .smset o => encSem 0x5CA o
  | .waitc p c w64 d m sb => some (packM (0x5D0 + 2 * waitCode c + b2n w64) p d.code m sb.val)
  | .tcp t => some (packT 0x600 t)
  | .tcpz t => some (packT 0x601 t)
  | .cseal t => some (packT 0x610 t)
  | .cwait t => some (packT 0x611 t)
  | .aczero t => some (packT 0x702 t)
  | .acrd t => some (packT 0x710 t)
  | .acwr t => some (packT 0x711 t)
  | .acst t => some (packT 0x712 t)
  | .mma t => some (packT 0x720 t)
  | .mmz t => some (packT 0x730 t)
  | .zsplit t => some (packT 0x731 t)
  | .zfold t => some (packT 0x732 t)
  | .colopen t => some (packT 0x840 t)
  | .colput t => some (packT 0x841 t)
  | .colwait t => some (packT 0x842 t)
  | .colclose t => some (packT 0x844 t)
  | .exposeExpose t => some (packT 0x930 t)
  | .exposeConfig t => some (packT 0x930 t)
  | .exposeJoin t => some (packT 0x930 t)
  | .ctxldLoad t => some (packT 0x931 t)
  | .ctxldUpdate t => some (packT 0x931 t)
  | .ctxldResume t => some (packT 0x931 t)
  | .ctxsvSnapshot t => some (packT 0x932 t)
  | .ctxsvStop t => some (packT 0x932 t)
  | .ctxsvEvict t => some (packT 0x932 t)
  | .acalloc d a p sb => some (packA 0x700 p false d.code a.code 0 0 true sb.val 0)
  | .acfree p a n => some (packA 0x701 p false 0 a.code n.code 0 false 0 0)
  | .ldv o => encLd 0x800 o
  | .ldvNt o => encLd 0x808 o
  | .stv o => encSt 0x810 o
  | .vpub o => encRange 0x820 o
  | .stepadv p d a => some (packA 0x830 p false d.code a.code 0 0 false 0 0)
  | .steprd p d a sb => some (packA 0x831 p false d.code a.code 0 0 true sb.val 0)
  | .colstat p d a sb => some (packA 0x843 p false d.code a.code 0 0 true sb.val 0)
  | .trap p n => some (packI27 0x900 p false 0 0 n.toNat)
  | .tret p k x => some (packA 0x901 p false 0 (match x with | some i => i.val | none => 768) 0 0 false 0 (b2n k))
  | .sget p d r => some (packI27 0x910 p d.isNone (optCode d) 0 (sregCode r))
  | .sput p r a => some (packI27 0x911 p false 0 a.code (sregCode r))
  | _ => none

/-- The words of an instruction: one 64-bit word. -/
def encode (i : Instr) : List DWord := match encodeNat i with
  | some n => [BitVec.ofNat 64 n]
  | none => []

/-! ### The opcode map -/

/-- Control class (R53). -/
def buildControl (op w : Nat) : Except Reject Instr :=
  match op with
  | 0x001 => .ok (.nop (pfxAt w))
  | 0x002 => do .ok (.br (pfxAt w) (← condAt w) (wofsAt w))
  | 0x003 => do .ok (.brc (pfxAt w) (← condAt w) (wofsAt w))
  | 0x004 => do .ok (.jmp (pfxAt w) (← aAt w))
  | 0x005 => do .ok (.jmpv (pfxAt w) (← aAt w))
  | 0x006 => do .ok (.call (pfxAt w) (← condAt w) (wofsAt w))
  | 0x007 => do .ok (.ret (pfxAt w) (← aAt w))
  | 0x008 => .ok (.exit (pfxAt w))
  | 0x010 => .ok (.yieldpt (pfxAt w) (twAt w).pbase)
  | 0x020 => do .ok (.gsplit (pfxAt w) (← regAt w) (← aAt w))
  | 0x021 => do .ok (.gfuse (pfxAt w) (← regAt w) (← aAt w))
  | 0x030 => .ok (.launch (twAt w))
  | _ => .error .unassigned

/-- Integer class (R54). -/
def buildInt (op w : Nat) : Except Reject Instr :=
  match op with
  | 0x100 => (i1At w).map .mov
  | 0x101 => (i2At w).map .add
  | 0x102 => (i2At w).map .sub
  | 0x103 => (i3At w).map .addc
  | 0x104 => (i3At w).map .subb
  | 0x105 => (i1At w).map .neg
  | 0x106 => (i1At w).map .abs
  | 0x107 => (i2At w).map .min
  | 0x108 => (i2At w).map .max
  | 0x109 => (i3At w).map .mad
  | 0x10A => (i2At w).map .mul
  | 0x10B => (i2At w).map .mulh
  | 0x10C => (i2At w).map .and
  | 0x10D => (i2At w).map .or
  | 0x10E => (i2At w).map .xor
  | 0x10F => (i2At w).map .andn
  | 0x110 => (i1At w).map .not
  | 0x111 => (i2At w).map .shl
  | 0x112 => (i2At w).map .shr
  | 0x113 => (i2At w).map .sar
  | 0x114 => (i2At w).map .rol
  | 0x115 => (i2At w).map .bfx
  | 0x116 => (i3At w).map .bfi
  | 0x117 => (i1At w).map .popc
  | 0x118 => (i1At w).map .clz
  | 0x119 => (i1At w).map .ctz
  | 0x11A => (i1At w).map .brev
  | 0x11B => (i3At w).map .sel
  | 0x130 => do
    if w % 8 < 2 then .ok (.dp4 (pfxAt w) (w % 8 == 1) (← dstAt w) (← aAt w) (← bAt w) (← cAt w)) else .error .modeField
  | 0x131 => do .ok (.movi (pfxAt w) .b32 (← dstAt w) (wofsAt w))
  | 0x132 => do .ok (.movi (pfxAt w) .i64 (← dstAt w) (wofsAt w))
  | 0x133 => do .ok (.movi (pfxAt w) .n64 (← dstAt w) (wofsAt w))
  | 0x150 => (p2At w).map .pand
  | 0x151 => (p2At w).map .por
  | 0x152 => (p2At w).map .pxor
  | 0x153 => do .ok (.pnot (pfxAt w) (← pdstAt w) (← predOf (fld w 27 10)))
  | _ =>
    if op / 8 = 0x24 then (i1At w).map (.cvt (tyOf op))
    else if op / 16 = 0x14 then do .ok (.cmp (pfxAt w) (← cmpOf (op % 16)) (tyOf (w % 8)) (← pdstAt w) (← aAt w) (← bAt w))
    else .error .unassigned

/-- `fpack` and `funpack` (R179, R180). -/
def buildPack (f : PackFmt) (w : Nat) : Except Reject Instr := do
  let d ← dstAt w
  let a ← aAt w
  let m ← rndOf (w % 8)
  match f with
  | .f16 | .bf16 => .ok (.fpack (pfxAt w) f m d a (some (← bAt w)) none)
  | .e4m3 | .e5m2 | .mk8 => .ok (.fpack (pfxAt w) f m d a (some (← bAt w)) (some (← cAt w)))
  | .bx16 | .bx24 => .ok (.fpack (pfxAt w) f m d a none none)

def buildUnpack (f : PackFmt) (w : Nat) : Except Reject Instr := do
  .ok (.funpack (pfxAt w) f (← dstAt w) (← aAt w) (← bAt w))

/-- The rows of R55 by operation number n and format field f. -/
def buildFloatRow (n f w : Nat) : Except Reject Instr :=
  let g := fmt2Of f
  let fn (k : F1 → Instr) : Except Reject Instr := if f = 1 then .error .unassigned else (f1At g w).map k
  match n with
  | 0 => (f2At g w).map .fadd
  | 1 => (f2At g w).map .fsub
  | 2 => (f2At g w).map .fmul
  | 3 => (f3At g w).map .ffma
  | 4 => (f2At g w).map .fmin
  | 5 => (f2At g w).map .fmax
  | 6 => (f1At g w).map .fclass
  | 7 => (f1At g w).map .fround
  | 8 => (f2At g w).map .fscale
  | 9 => (fs1At g w).map .frcp
  | 10 => (fs1At g w).map .frsq
  | 11 => (fs1At g w).map .fsqrt
  | 12 => do .ok (.fdiv (← fs1At g w) (← bAt w))
  | 13 => fn .fexp2
  | 14 => fn .flog2
  | 15 => fn .fsin
  | 16 => fn .fcos
  | 17 => fn .ftanh
  | 18 => fn .ferf
  | 19 => fn .fsig
  | 20 => match f with
    | 2 => (f3At .f16 w).map .fdot2
    | 3 => (f3At .bf16 w).map .fdot2
    | _ => .error .unassigned
  | 21 => match f with
    | 0 => (f3At .e4m3 w).map .fdot4
    | 1 => (f3At .e5m2 w).map .fdot4
    | 2 => (f3At .mk8 w).map .fdot4
    | _ => .error .unassigned
  | 22 => match f with
    | 0 => buildPack .f16 w
    | 1 => buildPack .bf16 w
    | 2 => buildPack .e4m3 w
    | _ => buildPack .e5m2 w
  | 23 => match f with
    | 0 => buildUnpack .f16 w
    | 1 => buildUnpack .bf16 w
    | 2 => buildUnpack .e4m3 w
    | _ => buildUnpack .e5m2 w
  | 24 => match f with
    | 0 => buildPack .mk8 w
    | 1 => buildPack .bx16 w
    | 2 => buildPack .bx24 w
    | _ => .error .unassigned
  | 25 => match f with
    | 0 => buildUnpack .mk8 w
    | 1 => buildUnpack .bx16 w
    | 2 => buildUnpack .bx24 w
    | _ => .error .unassigned
  | _ => do .ok (.fcmp (pfxAt w) (← cmpOf (n - 26)) g (← pdstAt w) (← aAt w) (← bAt w))

/-- Float class (R55). -/
def buildFloat (op w : Nat) : Except Reject Instr :=
  let k := op % 256
  if k < 0x80 then buildFloatRow (k / 4) (k % 4) w
  else if k < 0xC0 then do .ok (.fcvt (← fmtOf k) (← f1At (← fmtOf (k / 8)) w))
  else if k < 0xE0 then (f1At (fmt2Of k) w).map (.ftoi (tyOf (k / 4)))
  else (f1At (fmt2Of k) w).map (.itof (tyOf (k / 4)))

/-- Cross-lane class (R56). -/
def buildCross (op w : Nat) : Except Reject Instr :=
  match op with
  | 0x300 => (i2At w).map .xidx
  | 0x301 => (i2At w).map .xup
  | 0x302 => (i2At w).map .xdn
  | 0x303 => (i2At w).map .xxor
  | 0x304 => (i2At w).map .xbcast
  | 0x310 => do .ok (.ballot (pfxAt w) (← dstAt w) (← psrcOf (fld w 27 10)))
  | 0x311 => do .ok (.vote (pfxAt w) .any (← pdstAt w) (← psrcOf (fld w 27 10)))
  | 0x312 => do .ok (.vote (pfxAt w) .all (← pdstAt w) (← psrcOf (fld w 27 10)))
  | 0x313 => do .ok (.vote (pfxAt w) .eq (← pdstAt w) (← psrcOf (fld w 27 10)))
  | 0x314 => do .ok (.popm (pfxAt w) (← dstAt w) (← psrcOf (fld w 27 10)))
  | _ =>
    if op / 16 = 0x32 then do
      .ok (.xred (pfxAt w) (← foldOf (op % 16)) (tyOf (w % 8)) (← regAt w) (← aAt w) (sbkAt w))
    else if op / 16 = 0x33 then do
      .ok (.xscan (pfxAt w) (op % 16 < 8) (← foldOf (op % 8)) (tyOf (w % 8)) (← regAt w) (← aAt w) (sbkAt w))
    else .error .unassigned

/-- Memory class (R57). -/
def buildMemory (op w : Nat) : Except Reject Instr :=
  if op / 8 = 0x80 then (mloadAt w).map .ld
  else if op / 8 = 0x81 then (if op % 8 < 5 then (mstoreAt w).map .st else .error .unassigned)
  else if op / 8 = 0x82 then (mloadAt w).map .lds
  else if op / 8 = 0x83 then (mloadAt w).map .ldc
  else if op / 8 = 0x84 then (if op % 8 < 3 then (mloadAt w).map .ldx else .error .unassigned)
  else if op = 0x440 then do .ok (.pref (pfxAt w) (← memAt w))
  else if op = 0x441 then (mrangeAt w).map .cwb
  else if op = 0x442 then (mrangeAt w).map .cwbi
  else if op = 0x443 then (mrangeAt w).map .cinv
  else if 0x450 ≤ op ∧ op < 0x470 then
    match op % 4 with
    | 0 => .ok (.fence (pfxAt w) (scopeOf ((op - 0x450) / 4)) .acq)
    | 1 => .ok (.fence (pfxAt w) (scopeOf ((op - 0x450) / 4)) .rel)
    | 2 => .ok (.fence (pfxAt w) (scopeOf ((op - 0x450) / 4)) .ar)
    | _ => .error .unassigned
  else .error .unassigned

/-- Atomic and sync class (R58). -/
def buildSync (op w : Nat) : Except Reject Instr :=
  let t := tyOf (op % 4)
  if op < 0x540 then do
    let k := op / 4 % 8
    let o ← if k = 6 then .ok AtomOp.exch else (foldOf k).map .fold
    .ok (.atom (pfxAt w) o (bitAt op 5) t (← regAt w) (← memAt w) (sbLow w))
  else if op < 0x580 then do
    .ok (.red (pfxAt w) (← foldOf (op / 4 % 8)) (bitAt op 5) t (← regAt w) (← memAt w))
  else if op < 0x584 then do .ok (.cas (pfxAt w) (bitAt op 1) (bitAt op 0) (← regAt w) (← memAt w) (sbLow w))
  else match op with
  | 0x5C0 => do .ok (.bar (pfxAt w) (← aAt w))
  | 0x5C1 => do .ok (.barArr (pfxAt w) (← dstAt w) (← aAt w))
  | 0x5C2 => do .ok (.barW (pfxAt w) (← aAt w) (← bAt w))
  | 0x5C3 => .ok (.cbar (pfxAt w))
  | 0x5C4 => .ok (.gbar (pfxAt w))
  | 0x5C8 => (sem2At w).map .smadd
  | 0x5C9 => (sem2At w).map .smwait
  | 0x5CA => (sem2At w).map .smset
  | _ =>
    if op / 8 = 0xBA then do
      .ok (.waitc (pfxAt w) (waitOf (op / 2)) (bitAt op 0) (← regAt w) (← memAt w) (sbLow w))
    else .error .unassigned

/-- Copy, matrix, version, step and collective classes (R59). -/
def buildEngine (op w : Nat) : Except Reject Instr :=
  match op with
  | 0x600 => .ok (.tcp (twAt w))
  | 0x601 => .ok (.tcpz (twAt w))
  | 0x610 => .ok (.cseal (twAt w))
  | 0x611 => .ok (.cwait (twAt w))
  | 0x700 => do .ok (.acalloc (← regAt w) (← aAt w) (pfxAt w) (sbkAt w))
  | 0x701 => do .ok (.acfree (pfxAt w) (← aAt w) (← bAt w))
  | 0x702 => .ok (.aczero (twAt w))
  | 0x710 => .ok (.acrd (twAt w))
  | 0x711 => .ok (.acwr (twAt w))
  | 0x712 => .ok (.acst (twAt w))
  | 0x720 => .ok (.mma (twAt w))
  | 0x730 => .ok (.mmz (twAt w))
  | 0x731 => .ok (.zsplit (twAt w))
  | 0x732 => .ok (.zfold (twAt w))
  | 0x820 => (mrangeAt w).map .vpub
  | 0x830 => do .ok (.stepadv (pfxAt w) (← regAt w) (← aAt w))
  | 0x831 => do .ok (.steprd (pfxAt w) (← regAt w) (← aAt w) (sbkAt w))
  | 0x840 => .ok (.colopen (twAt w))
  | 0x841 => .ok (.colput (twAt w))
  | 0x842 => .ok (.colwait (twAt w))
  | 0x843 => do .ok (.colstat (pfxAt w) (← regAt w) (← aAt w) (sbkAt w))
  | 0x844 => .ok (.colclose (twAt w))
  | _ =>
    if op / 8 = 0x100 then (mloadAt w).map .ldv
    else if op / 8 = 0x101 then (mloadAt w).map .ldvNt
    else if op / 8 = 0x102 then (if op % 8 < 5 then (mstoreAt w).map .stv else .error .unassigned)
    else .error .unassigned

/-- System class (R59); `sel` is the operation of the parameter block (R96, R390). -/
def buildSystem (op w sel : Nat) : Except Reject Instr :=
  match op with
  | 0x900 => .ok (.trap (pfxAt w) (BitVec.ofNat 27 w))
  | 0x901 => do
    match ← aAt w with
    | .v i => .ok (.tret (pfxAt w) (w % 2 == 1) (some i))
    | .lit _ => .ok (.tret (pfxAt w) (w % 2 == 1) none)
    | _ => .error .operandClass
  | 0x910 => do .ok (.sget (pfxAt w) (← dstAt w) (← sregOf (w % 2 ^ 27)))
  | 0x911 => do .ok (.sput (pfxAt w) (← sregOf (w % 2 ^ 27)) (← aAt w))
  | 0x920 => do if w % 8 < 2 then .ok (.rng (pfxAt w) (w % 8 == 1) (← dstAt w) (← aAt w)) else .error .modeField
  | 0x930 => .ok (match sel with
    | 1 => .exposeConfig (twAt w)
    | 2 => .exposeJoin (twAt w)
    | _ => .exposeExpose (twAt w))
  | 0x931 => .ok (match sel with
    | 1 => .ctxldUpdate (twAt w)
    | 2 => .ctxldResume (twAt w)
    | _ => .ctxldLoad (twAt w))
  | 0x932 => .ok (match sel with
    | 1 => .ctxsvStop (twAt w)
    | 2 => .ctxsvEvict (twAt w)
    | _ => .ctxsvSnapshot (twAt w))
  | _ => .error .unassigned

/-- The instruction an opcode names, its fields read but not yet checked. -/
def build (w sel : Nat) : Except Reject Instr :=
  let op := fld w 52 12
  match op / 256 with
  | 0 => buildControl op w
  | 1 => buildInt op w
  | 2 => buildFloat op w
  | 3 => buildCross op w
  | 4 => buildMemory op w
  | 5 => buildSync op w
  | 6 | 7 | 8 => buildEngine op w
  | 9 => buildSystem op w sel
  | _ => .error .unassigned

/-- The decoder: the instruction of a word, or the name of what is wrong with it. A field the encoder does not write is
reserved and must be zero (R29), so a word must be the encoding of what it is read as. -/
def decodeNat (w sel : Nat) : Except Reject Instr :=
  match build w sel with
  | .error e => .error e
  | .ok i =>
    match encodeNat i with
    | none => .error .unassigned
    | some x =>
      if x = w then
        match formError i with
        | some e => .error e
        | none => .ok i
      else .error .reservedField

/-- The decoder on a 64-bit word. -/
def decode (w : DWord) (sel : Nat) : Except Reject Instr := decodeNat w.toNat sel

/-- The eight bytes of a word at rising addresses (R2). -/
def wordBytes (w : Nat) : List Byte := leBytes 8 w

/-- The instruction of a word of spec/opcode_table.json, laid out in memory and read back. -/
def decodeTableWord (_nbits w : Nat) : Option Instr :=
  match decodeNat (ofLe (wordBytes w)) 0 with
  | .ok i => some i
  | .error _ => none

end Sys2Proof
end

