-- ==== Sys2Proof/Machine/Flags.lean ====
section
/-!
DEFINITION. Sys2Proof/Machine/Flags.lean: the five float exception flags (R74), their places in GST (R132), and the
integer comparisons and carries that instructions report.
-/
namespace Sys2Proof.Machine

/-- The exception flags of R74. -/
structure Flags where
  iv : Bool := false
  dz : Bool := false
  of : Bool := false
  uf : Bool := false
  nx : Bool := false
  deriving DecidableEq, Repr

/-- No flag. -/
def noFlags : Flags := {}

/-- Flags are only ever ORed (R75). -/
def flagsOr (a b : Flags) : Flags :=
  { iv := a.iv || b.iv, dz := a.dz || b.dz, of := a.of || b.of, uf := a.uf || b.uf, nx := a.nx || b.nx }

/-- The OR over a list. -/
def flagsAll (l : List Flags) : Flags := l.foldl flagsOr noFlags

/-- IV alone. -/
def flagIV : Flags := { iv := true }
/-- DZ alone. -/
def flagDZ : Flags := { dz := true }
/-- NX alone. -/
def flagNX : Flags := { nx := true }

/-- IV when `b`. -/
def flagIf (b : Bool) (f : Flags) : Flags := if b then f else noFlags

/-- val of R150: the low w bits of an operand, signed or natural. -/
def tyVal (t : IntTy) (x : Nat) : Int := if tySigned t then sext x (tyWidth t) else (zext x (tyWidth t) : Nat)

/-- res of R150: the low w bits of `x`, extended to max(w, 32) bits. -/
def tyRes (t : IntTy) (x : Int) : Nat :=
  if tySigned t then wrap (sext (wrap x (tyWidth t)) (tyWidth t)) (tyOpWidth t) else wrap x (tyWidth t)

/-- The smallest value of a type (R64). -/
def tyMin (t : IntTy) : Int := if tySigned t then -((2 ^ (tyWidth t - 1) : Nat) : Int) else 0

/-- The largest value of a type (R64). -/
def tyMax (t : IntTy) : Int :=
  if tySigned t then (2 ^ (tyWidth t - 1) : Nat) - 1 else (2 ^ tyWidth t : Nat) - 1

/-- The tests of R163. -/
def cmpInt (c : Cmp) (a b : Int) : Bool :=
  match c with
  | .eq => a == b
  | .ne => a != b
  | .lt => decide (a < b)
  | .le => decide (a ≤ b)
  | .gt => decide (b < a)
  | .ge => decide (b ≤ a)

/-- `addc` (R154): sum and carry of w-bit patterns; the carry stands above the extended sum. -/
def carryAdd (t : IntTy) (a b ci : Nat) : Nat :=
  let w := tyWidth t
  let s := zext a w + zext b w + ci % 2
  tyRes t s + b2n (2 ^ w ≤ s) * 2 ^ tyOpWidth t

/-- `subb` (R154): difference and borrow. -/
def borrowSub (t : IntTy) (a b ci : Nat) : Nat :=
  let w := tyWidth t
  let s : Int := (zext a w : Nat) - (zext b w : Nat) - (ci % 2 : Nat)
  tyRes t s + b2n (s < 0) * 2 ^ tyOpWidth t

/-- The operators of R195 and R58 on values of type T, exact; the caller reduces the result. -/
def foldInt (o : FoldOp) (t : IntTy) (a b : Int) : Int :=
  let w := tyWidth t
  match o with
  | .add => tyVal t (wrap (a + b) w)
  | .min => if a ≤ b then a else b
  | .max => if a ≤ b then b else a
  | .and => tyVal t (wrap a w &&& wrap b w)
  | .or => tyVal t (wrap a w ||| wrap b w)
  | .xor => tyVal t (wrap a w ^^^ wrap b w)

/-- The identities of R195. -/
def foldUnit (o : FoldOp) (t : IntTy) : Int :=
  match o with
  | .add | .or | .xor => 0
  | .min => tyMax t
  | .max => tyMin t
  | .and => tyVal t (2 ^ tyWidth t - 1)

end Sys2Proof.Machine
end

