-- ==== Sys2Proof/Machine/IntFn.lean ====
section
/-!
DEFINITION. Sys2Proof/Machine/IntFn.lean: what the integer instructions compute on operand values (R153 to R162).
Operands and results are naturals of max(w, 32) bits.
-/
namespace Sys2Proof.Machine

/-- ZExt(val(f), w): the w-bit pattern. -/
def pat (t : IntTy) (x : Nat) : Nat := zext x (tyWidth t)

def fnAdd (t : IntTy) (a b : Nat) : Nat := tyRes t (tyVal t a + tyVal t b)
def fnSub (t : IntTy) (a b : Nat) : Nat := tyRes t (tyVal t a - tyVal t b)
def fnNeg (t : IntTy) (a : Nat) : Nat := tyRes t (-(tyVal t a))
def fnAbs (t : IntTy) (a : Nat) : Nat := tyRes t (if tyVal t a < 0 then -(tyVal t a) else tyVal t a)
def fnMin (t : IntTy) (a b : Nat) : Nat := tyRes t (if tyVal t a ≤ tyVal t b then tyVal t a else tyVal t b)
def fnMax (t : IntTy) (a b : Nat) : Nat := tyRes t (if tyVal t a ≤ tyVal t b then tyVal t b else tyVal t a)
def fnMad (t : IntTy) (a b c : Nat) : Nat := tyRes t (tyVal t a * tyVal t b + tyVal t c)
def fnMul (t : IntTy) (a b : Nat) : Nat := tyRes t (tyVal t a * tyVal t b)
/-- `mulh`: the floor of the exact product over 2ʷ (R153). -/
def fnMulh (t : IntTy) (a b : Nat) : Nat := tyRes t (tyVal t a * tyVal t b / (2 ^ tyWidth t : Nat))
def fnAnd (t : IntTy) (a b : Nat) : Nat := tyRes t (pat t a &&& pat t b : Nat)
def fnOr (t : IntTy) (a b : Nat) : Nat := tyRes t (pat t a ||| pat t b : Nat)
def fnXor (t : IntTy) (a b : Nat) : Nat := tyRes t (pat t a ^^^ pat t b : Nat)
def fnNot (t : IntTy) (a : Nat) : Nat := tyRes t (2 ^ tyWidth t - 1 - pat t a : Nat)
def fnAndn (t : IntTy) (a b : Nat) : Nat := tyRes t (pat t a &&& (2 ^ tyWidth t - 1 - pat t b) : Nat)

/-- `shl` (R156); `k` is the 32-bit count. -/
def fnShl (t : IntTy) (a k : Nat) : Nat := tyRes t (if k < tyWidth t then (pat t a * 2 ^ k : Nat) else 0)
/-- `shr` (R156). -/
def fnShr (t : IntTy) (a k : Nat) : Nat := tyRes t (if k < tyWidth t then (pat t a / 2 ^ k : Nat) else 0)
/-- `sar` (R156): copies bit w − 1 for every T. -/
def fnSar (t : IntTy) (a k : Nat) : Nat :=
  let x := sext a (tyWidth t)
  tyRes t (if k < tyWidth t then x / (2 ^ k : Nat) else if x < 0 then -1 else 0)
/-- `rol` (R156). -/
def fnRol (t : IntTy) (a k : Nat) : Nat :=
  let j := k % tyWidth t
  tyRes t (pat t a * 2 ^ j + pat t a / 2 ^ (tyWidth t - j) : Nat)

/-- `bfx` (R157); `q` is the control. -/
def fnBfx (t : IntTy) (a q : Nat) : Nat :=
  let w := tyWidth t
  let pos := fld q 0 8
  let len := fld q 8 8
  if w ≤ pos || len = 0 then tyRes t 0
  else
    let m := min len (w - pos)
    let f := pat t a / 2 ^ pos % 2 ^ m
    tyRes t (if tySigned t then sext f m else (f : Nat))

/-- `bfi` (R157). -/
def fnBfi (t : IntTy) (a b q : Nat) : Nat :=
  let w := tyWidth t
  let pos := fld q 0 8
  let len := fld q 8 8
  if w ≤ pos || len = 0 then tyRes t (pat t a : Nat)
  else
    let m := min len (w - pos)
    let mask := (2 ^ m - 1) * 2 ^ pos
    tyRes t ((pat t a &&& (2 ^ w - 1 - mask)) ||| (pat t b % 2 ^ m * 2 ^ pos) : Nat)

/-- The number of 1 bits among the low `n`. -/
def popCount : Nat → Nat → Nat
  | 0, _ => 0
  | n + 1, x => x % 2 + popCount n (x / 2)

/-- The low `n` bits reversed. -/
def bitRev : Nat → Nat → Nat
  | 0, _ => 0
  | n + 1, x => x % 2 * 2 ^ n + bitRev n (x / 2)

/-- The number of trailing zeros among the low `n` bits, `n` if they are all 0. -/
def trailZ : Nat → Nat → Nat
  | 0, _ => 0
  | n + 1, x => if x % 2 = 1 then 0 else 1 + trailZ n (x / 2)

def fnPopc (t : IntTy) (a : Nat) : Nat := popCount (tyWidth t) (pat t a)
def fnClz (t : IntTy) (a : Nat) : Nat :=
  if pat t a = 0 then tyWidth t else tyWidth t - 1 - Nat.log2 (pat t a)
def fnCtz (t : IntTy) (a : Nat) : Nat := trailZ (tyWidth t) (pat t a)
def fnBrev (t : IntTy) (a : Nat) : Nat := tyRes t (bitRev (tyWidth t) (pat t a) : Nat)

def fnMov (t : IntTy) (a : Nat) : Nat := tyRes t (tyVal t a)
/-- `sel` (R159): `c` is the 32-bit condition. -/
def fnSel (t : IntTy) (a b c : Nat) : Nat := tyRes t (if c ≠ 0 then tyVal t a else tyVal t b)
/-- `cvt.<d>.<s>` (R161). -/
def fnCvt (d s : IntTy) (a : Nat) : Nat := tyRes d (sat (tyVal s a) (tyMin d) (tyMax d))

/-- `dp4` (R162). -/
def fnDp4 (natural : Bool) (a b c : Nat) : Nat :=
  let g (x : Nat) : Int := if natural then (zext x 8 : Nat) else sext x 8
  let p (i : Nat) : Int := g (a / 2 ^ (8 * i)) * g (b / 2 ^ (8 * i))
  wrap ((c : Int) + p 0 + p 1 + p 2 + p 3) 32

/-- The pair or quad of `addc` (R154). -/
def fnAddc (t : IntTy) (a b c : Nat) : Nat := carryAdd t a b c
/-- The pair or quad of `subb` (R154). -/
def fnSubb (t : IntTy) (a b c : Nat) : Nat := borrowSub t a b c

end Sys2Proof.Machine
end

