-- ==== Sys2Proof/Machine/Numbers.lean ====
section
/-!
DEFINITION. Sys2Proof/Machine/Numbers.lean: the float formats (R65 to R70), rounding (R71, R72), flags (R74),
conversions (R76 to R78), blocks (R79, R80) and the grouped dot product (R81, R82).
-/
namespace Sys2Proof.Machine

/-- The value a code holds (R86): a NaN with whether it signals, an infinity, or ±m × 2ᵉ exactly. -/
inductive FVal where
  | nan (signalling : Bool)
  | inf (neg : Bool)
  | fin (neg : Bool) (m : Nat) (e : Int)
  deriving DecidableEq, Repr

/-- A magnitude known to enough bits: m × 2ᵉ exactly, or strictly between m × 2ᵉ and (m + 1) × 2ᵉ when `sticky`. -/
structure Mag where
  m : Nat
  e : Int
  sticky : Bool := false
  deriving DecidableEq, Repr

/-- Exponent bits, fraction bits and bias (R65); .mk8 has its own code below. -/
def fmtBits : Fmt → Nat × Nat × Int
  | .f64 => (11, 52, 1023)
  | .f32 => (8, 23, 127)
  | .f16 => (5, 10, 15)
  | .bf16 => (8, 7, 127)
  | .e4m3 => (4, 3, 7)
  | .e5m2 => (5, 2, 15)
  | .mk8 => (0, 0, 0)

/-- The number of code bits of a format. -/
def fmtWidth : Fmt → Nat
  | .f64 => 64
  | .f32 => 32
  | .f16 | .bf16 => 16
  | .e4m3 | .e5m2 | .mk8 => 8

/-- wF of R166. -/
def fmtOpWidth (f : Fmt) : Nat := if f = .f64 then 64 else 32

/-- QNaN(fmt) (R65, R70). -/
def qnan : Fmt → Nat
  | .f64 => 0x7FF8000000000000
  | .f32 => 0x7FC00000
  | .f16 => 0x7E00
  | .bf16 => 0x7FC0
  | .e4m3 => 0x7F
  | .e5m2 => 0x7E
  | .mk8 => 0x80

/-- Whether the format has infinities (R65, R70). -/
def hasInf : Fmt → Bool
  | .e4m3 | .mk8 => false
  | .f64 | .f32 | .f16 | .bf16 | .e5m2 => true

/-- The positions of marker, X and F in the six pattern bits of an .mk8 code (R69): (k, x, f). -/
def mk8Shape (p : Nat) : Nat × Nat × Nat :=
  let k := 5 - Nat.log2 p
  let r := 5 - k
  let x := if r < 2 then r else 2
  (k, x, r - x)

/-- Value(.mk8, b) (R69, R70). -/
def mk8Value (b : Nat) : FVal :=
  let p := fld b 0 6
  if p = 0 then (if b % 256 = 0 then .fin false 0 0 else .nan false)
  else
    let (k, x, f) := mk8Shape p
    let mag := 4 * k + fld p f x
    let e : Int := if bitAt b 6 then -(mag + 1 : Nat) else mag
    .fin (bitAt b 7) (2 ^ f + p % 2 ^ f) (e - f)

/-- Value(fmt, b) (R86). Bits above the format's width are ignored (R66). -/
def fval (f : Fmt) (b0 : Nat) : FVal :=
  if f = .mk8 then mk8Value b0
  else
    let b := b0 % 2 ^ fmtWidth f
    let (eb, fb, bias) := fmtBits f
    let s := bitAt b (eb + fb)
    let ex := fld b fb eb
    let fr := b % 2 ^ fb
    if ex = 2 ^ eb - 1 ∧ f ≠ .e4m3 then
      if fr = 0 then .inf s else .nan (hasInf f && f ≠ .e5m2 && fr < 2 ^ (fb - 1))
    else if f = .e4m3 ∧ ex = 15 ∧ fr = 7 then .nan false
    else if ex = 0 then .fin s fr (1 - bias - fb)
    else .fin s (2 ^ fb + fr) (ex - bias - fb)

/-- IsSNaN(fmt, b) (R68). -/
def isSNaN (f : Fmt) (b : Nat) : Bool := fval f b = .nan true

/-- Whether the value is a NaN. -/
def FVal.isNaN : FVal → Bool
  | .nan _ => true
  | _ => false

/-- The code of ±∞. -/
def infCode (f : Fmt) (neg : Bool) : Nat :=
  let (eb, fb, _) := fmtBits f
  b2n neg * 2 ^ (eb + fb) + (2 ^ eb - 1) * 2 ^ fb

/-- The code of ±M, the largest finite value. -/
def maxCode (f : Fmt) (neg : Bool) : Nat :=
  match f with
  | .mk8 => b2n neg * 128 + 1
  | .e4m3 => b2n neg * 128 + 0x7E
  | _ => let (eb, fb, _) := fmtBits f
         b2n neg * 2 ^ (eb + fb) + (2 ^ eb - 1) * 2 ^ fb - 1

/-- The code of a signed zero (.mk8 has +0 only, R70). -/
def zeroCode (f : Fmt) (neg : Bool) : Nat := if f = .mk8 then 0 else b2n neg * 2 ^ (fmtWidth f - 1)

/-- The overflow results of R71. -/
def overflowCode (f : Fmt) (neg : Bool) (r : Rnd) : Nat :=
  if !hasInf f then maxCode f neg
  else match r with
    | .rne => infCode f neg
    | .rtz | .rsr => maxCode f neg
    | .rdn => if neg then infCode f neg else maxCode f neg
    | .rup => if neg then maxCode f neg else infCode f neg

/-- ⌊log₂⌋ of a non-zero magnitude. -/
def Mag.top (x : Mag) : Int := x.e + Nat.log2 x.m

/-- A magnitude far below 2^q (by more than 80 bits) as a sticky stand-in: it rounds to the same neighbour under every
mode, and ⌊d × 2³²⌋ is 0 (R72). -/
def Mag.clampTo (x : Mag) (q : Int) : Mag :=
  if x.top < q - 80 then ⟨1, q - 80, true⟩ else x

/-- A magnitude split on the grid 2^q: quotient, remainder, and the width of the remainder in bits (at least 40). -/
def Mag.split (x : Mag) (q : Int) : Nat × Nat × Nat :=
  let y := x.clampTo q
  if y.e ≤ q - 40 then
    let k := (q - y.e).toNat
    (y.m / 2 ^ k, y.m % 2 ^ k, k)
  else
    let z := y.m * 2 ^ (y.e - (q - 40)).toNat
    (z / 2 ^ 40, z % 2 ^ 40, 40)

/-- Whether R71 or R72 chooses the neighbour away from zero: quotient parity, remainder over 2^k, sticky, sign, mode
and draw. -/
def roundAway (odd : Bool) (rem k : Nat) (sticky neg : Bool) (r : Rnd) (u : Nat) : Bool :=
  if rem = 0 ∧ !sticky then false
  else match r with
    | .rne => 2 ^ k < 2 * rem || (2 ^ k == 2 * rem && (sticky || odd))
    | .rtz => false
    | .rdn => neg
    | .rup => !neg
    | .rsr => u < rem * 2 ^ 32 / 2 ^ k

/-- RoundFmt (R71, R72) into a format of R65 other than .e4m3's gap, of a non-zero magnitude. -/
def roundIeee (f : Fmt) (neg : Bool) (x : Mag) (r : Rnd) (u : Nat) : Nat × Flags :=
  let (eb, fb, bias) := fmtBits f
  let emin : Int := 1 - bias
  let sgn := b2n neg * 2 ^ (eb + fb)
  -- the largest finite value is (top significand) × 2^(emaxQ)
  let emaxQ : Int := (if f = .e4m3 then 8 else bias) - fb
  let mtop : Nat := if f = .e4m3 then 14 else 2 ^ (fb + 1) - 1
  if emaxQ + fb < x.top then (overflowCode f neg r, { of := true, nx := true })
  else
    let q : Int := if x.top - fb < emin - fb then emin - fb else x.top - fb
    let (a, rem, k) := x.split q
    let st := x.sticky || (x.clampTo q).sticky
    let inexact := rem ≠ 0 || st
    -- the interval between 448 and 512 of .e4m3 has no representable value (R65, R71)
    let gap := f = .e4m3 && q = emaxQ && (a = 15 || (a = 14 && inexact))
    if gap then
      let rem2 := (a - 14) * 2 ^ k + rem
      let up := match r with
        | .rne => decide (2 ^ k ≤ rem2)
        | .rtz => false
        | .rdn => neg
        | .rup => !neg
        | .rsr => true
      if up then (maxCode f neg, { of := true, nx := true }) else (maxCode f neg, { nx := true })
    else
      let up := roundAway (a % 2 = 1) rem k st neg r u
      let a' := if up then a + 1 else a
      let big := q = emaxQ && (mtop < a' || (r = .rsr && a = mtop && inexact))
      if big then (overflowCode f neg r, { of := true, nx := true })
      else
        -- tininess after rounding with an unbounded exponent range (R67)
        let q' : Int := x.top - fb
        let (t, trem, tk) := x.split q'
        let tup := roundAway (t % 2 = 1) trem tk (x.sticky || (x.clampTo q').sticky) neg r u
        let t' := if tup then t + 1 else t
        let tiny := x.top < emin && !(x.top = emin - 1 && t' = 2 ^ (fb + 1))
        let code := if a' < 2 ^ fb then a' else
          let (ae, aq) := if a' = 2 ^ (fb + 1) then (2 ^ fb, q + 1) else (a', q)
          ((aq + fb + bias).toNat) * 2 ^ fb + (ae - 2 ^ fb)
        (sgn + code, { uf := tiny && inexact, nx := inexact })

/-- The .mk8 codes of positive values in rising order of value. -/
def mk8Codes : List Nat :=
  [0x41, 0x43, 0x42] ++ [0x47, 0x46, 0x45, 0x44] ++ [0x4E, 0x4F, 0x4C, 0x4D, 0x4A, 0x4B, 0x48, 0x49] ++
  (natRange 0x5C 4 ++ natRange 0x58 4 ++ natRange 0x54 4 ++ natRange 0x50 4) ++
  (natRange 0x78 8 ++ natRange 0x70 8 ++ natRange 0x68 8 ++ natRange 0x60 8) ++
  natRange 0x20 32 ++ natRange 0x10 16 ++ natRange 0x08 8 ++ [4, 5, 6, 7, 2, 3, 1]

/-- The value of an .mk8 code times 2²⁴, a natural for every positive code. -/
def mk8Scaled (c : Nat) : Nat :=
  match mk8Value c with
  | .fin _ m e => m * 2 ^ (e + 24).toNat
  | _ => 0

/-- The codes around a scaled magnitude: the last code whose value is at most `x`, and the next one. -/
def mk8Around (x sh : Nat) : List Nat → Nat → Nat × Option Nat
  | [], a => (a, none)
  | c :: t, a => if mk8Scaled c * 2 ^ sh ≤ x then mk8Around x sh t c else (a, some c)

/-- RoundFmt into .mk8 of a non-zero magnitude (R71, R72). -/
def roundMk8 (neg : Bool) (x0 : Mag) (r : Rnd) (u : Nat) : Nat × Flags :=
  if 21 ≤ x0.top then (maxCode .mk8 neg, { of := true, nx := true })
  else
    let x := x0.clampTo (-21)
    let st := x0.sticky || x.sticky
    let sh := (-(x.e + 24)).toNat
    let v := x.m * 2 ^ (x.e + 24).toNat
    let (a, b) := mk8Around v sh mk8Codes 0
    let av := mk8Scaled a * 2 ^ sh
    let bv := (match b with | some c => mk8Scaled c | none => 2 ^ 45) * 2 ^ sh
    if v = av ∧ !st then ((if a = 0 then 0 else b2n neg * 128 + a), noFlags)
    else
      let bc := b.getD 1
      let up := match r with
        | .rne =>
          let twice := 2 * (v - av)
          if bv - av < twice then true
          else if twice = bv - av then
            st || (bc % 2 = 0 && a % 2 = 1) || (bc % 2 = 0 && a % 2 = 0 && Config.mk8EvenTieUp neg)
          else false
        | .rtz => false
        | .rdn => neg
        | .rup => !neg
        | .rsr => decide (u < (v - av) * 2 ^ 32 / (bv - av))
      let ovf := b.isNone && (up || r = .rsr)
      if ovf then (maxCode .mk8 neg, { of := true, nx := true })
      else
        let c := if up then bc else a
        let tiny := x0.top < -21
        ((if c = 0 then 0 else b2n neg * 128 + c), { uf := tiny, nx := true })

/-- RoundFmt(x, fmt, mode) with draw `u` (R71); a zero magnitude keeps its sign. -/
def roundFmt (f : Fmt) (neg : Bool) (x : Mag) (r : Rnd) (u : Nat) : Nat × Flags :=
  if x.m = 0 ∧ !x.sticky then (zeroCode f neg, noFlags)
  else
    let y : Mag := if x.m = 0 then ⟨1, x.e - 200, true⟩ else x
    if f = .mk8 then roundMk8 neg y r u else roundIeee f neg y r u

/-- RoundInt(x, mode) of a magnitude (R86): the magnitude of the integer and whether it differs. -/
def roundInt (neg : Bool) (x : Mag) (r : Rnd) (u : Nat) : Nat × Bool :=
  if x.m = 0 ∧ !x.sticky then (0, false)
  else
    let y : Mag := if x.m = 0 then ⟨1, x.e - 200, true⟩ else x
    let (a, rem, k) := y.split 0
    let st := y.sticky || (y.clampTo 0).sticky
    ((if roundAway (a % 2 = 1) rem k st neg r u then a + 1 else a), rem ≠ 0 || st)

/-! ### Exact arithmetic on dyadic values -/

/-- ±m as an integer. -/
def signed (neg : Bool) (m : Nat) : Int := if neg then -(m : Int) else m

/-- The exact sum of two dyadic values, as an integer and an exponent. -/
def dyAdd (a : Int) (ea : Int) (b : Int) (eb : Int) : Int × Int :=
  if ea ≤ eb then (a + b * (2 ^ (eb - ea).toNat : Nat), ea) else (a * (2 ^ (ea - eb).toNat : Nat) + b, eb)

/-- Rounds an exact dyadic sum; the sign of an exact zero is `zneg`. -/
def roundDy (f : Fmt) (x : Int × Int) (zneg : Bool) (r : Rnd) (u : Nat) : Nat × Flags :=
  if x.1 = 0 then (zeroCode f zneg, noFlags) else roundFmt f (x.1 < 0) ⟨x.1.natAbs, x.2, false⟩ r u

/-- A NaN result with IV when `iv`. -/
def nanRes (f : Fmt) (iv : Bool) : Nat × Flags := (qnan f, flagIf iv flagIV)

/-- `fadd` of two values (R168, R169). -/
def addVal (f : Fmt) (r : Rnd) (a b : FVal) (u : Nat) : Nat × Flags :=
  match a, b with
  | .nan s, .nan t => nanRes f (s || t)
  | .nan s, _ => nanRes f s
  | _, .nan t => nanRes f t
  | .inf s, .inf t => if s = t then (infCode f s, noFlags) else nanRes f true
  | .inf s, _ => (infCode f s, noFlags)
  | _, .inf t => (infCode f t, noFlags)
  | .fin s m e, .fin t n k =>
    let zneg := if m = 0 ∧ n = 0 ∧ s = t then s else r = .rdn
    roundDy f (dyAdd (signed s m) e (signed t n) k) zneg r u

/-- The opposite of a value. -/
def FVal.neg : FVal → FVal
  | .nan s => .nan s
  | .inf s => .inf (!s)
  | .fin s m e => .fin (!s) m e

/-- `fmul` (R168, R169). -/
def mulVal (f : Fmt) (r : Rnd) (a b : FVal) (u : Nat) : Nat × Flags :=
  match a, b with
  | .nan s, .nan t => nanRes f (s || t)
  | .nan s, _ => nanRes f s
  | _, .nan t => nanRes f t
  | .inf s, .inf t => (infCode f (s != t), noFlags)
  | .inf s, .fin t n _ => if n = 0 then nanRes f true else (infCode f (s != t), noFlags)
  | .fin s m _, .inf t => if m = 0 then nanRes f true else (infCode f (s != t), noFlags)
  | .fin s m e, .fin t n k => roundFmt f (s != t) ⟨m * n, e + k, false⟩ r u

/-- `ffma` (R168, R169). -/
def fmaVal (f : Fmt) (r : Rnd) (a b c : FVal) (u : Nat) : Nat × Flags :=
  let snan := a = .nan true || b = .nan true || c = .nan true
  let zinf := match a, b with
    | .inf _, .fin _ n _ => n = 0
    | .fin _ m _, .inf _ => m = 0
    | _, _ => false
  if a.isNaN || b.isNaN || c.isNaN then nanRes f (snan || zinf)
  else if zinf then nanRes f true
  else match a, b with
    | .fin s m e, .fin t n k =>
      match c with
      | .fin cs cm ce =>
        let ps := s != t
        let zneg := if m * n = 0 ∧ cm = 0 ∧ ps = cs then cs else r = .rdn
        roundDy f (dyAdd (signed ps (m * n)) (e + k) (signed cs cm) ce) zneg r u
      | .inf cs => (infCode f cs, noFlags)
      | .nan _ => nanRes f false
    | .inf s, .inf t | .inf s, .fin t _ _ | .fin s _ _, .inf t =>
      if c = .inf (!(s != t)) then nanRes f true else (infCode f (s != t), noFlags)
    | _, _ => nanRes f false

/-- Comparison of two non-NaN values: −1, 0 or 1; zeros are equal. -/
def cmpVal (a b : FVal) : Int :=
  match a, b with
  | .inf s, .inf t => if s = t then 0 else if s then -1 else 1
  | .inf s, _ => if s then -1 else 1
  | _, .inf t => if t then 1 else -1
  | .fin s m e, .fin t n k =>
    let d := (dyAdd (signed s m) e (-(signed t n)) k).1
    if d < 0 then -1 else if d = 0 then 0 else 1
  | _, _ => 0

/-- The sign of a value, NaN counting as positive. -/
def FVal.sign : FVal → Bool
  | .nan _ => false
  | .inf s => s
  | .fin s _ _ => s

/-- `fmin` and `fmax` (R170): the chosen operand's code, unchanged. -/
def minMaxVal (f : Fmt) (isMax : Bool) (ca cb : Nat) : Nat × Flags :=
  let a := fval f ca
  let b := fval f cb
  let fl := flagIf (a = .nan true || b = .nan true) flagIV
  let lt := cmpVal a b = -1 || (cmpVal a b = 0 && a.sign && !b.sign)
  let code (c : Nat) : Nat := c % 2 ^ fmtWidth f
  if a.isNaN && b.isNaN then (qnan f, fl)
  else if a.isNaN then (code cb, fl)
  else if b.isNaN then (code ca, fl)
  else ((if lt != isMax then code ca else if cmpVal a b = 0 && a.sign = b.sign then code ca else code cb), fl)

/-- `fcmp` (R173): the truth of the test and its flags. -/
def fcmpVal (c : Cmp) (a b : FVal) : Bool × Flags :=
  let un := a.isNaN || b.isNaN
  let sn := a = .nan true || b = .nan true
  let iv := match c with
    | .eq | .ne => sn
    | _ => un
  let t := if un then c = .ne else cmpInt c (cmpVal a b) 0
  (t, flagIf iv flagIV)

/-- `fclass` (R172). -/
def fclassVal (f : Fmt) (c : Nat) : Nat :=
  let (_, fb, bias) := fmtBits f
  2 ^ (match fval f c with
    | .nan true => 0
    | .nan false => 1
    | .inf true => 2
    | .inf false => 9
    | .fin s m e =>
      if m = 0 then (if s then 5 else 6)
      else if e = 1 - bias - fb ∧ m < 2 ^ fb then (if s then 4 else 7)
      else (if s then 3 else 8))

/-- `fround` (R171). -/
def froundVal (f : Fmt) (r : Rnd) (a : FVal) (u : Nat) : Nat × Flags :=
  match a with
  | .nan s => nanRes f s
  | .inf s => (infCode f s, noFlags)
  | .fin s m e =>
    let (k, inexact) := roundInt s ⟨m, e, false⟩ r u
    ((roundFmt f s ⟨k, 0, false⟩ .rtz 0).1, { nx := inexact })

/-- `fscale` (R171): n is the signed 32-bit count. -/
def fscaleVal (f : Fmt) (r : Rnd) (a : FVal) (n : Int) (u : Nat) : Nat × Flags :=
  match a with
  | .nan s => nanRes f s
  | .inf s => (infCode f s, noFlags)
  | .fin s m e => roundFmt f s ⟨m, e + n, false⟩ r u

/-! ### Quotients and roots, correctly rounded (R85) -/

/-- ⌊√x⌋ by `n` binary digits from the top: `r` is the root of the digits done. -/
def isqrtGo : Nat → Nat → Nat → Nat
  | 0, _, r => r
  | n + 1, x, r =>
    let c := r + 2 ^ n
    isqrtGo n x (if c * c ≤ x then c else r)

/-- ⌊√x⌋. -/
def isqrt (x : Nat) : Nat := isqrtGo (Nat.log2 x / 2 + 1) x 0

/-- The bits kept by quotients and roots. -/
def quotBits : Nat := 160

/-- The magnitude m·2ᵉ / (n·2ᵏ). -/
def divMag (m : Nat) (e : Int) (n : Nat) (k : Int) : Mag :=
  let sh := quotBits + Nat.log2 n
  ⟨m * 2 ^ sh / n, e - k - sh, m * 2 ^ sh % n ≠ 0⟩

/-- √(m·2ᵉ). -/
def sqrtMag (m : Nat) (e : Int) : Mag :=
  let sh : Int := 2 * quotBits + (if (e - 2 * quotBits) % 2 = 0 then 0 else 1)
  let x := m * 2 ^ sh.toNat
  let r := isqrt x
  ⟨r, (e - sh) / 2, r * r ≠ x⟩

/-- 1 / √(m·2ᵉ). -/
def rsqrtMag (m : Nat) (e : Int) : Mag :=
  let sh : Int := 2 * quotBits + 2 * Nat.log2 m + (if e % 2 = 0 then 0 else 1)
  let x := 2 ^ sh.toNat / m
  let r := isqrt x
  ⟨r, (-(e + sh)) / 2, r * r * m ≠ 2 ^ sh.toNat⟩

/-- `fdiv` (R169, R174). -/
def divVal (f : Fmt) (r : Rnd) (a b : FVal) (u : Nat) : Nat × Flags :=
  match a, b with
  | .nan s, .nan t => nanRes f (s || t)
  | .nan s, _ => nanRes f s
  | _, .nan t => nanRes f t
  | .inf _, .inf _ => nanRes f true
  | .inf s, .fin t _ _ => (infCode f (s != t), noFlags)
  | .fin s _ _, .inf t => (zeroCode f (s != t), noFlags)
  | .fin s m e, .fin t n k =>
    if n = 0 then (if m = 0 then nanRes f true else (infCode f (s != t), flagDZ))
    else if m = 0 then (zeroCode f (s != t), noFlags)
    else roundFmt f (s != t) (divMag m e n k) r u

/-- `frcp`. -/
def rcpVal (f : Fmt) (r : Rnd) (a : FVal) (u : Nat) : Nat × Flags := divVal f r (.fin false 1 0) a u

/-- `fsqrt`. -/
def sqrtVal (f : Fmt) (r : Rnd) (a : FVal) (u : Nat) : Nat × Flags :=
  match a with
  | .nan s => nanRes f s
  | .inf s => if s then nanRes f true else (infCode f false, noFlags)
  | .fin s m e =>
    if m = 0 then (zeroCode f s, noFlags)
    else if s then nanRes f true
    else roundFmt f false (sqrtMag m e) r u

/-- `frsq`. -/
def rsqVal (f : Fmt) (r : Rnd) (a : FVal) (u : Nat) : Nat × Flags :=
  match a with
  | .nan s => nanRes f s
  | .inf s => if s then nanRes f true else (zeroCode f false, noFlags)
  | .fin s m e =>
    if m = 0 then (infCode f s, flagDZ)
    else if s then nanRes f true
    else roundFmt f false (rsqrtMag m e) r u

/-! ### Conversions -/

/-- CvtFF (R76). -/
def cvtFF (d : Fmt) (r : Rnd) (a : FVal) (u : Nat) : Nat × Flags :=
  match a with
  | .nan s => nanRes d s
  | .inf s => if hasInf d then (infCode d s, noFlags) else nanRes d true
  | .fin s m e => roundFmt d s ⟨m, e, false⟩ r u

/-- CvtFI (R77): the integer and its flags. -/
def cvtFI (t : IntTy) (r : Rnd) (a : FVal) (u : Nat) : Int × Flags :=
  match a with
  | .nan _ => (0, flagIV)
  | .inf s => ((if s then tyMin t else tyMax t), flagIV)
  | .fin s m e =>
    if 200 < e + Nat.log2 m ∧ m ≠ 0 then ((if s then tyMin t else tyMax t), flagIV)
    else
      let (k, inexact) := roundInt s ⟨m, e, false⟩ r u
      let x := signed s k
      if x < tyMin t then (tyMin t, flagIV)
      else if tyMax t < x then (tyMax t, flagIV)
      else (x, flagIf inexact flagNX)

/-- CvtIF (R78). -/
def cvtIF (d : Fmt) (r : Rnd) (n : Int) (u : Nat) : Nat × Flags := roundFmt d (n < 0) ⟨n.natAbs, 0, false⟩ r u

/-- A literal in a floating slot: the E4M3 code converted to F (R32). -/
def litFloat (f : Fmt) (c : Nat) : Nat := if f = .e4m3 then c % 256 else (cvtFF f .rne (fval .e4m3 c) 0).1

/-! ### Blocks -/

/-- BlockValue(X, M, w) as an .f32 code (R79, R180); `m` is the w-bit mantissa, sign-extended. -/
def blockF32 (x : Nat) (m : Int) (w : Nat) : Nat :=
  if x = 255 ∨ m = -((2 ^ (w - 1) : Nat) : Int) then qnan .f32
  else if m = 0 then 0
  else (roundFmt .f32 (m < 0) ⟨m.natAbs, (x : Int) - 127 - ((w : Int) - 2), false⟩ .rne 0).1

/-- The exponent step of BlockPack (R80): X and whether it was limited to 254. -/
def blockExp (vs : List FVal) : Nat × Bool :=
  let e := vs.foldl (fun (acc : Option Int) v =>
    match v with
    | .fin _ m e => if m = 0 then acc else
        let t := e + Nat.log2 m
        match acc with
        | none => some t
        | some s => some (if s < t then t else s)
    | _ => acc) none
  match e with
  | none => (0, false)
  | some e => ((sat (e + 127) 0 254).toNat, decide (254 < e + 127))

/-- One element of BlockPack at exponent X (R80). -/
def blockElem (w : Nat) (r : Rnd) (x : Nat) (limited : Bool) (v : FVal) (u : Nat) : Int × Flags :=
  let nanM : Int := -((2 ^ (w - 1) : Nat) : Int)
  match v with
  | .nan _ | .inf _ => (nanM, flagIV)
  | .fin s m e =>
    let (k, inexact) := roundInt s ⟨m, e + ((w : Int) - 2) - ((x : Int) - 127), false⟩ r u
    if 2 ^ (w - 1) - 1 < k then (signed s (2 ^ (w - 1) - 1), { nx := true, of := limited })
    else (signed s k, { nx := inexact })

/-- BlockPack (R80); `us` are the draws, one an element. -/
def blockPack (w : Nat) (r : Rnd) (vs : List FVal) (us : List Nat) : Nat × List Int × Flags :=
  let (x, lim) := blockExp vs
  let rs := (vs.zip us).map fun p => blockElem w r x lim p.1 p.2
  (x, rs.map (·.1), flagsAll (rs.map (·.2)))

/-! ### The grouped dot product -/

/-- The exact product of two elements as a term; 0 × ∞ is a NaN (R81). -/
def termMul (a b : FVal) : FVal × Bool :=
  match a, b with
  | .nan _, _ | _, .nan _ => (.nan false, false)
  | .inf s, .inf t => (.inf (s != t), false)
  | .inf s, .fin t n _ => if n = 0 then (.nan false, true) else (.inf (s != t), false)
  | .fin s m _, .inf t => if m = 0 then (.nan false, true) else (.inf (s != t), false)
  | .fin s m e, .fin t n k => (.fin (s != t) (m * n) (e + k), false)

/-- The largest ⌊log₂⌋ over the non-zero terms. -/
def termsTop (ts : List FVal) : Option Int :=
  ts.foldl (fun acc v => match v with
    | .fin _ m e => if m = 0 then acc else
        let t := e + Nat.log2 m
        match acc with
        | none => some t
        | some s => some (if s < t then t else s)
    | _ => acc) none

/-- A term truncated toward zero to a multiple of 2^q: the multiple, and whether a non-zero bit was discarded. -/
def termTrunc (q : Int) (v : FVal) : Int × Bool :=
  match v with
  | .fin s m e =>
    if q ≤ e then (signed s (m * 2 ^ (e - q).toNat), false)
    else if e + Nat.log2 m < q then (0, m ≠ 0)
    else (signed s (m / 2 ^ (q - e).toNat), m % 2 ^ (q - e).toNat ≠ 0)
  | _ => (0, false)

/-- GroupSum (R81) with the flags of R82. -/
def groupSum (ts : List FVal) : Nat × Flags :=
  let pinf := ts.any (· == .inf false)
  let ninf := ts.any (· == .inf true)
  let opp := pinf && ninf
  if ts.any FVal.isNaN || opp then (qnan .f32, flagIf opp flagIV)
  else if pinf then (infCode .f32 false, noFlags)
  else if ninf then (infCode .f32 true, noFlags)
  else match termsTop ts with
    | none => (zeroCode .f32 (ts.all FVal.sign), noFlags)
    | some m =>
      let rs := ts.map (termTrunc (m - 31))
      let sum := rs.foldl (fun (a : Int) p => a + p.1) 0
      let (c, fl) := roundDy .f32 (sum, m - 31) false .rne 0
      (c, flagsOr fl (flagIf (rs.any (·.2)) flagNX))

/-- GroupedDot over the products in groups of `g`; `n` bounds the number of groups. -/
def groupedGo (g : Nat) : Nat → Nat → List FVal → Nat × Flags
  | 0, acc, _ => (acc, noFlags)
  | n + 1, acc, ps =>
    match ps with
    | [] => (acc, noFlags)
    | _ =>
      let (t, fl) := groupSum (fval .f32 acc :: ps.take g)
      let (t', fl') := groupedGo g n t (ps.drop g)
      (t', flagsOr fl fl')

/-- GroupedDot(acc, p, G) over elements `a`, `b` of format `f` (R81, R82). -/
def groupedDot (f : Fmt) (acc : Nat) (as bs : List Nat) : Nat × Flags :=
  let g := match f with
    | .e4m3 | .e5m2 | .mk8 => 16
    | _ => 8
  let ps := (as.zip bs).map fun p => termMul (fval f p.1) (fval f p.2)
  let sn := isSNaN .f32 acc || (as.any (isSNaN f)) || (bs.any (isSNaN f))
  let (t, fl) := groupedGo g (ps.length + 1) acc (ps.map (·.1))
  (t, flagsOr fl (flagIf (sn || ps.any (·.2)) flagIV))

end Sys2Proof.Machine
end

