-- ==== Sys2Proof/Machine/Func.lean ====
section
/-!
DEFINITION. Sys2Proof/Machine/Func.lean: the function tables (R83, R84, R176). φ(x) is taken from series in fixed point
with 1,024 fraction bits. Every result other than those held exactly is irrational, so it is never on a rounding
boundary; that no argument comes nearer to one than the error of the series is DEDUCED (log entry 13).
-/
namespace Sys2Proof.Machine

/-- The fraction bits of the fixed-point values of this file. -/
def fxW : Nat := 1024

/-- The fixed-point 1. -/
def fxOne : Nat := 2 ^ fxW

/-- Σ (±1)ᵏ / ((2k+1) n^(2k+1)), with alternating signs when `alt`: arctangent or artanh of 1/n. -/
def atanInvGo (alt : Bool) (n : Nat) : Nat → Nat → Nat → Int → Int
  | 0, _, _, acc => acc
  | fuel + 1, k, p, acc =>
    let t : Int := (p / (2 * k + 1) : Nat)
    atanInvGo alt n fuel (k + 1) (p / (n * n)) (if alt && k % 2 = 1 then acc - t else acc + t)

/-- π in fixed point. -/
def fxPi : Nat :=
  (16 * atanInvGo true 5 240 0 (2 ^ (fxW + 32) / 5) 0 - 4 * atanInvGo true 239 80 0 (2 ^ (fxW + 32) / 239) 0).toNat
    / 2 ^ 32

/-- ln 2 in fixed point. -/
def fxLn2 : Nat := (2 * atanInvGo false 3 340 0 (2 ^ (fxW + 32) / 3) 0).toNat / 2 ^ 32

/-- The sum of y^k / k! from the term `t` with index `k`. -/
def expGo (y : Nat) : Nat → Nat → Nat → Nat → Nat
  | 0, _, _, acc => acc
  | fuel + 1, k, t, acc => expGo y fuel (k + 1) (t * y / fxOne / k) (acc + t)

/-- eʸ in fixed point for 0 ≤ y < 1. -/
def fxExp (y : Nat) : Nat := expGo y 200 1 fxOne 0

/-- The alternating sum of y^(2j) / … from the term `t`, dividing by k(k+1): sine from k = 2, cosine from k = 1. -/
def trigGo (y2 : Nat) : Nat → Nat → Int → Int → Int
  | 0, _, _, acc => acc
  | fuel + 1, k, t, acc => trigGo y2 fuel (k + 2) (-(t * y2 / (fxOne * (k * (k + 1)) : Nat))) (acc + t)

/-- sin y for 0 ≤ y < π/2. -/
def fxSin (y : Nat) : Nat := (trigGo (y * y / fxOne) 130 2 y 0).toNat

/-- cos y for 0 ≤ y < π/2. -/
def fxCos (y : Nat) : Nat := (trigGo (y * y / fxOne) 130 1 fxOne 0).toNat

/-- Σ z^(2k+1) / (2k+1). -/
def artanhGo (z2 : Nat) : Nat → Nat → Nat → Nat → Nat
  | 0, _, _, acc => acc
  | fuel + 1, k, p, acc => artanhGo z2 fuel (k + 1) (p * z2 / fxOne) (acc + p / (2 * k + 1))

/-- ln of m / 2^log₂(m) in fixed point. -/
def fxLnMant (m : Nat) : Nat :=
  let b := 2 ^ Nat.log2 m
  let z := (m - b) * fxOne / (m + b)
  2 * artanhGo (z * z / fxOne) 330 0 z 0

/-- The alternating sum of y^(2n+1) / (n! (2n+1)). -/
def erfGo (y2 : Nat) : Nat → Nat → Int → Int → Int
  | 0, _, _, acc => acc
  | fuel + 1, n, t, acc =>
    erfGo y2 fuel (n + 1) (-(t * y2 / (fxOne * (n + 1) : Nat))) (acc + t / (2 * n + 1 : Nat))

/-- m·2ᵉ in fixed point, the bits below dropped. -/
def toFx (m : Nat) (e : Int) : Nat := if 0 ≤ e + fxW then m * 2 ^ (e + fxW).toNat else m / 2 ^ (-(e + fxW)).toNat

/-- The magnitude just below 1. -/
def belowOne : Mag := ⟨fxOne - 1, -(fxW : Int), true⟩

/-- A fixed-point magnitude that is not exact. -/
def fxMag (m : Nat) (sh : Int) : Mag := ⟨m, sh - fxW, true⟩

/-- eʸ for y in fixed point, y ≥ 0: mantissa in fixed point and power of two. -/
def expSplit (y : Nat) : Nat × Nat := (fxExp (y % fxLn2), y / fxLn2)

/-- The functions of R176. -/
inductive FnKind where
  | exp2 | log2 | sin | cos | tanh | erf | sig
  deriving DecidableEq, Repr

/-- φ(x) of a finite non-zero x = ±m·2ᵉ in the domain: sign, magnitude. -/
def phi (k : FnKind) (s : Bool) (m : Nat) (e : Int) : Bool × Mag :=
  let top := e + Nat.log2 m
  match k with
  | .exp2 =>
    if 14 ≤ top then (false, if s then ⟨1, -100000, true⟩ else ⟨1, 100000, true⟩)
    else
      let x : Int := signed s (toFx m e)
      let n := x / (fxOne : Nat)
      let f := (x % (fxOne : Nat)).toNat
      if f = 0 then (false, ⟨1, n, false⟩) else (false, fxMag (fxExp (f * fxLn2 / fxOne)) n)
  | .log2 =>
    let b := Nat.log2 m
    if m = 2 ^ b then ((e + b : Int) < 0, ⟨(e + b).natAbs, 0, false⟩)
    else
      let r : Int := (e + b) * fxOne + (fxLnMant m * fxOne / fxLn2 : Nat)
      (decide (r < 0), fxMag r.natAbs 0)
  | .sin | .cos =>
    let x := toFx m e
    let h := fxPi / 2
    let q := x / h
    let r := x % h
    let j := (if k = .cos then q + 1 else q) % 4
    let y := if j % 2 = 0 then fxSin r else fxCos r
    ((k = .sin && s) != decide (2 ≤ j), fxMag y 0)
  | .tanh =>
    if 6 ≤ top then (s, belowOne)
    else
      let (g, n) := expSplit (2 * toFx m e)
      let x := g * 2 ^ n
      (s, fxMag ((x - fxOne) * fxOne / (x + fxOne)) 0)
  | .erf =>
    if 3 ≤ top then (s, belowOne)
    else
      let y := toFx m e
      let sum := (erfGo (y * y / fxOne) 640 0 y 0).toNat
      (s, fxMag (2 * sum * fxOne / isqrt (fxPi * fxOne)) 0)
  | .sig =>
    if 12 ≤ top then (false, if s then ⟨1, -100000, true⟩ else belowOne)
    else
      let (g, n) := expSplit (toFx m e)
      let x := g * 2 ^ n
      if s then (false, ⟨fxOne * 2 ^ (fxW + n) / (fxOne + x), -((fxW + n : Nat) : Int), true⟩)
      else (false, fxMag (x * fxOne / (fxOne + x)) 0)

/-- TruncBits(y, P) of a magnitude (R83). -/
def truncBits (x : Mag) (p : Nat) : Mag :=
  let n := Nat.log2 x.m + 1
  if n ≤ p then { x with sticky := false } else ⟨x.m / 2 ^ (n - p), x.e + (n - p : Nat), false⟩

/-- P_v (R83); version 4 is unbounded. -/
def ftvBits (v : Nat) : Option Nat := match v with
  | 1 => some 16
  | 2 => some 20
  | 3 => some 28
  | _ => none

/-- FuncTable (R83) with the flags of R176. -/
def funcTable (v : Nat) (k : FnKind) (s : Bool) (m : Nat) (e : Int) (f : Fmt) (r : Rnd) (u : Nat) : Nat × Flags :=
  let (neg, x) := phi k s m e
  let y := match ftvBits v with
    | some p => truncBits x p
    | none => x
  let (c, fl) := roundFmt f neg y r u
  let full := (roundFmt f neg x r u).2
  (c, { fl with nx := fl.nx || x.sticky, uf := if x.sticky then full.uf else fl.uf })

/-- The functions of R176 on a value. -/
def fnVal (v : Nat) (k : FnKind) (f : Fmt) (r : Rnd) (a : FVal) (u : Nat) : Nat × Flags :=
  let one := (roundFmt f false ⟨1, 0, false⟩ .rtz 0).1
  let sgn (s : Bool) (c : Nat) : Nat := if s then c + 2 ^ (fmtWidth f - 1) else c
  match a with
  | .nan s => nanRes f s
  | .inf s =>
    match k with
    | .exp2 => ((if s then 0 else infCode f false), noFlags)
    | .log2 => if s then nanRes f true else (infCode f false, noFlags)
    | .sin | .cos => nanRes f true
    | .tanh | .erf => (sgn s one, noFlags)
    | .sig => ((if s then 0 else one), noFlags)
  | .fin s m e =>
    if m = 0 then
      match k with
      | .exp2 | .cos => (one, noFlags)
      | .log2 => (infCode f true, flagDZ)
      | .sin | .tanh | .erf => (zeroCode f s, noFlags)
      | .sig => ((roundFmt f false ⟨1, -1, false⟩ .rtz 0).1, noFlags)
    else if k = .log2 ∧ s then nanRes f true
    else funcTable v k s m e f r u

end Sys2Proof.Machine
end

