-- ==== Sys2Proof/Machine/Types.lean ====
section
/-!
DEFINITION. Sys2Proof/Machine/Types.lean: the parts of a core and its groups, lanes, teams and barriers that State holds
(R13, R131, R134, R142, R182, R253, R258, R265), the memory units of a core (R200), and what is outstanding in it.
-/
namespace Sys2Proof.Machine

/-- Memory: (address, byte) pairs with rising addresses, no byte equal to what an unlisted address reads as. -/
abbrev Memory := List Host.Cell

/-- A register file. -/
abbrev Regs (n : Nat) := Vector Word n

/-- How a lane is held (R258). -/
inductive HoldKind where
  | none | arrive | token
  deriving DecidableEq, Repr

/-- The record a lane is held at (R258); the coding of HR (R343). -/
inductive HoldRec where
  | team (b : Fin 4) | cluster | grid
  deriving DecidableEq, Repr

/-- The state of one batch of a lane (R282). -/
inductive BatchState where
  | empty | sealed | complete
  deriving DecidableEq, Repr

/-- One lane position (R131, R134, R182, R258, R282, R326, R331). -/
structure Lane where
  v : Regs 64
  p : Vector Bool 8
  lpc : DWord
  resw : Nat
  tlpc : DWord
  rln : Nat
  rstep : Word
  ridx : Word
  lat : Vector QWord 16
  hk : HoldKind
  hr : HoldRec
  hg : Word
  inHandler : Bool
  thdr : DWord
  tw : Nat
  hsave : Regs 4
  /-- The open set: identifiers of copies (R282). -/
  open_ : List Nat
  /-- The 16 batches: state and the copies in each. -/
  batch : Vector (BatchState × List Nat) 16
  deriving DecidableEq, Repr

/-- The states of a group context (R142). -/
inductive GState where
  | run | wait | parked | saved | halted | exiting
  deriving DecidableEq, Repr

/-- The clause a group is issuing (R23, R39, R136, R185). `words` are the instruction words fetched whole (R235); `k` is
the next word, `live` the lanes no transfer has ended (R144), `gx` the latches of a clause that runs once. -/
structure Cursor where
  base : Nat
  ecl : EClass
  words : List Nat
  k : Nat
  issuing : List Nat
  live : List Nat
  gx : Vector QWord 16
  step : Word
  /-- The clock at which the next word may start on the port (R138). -/
  start : Nat := 0
  deriving DecidableEq, Repr

/-- What a group waits for (R28, R52, R142, R273). -/
inductive Blk where
  | header
  | instr
  | smwait | stepadv | gfuse | gsplit | bind
  /-- a replayable fetch fault: the address that faulted, the line of the entry that faulted, whether it was written
  since, and whether the record was dropped (R235) -/
  | fetch (va line : Nat) (touched dropped : Bool)
  deriving DecidableEq, Repr

/-- A deferred trap (R330): its cause, the lane positions, the resume point or none for the lane's own position, its
detail and information words, and whether the instruction that faulted was issued in handler mode. -/
structure Deferred where
  code : Nat
  lanes : List Nat
  resume : Option (Nat × Nat)
  detail : Nat
  info : List (Nat × Nat)
  inHandler : Bool
  lats : List (Nat × Vector QWord 16)
  deriving DecidableEq, Repr

/-- A group context with its scalar set (R131, R132, R140, R142, R333). -/
structure Group where
  gbase : Nat
  gwid : Nat
  grpix : Nat
  place : Nat
  role : Role
  scal : Regs 256
  sb : Vector Nat 8
  gst : Word
  ftv : Word
  hmode : Bool
  hcause : Nat
  state : GState
  cur : Option Cursor
  blk : Option Blk
  /-- The live map, whether the save is full, and the live scratchpad ranges named at a stop point (R146). -/
  live : Nat
  full : Bool
  ranges : List (Nat × Nat)
  /-- The clock from which the next clause may issue (R139), the clock at which the group last became ready, and the
  count of times it was passed over (R140). -/
  nextClk : Nat
  age : Option Nat
  passed : Nat
  /-- The clock at which it was last passed over. -/
  passClk : Option Nat
  deferred : List Deferred
  /-- The clock at which the wait in progress began, and the phase of a blocking instruction. -/
  since : Nat
  phase : Nat
  /-- The status of the first check of R148 that a change of its buddy has made fail while the group waits in `gfuse`. -/
  fuseFail : Option Nat := none
  deriving DecidableEq, Repr

/-- A barrier record (R254). -/
structure BarRec where
  gen : Word
  exp : Nat
  arr : Nat
  mlo : Nat
  mlg : Nat
  mv : Bool
  /-- The team lane numbers (or (team, lane number) codes) that have arrived. -/
  amap : List Nat
  deriving DecidableEq, Repr

/-- The states of a team (R127); a team that has exited is no longer held, and a SAVED one is held by its image. -/
inductive TState where
  | active | parked | halted
  deriving DecidableEq, Repr

/-- A mapped team bank number (R289 to R291): its physical bank, GBASE of its holder, which of its four bands are LIVE, its
place in start order, and the place of the event that frees it (R294). -/
structure Bank where
  phys : Nat
  holder : Nat
  bands : List Bool
  mapAt : Nat
  freeAt : Option Nat
  deriving DecidableEq, Repr

/-- A resident team (R117 to R127). The groups of a parked team stand under context numbers from 512 up and at lane positions
from 2 ^ 20 up, which no admission takes; their resources are free. -/
structure Team where
  grid : Nat
  n : Nat
  ctx : Nat
  base : Nat
  size : Nat
  prio : Nat
  state : TState
  recs : Vector BarRec 4
  sems : Tab Word
  banks : Tab Bank
  /-- Whether the team may unpark, and since when (R125). -/
  ready : Option Nat
  deriving DecidableEq, Repr

/-- A line of L1 (R200): bytes, dirty mask, bytes dirtied by `.team` atomics, bytes a home atomic wrote since the fill
(R212), poisoned bytes, read-only tag, clocks of the fill and of the first dirty byte, the table lines its translation read,
and the masks of dirty bytes that reach the home together (R211). -/
structure Line where
  data : List Byte
  dirty : Nat
  teamMask : Nat
  lost : Nat
  poison : Nat
  ro : Bool
  fillClk : Nat
  dirtyClk : Nat
  deps : List Nat
  units : List Nat
  deriving DecidableEq, Repr

/-- A line of the write-combining buffer (R200): bytes by offset, the clock of its first write, the table lines of its
translations, and the masks of bytes that reach the home together (R211). -/
structure WLine where
  bytes : Tab Byte
  firstClk : Nat
  deps : List Nat
  units : List Nat
  deriving DecidableEq, Repr

/-- A write that has left a core and is not yet performed at its home (R201); each of its `units` is performed whole, the
units in any order (R204, R211). -/
structure Flight where
  line : Nat
  bytes : Tab Byte
  /-- Bytes to drop where a home atomic has written since (R212). -/
  lost : Nat
  deps : List Nat
  units : List Nat
  deriving DecidableEq, Repr

/-- Where an access goes (R92, R198). -/
inductive Target where
  /-- bytes of a scratchpad: core and byte addresses within it -/
  | scr (core : Nat) (addrs : List Nat)
  /-- physical addresses of the bytes, their home attribute (R227), and the table lines read -/
  | home (pas : List Nat) (attr : Nat) (deps : List Nat)
  /-- the range of a cache-control instruction: (physical address, length) pairs (R219) -/
  | range (spans : List (Nat × Nat))
  /-- a pod peer's export window: member and offset -/
  | peer (m ofs : Nat)
  deriving DecidableEq, Repr

/-- What an outstanding memory instruction does in each lane when its access is performed. -/
inductive AccKind where
  | load (w : Width) (ro : Bool)
  | lds (w : Width)
  | ldx (n : Nat)
  | atom (op : AtomOp) (ty : IntTy) (team : Bool)
  | cas (w64 : Bool) (team : Bool)
  | waitc (c : WaitCmp) (w64 : Bool)
  | store (n : Nat)
  | red (op : FoldOp) (ty : IntTy) (team : Bool)
  | range (op : Nat)
  | ldv (w : Width) (nt : Bool)
  | stv (n : Nat)
  | vpub
  /-- an access of the engine command `cmd` to a pod member: a read of `n` bytes or a write -/
  | engine (cmd : Nat) (read : Bool)
  /-- a flush to a pod member that a release waits for (R210) -/
  | flush
  deriving DecidableEq, Repr

/-- One register write of an outstanding result: to a vector register of a lane, or to a scalar register (R42). -/
inductive RegWrite where
  | vec (pos reg : Nat) (x : Word)
  | sca (reg : Nat) (x : Word)
  deriving DecidableEq, Repr

/-- One lane's part of an outstanding instruction: position, effective address, size in bytes, target (none while it is
logged or not yet resolved), its data (`x`), its compare value, stamp or minimum step (`y`), the version record of its
region and the frame set it reads, and its progress: 0 waiting, 1 accepted, 2 refused, 3 in the operand log, 4 a monitor
stands, 5 decided while parked, 6 performed with register writes still to come. `deps` are the table lines of its
translation (R232), `regs` the versioned regions that a plain read pins (R230), `got` the bytes that a read has returned
so far (R211), with `bad` once one was poisoned, and `left` the register writes still to come (R42). An access on path 0xA
holds the offset `own` in the module's own window (R346), or the `port` of its flow and the clock at which it left (R348). -/
structure Acc where
  pos : Nat
  va : Nat
  n : Nat
  tgt : Option Target
  x : Nat
  y : Nat
  reg : Option Nat
  fs : Nat
  st : Nat
  deps : List Nat := []
  regs : List Nat := []
  got : Tab Byte := []
  bad : Bool := false
  left : List RegWrite := []
  own : Option Nat := none
  port : Option Nat := none
  clk : Nat := 0
  deriving DecidableEq, Repr

/-- An outstanding instruction of a group (R41, R175, R189, R214): its group context and team place, its slot (none for
an instruction that has retired), its kind and destination, the lanes of C, the lanes still to be performed in ascending
order, the clause header and word it was issued at, whether in handler mode, the latches of its lanes (R236), the pins
it holds (R245), the clock at which each region first refused it (R248), whether a commit has sent its access to a
pod member (R394) or a `vpub` its requests to the region homes (R250), and its context slot. -/
structure Pend where
  ctx : Nat
  place : Nat
  slot : Option Nat
  kind : AccKind
  dst : Operand
  lanes : List Nat
  accs : List Acc
  hdr : Nat
  k : Nat
  hm : Bool
  lats : List (Nat × Vector QWord 16)
  pins : List (Nat × Nat)
  refused : Tab Nat
  sent : Bool
  slotCtx : Nat
  deriving DecidableEq, Repr

/-- A scoreboarded register result computed at issue and written at completion, register by register (R42, R174, R189,
R195): the writes still to come. -/
structure Result where
  ctx : Nat
  slot : Nat
  left : List RegWrite
  gst : Nat
  /-- whether the divide unit or the reduction network holds it -/
  divide : Bool
  deriving DecidableEq, Repr

/-- A faulted lane in the operand log: position, page code, level, the line of the entry that faulted, whether a write
to that line was performed since, and whether its record was dropped (R236). -/
structure LogLane where
  pos : Nat
  va : Nat
  code : Nat
  level : Nat
  line : Nat
  touched : Bool
  dropped : Bool
  deriving DecidableEq, Repr

/-- An entry of the operand log (R236): the request it belongs to, its context slot, its access kind (R334), its faulted
lanes, and the clock from which its next timed retry counts. -/
structure LogEntry where
  pend : Nat
  slotCtx : Nat
  acc : Nat
  lanes : List LogLane
  since : Nat
  deriving DecidableEq, Repr

/-- A TLB entry (R231): context, page number and the size of the page as a power of two; PA, or the version record of a
versioned region; HOME, U and RO; and the table lines it came from. It affects timing only. -/
structure TlbEntry where
  ctx : Nat
  page : Nat
  bits : Nat
  pa : Nat
  home : Nat
  user : Bool
  ro : Bool
  deps : List Nat
  deriving DecidableEq, Repr

/-- The states of a copy (R281), used for every T command that a core holds. -/
inductive CmdState where
  | waiting | running | stalled | draining
  deriving DecidableEq, Repr

/-- A T command that a core holds (R38, R278, R281, R294): the instruction, the group and lane that own it, its
threshold and block as read at issue, its progress, a decoded shape record, values reserved at issue (draws), its
status and the flags it has gathered, its place in start order, and the lanes of C. -/
structure Cmd where
  i : Instr
  ctx : Nat
  owner : Nat
  place : Nat
  lpc : Nat
  hm : Bool
  thr : Word
  block : List Nat
  state : CmdState
  prog : Nat
  prog2 : Nat
  shape : List Nat
  aux : List Nat
  status : Nat
  gst : Nat
  order : Option Nat
  lanes : List Nat
  poisoned : Bool
  /-- the table line whose write lets a stalled element retry (R236), and whether such a write has happened -/
  faultLine : Nat
  touched : Bool
  seq : Nat
  /-- the address of that fault, whether its record was dropped from a full queue, and the clock of the fault (R236, R336) -/
  faultVa : Nat := 0
  dropped : Bool := false
  faultClk : Nat := 0
  deriving DecidableEq, Repr

/-- One core (R13, R131, R140, R198 to R200, R206, R231, R236, R278, R294). Lane positions without an entry hold no
live lane; group contexts without an entry are FREE. -/
structure Core where
  lanes : Tab Lane
  groups : Tab Group
  teams : Tab Team
  scratch : Memory
  scratchPoison : List Nat
  l1 : Tab Line
  wcb : Tab WLine
  flights : Tab Flight
  /-- Last sequence number consumed at the die board and at the module board (R206). -/
  seenDie : Nat
  seenMod : Nat
  /-- The signature to post next at the die board and at the module board, as 2,048-bit masks. -/
  sigDie : Nat
  sigMod : Nat
  /-- Pod members written since the last release at pod scope (R210). -/
  peersWritten : List Nat
  tlb : List TlbEntry
  log : Tab LogEntry
  pend : Tab Pend
  results : Tab Result
  cmds : Tab Cmd
  /-- ACCM: words of physical bank b at row r, column c under key (b × 64 + r) × 128 + c; unlisted words are 0. -/
  accm : Tab Word
  /-- The round-robin pointers of the nine ports (R140) and the first clock at which each port may start again (R138, R139). -/
  ptr : Vector Nat 9
  portFree : Vector Nat 9
  /-- The clock of the latest choice of a vector pipe, and the pipe that chooses next on it (R140). -/
  pipeTurn : Nat × Nat
  /-- The next place in the matrix engine's start order (R294). -/
  nextOrder : Nat
  /-- The next identifier of an outstanding thing, and the next sequence number. -/
  nextId : Nat
  retired : Bool
  deriving DecidableEq, Repr

/-- A condition monitor (R268): the word, the comparison, and the lane that waits (core, request, position). -/
structure Mon where
  pa : Nat
  n : Nat
  cmp : WaitCmp
  val : Nat
  core : Nat
  pend : Nat
  pos : Nat
  deriving DecidableEq, Repr

/-- A signature board (R206): the number of posts so far and the latest 256 signatures, newest first. -/
structure Board where
  seq : Nat
  posts : List Nat
  deriving DecidableEq, Repr

/-- A link port (R350, R351). `st` is STATE; `fails` counts failed trainings in a row; `retrain` is set while the port
trains after RETRAIN; `errs` are the clocks of the latest 17 uncorrectable codewords, newest first. -/
structure Port where
  st : Nat
  lanes : Nat
  en : Bool
  fails : Nat
  retrain : Bool
  errs : List Nat
  corr : DWord
  uncorr : DWord
  replay : DWord
  drop : DWord
  deriving DecidableEq, Repr

/-- The link register file, the MSI-X table and what the module has sent (R336, R345 to R351). -/
structure Link where
  pv : Bool
  podix : Nat
  peerctx : DWord
  expbase : Nat
  explog : Nat
  ports : Vector Port 45
  peerlog : Tab Nat
  msixTable : Memory
  msixPend : List Nat
  /-- MSI-X messages sent, newest first: vector, address, data. -/
  msixSent : List (Nat × Nat × Nat)
  /-- Messages to peers, newest first, as (kind, member, value): 0 window announcement, 1 flush, 2 the data of a read or an
  atomic, 3 poisoned data, 4 the acknowledgement of a write or a flush, 5 a refusal. -/
  sent : List (Nat × Nat × Nat)
  /-- Requests to other members, newest first: member, offset, request (R346). -/
  peerReqs : List (Nat × Nat × PeerOp)
  /-- The flows with outstanding requests, by member × 2 ^ 44 + line: their port and how many are outstanding (R346). -/
  flows : Tab (Nat × Nat)
  /-- The signature gathered from posted host writes (R209) and from each peer (R210). -/
  hostSig : Nat
  peerSigs : Tab Nat
  deriving DecidableEq, Repr

/-- An access staged in a transit unit (R393, R394): grid, team index and core, the request of an `atom` or `cas` that
waits for it, the access and its kind, its bytes when it is a plain write, those of them that are poisoned, the lane's RLN, the clause header it was
issued at, the commit at which it became due, its epoch, and its place in issue order. -/
structure Staged where
  grid : Nat
  n : Nat
  core : Nat
  ctx : Nat
  pend : Option Nat
  rln : Nat
  kind : AccKind
  acc : Acc
  bytes : List (Nat × Byte)
  due : Option Nat
  epoch : Nat
  seq : Nat
  bad : List Nat := []
  deriving DecidableEq, Repr

/-- The conflict record of a line (R396): epoch, lowest and highest team of the plain writers, atomics, readers,
read-only readers and `waitc.ge` waiters, and the mark of a staged access that is no counting add. -/
structure Conflict where
  grid : Nat
  epoch : Nat
  writer : Option (Nat × Nat)
  atomic : Option (Nat × Nat)
  reader : Option (Nat × Nat)
  roReader : Option (Nat × Nat)
  waiter : Option (Nat × Nat)
  /-- lowest and highest team that staged an access other than a counting add -/
  nonCounter : Option (Nat × Nat)
  deriving DecidableEq, Repr

/-- An access that the link has forwarded to a region home and that waits there (R241 to R244). -/
structure Publication where
  record : Nat
  stamp : Nat
  core : Nat
  pend : Nat
  pos : Nat
  /-- 0: a `vpub` lane; otherwise 1 + the handle of a collective (R364). -/
  source : Nat
  deriving DecidableEq, Repr

end Sys2Proof.Machine
end

