-- ==== Sys2Proof/Machine/State.lean ====
section
/-!
DEFINITION. Sys2Proof/Machine/State.lean: the state of one Ixond module as plain data, its faults and refusals, and the
state after reset. INVENTORY.md lists each field with its rule and its reset value.
-/
namespace Sys2Proof.Machine

/-- Why the machine stops with a fault. -/
inductive Fault where
  /-- An instruction word is executed while no group stands at a clause word (`step` never does this). Raised by the
  shared prologue of every instruction word. Safe: the hardware has no such case. -/
  | noIssuingGroup
  deriving DecidableEq, Repr

/-- Why the model has no meaning for an instruction. -/
inductive Refusal where
  /-- The instruction named has no meaning in this model yet. Raised by an arm of `exec`. Safe. -/
  | notModelled (mnemonic : String)
  deriving DecidableEq, Repr

/-- The states of a context slot (R90). -/
inductive CtxState where
  | empty | loaded | active | stopping | stopped | halted
  deriving DecidableEq, Repr

/-- A context slot (R87, R88, R90), the clock of its STOP, who waits for that STOP, the Zenith count (R273), and the images
refused (R338). -/
structure Ctx where
  state : CtxState
  hbase : DWord
  hlim : DWord
  hofs : DWord
  ptroot : DWord
  tqbase : DWord
  svbase : DWord
  rkey : DWord
  bkey : Word
  ctxcfg : Word
  lead : BitVec 8
  ftvd : BitVec 3
  zwt : Word
  dln : BitVec 16
  step : Word
  saved : Word
  stopClk : Nat
  stopper : Option (Nat × Nat)
  zcount : Nat
  zissued : Bool
  zclk : Nat
  /-- The images that a restore found inconsistent, as (GRIDIX, team) (R338). -/
  refused : List (Nat × Nat) := []
  deriving DecidableEq, Repr

/-- A grid in flight (R113, R115 to R124, R253, R392). `lo` is the lowest index not handed down. -/
structure Grid where
  ctx : Nat
  kimg : DWord
  entry : DWord
  vregs : Nat
  wcode : Nat
  groups : Nat
  scratch : Nat
  roles : Nat
  gx : Nat
  gy : Nat
  gz : Nat
  cw : Nat
  ch : Nat
  gbar : Bool
  args : DWord
  compl : DWord
  prio : Nat
  lo : Nat
  /-- Indices of the teams that have exited, rising. -/
  gone : List Nat
  placed : Bool
  /-- The KERNEL node to tell: die, queue, node address (R124). -/
  node : Option (Nat × Nat × Nat)
  rec_ : Option BarRec
  /-- The cluster barrier records by cluster number. -/
  crecs : Tab BarRec
  /-- Deterministic operation: epoch, the teams that have closed it, rising, and the step of the grid (R392, R400). -/
  epoch : Nat
  closed : List Nat
  step : Word
  /-- The line of the entry at which the add at COMPL faulted, whether it was written since, and whether the record was
  dropped (R124, R236). -/
  cfLine : Option Nat
  cfTouched : Bool
  cfDropped : Bool
  /-- The clock of the latest try of that add (R236). -/
  cfClk : Nat := 0
  deriving DecidableEq, Repr

/-- What happens next, in order: one word of the clause a group is issuing, an event, one advance of a T command that
has no event row, or the passing of `n` clocks. The model's own. -/
inductive Sched where
  | word (core ctx : Nat)
  | event (i : Instr)
  | cmd (core id : Nat)
  | tick (n : Nat)
  deriving DecidableEq, Repr

/-! ### The queue cores and the distributors -/

/-- A node that a queue core has started: its address, its type, its words as they were read when it started, the descriptor
of its queue, the grid it launched, the bytes a COPY has written, whether its work is done, and the clock at which it
started (R107, R108). -/
structure NodeRun where
  node : Nat
  typ : Nat
  words : List Nat
  desc : Nat
  grid : Option Nat
  prog : Nat
  done : Bool
  since : Nat
  deriving DecidableEq, Repr

/-- A queue as its walker holds it (R101, R111). `st`: 0 FREE, 1 STOPPED, 2 IDLE, 3 READY, 4 BUSY, 5 FAULTED. `desc` and
`ctx` are the values in force, `newDesc` and `newCtx` those of the entry as last read; `sig` is the signature of the lines
that its nodes have written and not yet posted (R108). -/
structure Queue where
  desc : Nat
  ctx : Nat
  newDesc : Nat
  newCtx : Nat
  en : Bool
  prio : Nat
  st : Nat
  cur : Nat
  busy : Option NodeRun
  nowait : List NodeRun
  sig : Nat
  deriving DecidableEq, Repr

/-- A queue core (R99, R101): GEN as last read, its 32 queues, the queue it served last at each priority, and the last post
of its die board that it has passed on (R108). -/
structure Walker where
  gen : Nat
  queues : Vector Queue 32
  last : Vector Nat 8
  seenDie : Nat
  deriving DecidableEq, Repr

/-- A range of team indices [lo, hi) of a grid, with the priority it carries (R119). -/
structure Range where
  grid : Nat
  lo : Nat
  hi : Nat
  prio : Nat
  deriving DecidableEq, Repr

/-! ### The step (R374 to R388) -/

/-- A member entry of an ephemeris replica (R374). -/
structure MemberEnt where
  mem : Bool
  sil : Bool
  step : Word
  deriving DecidableEq, Repr

/-- A pod entry (R374). -/
structure PodEnt where
  nlive : Nat
  mem : Bool
  sil : Bool
  min : Word
  deriving DecidableEq, Repr

/-- A membership change: a rank, or a pod of that number, is silent, or a rank has joined with a step (R378, R388). -/
structure Mark where
  join : Bool
  pod : Bool
  rank : Nat
  step : Word
  deriving DecidableEq, Repr

/-- A replica of the ephemeris: member entries by PODIX and pod entries by pod; entries not listed are zero. `due` are the membership
changes that it has not taken yet, in epoch order (R375, R378). -/
structure Replica where
  members : Tab MemberEnt
  pods : Tab PodEnt
  due : List Mark := []
  deriving DecidableEq, Repr

/-- An entry of the sequencer log (R387). -/
structure SeqLog where
  lsn : Nat
  kind : Nat
  cid : Nat
  step : Nat
  a : Nat
  h : Nat
  deriving DecidableEq, Repr

/-- The step descriptor in force (R376), the membership epoch, the highest step that a wait of this pod needs (R378), and
the clocks of the last change of each member's STEP and of each pod's last beacon. -/
structure StepCtx where
  bound : Bool
  rank : Nat
  sctx : Nat
  sto : Nat
  bper : Nat
  buddy : Nat
  keep : Nat
  ksz : Nat
  epoch : Nat
  need : Nat
  changed : Tab Nat
  beacons : Tab Nat
  sentBeacon : Nat
  /-- The slot of the keep area that the next exposure drain fills (R385). -/
  keepSlot : Nat := 0
  /-- The highest step that beacons of other pods said a wait needs (R378). -/
  farNeed : Nat := 0
  deriving DecidableEq, Repr

/-- Who waits for an exposure or a join: a command of a core, or a queue. -/
inductive Owner where
  | cmd (core id : Nat)
  | node (die q : Nat)
  deriving DecidableEq, Repr

/-- An exposure or a join (R383 to R388): whether the module is stopped and since when, whether a drain runs, for whom, the
image, the pins it set as (record, frame set), the ranks of a join, and the outcomes not yet collected, as (owner, XID,
status). -/
structure Exposure where
  stopped : Bool
  since : Nat
  maxst : Nat
  draining : Bool
  joining : Bool
  owner : Option Owner
  ctx : Nat
  img : Nat
  isz : Nat
  regions : List Nat
  xid : Nat
  pins : List (Nat × Nat)
  hold : Nat
  peer : Nat
  rank : Nat
  done : List (Owner × Nat × Nat)
  deriving DecidableEq, Repr

/-! ### The collective (R352 to R372) -/

/-- A contribution held by a chunk root: the member's position, its block exponents and its mantissas, `none` marking an
element NaN. -/
structure Contrib where
  pos : Nat
  exps : List Nat
  mants : List (List (Option Int))
  deriving DecidableEq, Repr

/-- An instance (R356, R359 to R365). `st`: 1 OPEN, 2 SUMMING, 3 PUBLISHING, 4 LATE. -/
structure Inst where
  t : Nat
  st : Nat
  live : List Nat
  quorum : Nat
  /-- Values that this module has put, by block, as .f32 codes, and the chunks put. -/
  values : Tab (List Nat)
  chunks : List Nat
  poisonedOwn : Bool
  /-- Block exponents of the members that have arrived. -/
  arrived : List Contrib
  firstArr : Option Nat
  closedAt : Nat
  onTime : List Nat
  lateSet : List Nat
  xa : List Nat
  timed : Bool
  ndisc : Nat
  npois : Nat
  limited : Bool
  /-- Mantissas of the on-time members. -/
  sums : List Contrib
  /-- Late contributions of this step, in the order of their notices; held for the next step. -/
  late : List Contrib
  /-- Result codes by chunk, and the flags of the header. -/
  result : Tab (List Nat)
  flags : Nat
  /-- Regions whose frames are written and published so far. -/
  written : Bool
  published : Nat
  /-- The module's own late contribution until it is delivered to the chunk roots (R362). -/
  ownLate : Option Contrib := none
  /-- Members dropped for poison, and those whose late contribution to this step was (R363). -/
  dropped : List Nat := []
  lateGone : List Nat := []
  deriving DecidableEq, Repr

/-- An open collective (R352 to R358, R366, R371, R372). -/
structure Coll where
  ctx : Nat
  rva : Nat
  step0 : Nat
  params : CollParams
  ranks : List Nat
  own : Nat
  closing : Bool
  broken : Bool
  disc : Word
  mism : Word
  next : Nat
  insts : List Inst
  /-- The newest step that has published here, if any. -/
  newest : Option Nat
  /-- The newest step that each peer has reported FREE, by position. -/
  freed : Tab Nat
  held : List CollMsg
  closer : Option Owner
  deriving DecidableEq, Repr

/-- A message that the module has sent to other modules (R349, R355 to R364, R375, R378, R385). -/
inductive OutMsg where
  | advance (step : Nat)
  | beacon (min nlive epoch need : Nat)
  | need (step : Nat)
  | silent (pod : Bool) (rank epoch : Nat)
  | coll (m : CollMsg)
  | drain (buddy xid len : Nat)
  | pull (rank xid : Nat)
  deriving DecidableEq, Repr

/-! ### Device life (R402 to R411) -/

/-- The life states of the module (R402). -/
inductive Life where
  | off | selftest | safe | recovery | run | halt
  deriving DecidableEq, Repr

/-- The root of trust, the self-test record and the MCTP endpoint (R403 to R407, R411). -/
structure Root where
  /-- The firmware image in flash, and the staging window of R405. -/
  flash : List Byte
  staging : Memory
  fusedSvn : Nat
  svn : Nat
  pwrgd : Bool
  dieMap : BitVec 24
  mdMap : BitVec 4
  failUnit : Nat
  stage : Nat
  result : Nat
  retired : List Nat
  /-- Cores to retire at the next start, and voltage steps of 5 mV by core. -/
  retireNext : List Nat
  volts : Tab Nat
  tripped : Bool
  /-- SPDM: 0 nothing negotiated, 1 version, 2 capabilities, 3 algorithms. -/
  spdm : Nat
  replies : List (List Byte)
  /-- An MCTP RECOVER that came in RUN waits for every context to be HALTED or EMPTY (R402). -/
  recover : Bool := false
  deriving DecidableEq, Repr

/-- The power arbiter (R408 to R410): GBUD, the shares of the 24 dies, the core each die served last (+1), and whether a die
is cooling down. -/
structure Power where
  gbud : Nat
  shares : Vector Nat 24
  last : Vector Nat 24
  cooling : Bool
  /-- The 10 µs periods, counted by CLK, of the last grant sharing and of the last reading of the junction sensors (R408, R410). -/
  shared : Nat := 0
  sensed : Nat := 0
  deriving DecidableEq, Repr

/-- The module. -/
structure State where
  life : Life
  clk : DWord
  ctxs : Vector Ctx 64
  cores : Tab Core
  grids : Tab Grid
  nextGrid : Nat
  /-- Grids held back because a GBAR grid waits to be placed are judged from `grids`; ranges of the distributors. -/
  dieRanges : Tab (List Range)
  cluRanges : Tab (List Range)
  walkers : Tab Walker
  /-- The caches of top, middle and region entries by die, newest first: physical address and value (R231). They affect timing
  only. -/
  dirCache : Tab (List (Nat × Nat))
  mem : Memory
  poison : List Nat
  mons : List Mon
  dieBoards : Tab Board
  modBoard : Board
  link : Link
  transit : List Staged
  commits : Nat
  conflicts : Tab Conflict
  pubs : List Publication
  replicas : Vector Replica 4
  stepCtx : StepCtx
  expo : Exposure
  seqLog : List SeqLog
  colls : Tab Coll
  outbox : List OutMsg
  power : Power
  root : Root
  /-- The latest result that the host's port returned. -/
  hostReply : Option (Option (List Byte))
  /-- The model's own: the schedule, and the group whose word runs. -/
  agenda : List Sched
  focus : Option (Nat × Nat)
  deriving DecidableEq, Repr

/-! ### Reset -/

def emptyCtx : Ctx :=
  { state := .empty, hbase := 0, hlim := 0, hofs := 0, ptroot := 0, tqbase := 0, svbase := 0, rkey := 0, bkey := 0,
    ctxcfg := 0, lead := 0, ftvd := 0, zwt := 0, dln := 0, step := 0, saved := 0, stopClk := 0, stopper := none,
    zcount := 0, zissued := false, zclk := 0 }

/-- A port before it is trained (R350, R351). -/
def emptyPort : Port := ⟨0, 0, true, 0, false, [], 0, 0, 0, 0⟩

/-- The machine right after reset: no power yet (R402), every context slot EMPTY (R89), the link registers at their reset
values (R347, R350, R351), nothing resident and nothing listed in memory. The first start brings it to RUN. -/
def State.reset : State := {
  life := .off
  clk := 0
  ctxs := Vector.replicate 64 emptyCtx
  cores := []
  grids := []
  nextGrid := 0
  dieRanges := []
  cluRanges := []
  walkers := []
  dirCache := []
  mem := []
  poison := []
  mons := []
  dieBoards := []
  modBoard := ⟨0, []⟩
  link := {
    pv := false, podix := 0, peerctx := 0, expbase := 0, explog := 0, ports := Vector.replicate 45 emptyPort, peerlog := [],
    msixTable := [], msixPend := [], msixSent := [], sent := [], peerReqs := [], flows := [], hostSig := 0, peerSigs := [] }
  transit := []
  commits := 0
  conflicts := []
  pubs := []
  replicas := Vector.replicate 4 ⟨[], [], []⟩
  stepCtx := {
    bound := false, rank := 0, sctx := 0, sto := 0, bper := 0, buddy := 0, keep := 0, ksz := 0, epoch := 0, need := 0,
    changed := [], beacons := [], sentBeacon := 0 }
  expo := {
    stopped := false, since := 0, maxst := 0, draining := false, joining := false, owner := none, ctx := 0, img := 0, isz := 0,
    regions := [], xid := 0, pins := [], hold := 0, peer := 0, rank := 0, done := [] }
  seqLog := []
  colls := []
  outbox := []
  power := { gbud := 576, shares := Vector.replicate 24 0, last := Vector.replicate 24 0, cooling := false }
  root := {
    flash := [], staging := [], fusedSvn := 0, svn := 0, pwrgd := false, dieMap := 0, mdMap := 0, failUnit := 0xFF, stage := 0,
    result := 0, retired := [], retireNext := [], volts := [], tripped := false, spdm := 0, replies := [] }
  hostReply := none
  agenda := []
  focus := none }

end Sys2Proof.Machine
end

