-- ==== Sys2Proof/Machine/Ops.lean ====
section
/-!
DEFINITION. Sys2Proof/Machine/Ops.lean: the named operations over memory, registers, cores, groups and lanes; the
performing of a write at its home (R201, R232, R270); trap-queue records (R334 to R336); and taking a trap: positions
(R326), handler entry (R331), double faults (R332) and the return (R340).
-/
namespace Sys2Proof.Machine

/-! ### Memory -/

/-- What a byte that nothing has written reads as (log entry 1). -/
def memUnlisted : Byte := 0

/-- The byte at an address. -/
def Memory.get : Memory → Nat → Byte
  | [], _ => memUnlisted
  | (b, y) :: t, a => if b = a then y else if a < b then memUnlisted else Memory.get t a

/-- Writes one byte, keeping the canonical form. -/
def Memory.set : Memory → Nat → Byte → Memory
  | [], a, x => if x = memUnlisted then [] else [(a, x)]
  | (b, y) :: t, a, x =>
    if b = a then (if x = memUnlisted then t else (a, x) :: t)
    else if a < b then (if x = memUnlisted then (b, y) :: t else (a, x) :: (b, y) :: t)
    else (b, y) :: Memory.set t a x

/-- The canonical form from an address up: rising addresses, no unlisted value. -/
def Memory.wfFrom : Nat → Memory → Bool
  | _, [] => true
  | lo, (a, x) :: t => decide (lo ≤ a) && decide (x ≠ memUnlisted) && Memory.wfFrom (a + 1) t

/-- The canonical form. -/
def Memory.wf (m : Memory) : Bool := Memory.wfFrom 0 m

/-- `n` bytes at rising addresses. -/
def Memory.read (m : Memory) (a n : Nat) : List Byte := (natRange a n).map m.get

/-- Writes bytes at rising addresses. -/
def Memory.write : Memory → Nat → List Byte → Memory
  | m, _, [] => m
  | m, a, x :: t => Memory.write (m.set a x) (a + 1) t

/-- Writes (address, byte) pairs in order. -/
def Memory.putAll : Memory → List (Nat × Byte) → Memory
  | m, [] => m
  | m, (a, x) :: t => Memory.putAll (m.set a x) t

/-! ### Registers -/

/-- Register `i`. -/
def regGet {n : Nat} (r : Regs n) (i : Nat) : Word := (r[i]?).getD 0

/-- Sets register `i`, if there is one. -/
def regSet {n : Nat} (r : Regs n) (i : Nat) (x : Word) : Regs n := r.setIfInBounds i x

/-- The value of `k` registers from `i`, the lowest first (R33, R2). -/
def regsGet {n : Nat} (r : Regs n) (i : Nat) : Nat → Nat
  | 0 => 0
  | k + 1 => (regGet r i).toNat + 2 ^ 32 * regsGet r (i + 1) k

/-- Writes `k` registers from `i`. -/
def regsSet {n : Nat} (r : Regs n) (i : Nat) : Nat → Nat → Regs n
  | 0, _ => r
  | k + 1, x => regsSet (regSet r i (BitVec.ofNat 32 x)) (i + 1) k (x / 2 ^ 32)

/-- Predicate `i`; p0 reads as 1 (R43). -/
def predGet (l : Lane) (i : Nat) : Bool := i == 0 || (l.p[i]?).getD false

/-! ### Empty parts -/

def emptyRec : BarRec := ⟨0, 0, 0, 0, 0, false, []⟩

/-- `lpc` of a lane that has exited (R134). -/
def exitedLpc : DWord := BitVec.allOnes 64

def emptyLane : Lane :=
  { v := Vector.replicate 64 0, p := Vector.replicate 8 false, lpc := exitedLpc, resw := 0, tlpc := 0, rln := 0, rstep := 0,
    ridx := 0, lat := Vector.replicate 16 0, hk := .none, hr := .team 0, hg := 0, inHandler := false, thdr := 0, tw := 0,
    hsave := Vector.replicate 4 0, open_ := [], batch := Vector.replicate 16 (.empty, []) }

def emptyCore : Core :=
  { lanes := [], groups := [], teams := [], scratch := [], scratchPoison := [], l1 := [], wcb := [], flights := [],
    seenDie := 0, seenMod := 0, sigDie := 0, sigMod := 0, peersWritten := [], tlb := [], log := [], pend := [], results := [], cmds := [],
    accm := [], ptr := Vector.replicate 9 0, portFree := Vector.replicate 9 0, pipeTurn := (0, 0), nextOrder := 0, nextId := 0, retired := false }

/-! ### Accessors of the state -/

def State.core (s : State) (c : Nat) : Core := tabGet emptyCore s.cores c
def State.modCore (s : State) (c : Nat) (f : Core → Core) : State := { s with cores := tabSet s.cores c (f (s.core c)) }
def State.lane (s : State) (c p : Nat) : Lane := tabGet emptyLane (s.core c).lanes p
def State.modLane (s : State) (c p : Nat) (f : Lane → Lane) : State :=
  s.modCore c fun k => { k with lanes := tabSet k.lanes p (f (tabGet emptyLane k.lanes p)) }
def State.group? (s : State) (c g : Nat) : Option Group := tabGet? (s.core c).groups g
def State.modGroup (s : State) (c g : Nat) (f : Group → Group) : State :=
  match s.group? c g with
  | none => s
  | some x => s.modCore c fun k => { k with groups := tabSet k.groups g (f x) }
def State.team? (s : State) (c j : Nat) : Option Team := tabGet? (s.core c).teams j
def State.modTeam (s : State) (c j : Nat) (f : Team → Team) : State :=
  match s.team? c j with
  | none => s
  | some x => s.modCore c fun k => { k with teams := tabSet k.teams j (f x) }
def State.ctx (s : State) (x : Nat) : Ctx := (s.ctxs[x]?).getD emptyCtx
def State.modCtx (s : State) (x : Nat) (f : Ctx → Ctx) : State := { s with ctxs := s.ctxs.setIfInBounds x (f (s.ctx x)) }
def State.grid? (s : State) (g : Nat) : Option Grid := tabGet? s.grids g
def State.modGrid (s : State) (g : Nat) (f : Grid → Grid) : State :=
  match s.grid? g with
  | none => s
  | some x => { s with grids := tabSet s.grids g (f x) }

/-- A fresh identifier in a core. -/
def State.fresh (s : State) (c : Nat) : Nat × State :=
  ((s.core c).nextId, s.modCore c fun k => { k with nextId := k.nextId + 1 })

/-- The team of a group. -/
def State.teamOf (s : State) (c : Nat) (g : Group) : Option Team := s.team? c g.place
/-- The context slot of a group. -/
def State.ctxOf (s : State) (c : Nat) (g : Group) : Nat := (s.teamOf c g).elim 0 (·.ctx)
/-- The grid of a group. -/
def State.gridOf (s : State) (c : Nat) (g : Group) : Option Grid := (s.teamOf c g).bind fun t => s.grid? t.grid
/-- VREGS of a group's kernel (R114). -/
def State.vregsOf (s : State) (c : Nat) (g : Group) : Nat := (s.gridOf c g).elim 64 (·.vregs)
/-- MODE of a context: 1 supervisor (R88). -/
def Ctx.mode (x : Ctx) : Bool := bitAt x.ctxcfg.toNat 0
/-- DETM of a context (R88). -/
def Ctx.detm (x : Ctx) : Bool := bitAt x.ctxcfg.toNat 1

/-- A lane has exited (R134). -/
def Lane.exited (l : Lane) : Bool := l.lpc == exitedLpc

/-- Lane positions of a group. -/
def Group.positions (g : Group) : List Nat := natRange g.gbase g.gwid
/-- Positions whose lane has not exited. -/
def State.liveLanes (s : State) (c : Nat) (g : Group) : List Nat := g.positions.filter fun p => !(s.lane c p).exited

/-- Writes registers of a lane. -/
def State.setV (s : State) (c p i k x : Nat) : State := s.modLane c p fun l => { l with v := regsSet l.v i k x }
/-- Writes scalars of a group. -/
def State.setS (s : State) (c g i k x : Nat) : State := s.modGroup c g fun r => { r with scal := regsSet r.scal i k x }

/-- The words of a value of `k` registers with their places, the lowest first (R33). -/
def regWords (k x : Nat) : List (Nat × Word) := (natRange 0 k).map fun i => (i, BitVec.ofNat 32 (x / 2 ^ (32 * i)))

/-- One register write of a result of group context `g` (R42). -/
def State.putReg (s : State) (c g : Nat) : RegWrite → State
  | .vec pos reg x => s.setV c pos reg 1 x.toNat
  | .sca reg x => s.setS c g reg 1 x.toNat

/-- The elements of a list whose index is, or is not, in a mask. -/
def maskPick {α : Type} (m : Nat) (want : Bool) (l : List α) : List α :=
  ((natRange 0 l.length).zip l).filterMap fun q => if bitAt m q.1 == want then some q.2 else none

/-- The elements of a list at some places. -/
def pick {α : Type} (is : List Nat) (l : List α) : List α := is.filterMap fun i => l[i]?

/-- Every register write of a result at once. -/
def regsAll : Nat := 2 ^ 1024 - 1

/-- ORs bits into GST (R132). -/
def State.orGst (s : State) (c g m : Nat) : State := s.modGroup c g fun r => { r with gst := r.gst ||| BitVec.ofNat 32 m }

/-- The GST bits of flags (R132). -/
def Flags.gst (f : Flags) : Nat := b2n f.iv + 2 * b2n f.dz + 4 * b2n f.of + 8 * b2n f.uf + 16 * b2n f.nx
/-- GST.STALE_WAIT and GST.ACC_UR (R132). -/
def gstStale : Nat := 32
def gstAccUr : Nat := 64

/-- SbIssue (R41). -/
def State.sbIssue (s : State) (c g k : Nat) : State :=
  s.modGroup c g fun r => { r with sb := r.sb.setIfInBounds k (((r.sb[k]?).getD 0) + 1) }
/-- SbDone (R41). -/
def State.sbDone (s : State) (c g k : Nat) : State :=
  s.modGroup c g fun r => { r with sb := r.sb.setIfInBounds k (((r.sb[k]?).getD 0) - 1) }
/-- The count of a slot. -/
def Group.sbCount (g : Group) (k : Nat) : Nat := (g.sb[k]?).getD 0
/-- Every slot is zero. -/
def Group.sbClear (g : Group) : Bool := g.sb.toList.all (· == 0)

/-- SemCount(k) of a team; an index not yet bound has the count 0 (R265). -/
def Team.semCount (t : Team) (k : Nat) : Word := tabGet 0 t.sems k
/-- The semaphores of a core that are bound (R13, R265). -/
def Core.boundSems (c : Core) : Nat := c.teams.foldl (fun n t => n + t.2.sems.length) 0
/-- Whether an index is bound or can be bound now (R265). -/
def State.canBind (s : State) (c j k : Nat) : Bool :=
  match s.team? c j with
  | none => false
  | some t => (tabGet? t.sems k).isSome || (s.core c).boundSems < 64
/-- Sets a semaphore, binding its index. -/
def State.semSet (s : State) (c j k : Nat) (x : Word) : State := s.modTeam c j fun t => { t with sems := tabSet t.sems k x }
/-- The signed comparison of R27: count − threshold, read as signed, is zero or positive. -/
def semHolds (count thr : Word) : Bool := (count - thr).toNat < 2 ^ 31

/-! ### Boards (R206) -/

def emptyBoard : Board := ⟨0, []⟩
def State.dieBoard (s : State) (d : Nat) : Board := tabGet emptyBoard s.dieBoards d
/-- Posts a signature; the ring keeps the latest 256. -/
def Board.post (b : Board) (sig : Nat) : Board := ⟨b.seq + 1, (sig :: b.posts).take 256⟩
/-- The four signature bits of a line (R206), as a mask. -/
def sigOf (line : Nat) : Nat :=
  let h (k : Nat) : Nat := line * k % 2 ^ 64 / 2 ^ 53
  let bits := [h 0x9E3779B97F4A7C15, h 0xC2B2AE3D27D4EB4F, h 0x165667B19E3779F9, h 0xD6E8FEB86659FD93]
  bits.foldl (fun m i => m ||| 2 ^ i) 0
/-- All four bits of a line are in a signature. -/
def sigHas (sig line : Nat) : Bool := sig &&& sigOf line == sigOf line
/-- The full signature. -/
def sigAll : Nat := 2 ^ 2048 - 1

/-! ### Physical addresses -/

/-- The firmware range of a die (R126). -/
def inFirmware (pa : Nat) : Bool := 0x1E00000000 ≤ pa % 2 ^ 37
/-- Die 0's link registers (R16, R347). -/
def inLinkRegs (pa : Nat) : Bool := 0x1000 ≤ pa && pa < 0x2000
/-- The die of a physical address (R16). -/
def paDie (pa : Nat) : Nat := pa / 2 ^ 37 % 32
/-- The home slice of a physical address, as a module core number (R12, R16). -/
def homeSlice (pa : Nat) : Nat := paDie pa * 24 + pa % 2 ^ 37 / 64 % 24
/-- The park slot of a team place (R126). -/
def parkSlot (c j : Nat) : Nat := c / 24 * 2 ^ 37 + 0x1E00000000 + c % 24 * 0x10000000 + j * 0x01000000
/-- The latch spill of a lane (R333). -/
def spillAddr (c j rln : Nat) : Nat := parkSlot c j + 0x800000 + 256 * rln

/-! ### The link register file (R347, R350, R351) -/

/-- PSTAT of a port (R350). -/
def Port.word (p : Port) : Nat := p.st % 8 * 2 ^ 29 + p.lanes % 32 * 2 ^ 16 + b2n p.en
def Link.port (k : Link) (p : Nat) : Port := (k.ports[p]?).getD emptyPort
def Link.modPort (k : Link) (p : Nat) (f : Port → Port) : Link := { k with ports := k.ports.setIfInBounds p (f (k.port p)) }

/-- The 64-bit register of the link register file that holds offset `o` (a multiple of 8). -/
def Link.reg64 (k : Link) (o : Nat) : Nat :=
  if o = 0 then b2n k.pv * 2 ^ 10 + k.podix % 1024
  else if o = 8 then k.peerctx.toNat
  else if o = 0x10 then k.expbase % 4096 * 2 ^ 30 + k.explog % 16
  else if 0x100 ≤ o ∧ o < 0x100 + 8 * 45 then (k.port ((o - 0x100) / 8)).word
  else if 0x400 ≤ o ∧ o < 0x400 + 32 * 45 then
    let p := k.port ((o - 0x400) / 32)
    (match (o - 0x400) / 8 % 4 with | 0 => p.corr | 1 => p.uncorr | 2 => p.replay | _ => p.drop).toNat
  else if 0xC00 ≤ o ∧ o < 0x1000 then
    (natRange 0 8).foldl (fun a i => a + tabGet 0 k.peerlog (o - 0xC00 + i) % 16 * 2 ^ (8 * i)) 0
  else 0

/-- A read of `n` bytes at offset `o`: only aligned 4- and 8-byte accesses take effect (R347). -/
def Link.read (k : Link) (o n : Nat) : Nat :=
  if n = 8 ∧ o % 8 = 0 then k.reg64 o
  else if n = 4 ∧ o % 4 = 0 then k.reg64 (o / 8 * 8) / 2 ^ (8 * (o % 8)) % 2 ^ 32
  else 0

/-- The size in bytes of an export window of code EXPLOG (R347). -/
def expSize (lg : Nat) : Nat := if 1 ≤ lg ∧ lg ≤ 13 then 2 ^ (lg - 1 + 30) else 0
/-- The own EXPLOG as R347 counts it. -/
def Link.ownLog (k : Link) : Nat :=
  if expSize k.explog = 0 then 0 else if k.expbase * 2 ^ 30 % expSize k.explog = 0 then k.explog else 0

/-! ### MSI-X (R336, R345) -/

/-- Sends vector `v`, or sets its pending bit while the PCIe port is not UP. -/
def State.sendMsi (s : State) (v : Nat) : State :=
  if (s.link.port 44).st = 2 then
    { s with link := { s.link with
        msixSent := (v, ofLe (s.link.msixTable.read (16 * v) 8), ofLe (s.link.msixTable.read (16 * v + 8) 4)) :: s.link.msixSent } }
  else { s with link := { s.link with msixPend := insSorted v s.link.msixPend } }

/-! ### Completion of a lane of an outstanding request -/

/-- Removes a lane from a request; the last one lowers the slot once no region is pinned (R41, R214, R245). -/
def State.finishLane (s : State) (c id pos : Nat) : State :=
  match tabGet? (s.core c).pend id with
  | none => s
  | some p =>
    let accs := p.accs.filter (·.pos != pos)
    if accs.isEmpty && p.pins.isEmpty then
      let s := s.modCore c fun k => { k with pend := tabDel k.pend id }
      match p.slot with
      | some b => s.sbDone c p.ctx b
      | none => s
    else s.modCore c fun k => { k with pend := tabSet k.pend id { p with accs := accs } }

/-- Writes the status of a `waitc` into its lane (R269). -/
def State.waitcStatus (s : State) (c id pos st : Nat) : State :=
  match tabGet? (s.core c).pend id with
  | none => s
  | some p =>
    match p.dst, p.kind with
    | .v d, .waitc _ w64 => if w64 then s.setV c pos (d.val + 2) 2 st else s.setV c pos (d.val + 1) 1 st
    | _, _ => s

/-- Whether the group of a request is in a parked team. -/
def State.pendParked (s : State) (c : Nat) (p : Pend) : Bool := (s.team? c p.place).any (·.state == .parked)

/-- A monitor entry completes with a status (R270, R271); a parked team keeps it until it unparks. -/
def State.monDone (s : State) (m : Mon) (st : Nat) : State :=
  let s := { s with mons := s.mons.filter (· != m) }
  match tabGet? (s.core m.core).pend m.pend with
  | none => s
  | some p =>
    if s.pendParked m.core p then
      let p := { p with accs := p.accs.map fun a => if a.pos = m.pos then { a with st := 5, x := st } else a }
      let s := s.modCore m.core fun k => { k with pend := tabSet k.pend m.pend p }
      -- the completion makes the team ready to unpark (R125)
      let wakes (t : Team) : Team :=
        if t.ready.isNone && (s.ctx t.ctx).state != .halted then { t with ready := some s.clk.toNat } else t
      s.modTeam m.core p.place wakes
    else (s.waitcStatus m.core m.pend m.pos st).finishLane m.core m.pend m.pos

/-- The comparison of a monitor (R269): natural values. -/
def monHolds (c : WaitCmp) (x v : Nat) : Bool :=
  match c with
  | .eq => x == v
  | .ne => x != v
  | .ge => decide (v ≤ x)
  | .lt => decide (x < v)

/-! ### Performing accesses at a home -/

/-- The bytes at physical addresses. -/
def State.homeBytes (s : State) (pas : List Nat) : List Byte :=
  match pas with
  | [] => []
  | a :: _ =>
    if inLinkRegs a then leBytes pas.length (s.link.read (a - 0x1000) pas.length) else pas.map s.mem.get

/-- `n` bytes at a physical address. -/
def State.homeRead (s : State) (pa n : Nat) : Nat := ofLe (s.homeBytes (natRange pa n))

/-- Whether any of the bytes is poisoned. -/
def State.homePoisoned (s : State) (pas : List Nat) : Bool := pas.any s.poison.contains

/-- The monitor's lane runs in a context with DETM = 1, which never sees `W.WOKEN` (R399). -/
def State.monDetm (s : State) (m : Mon) : Bool :=
  ((tabGet? (s.core m.core).pend m.pend).bind fun p => s.team? m.core p.place).any fun t => (s.ctx t.ctx).detm

/-- Wakes the monitors that a write touches and whose comparison now holds (R270). -/
def State.wake (s : State) (pas : List Nat) : State :=
  let hit := s.mons.filter fun m =>
    pas.any (fun a => m.pa ≤ a && a < m.pa + m.n) && monHolds m.cmp (s.homeRead m.pa m.n) m.val
  hit.foldl (fun s m => s.monDone m (if s.monDetm m then 0 else 1)) s

/-- Marks the logged lanes whose faulting entry lies in one of the lines. -/
def LogEntry.touch (e : LogEntry) (lines : List Nat) : LogEntry :=
  { e with lanes := e.lanes.map fun l => if lines.contains l.line then { l with touched := true } else l }

/-- Marks the logged lanes whose record, of address `va`, was overwritten. -/
def LogEntry.drop (e : LogEntry) (va : Nat) : LogEntry :=
  { e with lanes := e.lanes.map fun l => if l.va = va then { l with dropped := true } else l }

/-- Drops the translations that a line gave, and marks logged faults whose entry lies in it (R232, R236). -/
def State.touchLines (s : State) (lines : List Nat) : State :=
  { s with
    dirCache := s.dirCache.map fun d => (d.1, d.2.filter fun e => !lines.contains (e.1 / 64))
    grids := s.grids.map fun g => (g.1, if g.2.cfLine.any lines.contains then { g.2 with cfTouched := true } else g.2)
    cores := s.cores.map fun p => (p.1, { p.2 with
      tlb := p.2.tlb.filter fun e => !(e.deps.any lines.contains),
      log := p.2.log.map fun e => (e.1, e.2.touch lines),
      groups := p.2.groups.map fun g => (g.1, match g.2.blk with
        | some (.fetch va l t d) => { g.2 with blk := some (.fetch va l (t || lines.contains l) d) }
        | _ => g.2),
      cmds := p.2.cmds.map fun e => (e.1, if lines.contains e.2.faultLine then { e.2 with touched := true } else e.2) }) }

/-- What a write of `x` by software or the host leaves of a byte at offset `o` of a queue descriptor in force, whose byte is
`old` (R4, R102): CUR takes a write only while the queue is STOPPED or FAULTED, QERR clears the bits written 1, DONE, QSTAT
and the reserved bytes keep what they hold. -/
def descByte (q : Queue) (o : Nat) (old x : Byte) : Byte :=
  if o < 0x48 then x
  else if o < 0x50 then (if q.st = 1 ∨ q.st = 5 then x else old)
  else if o = 0x58 then old &&& ~~~x
  else old

/-- The same for offset `o` of the trap queue of a context (R4, R335): CI, MSIEN, MSIVEC and HVEC take a write. -/
def trapByte (o : Nat) (old x : Byte) : Byte :=
  if 0x4004 ≤ o ∧ o < 0x4008 ∨ o = 0x4010 ∨ 0x4040 ≤ o ∧ o < 0x4140 then x
  else if o = 0x4011 then (old &&& 0xF8) ||| (x &&& 7)
  else if o = 0x4013 then (old &&& 0x7F) ||| (x &&& 0x80)
  else old

/-- The register maps that stand in memory (R4): a queue descriptor (R102), the control block of a trap queue (R335), and
the header, the group records and the lane records of a save image (R341 to R343). -/
inductive MapKind where
  | desc (q : Queue)
  | trap
  | header
  | groupRec
  | laneRec
  deriving DecidableEq, Repr

/-- The byte that software leaves in a byte that holds `old` when it writes `x` at offset `o` of a map (R4). -/
def MapKind.write (k : MapKind) (o : Nat) (old x : Byte) : Byte :=
  match k with
  | .desc q => descByte q o old x
  | .trap => trapByte o old x
  | .header | .groupRec | .laneRec => old

/-- The bits of the byte at offset `o` of a map that are not reserved: the others read as zero (R4). -/
def MapKind.mask (k : MapKind) (o : Nat) : Byte :=
  match k with
  | .desc _ => if o < 0x59 then 0xFF else if o = 0x5C then 7 else 0
  | .trap =>
    if o < 0x4011 then 0xFF else if o = 0x4011 then 7 else if o = 0x4013 then 0x80
    else if 0x4040 ≤ o ∧ o < 0x4140 then 0xFF else 0
  | .header => if o = 0x33 then 0 else if o = 0x38 then 7 else if 0x39 ≤ o ∧ o < 0x3C ∨ 0xB0 ≤ o then 0 else 0xFF
  | .groupRec =>
    if o = 0xC ∨ o = 0xD then 3 else if o = 0xE ∨ 0x60 ≤ o ∧ o < 0x80 then 0 else 0xFF
  | .laneRec =>
    if o = 0x10 then 0 else if o = 0x11 then 0xFE else if o = 0x12 then 0xFC else if o = 0x21 then 0x1F
    else if o = 0x22 ∨ o = 0x23 ∨ 0x78 ≤ o then 0 else 0xFF

/-- The offset of `a` in a range of `n` bytes from `lo`. -/
def within (a lo n : Nat) : Option Nat := if lo ≤ a ∧ a < lo + n then some (a - lo) else none

/-- The part of an image of a context that holds an address (R341): SAVED names the images in its directory. -/
def State.imageMap (s : State) (k : Ctx) (a : Nat) : Option (MapKind × Nat) :=
  (natRange 0 k.saved.toNat).findSome? fun i =>
    let img := k.svbase.toNat + ofLe (s.mem.read (k.svbase.toNat + 0x10000 + 16 * i) 8)
    let word (j : Nat) : Nat := ofLe (s.mem.read (img + j) 4)
    let part (j size : Nat) (m : MapKind) : Option (MapKind × Nat) :=
      (within a (img + word (0x40 + 8 * j)) (size * word (0x44 + 8 * j))).map fun o => (m, o % size)
    ((((within a img 0x100).map fun o => (MapKind.header, o)).orElse fun _ => part 0 1152 .groupRec).orElse fun _ =>
      part 1 128 .laneRec)

/-- The register map in force that holds an address, and the offset there. -/
def State.mapAt (s : State) (a : Nat) : Option (MapKind × Nat) :=
  match s.walkers.findSome? fun w => w.2.queues.toList.find? fun q => q.st != 0 && (within a q.desc 0x80).isSome with
  | some q => some (.desc q, a - q.desc)
  | none => s.ctxs.toList.findSome? fun k =>
    if k.state = .empty then none
    else ((within a k.tqbase.toNat 0x8000).map fun o => (MapKind.trap, o)).orElse fun _ =>
      if k.saved = 0 then none else s.imageMap k a

/-- The byte that a write of `x` at `a` leaves, by the access codes of the register map that holds it (R4). -/
def State.guardByte (s : State) (a : Nat) (x : Byte) : Byte :=
  match s.mapAt a with
  | some (k, o) => k.write o (s.mem.get a) x
  | none => x

/-- The byte that software reads at `a`: reserved bits of a register map read as zero (R4). -/
def State.softByte (s : State) (a : Nat) : Byte :=
  match s.mapAt a with
  | some (k, o) => s.mem.get a &&& k.mask o
  | none => s.mem.get a

/-- The bytes that software, the host or a peer reads at physical addresses. -/
def State.softBytes (s : State) (pas : List Nat) : List Byte :=
  match pas with
  | [] => []
  | a :: _ => if inLinkRegs a then s.homeBytes pas else pas.map s.softByte

/-- Performs a write of bytes at their home by the device itself (R201, R232, R270); the addresses `bad` become poisoned,
the others that it writes are no longer. -/
def State.homeRaw (s : State) (ws : List (Nat × Byte)) (bad : List Nat) : State :=
  let pas := ws.map (·.1)
  let s := { s with mem := s.mem.putAll ws,
                    poison := bad.foldl (fun p a => insSorted a p) (s.poison.filter fun a => !pas.contains a) }
  (s.touchLines (pas.map (· / 64))).wake pas

/-- A write of an `n`-byte value by the device itself. -/
def State.homePutRaw (s : State) (pa n x : Nat) : State := s.homeRaw ((natRange pa n).zip (leBytes n x)) []

/-- Performs a write of bytes at their home for software, the host or a peer: the access codes of the register maps apply
(R4). The caller handles the link registers. -/
def State.homeWrite (s : State) (ws : List (Nat × Byte)) (bad : List Nat) : State :=
  s.homeRaw (ws.map fun w => (w.1, s.guardByte w.1 w.2)) bad

/-- A write of an `n`-byte value. -/
def State.homePut (s : State) (pa n x : Nat) : State := s.homeWrite ((natRange pa n).zip (leBytes n x)) []

/-- A byte of a line takes the value that its home holds. -/
def Line.patch (l : Line) (o : Nat) (x : Byte) (bad : Bool) : Line :=
  { l with data := listSet l.data o x, lost := if bitAt l.lost o then l.lost - 2 ^ o else l.lost,
           poison := if bitAt l.poison o == bad then l.poison else if bad then l.poison + 2 ^ o else l.poison - 2 ^ o }

/-- A home atomic marks the bytes it wrote in every L1 line, and discards them from the write-backs of `.team` atomics under
way; the line that such a write-back left clean takes the home's bytes (R212). -/
def State.markLost (s : State) (pas : List Nat) : State :=
  let core (k : Core) : Core :=
    let gone (line o : Nat) : Bool := pas.contains (line * 64 + o) && k.flights.any fun f =>
      f.2.line == line && bitAt f.2.lost o && (tabGet? f.2.bytes o).isSome
    { k with
      l1 := k.l1.map fun e =>
        let l := { e.2 with lost := pas.foldl (fun m a => if a / 64 = e.1 then m ||| 2 ^ (a % 64) else m) e.2.lost }
        (e.1, (natRange 0 64).foldl (fun l o =>
          if gone e.1 o && !bitAt l.dirty o then l.patch o (s.mem.get (e.1 * 64 + o)) (s.poison.contains (e.1 * 64 + o)) else l) l)
      flights := k.flights.map fun e => (e.1, { e.2 with
        bytes := e.2.bytes.filter fun b => !(pas.contains (e.2.line * 64 + b.1) && bitAt e.2.lost b.1) }) }
  { s with cores := s.cores.map fun p => (p.1, core p.2) }

/-! ### Trap-queue records (R334 to R336) -/

/-- The fields of a record (R334); `lanes` is the LANES bitmap. -/
structure TqRec where
  kind : Nat
  code : Nat := 0
  acc : Nat := 0
  level : Nat := 0
  core : Nat := 0
  va : Nat := 0
  lpc : Nat := 0
  gbase : Nat := 0
  hm : Bool := false
  gctx : Nat := 0
  team : Nat := 0
  lanes : Nat := 0
  deriving DecidableEq, Repr

/-- The 64 bytes of a record (R334). -/
def TqRec.bytes (r : TqRec) (seq ctx : Nat) : List Byte :=
  leBytes 4 seq ++
  leBytes 4 (r.kind % 256 * 2 ^ 24 + r.code % 256 * 2 ^ 16 + r.acc % 4 * 2 ^ 14 + r.level % 4 * 2 ^ 12 + r.core % 1024) ++
  leBytes 8 r.va ++ leBytes 8 r.lpc ++
  leBytes 4 (r.gbase % 2 ^ 15 * 2 ^ 16 + b2n r.hm * 2 ^ 15 + r.gctx % 512 * 64 + ctx % 64) ++
  leBytes 4 r.team ++ leBytes 32 r.lanes

/-- Kinds that a full queue drops (R336). -/
def tqDroppable (k : Nat) : Bool := k == 1 || k == 5 || k == 8 || k == 9

/-- Posts lines at the module boards, as the device does when it releases what it has written. -/
def State.postLines (s : State) (lines : List Nat) : State :=
  { s with modBoard := s.modBoard.post (lines.foldl (fun m l => m ||| sigOf l) 0) }

/-- The record of KIND 1 of core `c` and address `va` in the queue of context `x` was overwritten (R336): it is written again
at the retry of the operand-log entry, command, fetch or add that it reported. -/
def State.markDropped (s : State) (x c va : Nat) : State :=
  let core (k : Core) : Core :=
    { k with
      log := k.log.map fun e => (e.1, if e.2.slotCtx = x then e.2.drop va else e.2)
      groups := k.groups.map fun g => (g.1, match g.2.blk with
        | some (.fetch v l t d) => { g.2 with blk := some (.fetch v l t (d || v == va)) }
        | _ => g.2)
      cmds := k.cmds.map fun m => (m.1, if m.2.faultVa = va then { m.2 with dropped := true } else m.2) }
  { s with
    cores := s.cores.map fun p => if p.1 = c then (p.1, core p.2) else p
    grids := s.grids.map fun g => (g.1, if g.2.ctx = x ∧ g.2.cfLine.isSome ∧ g.2.compl.toNat % 2 ^ 50 = va % 2 ^ 50 then
      { g.2 with cfDropped := true } else g.2) }

/-- The slot of the oldest record of KIND 1 of a full trap queue (R336). -/
def State.recordVictim (s : State) (tq ci : Nat) : Option Nat :=
  ((natRange 0 256).find? fun i => s.homeRead (tq + 64 * ((ci + i) % 256) + 7) 1 == 1).map fun i => (ci + i) % 256

/-- Writes a record into the trap queue of context `x`; the flag says whether it was dropped or lost (R336). -/
def State.writeRecord (s : State) (x : Nat) (r : TqRec) : State × Bool :=
  let tq := (s.ctx x).tqbase.toNat
  let cb := tq + 0x4000
  let pi := s.homeRead cb 4
  let ci := s.homeRead (cb + 4) 4
  let occ := (pi + 2 ^ 32 - ci) % 2 ^ 32
  let msi (s : State) : State :=
    let w := s.homeRead (cb + 0x10) 4
    if bitAt w 31 then s.sendMsi (w % 2 ^ 11) else s
  let place (s : State) (slot seq : Nat) : State :=
    s.homeRaw ((natRange (tq + 64 * slot) 64).zip (r.bytes seq x)) []
  let bump (s : State) (o : Nat) : State := s.homePutRaw (cb + o) 4 (s.homeRead (cb + o) 4 + 1)
  if occ ≤ (if tqDroppable r.kind then 254 else 255) then
    let s := (place s (pi % 256) pi).homePutRaw cb 4 (pi + 1)
    (msi (s.postLines [tq / 64 + pi % 256, cb / 64]), false)
  else if tqDroppable r.kind then (bump s 8, true)
  else
    match s.recordVictim tq ci with
    | some slot =>
      let s := s.markDropped x (s.homeRead (tq + 64 * slot + 4) 4 % 1024) (s.homeRead (tq + 64 * slot + 8) 8)
      let s := bump (place s slot ((pi + 2 ^ 32 - 1) % 2 ^ 32)) 8
      (msi (s.postLines [tq / 64 + slot, cb / 64]), false)
    | none => (bump s 0xC, true)

/-- The LANES bitmap of lane positions of a group (R334). -/
def laneMask (gbase : Nat) (ps : List Nat) : Nat := ps.foldl (fun m p => m ||| 2 ^ (p - gbase)) 0

/-- The record fields that name a group. -/
def State.groupRec (s : State) (c g : Nat) (r : TqRec) (lanes : List Nat) : TqRec :=
  match s.group? c g with
  | none => { r with core := c }
  | some x => { r with core := c, gbase := x.gbase, hm := x.hmode, gctx := g, team := (s.teamOf c x).elim 0 (·.n),
                       lanes := laneMask x.gbase lanes }

/-! ### Halting a context (R90, R332) -/

/-- The groups of a HALTED context (R142): one at a clause boundary, or PARKED, becomes HALTED; one inside a clause does so at
its end; SAVED and EXITING ones stay as they are. A parked team no longer counts as ready. -/
def State.haltGroups (s : State) (x : Nat) : State :=
  { s with cores := s.cores.map fun p => (p.1, { p.2 with
      groups := p.2.groups.map fun g =>
        let halts := match g.2.state with
          | .run | .wait => g.2.cur.isNone
          | .parked => true
          | .saved | .halted | .exiting => false
        if (tabGet? p.2.teams g.2.place).any (·.ctx == x) && halts then (g.1, { g.2 with state := .halted }) else g,
      teams := p.2.teams.map fun t =>
        if t.2.ctx ≠ x then t
        else if t.2.state = .parked then (t.1, { t.2 with ready := none })
        else (t.1, { t.2 with state := .halted }) }) }

/-- A fatal record against a context (R90). -/
def State.haltCtx (s : State) (x : Nat) : State :=
  match (s.ctx x).state with
  | .active | .stopping | .loaded | .stopped => (s.modCtx x fun k => { k with state := .halted }).haltGroups x
  | .empty | .halted => s

/-! ### Taking a trap -/

/-- The trap causes of R325 by code. -/
def tIllop : Nat := 1
def tClass : Nat := 2
def tPriv : Nat := 3
def tRole : Nat := 4
def tPath : Nat := 5
def tAlign : Nat := 6
def tPage : Nat := 7
def tPoison : Nat := 8
def tStale : Nat := 9
def tVstamp : Nat := 10
def tSync : Nat := 11
def tDetsync : Nat := 12
def tDetrace : Nat := 13
def tHang : Nat := 14
def tRestore : Nat := 15
def tTrap : Nat := 16

/-- One trapping lane: position, Detail and Info (R331). -/
structure TrapLane where
  pos : Nat
  detail : Nat := 0
  info : Nat := 0
  deriving DecidableEq, Repr

/-- Spills the latches of a lane to its team's park slot (R333). -/
def State.spill (s : State) (c j pos : Nat) (lat : Vector QWord 16) : State :=
  let a := spillAddr c j (s.lane c pos).rln
  { s with mem := s.mem.write a (((natRange 0 15).map fun i => leBytes 16 ((lat[i]?).getD 0).toNat).flatten) }

/-- The spilled latches of a lane (R327). -/
def State.unspill (s : State) (c j pos : Nat) : Vector QWord 16 :=
  let a := spillAddr c j (s.lane c pos).rln
  Vector.ofFn fun i => if i.val < 15 then BitVec.ofNat 128 (ofLe (s.mem.read (a + 16 * i.val) 16)) else 0

/-- The address of word `w` of the clause at `hdr`, the header itself for word 0 (R331). -/
def wordAddr (hdr w : Nat) : Nat := if w = 0 then hdr else hdr + 8 * (w + 1)

/-- The address of word `k` of the clause at `hdr`. -/
def codeAddr (hdr k : Nat) : Nat := hdr + 8 * (k + 1)

/-- A double fault: the record of KIND 3 and the halt (R332). `lpc` is the address of the faulting word. -/
def State.doubleFault (s : State) (c g code : Nat) (lanes : List Nat) (lpc : Nat) : State :=
  match s.group? c g with
  | none => s
  | some x =>
    let ctx := s.ctxOf c x
    ((s.writeRecord ctx (s.groupRec c g { kind := 3, code := code, lpc := lpc } lanes)).1).haltCtx ctx

/-! ### The checks of `gfuse` (R148) -/

def fOk : Nat := 0
def fAlign : Nat := 1
def fAbsent : Nat := 2
def fRole : Nat := 3
def fTeam : Nat := 4
def fHandler : Nat := 5
def fTimeout : Nat := 6
def fMaxw : Nat := 7

/-- The base of the buddy range. -/
def Group.buddy (x : Group) : Nat := x.gbase ^^^ x.gwid

/-- The checks of R148 in their order: a status, or the buddy's context and group. A group that is EXITING has exited. -/
def Core.fuseCheck (k : Core) (x : Group) : Except Nat (Nat × Group) :=
  let b := x.buddy
  let meets := k.groups.filter fun q => q.2.gbase < b + x.gwid && b < q.2.gbase + q.2.gwid && q.2.state != .exiting
  if x.hmode then .error fHandler
  else if x.gwid = 256 then .error fMaxw
  else match meets with
    | [] => .error fAbsent
    | [(u, y)] =>
      if y.gbase ≠ b ∨ y.gwid ≠ x.gwid then .error fAlign
      else if y.place ≠ x.place then .error fTeam
      else if y.role ≠ x.role then .error fRole
      else if y.hmode then .error fHandler
      else .ok (u, y)
    | _ => .error fAlign

/-- The group waits in `gfuse`. -/
def Group.inFuse (x : Group) : Bool := x.blk == some .gfuse

/-- A group of a core has changed: the checks of the groups that wait in `gfuse` are made again, and the first that fails is
kept (R148, R149). -/
def State.fuseRecheck (s : State) (c : Nat) : State :=
  s.modCore c fun k => { k with groups := k.groups.map fun g =>
    if g.2.inFuse && g.2.fuseFail.isNone then
      (g.1, { g.2 with fuseFail := match k.fuseCheck g.2 with | .error st => some st | .ok _ => none })
    else g }

/-- The lanes `hs` enter handler mode for cause `code` (R331); their positions are already set to the resume points.
`lpc` is the address of the faulting word, for the record of a double fault. -/
def State.enterHandler (s : State) (c g code : Nat) (hs : List TrapLane) (lpc : Nat) : State :=
  match s.group? c g with
  | none => s
  | some x =>
    let k := s.ctx (s.ctxOf c x)
    let hvec := s.homeRead (k.tqbase.toNat + 0x4040 + 8 * code) 8
    if x.hmode || s.vregsOf c x < 64 || hvec = 0 then s.doubleFault c g code (hs.map (·.pos)) lpc
    else
      let s := (s.modGroup c g fun r => { r with hmode := true, hcause := code }).fuseRecheck c
      hs.foldl (fun s h => s.modLane c h.pos fun l =>
        let hdr := l.lpc.toNat
        let w := l.resw
        let t := wordAddr hdr w
        let v := regSet l.v 60 (BitVec.ofNat 32 (code + 2 ^ 8 * w + 2 ^ 16 * (h.detail % 2 ^ 16)))
        let v := regSet v 61 (BitVec.ofNat 32 h.info)
        let v := regsSet v 62 2 t
        { l with thdr := l.lpc, tw := w, hsave := Vector.ofFn fun i => regGet l.v (60 + i.val), v := v,
                 tlpc := BitVec.ofNat 64 t, lpc := BitVec.ofNat 64 hvec, resw := 0, inHandler := true }) s

/-- The end of a group's clause: no cursor, and HALTED when its context is (R90), unless every lane has exited (R142). -/
def State.endClause (s : State) (c g : Nat) : State :=
  match s.group? c g with
  | none => s
  | some x =>
    let st := if x.state = .exiting then GState.exiting else if (s.ctx (s.ctxOf c x)).state = .halted then .halted else
      if x.state = .wait then .run else x.state
    s.modGroup c g fun r => { r with cur := none, blk := none, phase := 0, state := st }

/-- The position after word `k` of a clause: the next word, or FallThrough with RESW 0 (R326, R136). -/
def Cursor.after (cu : Cursor) (k : Nat) : Nat × Nat :=
  if k + 1 < cu.words.length then (cu.base, k + 1) else (cu.base + 8 * (cu.words.length + 1), 0)

/-- A trap at the issue of word `k` (R326, R328): `hs` with their causes, `again` the lanes in which the word must still
be performed. Only the lanes of the lowest cause trap; the others perform the word again. -/
def State.takeTrap (s : State) (c g : Nat) (cu : Cursor) (hs : List (TrapLane × Nat)) (again : List Nat) : State :=
  match s.group? c g, hs with
  | none, _ | _, [] => s
  | some x, h0 :: ht =>
    let code := ht.foldl (fun m h => if h.2 < m then h.2 else m) h0.2
    let trap := (h0 :: ht).filter (·.2 == code)
    let redo := again ++ ((h0 :: ht).filter (·.2 != code)).map (·.1.pos)
    let here := (cu.base, cu.k)
    let nxt := cu.after cu.k
    let s := cu.live.foldl (fun s p =>
      let at_ := if trap.any (·.1.pos == p) then (if code = tTrap then nxt else here)
        else if redo.contains p then here else nxt
      let s := if at_.2 = 0 then s
        else s.spill c x.place p (if onceClass cu.ecl then cu.gx else (s.lane c p).lat)
      s.modLane c p fun l => { l with lpc := BitVec.ofNat 64 at_.1, resw := at_.2 }) s
    let s := s.endClause c g
    s.enterHandler c g code (trap.map (·.1)) (codeAddr cu.base cu.k)

/-- A lane leaves the handler set; when it becomes empty handler mode ends (R331, R340). -/
def State.leaveHandler (s : State) (c g pos : Nat) : State :=
  let s := s.modLane c pos fun l => { l with inHandler := false }
  match s.group? c g with
  | none => s
  | some x =>
    if x.positions.any fun p => (s.lane c p).inHandler then s
    else s.modGroup c g fun r => { r with hmode := false, hcause := 0 }

/-- `tret` in one lane (R340): back to a clause header and word, with v60 to v63 restored unless `keep`. -/
def State.returnLane (s : State) (c g pos hdr w : Nat) (keep : Bool) : State :=
  let s := s.modLane c pos fun l =>
    { l with v := if keep then l.v else (natRange 0 4).foldl (fun v i => regSet v (60 + i) (regGet l.hsave i)) l.v,
             lpc := BitVec.ofNat 64 hdr, resw := w }
  s.leaveHandler c g pos

end Sys2Proof.Machine
end

