-- ==== Sys2Proof/Machine/Operands.lean ====
section
/-!
DEFINITION. Sys2Proof/Machine/Operands.lean: every operand form (R31 to R33, R37, R39, R50), predication (R43), draws
(R73, R182, R183), the order of decode faults (R45), and the one way in which an instruction word is executed: its
checks, its effect, and what becomes of its clause (R25, R26, R136, R326).
-/
namespace Sys2Proof.Machine

/-- An instruction word being executed: core, group context, the group and its cursor as they stood, the word, and C, the
lanes in which it takes effect (R43); in a clause that runs once, C is the issuing set. -/
structure Env where
  c : Nat
  g : Nat
  x : Group
  cu : Cursor
  i : Instr
  lanes : List Nat

/-- The lowest lane of C. -/
def Env.low (e : Env) : Nat := e.lanes.headD e.x.gbase
/-- The clause runs once for the group (R26). -/
def Env.once (e : Env) : Bool := onceClass e.cu.ecl
/-- The address of the word. -/
def Env.lpc (e : Env) : Nat := e.cu.base + 8 * (e.cu.k + 1)

/-- What an instruction's effect comes to. -/
inductive Res where
  /-- The word is done; the clause goes on with the next word. -/
  | done (s : State)
  /-- The word waits and is performed again later (R52, R142). -/
  | wait (s : State) (b : Blk)
  /-- Lanes trap, with their causes; `again` are lanes in which the word must still be performed (R326). -/
  | trap (s : State) (hs : List (TrapLane × Nat)) (again : List Nat)

/-! ### Reading operands -/

/-- A literal at width `w` (R32). -/
def litVal (x : BitVec 8) (w : Nat) : Nat := wrap (sext x.toNat 8) w

/-- Opnd(f, l, w) (R50). -/
def Env.opnd (e : Env) (s : State) (o : Operand) (p w : Nat) : Nat :=
  match o with
  | .v i => regsGet (s.lane e.c p).v i.val (w / 32)
  | .s i => regsGet e.x.scal i.val (w / 32)
  | .lat i => (if e.once then (e.cu.gx[i.val]?).getD 0 else ((s.lane e.c p).lat[i.val]?).getD 0).toNat % 2 ^ w
  | .lit x => litVal x w

/-- A floating operand of format F; a literal is an E4M3 code (R32). -/
def Env.fopnd (e : Env) (s : State) (f : Fmt) (o : Operand) (p : Nat) : Nat :=
  match o with
  | .lit x => litFloat f x.toNat
  | _ => e.opnd s o p (fW f)

/-- A source that may be a predicate (R37, R192). -/
def Env.psrc (e : Env) (s : State) (o : PSrc) (p : Nat) : Nat :=
  match o with
  | .v i => e.opnd s (.v i) p 32
  | .s i => e.opnd s (.s i) p 32
  | .lat i => e.opnd s (.lat i) p 32
  | .p i => b2n (predGet (s.lane e.c p) i.val)

/-- Guard(l) (R43, R50). -/
def guardOf (s : State) (c : Nat) (q : Pfx) (p : Nat) : Bool := predGet (s.lane c p) q.pr.val != q.neg

/-! ### Writing results -/

/-- Sets the latch of the current instruction in one lane, or in the group (R39). -/
def Env.setLatch (e : Env) (s : State) (p x : Nat) : State :=
  if e.once then
    s.modGroup e.c e.g fun r => { r with cur := r.cur.map fun u => { u with gx := u.gx.setIfInBounds e.cu.k (BitVec.ofNat 128 x) } }
  else s.modLane e.c p fun l => { l with lat := l.lat.setIfInBounds e.cu.k (BitVec.ofNat 128 x) }

/-- WriteDst(f, l, n, x) for a register destination (R50). -/
def Env.write (e : Env) (d : Option Operand) (p w x : Nat) (s : State) : State :=
  let s := match d with
    | some (.v i) => s.setV e.c p i.val (w / 32) x
    | some (.s i) => s.setS e.c e.g i.val (w / 32) x
    | _ => s
  e.setLatch s p (x % 2 ^ w)

/-- WriteDst for a predicate destination (R50, R151). -/
def Env.writeP (e : Env) (d : Option (Fin 8)) (p : Nat) (b : Bool) (s : State) : State :=
  let s := match d with
    | some i => s.modLane e.c p fun l => { l with p := l.p.setIfInBounds i.val b }
    | none => s
  e.setLatch s p (b2n b)

/-- Folds a state over lanes. -/
def eachLane (ps : List Nat) (f : Nat → State → State) (s : State) : State := ps.foldl (fun s p => f p s) s

/-- A register result in every lane of C, or once; `f` reads the state before any write (R6). -/
def Env.lanesOut (e : Env) (d : Option Operand) (w : Nat) (f : Nat → Nat) (s : State) : State :=
  if e.once then e.write d e.low w (f e.low) s else eachLane e.lanes (fun p t => e.write d p w (f p) t) s

/-- A predicate result: per lane, or computed once and written in every lane of the issuing set (R151). -/
def Env.predOut (e : Env) (d : Option (Fin 8)) (f : Nat → Bool) (s : State) : State :=
  if e.once then eachLane e.cu.live (fun p t => e.writeP d p (f e.low) t) s
  else eachLane e.lanes (fun p t => e.writeP d p (f p) t) s

/-! ### Random streams (R182, R183) -/

/-- Rotl32. -/
def rotl32 (x k : Nat) : Nat := (x * 2 ^ k + x / 2 ^ (32 - k)) % 2 ^ 32

/-- One round of Draw. -/
def drawRound (k0 k1 : Nat) (i : Nat) (x : Nat × Nat × Nat × Nat) : Nat × Nat × Nat × Nat :=
  let (x0, x1, x2, x3) := x
  let ka := if i % 2 = 0 then k0 else k1
  let kb := if i % 2 = 0 then k1 else k0
  let x0 := x0 ^^^ ka
  let x2 := (x2 + kb + i * 0x9E3779B9) % 2 ^ 32
  let x0 := (x0 + x1) % 2 ^ 32
  let x3 := rotl32 (x3 ^^^ x0) 16
  let x2 := (x2 + x3) % 2 ^ 32
  let x1 := rotl32 (x1 ^^^ x2) 12
  let x0 := (x0 + x1) % 2 ^ 32
  let x3 := rotl32 (x3 ^^^ x0) 8
  let x2 := (x2 + x3) % 2 ^ 32
  let x1 := rotl32 (x1 ^^^ x2) 7
  (x0, x1, x2, x3)

/-- Draw(K, st, n, ln, ix, salt) (R183). -/
def draw (key st n ln ix salt : Nat) : Nat :=
  let k0 := (key % 2 ^ 32) ^^^ salt
  let k1 := key / 2 ^ 32 % 2 ^ 32
  let (x0, x1, x2, x3) := (natRange 0 10).foldl (fun x i => drawRound k0 k1 i x) (ix, st, n % 2 ^ 32, (ln + 0x5C000000) % 2 ^ 32)
  x0 ^^^ x1 ^^^ x2 ^^^ x3

/-- NextDraw(l, salt) (R182), with STEP as the clause read it at issue (R185). -/
def Env.nextDraw (e : Env) (p salt : Nat) (s : State) : Nat × State :=
  let l := s.lane e.c p
  let ix := if l.rstep = e.cu.step then l.ridx else 0
  let t := s.teamOf e.c e.x
  let u := draw (s.ctx (s.ctxOf e.c e.x)).rkey.toNat e.cu.step.toNat (t.elim 0 (·.n)) l.rln ix.toNat salt
  (u, s.modLane e.c p fun l => { l with rstep := e.cu.step, ridx := ix + 1 })

/-- StochBits for an instruction of mode `r` in lane `p` (R73): a draw under .rsr, else none is taken. -/
def Env.stoch (e : Env) (r : Rnd) (p : Nat) (s : State) : Nat × State :=
  if r = .rsr then e.nextDraw (if e.once then e.x.gbase else p) 0 s else (0, s)

/-- Lanes in which a float result is computed: the lanes of C, or one for the group. -/
def Env.runLanes (e : Env) : List Nat := if e.once then [e.low] else e.lanes

/-- A float result in every lane of C, or once: `f` gives code and flags from the lane and its draw (R166, R74, R75). -/
def Env.floatOut (e : Env) (d : Option Operand) (w : Nat) (r : Rnd) (f : Nat → Nat → Nat × Flags) (s : State) : State :=
  let (t, fl) := e.runLanes.foldl (fun (a : State × Flags) p =>
    let (u, t) := e.stoch r p a.1
    let (c, fl) := f p u
    (e.write d p w c t, flagsOr a.2 fl)) (s, noFlags)
  t.orGst e.c e.g fl.gst

/-! ### Decode faults of a word (R25, R26, R45, R60, R61) -/

/-- The words of the parameter block that choose the operation of an opcode (R96, R390). -/
def selOf (x : Group) (w : Nat) : Nat :=
  let b := fld w 40 8
  match fld w 52 12 with
  | 0x931 | 0x932 => fld (regGet x.scal (b + 2)).toNat 8 3
  | 0x930 => (regGet x.scal b).toNat % 16
  | _ => 0

/-- Whether word `j` of a clause leaves a latch that later words may name (R39). -/
def latchOk (x : Group) (ws : List Nat) (j : Nat) : Bool :=
  match ws[j]? with
  | none => false
  | some w => match decodeNat w (selOf x w) with
    | .ok i => latchable i
    | .error _ => false

/-- A use breaks a rule that depends on the clause (R26, R31, R39, R114). -/
def useBad (x : Group) (cu : Cursor) (vregs : Nat) (u : Use) : Bool :=
  match u.o with
  | .v i => onceClass cu.ecl || vregs < i.val + u.w / 32
  | .s _ => u.dst && !u.laneS && !onceClass cu.ecl
  | .lat j => !(j.val < cu.k && latchOk x cu.words j.val)
  | .lit _ => false

/-- Rules of single entries that depend on the clause (R95, R143, R192, R340). -/
def entryBad (x : Group) (cu : Cursor) (vregs : Nat) (i : Instr) : Bool :=
  (mustBeLast i && cu.k + 1 != cu.words.length) ||
  match i with
  | .call _ _ _ => vregs < 64
  | .sget _ _ .laneix => onceClass cu.ecl
  | .ballot _ (some (.s d)) _ => d.val % (max 1 (x.gwid / 32)) != 0
  | .tret _ _ _ => !x.hmode
  | _ => false

/-- The prefix of the word in a clause that runs once must be p0 (R26). -/
def onceBad (cu : Cursor) (i : Instr) : Bool := onceClass cu.ecl && pfxOf i != some pfx0

/-- The decode fault of an instruction in its clause, the first in the order of R45. -/
def wordFault (s : State) (c : Nat) (x : Group) (cu : Cursor) (i : Instr) : Option Nat :=
  let vregs := s.vregsOf c x
  if (usesOf i).any (useBad x cu vregs) || entryBad x cu vregs i || onceBad cu i then some tIllop
  else if !(engOf i).contains cu.ecl then some tClass
  else if privOf i && !(s.ctx (s.ctxOf c x)).mode then some tPriv
  else if !roleOk x.role cu.ecl i then some tRole
  else none

/-! ### Executing a word -/

/-- The latch of a word reads as zero where the word takes no effect (R39). -/
def clearLatch (s : State) (c g : Nat) (cu : Cursor) : State :=
  if onceClass cu.ecl then
    s.modGroup c g fun r => { r with cur := r.cur.map fun u => { u with gx := u.gx.setIfInBounds cu.k 0 } }
  else eachLane cu.live (fun p t => t.modLane c p fun l => { l with lat := l.lat.setIfInBounds cu.k 0 }) s

/-- The ports of an engine class: 0 to 3 vector, 4 scalar, 5 memory, 6 sync, 7 copy, 8 matrix (R138). -/
def portsOf : EClass → List Nat
  | .vector => [0, 1, 2, 3]
  | .scalar | .control => [4]
  | .memory => [5]
  | .sync => [6]
  | .copy => [7]
  | .matrix => [8]

/-- The octets that hold an issuing lane (R138). -/
def octets (x : Group) (ps : List Nat) : Nat :=
  ((natRange 0 (x.gwid / 8)).filter fun k => ps.any fun p => (p - x.gbase) / 8 == k).length

/-- The port clocks of one word (R138). -/
def wordClocks (e : EClass) (x : Group) (ps : List Nat) : Nat := if e = .vector then ceilDiv (octets x ps) 4 else 1

/-- The words after a blocking instruction issue on the clause's port once it can start them, and take their port clocks again
(R138, R139). -/
def State.resumePort (s : State) (c g : Nat) (x : Group) (cu : Cursor) : State :=
  let port := (portsOf cu.ecl).headD 4
  let start := max s.clk.toNat (((s.core c).portFree[port]?).getD 0)
  let stop := start + (cu.words.length - cu.k) * wordClocks cu.ecl x cu.issuing
  (s.modCore c fun k => { k with portFree := k.portFree.setIfInBounds port stop }).modGroup c g fun r =>
    { r with cur := r.cur.map fun u => { u with start := start }, nextClk := max r.nextClk (stop + 3) }

/-- The word is done: the next word, or the end of the clause, where the lanes that no transfer took advance to
FallThrough (R136). -/
def advance (s : State) (c g : Nat) : State :=
  match (s.group? c g).bind (·.cur) with
  | none => s
  | some cu =>
    if cu.k + 1 < cu.words.length ∧ cu.live ≠ [] then
      let cu' := { cu with k := cu.k + 1 }
      let blocked := (s.group? c g).any (·.blk.isSome)
      let s := s.modGroup c g fun r =>
        { r with cur := some cu', blk := none, phase := 0, state := if r.state = .wait then .run else r.state }
      match blocked, s.group? c g with
      | true, some x => s.resumePort c g x cu'
      | _, _ => s
    else
      let ft := cu.base + 8 * (cu.words.length + 1)
      (eachLane cu.live (fun p t => t.modLane c p fun l => { l with lpc := BitVec.ofNat 64 ft, resw := 0 }) s).endClause c g

/-- A decode fault: every lane of `ps` traps with `code` on the current word (R45); with none the word is passed. -/
def faultWord (s : State) (c g : Nat) (cu : Cursor) (ps : List Nat) (code : Nat) : State :=
  if ps.isEmpty then advance s c g else s.takeTrap c g cu (ps.map fun p => ({ pos := p }, code)) []

/-- The lanes in which a word of prefix `q` takes effect (R43). -/
def effectLanes (s : State) (c : Nat) (cu : Cursor) (q : Pfx) : List Nat :=
  if onceClass cu.ecl then cu.live else cu.live.filter (guardOf s c q)

/-- Applies what an effect comes to. -/
def applyRes (c g : Nat) (cu : Cursor) (r : Res) : State :=
  match r with
  | .done s => advance s c g
  | .wait s b => s.modGroup c g fun r => { r with blk := some b, state := if r.state = .run then .wait else r.state,
                                                  since := (match r.blk with | none | some .instr => s.clk.toNat | _ => r.since) }
  | .trap s hs again =>
    -- the cursor as it stands, so that lanes a transfer ended keep their targets
    s.takeTrap c g (((s.group? c g).bind (·.cur)).getD cu) hs again

/-- The execution of an instruction word by the group in focus. With C empty the word has no effect (R43). -/
def execWord (i : Instr) (body : Env → State → Res) (s : State) : Host.Outcome State Fault Refusal :=
  match s.focus with
  | none => .fault .noIssuingGroup
  | some (c, g) =>
    match s.group? c g with
    | none => .fault .noIssuingGroup
    | some x =>
      match x.cur with
      | none => .fault .noIssuingGroup
      | some cu =>
        let s0 := { s with focus := none }
        let ps := effectLanes s0 c cu ((pfxOf i).getD pfx0)
        match wordFault s0 c x cu i with
        | some code => .next (faultWord s0 c g cu ps code)
        | none =>
          let s1 := clearLatch s0 c g cu
          if ps.isEmpty then .next (advance s1 c g)
          else .next (applyRes c g cu (body ⟨c, g, x, cu, i, ps⟩ s1))

/-- A word that is no instruction (R62): T.ILLOP in the lanes its prefix selects. DESIGN CHOICE (log entry 61): in a per-lane
clause a word of class 0xF whose bits [51:48] select no lane raises nothing and is passed, as R43 and R45 limit a trap to the
guarded lanes; R25 says that every wrong COUNT is caught. -/
def execBadWord (c g : Nat) (x : Group) (cu : Cursor) (w : Nat) (s : State) : State :=
  let _ := x
  faultWord s c g cu (effectLanes s c cu (pfxAt w)) tIllop

/-- A control transfer ends the lane's clause (R144). -/
def Env.leave (e : Env) (p : Nat) (s : State) : State :=
  s.modGroup e.c e.g fun r => { r with cur := r.cur.map fun u => { u with live := u.live.filter (· != p) } }

/-- Transfers a lane to an address (R136). -/
def Env.transfer (e : Env) (p : Nat) (a : Nat) (s : State) : State :=
  e.leave p (s.modLane e.c p fun l => { l with lpc := BitVec.ofNat 64 a, resw := 0 })

/-- FallThrough (R136). -/
def Env.fallThrough (e : Env) : Nat := e.cu.base + 8 * (e.cu.words.length + 1)

/-- Lanes are held at a record from generation `hg` on (R258): their part of the clause ends, and they stand at FallThrough
(R261). -/
def Env.hold (e : Env) (k : HoldKind) (r : HoldRec) (hg : Nat → Word) (s : State) : State :=
  eachLane e.lanes (fun p s => (e.transfer p e.fallThrough s).modLane e.c p fun l => { l with hk := k, hr := r, hg := hg p }) s

end Sys2Proof.Machine
end

