-- ==== Sys2Proof/Machine/Walk.lean ====
section
/-!
DEFINITION. Sys2Proof/Machine/Walk.lean: translation (R93, R223 to R230, R240), the version record (R239 to R245),
fault records and the operand log's admission (R234 to R236), and the reads the device makes at virtual addresses.
-/
namespace Sys2Proof.Machine

/-- What an access is to the translation (R228 to R230). -/
inductive Use2 where
  /-- a read; in a versioned region it reads the published version -/
  | read
  /-- a plain write -/
  | write
  /-- the fetch of a clause word -/
  | fetch
  /-- a read that must meet an unversioned page: `waitc` registrations -/
  | plainRead
  /-- a read and a plain write in one: `atom`, `cas` -/
  | readWrite
  /-- `ldv` -/
  | vread
  /-- `stv` and `vpub` -/
  | vwrite
  deriving DecidableEq, Repr

/-- ACC of a record (R334). -/
def Use2.acc : Use2 → Nat
  | .read | .vread | .plainRead => 0
  | .write | .vwrite => 1
  | .fetch => 2
  | .readWrite => 3

/-- A translation fault: its code (R234), its level, and the line of the entry that faulted. -/
structure PFault where
  code : Nat
  level : Nat
  line : Nat
  deriving DecidableEq, Repr

def pAbsent : Nat := 1
def pWrite : Nat := 2
def pUser : Nat := 3
def pBadEntry : Nat := 4
def pNoBack : Nat := 5
def pNoRoot : Nat := 6
def pVKind : Nat := 7

/-- The replayable reasons (R234). -/
def PFault.replayable (f : PFault) : Bool := f.code == pAbsent || f.code == pWrite

/-- What a walk finds: a page, a versioned region with its record, or a fault. -/
inductive WalkRes where
  | page (pa attr : Nat) (deps : List Nat)
  | region (rec_ attr : Nat) (ro : Bool) (deps : List Nat)
  | fault (f : PFault)
  deriving DecidableEq, Repr

/-- The physical die is 24 to 31 (R16). -/
def noBack (pa : Nat) : Bool := 24 ≤ paDie pa

/-- The check of a top or middle entry (R225, R228). -/
def dirFault (e a level : Nat) : Option PFault :=
  if e % 2 = 0 then some ⟨pAbsent, level, a / 64⟩
  else if fld e 42 22 ≠ 0 ∨ fld e 1 11 ≠ 0 then some ⟨pBadEntry, 0, a / 64⟩
  else none

/-- The check of a region entry (R226). -/
def regionFault (e a : Nat) : Option PFault :=
  if e % 2 = 0 then some ⟨pAbsent, 2, a / 64⟩
  else if fld e 42 22 ≠ 0 ∨ fld e 4 4 ≠ 0 ∨ fld e 1 1 ≠ 0 ∨ fld e 2 2 = 3 ∨ fld e 10 2 = 3 ∨
      (fld e 2 2 ≠ 2 ∧ (fld e 10 2 ≠ 0 ∨ fld e 9 1 ≠ 0 ∨ fld e 8 1 ≠ 0)) then some ⟨pBadEntry, 0, a / 64⟩
  else none

/-- The check of a leaf entry (R227); `large` for a large-page leaf. -/
def leafFault (e a : Nat) (large : Bool) : Option PFault :=
  if e % 2 = 0 then some ⟨pAbsent, 3, a / 64⟩
  else if fld e 42 22 ≠ 0 ∨ fld e 8 6 ≠ 0 ∨ fld e 5 1 ≠ 0 ∨ fld e 1 2 ≠ 0 ∨ fld e 6 2 = 3 ∨
      (large = true ∧ fld e 14 6 ≠ 0) then some ⟨pBadEntry, 0, a / 64⟩
  else none

/-- The permission checks of R228 in their order, for a page or a region. -/
def permFault (mode : Bool) (u : Use2) (versioned user ro : Bool) (line : Nat) : Option PFault :=
  let vkind := match u with
    | .read | .fetch => false
    | .write | .readWrite | .plainRead => versioned
    | .vread | .vwrite => !versioned
  let writes := u == .write || u == .readWrite || u == .vwrite
  if !mode && !user then some ⟨pUser, 0, line⟩
  else if vkind then some ⟨pVKind, 0, line⟩
  else if writes && ro then some ⟨pWrite, 0, line⟩
  else none

/-- The heap window holds `va` (R93). -/
def inWindow (k : Ctx) (va : Nat) : Bool := k.hbase.toNat ≤ va && va < k.hlim.toNat

/-! ### The version record (R239 to R245) -/

/-- The fields of a version record. -/
structure VRec where
  leaf : Nat → Nat
  pstamp : Nat
  qstamp : Nat
  word20 : Nat
  wpend : Nat
  pin : Nat → Nat
  lstamp : Nat

/-- Reads the record at a physical address. -/
def State.vrec (s : State) (r : Nat) : VRec :=
  { leaf := fun i => s.homeRead (r + 8 * i) 8, pstamp := s.homeRead (r + 0x18) 4, qstamp := s.homeRead (r + 0x1C) 4,
    word20 := s.homeRead (r + 0x20) 4, wpend := s.homeRead (r + 0x24) 4,
    pin := fun i => s.homeRead (r + 0x28 + 2 * i) 2, lstamp := s.homeRead (r + 0x30) 4 }

def VRec.pix (v : VRec) : Nat := fld v.word20 0 2
def VRec.qix (v : VRec) : Nat := fld v.word20 2 2
def VRec.wix (v : VRec) : Nat := 3 - v.pix - v.qix
def VRec.drn (v : VRec) : Bool := bitAt v.word20 4
def VRec.qv (v : VRec) : Bool := bitAt v.word20 8
def VRec.xp (v : VRec) (i : Nat) : Bool := bitAt v.word20 (9 + i)

/-- The fields a resolution refuses (R240). -/
def State.vrecBad (s : State) (r : Nat) : Bool :=
  let v := s.vrec r
  v.pix == 3 || v.qix == 3 || v.pix == v.qix || fld v.word20 12 20 != 0 || fld v.word20 5 3 != 0 ||
    (natRange 0 3).any (fun i => fld (v.leaf i) 42 22 != 0 || fld (v.leaf i) 1 11 != 0) ||
    s.homeRead (r + 0x2E) 2 != 0 || s.homeRead (r + 0x34) 8 != 0 || s.homeRead (r + 0x3C) 4 != 0

/-- The version a reader takes: P, or in a context with DETM = 1 the oldest one that satisfies `m` (R248). -/
def VRec.choose (v : VRec) (detm : Bool) (m : Nat) : Nat := if detm && v.qv && m ≤ v.qstamp then v.qix else v.pix

/-- The page of `va` in frame set `f` of the record `r` (R240). -/
def State.frame (s : State) (r f va : Nat) : WalkRes :=
  let lp := (s.vrec r).leaf f
  let large := bitAt lp 0
  let a := fld lp 12 30 * 4096 + (if large then 8 * fld va 20 3 else 8 * fld va 14 9)
  let e := s.homeRead a 8
  if s.vrecBad r then .fault ⟨pBadEntry, 0, r / 64⟩
  else match leafFault e a large with
    | some q => .fault q
    | none =>
      if fld e 6 2 ≠ 0 ∨ fld e 4 1 ≠ 0 ∨ fld e 3 1 ≠ 0 then .fault ⟨pBadEntry, 0, a / 64⟩
      else
        let pa := fld e 14 28 * 2 ^ 14 + (if large then va % 2 ^ 20 else va % 2 ^ 14)
        if noBack pa then .fault ⟨pNoBack, 0, a / 64⟩ else .page pa 1 [a / 64]

/-! ### The walk -/

/-- Walk(ctx, va, kind) for a 50-bit virtual address (R93, R223, R228). -/
def State.walk (s : State) (x va : Nat) (u : Use2) : WalkRes :=
  let k := s.ctx x
  if inWindow k va then
    let pa := va - k.hbase.toNat + k.hofs.toNat
    if noBack pa then .fault ⟨pNoBack, 0, pa / 64⟩
    else if u = .vread ∨ u = .vwrite then .fault ⟨pVKind, 0, pa / 64⟩
    else .page pa 0 []
  else if k.ptroot.toNat = 0 then .fault ⟨pNoRoot, 0, 0⟩
  else
    let a1 := k.ptroot.toNat + 8 * fld va 41 9
    let e1 := s.homeRead a1 8
    match dirFault e1 a1 0 with
    | some f => .fault f
    | none =>
      let a2 := fld e1 12 30 * 4096 + 8 * fld va 32 9
      let e2 := s.homeRead a2 8
      match dirFault e2 a2 1 with
      | some f => .fault f
      | none =>
        let a3 := fld e2 12 30 * 4096 + 8 * fld va 23 9
        let e3 := s.homeRead a3 8
        match regionFault e3 a3 with
        | some f => .fault f
        | none =>
          let deps := [a1 / 64, a2 / 64, a3 / 64]
          let ptr := fld e3 12 30 * 4096
          if fld e3 2 2 = 2 then
            -- the record chooses a frame for a plain read; the versioned instructions read theirs at resolution (R240), and no frame
            -- is chosen for an access that the region refuses (R230; log entry 66)
            let framed : WalkRes := match u with
              | .read | .fetch => s.frame ptr ((s.vrec ptr).choose k.detm 0) va
              | .write | .readWrite | .plainRead | .vread | .vwrite => .page 0 0 []
            match framed, permFault k.mode u true (bitAt e3 9) (bitAt e3 8) (a3 / 64) with
            | .fault f, _ => .fault f
            | _, some f => .fault f
            | _, none => .region ptr (fld e3 10 2) (bitAt e3 8) deps
          else
            let large := fld e3 2 2 == 1
            let a4 := if large then ptr + 8 * fld va 20 3 else ptr + 8 * fld va 14 9
            let e4 := s.homeRead a4 8
            match leafFault e4 a4 large with
            | some f => .fault f
            | none =>
              let pa := fld e4 14 28 * 2 ^ 14 + (if large then va % 2 ^ 20 else va % 2 ^ 14)
              if noBack pa then .fault ⟨pNoBack, 0, a4 / 64⟩
              else match permFault k.mode u false (bitAt e4 4) (bitAt e4 3) (a4 / 64) with
                | some f => .fault f
                | none => .page pa (fld e4 6 2) (deps ++ [a4 / 64])

/-- The physical bytes of virtual addresses of a region in one frame set, or the first fault with its address. -/
def State.frameBytes (s : State) (r f : Nat) : List Nat → Except (Nat × PFault) (List Nat)
  | [] => .ok []
  | va :: t => match s.frame r f va with
    | .page pa _ _ => match s.frameBytes r f t with
      | .ok ps => .ok (pa :: ps)
      | .error q => .error q
    | .fault q => .error (va, q)
    | .region _ _ _ _ => .error (va, ⟨pVKind, 0, r / 64⟩)

/-- The table lines from which those bytes are translated. -/
def State.frameDeps (s : State) (r f : Nat) (vas : List Nat) : List Nat :=
  vas.foldl (fun l va => match s.frame r f va with
    | .page _ _ d => l ++ d.filter fun x => !l.contains x
    | _ => l) []

/-- Sets PIN of a frame set. -/
def State.setPin (s : State) (r f n : Nat) : State := s.homePutRaw (r + 0x28 + 2 * f) 2 n
/-- Sets the word at 0x20 (XP, QV, DRN, QIX, PIX). -/
def State.setWord20 (s : State) (r w : Nat) : State := s.homePutRaw (r + 0x20) 4 w

/-- One pin of a frame set is released; DRAINING ends when neither pins nor XP are left (R242). -/
def State.unpin (s : State) (r f : Nat) : State :=
  let s := s.setPin r f ((s.vrec r).pin f - 1)
  let v := s.vrec r
  if v.drn && v.wix == f && v.pin f == 0 && !v.xp f then s.setWord20 r (v.word20 - 16) else s

/-- XP of a frame set is cleared (R242). -/
def State.clearXp (s : State) (r f : Nat) : State :=
  let v := s.vrec r
  let w := if v.xp f then v.word20 - 2 ^ (9 + f) else v.word20
  let w := if v.drn && v.wix == f && v.pin f == 0 then w - 16 else w
  s.setWord20 r w

/-- A publication can be performed (R244). -/
def VRec.ready (v : VRec) : Bool := v.wpend == 0 && !v.drn

/-- Publish(g, t), the wait being over (R244). -/
def State.publish (s : State) (r t : Nat) : State :=
  let v := s.vrec r
  let old := v.qix
  let drn := v.pin old != 0 || v.xp old
  let w := v.word20 / 2 ^ 9 * 2 ^ 9 + 2 ^ 8 + fld v.word20 5 3 * 2 ^ 5 + b2n drn * 16 + v.pix * 4 + v.wix
  ((s.homePutRaw (r + 0x1C) 4 v.pstamp).homePutRaw (r + 0x18) 4 t).setWord20 r w

/-! ### Bytes at virtual addresses -/

/-- The physical byte of a generic or read-only virtual address for a device read, a fetch or a plain write. -/
def State.xlate (s : State) (x va : Nat) (u : Use2) : WalkRes :=
  match s.walk x va u with
  | .region r _ _ deps =>
    let v := s.vrec r
    match s.frame r (v.choose (s.ctx x).detm 0) va with
    | .page pa a d => .page pa a (deps ++ d)
    | q => q
  | q => q

/-- The bytes of an access: physical addresses, the attribute of the first, and the table lines; or the first fault with
its address. -/
def State.xlateBytes (s : State) (x : Nat) (u : Use2) : List Nat → Except (Nat × PFault) (List Nat × Nat × List Nat)
  | [] => .ok ([], 0, [])
  | va :: t =>
    match s.xlate x va u with
    | .fault f => .error (va, f)
    | .region _ _ _ _ => .error (va, ⟨pVKind, 0, 0⟩)
    | .page pa a d =>
      match s.xlateBytes x u t with
      | .error q => .error q
      | .ok (ps, a', d') => .ok (pa :: ps, if t.isEmpty then a else max (a % 2) (a' % 2) + 2 * (a / 2), d ++ d')

/-- The addresses of an `n`-byte access. -/
def vaRange (va n : Nat) : List Nat := (natRange 0 n).map fun i => va + i

/-- A read of `n` bytes by the device at a generic or read-only address of a context: the bytes, or the fault. -/
def State.devRead (s : State) (x va n : Nat) : Except (Nat × PFault) (List Byte) :=
  match s.xlateBytes x .read (vaRange (va % 2 ^ 50) n) with
  | .error q => .error q
  | .ok (pas, _, _) => .ok ((natRange 0 ((n + 7) / 8)).flatMap fun i => s.homeBytes ((pas.drop (8 * i)).take 8))

/-- The path of an effective address (R92). -/
def pathOf (ea : Nat) : Nat := ea / 2 ^ 60

/-- A well-formed generic (0x0) or read-only (0x3) address. -/
def flatOk (ea : Nat) (ro : Bool) : Bool := (pathOf ea == 0 || (ro && pathOf ea == 3)) && fld ea 50 10 == 0

/-! ### Fault records (R234, R334) -/

/-- Writes a KIND 1 or KIND 2 record for lanes of a group. -/
def State.faultRecord (s : State) (x c g : Nat) (f : PFault) (va acc lpc : Nat) (lanes : List Nat) : State × Bool :=
  let kind := if f.replayable then 1 else 2
  s.writeRecord x (s.groupRec c g { kind := kind, code := f.code, acc := acc, level := f.level, va := va, lpc := lpc } lanes)

/-- The word of a `T.PAGE` lane's Detail (R331). -/
def pageDetail (f : PFault) : Nat := f.code + 16 * f.level

/-- An entry of the operand log is free for a context: of 64, four are kept for supervisor contexts (R236). -/
def State.logFree (s : State) (c x : Nat) : Bool :=
  (s.core c).log.length < (if (s.ctx x).mode then 64 else 60)

/-- Registers a deferred trap for the lanes of a group (R330). -/
def State.defer (s : State) (c g : Nat) (d : Deferred) : State :=
  s.modGroup c g fun r => { r with deferred := r.deferred ++ [d] }

end Sys2Proof.Machine
end

