-- ==== Sys2Proof/Machine/Line.lean ====
section
/-!
DEFINITION. Sys2Proof/Machine/Line.lean: the units an access passes through (R198, R200 to R203): L1, the
write-combining buffer and the writes in flight; signatures (R206); reads, writes and read-modify-writes at an access's
target (R211, R212); and the staging and conflict records of deterministic operation (R393 to R397).
-/
namespace Sys2Proof.Machine

/-! ### L1, buffer, flights -/

/-- Adds a line to the signatures the core will post (R206, R207). -/
def State.sigAdd (s : State) (c line : Nat) : State :=
  s.modCore c fun k => { k with sigDie := k.sigDie ||| sigOf line, sigMod := k.sigMod ||| sigOf line }

/-- The bytes of an access that are read or written at once: an aligned access of up to 8 bytes, the halves of an aligned one
of 16, otherwise each byte (R211). -/
def unitsOf (va n : Nat) : List (List Nat) :=
  if n ≤ 8 ∧ va % (max n 1) = 0 then [natRange 0 n]
  else if n = 16 ∧ va % 16 = 0 then [natRange 0 8, natRange 8 8]
  else (natRange 0 n).map fun i => [i]

/-- The mask of byte offsets. -/
def maskOf (os : List Nat) : Nat := os.foldl (fun m o => m ||| 2 ^ o) 0

/-- Adds a mask of bytes that reach the home together; masks that share a byte become one. -/
def addUnit (units : List Nat) (m : Nat) : List Nat :=
  units.foldl (fun m u => if u &&& m = 0 then m else m ||| u) m :: units.filter fun u => u &&& m == 0

/-- The table lines of two translations. -/
def addDeps (a b : List Nat) : List Nat := a ++ b.filter fun d => !a.contains d

/-- Bytes leave the core for their home; `team` marks bytes a `.team` atomic wrote (R212). -/
def State.addFlight (s : State) (c line : Nat) (bytes : Tab Byte) (team : Nat) (deps units : List Nat) : State :=
  if bytes.isEmpty then s
  else
    let (id, s) := s.fresh c
    (s.modCore c fun k => { k with flights := tabSet k.flights id ⟨line, bytes, team, deps, units⟩ }).sigAdd c line

/-- Drains a buffer line. -/
def State.drainLine (s : State) (c line : Nat) : State :=
  match tabGet? (s.core c).wcb line with
  | none => s
  | some w => (s.modCore c fun k => { k with wcb := tabDel k.wcb line }).addFlight c line w.bytes 0 w.deps w.units

/-- Writes back the dirty bytes of an L1 line; it stays valid and clean. Bytes of `.team` atomics that a home atomic has
written since the fill are discarded, and the line takes the home's (R212). -/
def State.writeBack (s : State) (c line : Nat) : State :=
  match tabGet? (s.core c).l1 line with
  | none => s
  | some l =>
    let lost (o : Nat) : Bool := bitAt l.dirty o && bitAt l.teamMask o && bitAt l.lost o
    let bytes := ((natRange 0 64).filter fun o => bitAt l.dirty o && !lost o).map fun o => (o, listGet 0 l.data o)
    let clean := { l with dirty := 0, teamMask := 0, units := [] }
    let clean := (natRange 0 64).foldl (fun q o =>
      if lost o then q.patch o (s.mem.get (line * 64 + o)) (s.poison.contains (line * 64 + o)) else q) clean
    (s.modCore c fun k => { k with l1 := tabSet k.l1 line clean }).addFlight c line bytes (l.teamMask &&& l.dirty) l.deps l.units

/-- Drops an L1 line. -/
def State.dropLine (s : State) (c line : Nat) : State := s.modCore c fun k => { k with l1 := tabDel k.l1 line }

/-- Drops an L1 line that serves ordinary reads. -/
def State.dropPlain (s : State) (c line : Nat) : State :=
  if (tabGet? (s.core c).l1 line).any (!·.ro) then s.dropLine c line else s

/-- Drops the read-only lines of a core: the window of R202 begins at the admission or the restore of a team. -/
def State.dropReadOnly (s : State) (c : Nat) : State := s.modCore c fun k => { k with l1 := k.l1.filter fun l => !l.2.ro }

/-- The byte that the core's own writes not yet at home leave, if any. -/
def Core.ownByte? (k : Core) (pa : Nat) : Option Byte :=
  match (tabGet? k.wcb (pa / 64)).bind fun w => tabGet? w.bytes (pa % 64) with
  | some b => some b
  | none => k.flights.foldl (fun (r : Option Byte) f =>
      if f.2.line = pa / 64 then ((tabGet? f.2.bytes (pa % 64)).orElse fun _ => r) else r) none

/-- Makes room in L1 (R13: 512 KiB): the oldest line goes. -/
def State.evict (s : State) (c : Nat) : State :=
  let k := s.core c
  if k.l1.length < 8192 then s
  else match k.l1 with
    | [] => s
    | e0 :: t =>
      let old := t.foldl (fun m e => if e.2.fillClk < m.2.fillClk then e else m) e0
      (s.writeBack c old.1).dropLine c old.1

/-- Fills a line from its home, with the core's own outstanding bytes over it. The line joins the core's next signatures,
because a release covers the writes that its lanes have read (R207, log entry 56). -/
def State.fill (s : State) (c line : Nat) (ro : Bool) : State :=
  let s := s.evict c
  let own (o : Nat) : Option Byte := (s.core c).ownByte? (line * 64 + o)
  let data := (natRange 0 64).map fun o => (own o).getD (s.softByte (line * 64 + o))
  let poison := maskOf ((natRange 0 64).filter fun o => (own o).isNone && s.poison.contains (line * 64 + o))
  let l : Line := { data := data, dirty := 0, teamMask := 0, lost := 0, poison := poison, ro := ro,
                    fillClk := s.clk.toNat, dirtyClk := 0, deps := [], units := [] }
  (s.modCore c fun k => { k with l1 := tabSet k.l1 line l }).sigAdd c line

/-- Distinct lines of physical addresses, in the order met. -/
def linesOf (pas : List Nat) : List Nat :=
  pas.foldl (fun ls a => if ls.contains (a / 64) then ls else ls ++ [a / 64]) []

/-- A line for a read: a read-only line serves only reads with read-only semantics (R200). -/
def State.haveLine (s : State) (c line : Nat) (ro : Bool) : State :=
  match tabGet? (s.core c).l1 line with
  | some l => if l.ro && !ro then (s.dropLine c line).fill c line ro else s
  | none => s.fill c line ro

/-- A read through L1. -/
def State.readCached (s : State) (c : Nat) (pas : List Nat) (ro : Bool) : State × List Byte × Bool :=
  let s := (linesOf pas).foldl (fun s l => s.haveLine c l ro) s
  let k := s.core c
  (s, pas.map fun a => (tabGet? k.l1 (a / 64)).elim 0 fun l => listGet 0 l.data (a % 64),
   pas.any fun a => (tabGet? k.l1 (a / 64)).any fun l => bitAt l.poison (a % 64))

/-- An L1 line with bytes (by offset) dirtied by a store, or by a `.team` atomic. -/
def Line.store (l : Line) (clk : Nat) (deps : List Nat) (ws : List (Nat × Byte)) (team : Bool) : Line :=
  let m := maskOf (ws.map (·.1))
  { l with
    data := ws.foldl (fun d w => listSet d w.1 w.2) l.data, dirty := l.dirty ||| m
    teamMask := if team then l.teamMask ||| m else l.teamMask - (l.teamMask &&& m)
    poison := l.poison - (l.poison &&& m), dirtyClk := if l.dirty = 0 then clk else l.dirtyClk
    deps := addDeps l.deps deps, units := addUnit l.units m }

/-- The buffer takes bytes of a line, for which it needs a line (R200). -/
def State.buffer (s : State) (c line : Nat) (deps : List Nat) (ws : List (Nat × Byte)) : State :=
  let m := maskOf (ws.map (·.1))
  let k := s.core c
  let (s, w) : State × WLine := match tabGet? k.wcb line with
    | some w => (s, w)
    | none =>
      (if k.wcb.length < 4 then s else match k.wcb with
        | [] => s
        | w0 :: _ => s.drainLine c w0.1, ⟨[], s.clk.toNat, [], []⟩)
  s.modCore c fun k => { k with wcb := tabSet k.wcb line { w with
    bytes := ws.foldl (fun b x => tabSet b x.1 x.2) w.bytes, deps := addDeps w.deps deps, units := addUnit w.units m } }

/-- Writes bytes of one line through the core (R200): an L1 line that is present, once the buffer has drained its older bytes
of the line; else the buffer. A line never cached is not kept in L1. -/
def State.storeLine (s : State) (c attr line : Nat) (deps : List Nat) (ws : List (Nat × Byte)) : State :=
  let cached := attr % 2 = 0
  match tabGet? (s.core c).l1 line with
  | none => s.buffer c line deps ws
  | some l =>
    if l.ro then (s.dropLine c line).buffer c line deps ws
    else if cached then
      (s.drainLine c line).modCore c fun k => { k with l1 := tabSet k.l1 line (l.store s.clk.toNat deps ws false) }
    else ((s.writeBack c line).dropLine c line).buffer c line deps ws

/-- A plain write of bytes that are written at once, or of several lines, to a home path. A write to the link registers goes
to them as it is (R347). -/
def State.storeBytes (s : State) (c attr : Nat) (deps : List Nat) (ws : List (Nat × Byte)) : State :=
  match ws with
  | [] => s
  | (a, _) :: _ =>
    if inLinkRegs a then
      s.addFlight c (a / 64) (ws.map fun w => (w.1 % 64, w.2)) 0 deps [maskOf (ws.map fun w => w.1 % 64)]
    else (linesOf (ws.map (·.1))).foldl (fun s l => s.storeLine c attr l deps
      ((ws.filter fun w => w.1 / 64 == l).map fun w => (w.1 % 64, w.2))) s

/-- Drains what the core holds of the lines, so that an access may be performed at their homes; whether none of the
core's writes to them is still in flight. -/
def State.toHome (s : State) (c : Nat) (lines : List Nat) : State × Bool :=
  let s := lines.foldl (fun s l => (s.drainLine c l).writeBack c l) s
  (s, !(s.core c).flights.any fun f => lines.contains f.2.line)

/-- A lane's access that still uses the translation it issued with: it is neither logged nor performed (R232). -/
def Acc.translated (a : Acc) : Bool := a.st != 3 && a.st != 4 && a.st != 5 && a.st != 6

/-- Whether a write to these lines may be performed: no access outstanding anywhere was translated through them (R232). Staged
accesses of the grid `own`, whose order the commits fix, do not count (log entry 57). -/
def State.canWrite (s : State) (lines : List Nat) (self : Option (Nat × Nat)) (own : Option Nat := none) : Bool :=
  let uses (d : List Nat) : Bool := d.any lines.contains
  !(s.transit.any fun t => some t.grid != own && uses t.acc.deps) && !s.cores.any fun k =>
    (k.2.pend.any fun p => self != some (k.1, p.1) && p.2.accs.any fun a => a.translated && uses a.deps) ||
    (k.2.flights.any fun f => uses f.2.deps && self != some (k.1, f.1)) ||
    (k.2.wcb.any fun w => uses w.2.deps) ||
    (k.2.l1.any fun l => l.2.dirty != 0 && uses l.2.deps)

/-- Every write of the core has reached its home, L1 and buffer included. -/
def Core.drained (k : Core) : Bool := k.wcb.isEmpty && k.flights.isEmpty && !k.l1.any fun l => l.2.dirty != 0

/-- The core drain of R205. -/
def State.drainAll (s : State) (c : Nat) : State :=
  let s := ((s.core c).wcb.map (·.1)).foldl (fun s l => s.drainLine c l) s
  (((s.core c).l1.filter fun l => l.2.dirty != 0).map (·.1)).foldl (fun s l => s.writeBack c l) s

/-- The Meridian die of a compute die (R11), as the index of a module board replica. -/
def meridianOf (die : Nat) : Nat := die % 6 / 3 + 2 * (die / 6 / 2)

/-- The lines of writes still in flight: they stay in the next signature. -/
def Core.flightSig (k : Core) : Nat := k.flights.foldl (fun m f => m ||| sigOf f.2.line) 0

/-- Posts the core's signature at the die board (R206). -/
def State.postDie (s : State) (c : Nat) : State :=
  let d := c / 24
  let sig := (s.core c).sigDie
  ({ s with dieBoards := tabSet s.dieBoards d ((s.dieBoard d).post sig) }).modCore c fun k => { k with sigDie := k.flightSig }

/-- Posts the core's signature at the module boards, which are replicas of one ring. -/
def State.postModule (s : State) (c : Nat) : State :=
  ({ s with modBoard := s.modBoard.post (s.core c).sigMod }).modCore c fun k => { k with sigMod := k.flightSig }

/-- Invalidates the L1 lines that match posts (R206); a dirty match is written back first. -/
def State.invalidate (s : State) (c : Nat) (posts : List Nat) (all : Bool) : State :=
  let hit := (s.core c).l1.filter fun l => !l.2.ro && (all || posts.any fun p => sigHas p l.1)
  hit.foldl (fun s l => (s.writeBack c l.1).dropLine c l.1) s

/-- The posts of a board since number `seen`, and whether more than 256 were missed. -/
def Board.since (b : Board) (seen : Nat) : List Nat × Bool := (b.posts.take (b.seq - seen), 256 < b.seq - seen)

/-- The acquire of a core at its die board. What it consumes joins the core's next signatures, so that a later release
covers it (R207). -/
def State.acquireDie (s : State) (c : Nat) : State :=
  let b := s.dieBoard (c / 24)
  let (posts, all) := b.since (s.core c).seenDie
  let m := if all then sigAll else posts.foldl (· ||| ·) 0
  (s.invalidate c posts all).modCore c fun k =>
    { k with seenDie := b.seq, sigDie := k.sigDie ||| m, sigMod := k.sigMod ||| m }

/-- The acquire of a core at its module board, then at its die board (R205). -/
def State.acquireModule (s : State) (c : Nat) : State :=
  let (posts, all) := s.modBoard.since (s.core c).seenMod
  let m := if all then sigAll else posts.foldl (· ||| ·) 0
  ((s.invalidate c posts all).modCore c fun k =>
    { k with seenMod := s.modBoard.seq, sigDie := k.sigDie ||| m, sigMod := k.sigMod ||| m }).acquireDie c

/-! ### Deterministic operation (R393 to R397) -/

/-- The roles a team takes on a line (R396). -/
inductive LineRole where
  | writer | atomic | counter | reader | roReader | waiter
  deriving DecidableEq, Repr

def emptyConflict (grid epoch : Nat) : Conflict := ⟨grid, epoch, none, none, none, none, none, none⟩

/-- Adds a team to a range. -/
def spanAdd (r : Option (Nat × Nat)) (n : Nat) : Option (Nat × Nat) :=
  match r with
  | none => some (n, n)
  | some (a, b) => some (min a n, max b n)

/-- Another team than `n` in a range. -/
def spanOther (r : Option (Nat × Nat)) (n : Nat) : Option Nat :=
  match r with
  | none => none
  | some (a, b) => if a ≠ n then some a else if b ≠ n then some b else none

/-- The key of a line's record. -/
def conflictKey (grid line : Nat) : Nat := grid * 2 ^ 36 + line

/-- The race that a role raises: the other team and ACC (R396, R397). -/
def Conflict.race (f : Conflict) (r : LineRole) (n : Nat) : Option (Nat × Nat) :=
  let acc (a : Nat) (o : Option Nat) : Option (Nat × Nat) := o.map fun m => (m, a)
  match r with
  | .writer => ((acc 1 (spanOther f.writer n)).orElse fun _ => acc 1 (spanOther f.atomic n)).orElse fun _ =>
      (acc 0 (spanOther f.roReader n)).orElse fun _ => acc 0 (spanOther f.waiter n)
  | .atomic => ((acc 1 (spanOther f.writer n)).orElse fun _ => acc 0 (spanOther f.roReader n)).orElse fun _ =>
      acc 0 (spanOther f.waiter n)
  | .counter => (acc 1 (spanOther f.writer n)).orElse fun _ => acc 0 (spanOther f.roReader n)
  | .reader => none
  | .roReader => (acc 0 (spanOther f.writer n)).orElse fun _ => acc 0 (spanOther f.atomic n)
  | .waiter => acc 0 (spanOther f.nonCounter n)

/-- The record once team `n` has taken a role. -/
def Conflict.take (f : Conflict) (r : LineRole) (n : Nat) : Conflict :=
  match r with
  | .writer => { f with writer := spanAdd f.writer n, nonCounter := spanAdd f.nonCounter n }
  | .atomic => { f with atomic := spanAdd f.atomic n, nonCounter := spanAdd f.nonCounter n }
  | .counter => { f with atomic := spanAdd f.atomic n }
  | .reader => { f with reader := spanAdd f.reader n }
  | .roReader => { f with roReader := spanAdd f.roReader n }
  | .waiter => { f with waiter := spanAdd f.waiter n }

/-- T.DETRACE: the record of KIND 4, the halt, and the end of what is staged (R397). -/
def State.detRace (s : State) (c g x line acc lpc : Nat) (grid : Nat) : State :=
  let r := s.groupRec c g { kind := 4, code := tDetrace, acc := acc, va := line * 64, lpc := lpc } []
  let s := ((s.writeRecord x r).1).haltCtx x
  { s with transit := s.transit.filter fun t => t.grid != grid }

/-- Takes a role on a line for team `n`, and whether that raised a race. -/
def State.takeRole (s : State) (c g x grid n line : Nat) (r : LineRole) : State × Bool :=
  let key := conflictKey grid line
  let epoch := (s.grid? grid).elim 0 (·.epoch)
  match tabGet? s.conflicts key with
  | none =>
    if 33554432 ≤ (s.conflicts.filter fun f => f.1 % 2 ^ 36 / 2 ^ 31 == line / 2 ^ 31).length then
      (s.detRace c g x line 0 (2 ^ 64 - 1) grid, true)
    else ({ s with conflicts := tabSet s.conflicts key ((emptyConflict grid epoch).take r n) }, false)
  | some f =>
    match f.race r n with
    | some (m, acc) => (s.detRace c g x line acc (min n m + 2 ^ 32 * max n m) grid, true)
    | none => ({ s with conflicts := tabSet s.conflicts key (f.take r n) }, false)

/-- Takes a role on every line of an access. -/
def State.takeRoles (s : State) (c g x grid n : Nat) (lines : List Nat) (r : LineRole) : State × Bool :=
  lines.foldl (fun a l => if a.2 then a else a.1.takeRole c g x grid n l r) (s, false)

/-- What a staged access writes, given the bytes it finds (R393). -/
def rmw (k : AccKind) (x y : Nat) (old : Nat) (n : Nat) : Option Nat :=
  match k with
  | .atom (.fold o) ty _ | .red o ty _ => some (wrap (foldInt o ty (tyVal ty old) (tyVal ty x)) (8 * n))
  | .atom .exch _ _ => some (x % 2 ^ (8 * n))
  | .cas _ _ => if old = x then some y else none
  | _ => none

/-- The bytes of a target at home. -/
def Target.pas : Target → List Nat
  | .home ps _ _ => ps
  | _ => []

/-- The bytes a staged access leaves at the addresses `ps`, over a view of memory. -/
def Staged.writes (t : Staged) (view : Nat → Byte) (ps : List Nat) : List (Nat × Byte) :=
  match t.kind with
  | .atom _ _ _ | .red _ _ _ | .cas _ _ =>
    match rmw t.kind t.acc.x t.acc.y (ofLe (ps.map view)) ps.length with
    | some v => ps.zip (leBytes ps.length v)
    | none => []
  | _ => ps.zip (t.bytes.map (·.2))

/-- The byte a team sees: its own staged accesses over the home (R393). -/
def State.detByte (s : State) (grid n pa : Nat) : Byte :=
  let line := pa / 64
  let mine := s.transit.filter fun t => t.grid == grid && t.n == n &&
    ((t.bytes.any fun b => b.1 / 64 == line) || ((t.acc.tgt.elim [] Target.pas).any fun a => a / 64 == line))
  let view : Tab Byte := mine.foldl (fun v t => (t.writes (fun a => tabGet (s.softByte a) v a) (t.acc.tgt.elim [] Target.pas)).foldl
    (fun v w => tabSet v w.1 w.2) v) []
  tabGet (s.softByte pa) view pa

/-- The bytes a team sees; the link registers are read as they are (R347). -/
def State.detBytes (s : State) (grid n : Nat) (pas : List Nat) : List Byte :=
  match pas with
  | [] => []
  | a :: _ => if inLinkRegs a then s.homeBytes pas else pas.map (s.detByte grid n)

/-- Whether one of the bytes is poisoned for a team: at home, or in what it has staged last. -/
def State.detPoisoned (s : State) (grid n : Nat) (pas : List Nat) : Bool :=
  pas.any fun a =>
    match (s.transit.filter fun t => t.grid == grid && t.n == n && t.bytes.any (·.1 == a)).getLast? with
    | some t => t.bad.contains a
    | none => s.poison.contains a

/-- Stages an access (R393). -/
def State.stage (s : State) (t : Staged) : State :=
  { s with transit := s.transit ++ [{ t with seq := s.commits }], commits := s.commits + 1 }

/-- A commit point of a team: what it has staged becomes due (R394). -/
def State.commitPoint (s : State) (grid n : Nat) : State :=
  { s with transit := s.transit.map fun t => if t.grid = grid ∧ t.n = n ∧ t.due.isNone then { t with due := some s.commits } else t,
           commits := s.commits + 1 }

/-- The team has staged accesses that are not yet performed. -/
def State.hasStaged (s : State) (grid n : Nat) : Bool := s.transit.any fun t => t.grid == grid && t.n == n

/-! ### Reads and writes at a target -/

/-- The home bytes that a pod-peer access of this module's own window reaches (R346, R347); none when it lies outside. -/
def Link.export (k : Link) (ofs n : Nat) : Option (List Nat) :=
  let size := expSize k.ownLog
  if ofs + n ≤ size then some (natRange (k.expbase * 2 ^ 30 + ofs) n) else none

/-- The bytes of a scratchpad target. -/
def State.scrRead (s : State) (k : Nat) (as_ : List Nat) : List Byte × Bool :=
  (as_.map (s.core k).scratch.get, as_.any (s.core k).scratchPoison.contains)

/-- Writes bytes of a scratchpad; the addresses `bad` become poisoned. -/
def State.scrWrite (s : State) (k : Nat) (ws : List (Nat × Byte)) (bad : List Nat := []) : State :=
  s.modCore k fun c => { c with
    scratch := c.scratch.putAll ws,
    scratchPoison := bad.foldl (fun p a => insSorted a p) (c.scratchPoison.filter fun a => !(ws.any (·.1 == a))) }

/-- A read at the home of a line, once the core's own writes to it are performed there. A copy of the line in L1 that could
return an older write afterwards goes (R202), and the line joins the next signatures (R207, log entry 56). -/
def State.readHome (s : State) (c : Nat) (pas : List Nat) : State × Option (List Byte × Bool) :=
  let (s, ok) := s.toHome c (linesOf pas)
  if ok then
    ((linesOf pas).foldl (fun s l => (s.dropPlain c l).sigAdd c l) s, some (s.softBytes pas, s.homePoisoned pas))
  else (s, none)

/-- mread (R202, R203, R215): the bytes of a target and whether any is poisoned; none while the access must wait. -/
def State.readAt (s : State) (c : Nat) (t : Target) (ro : Bool) : State × Option (List Byte × Bool) :=
  match t with
  | .scr k as_ => (s, some (s.scrRead k as_))
  | .home pas attr _ =>
    if attr % 2 = 1 || (pas.any inLinkRegs) then s.readHome c pas
    else
      let (s, bs, po) := s.readCached c pas ro
      (s, some (bs, po))
  | .peer _ _ | .range _ => (s, none)

/-- One read and write in coherence order at the home or bank (R211): the old value, or none while it must wait. -/
def State.rmwAt (s : State) (c : Nat) (t : Target) (k : AccKind) (x y : Nat) (self : Option (Nat × Nat)) :
    State × Option (Nat × Bool) :=
  match t with
  | .scr q as_ =>
    let (bs, po) := s.scrRead q as_
    if po then (s, some (0, true))
    else
      let old := ofLe bs
      match rmw k x y old as_.length with
      | some v => (s.scrWrite q (as_.zip (leBytes as_.length v)), some (old, false))
      | none => (s, some (old, false))
  | .home pas _ _ =>
    let lines := linesOf pas
    let (s, ok) := s.toHome c lines
    if !ok || !s.canWrite lines self then (s, none)
    else if s.homePoisoned pas then (s, some (0, true))
    else
      let old := ofLe (s.softBytes pas)
      let s := lines.foldl (fun s l => (s.dropLine c l).sigAdd c l) s
      -- the link registers take only loads and stores; anything else reads zero (R347)
      if pas.any inLinkRegs then (s, some (0, false))
      else match rmw k x y old pas.length with
        | some v => ((s.homeWrite (pas.zip (leBytes pas.length v)) []).markLost pas, some (old, false))
        | none => (s, some (old, false))
  | .peer _ _ | .range _ => (s, none)

/-- A `.team` atomic in L1 (R212). -/
def State.teamAt (s : State) (c : Nat) (pas : List Nat) (deps : List Nat) (k : AccKind) (x y : Nat) : State × Nat × Bool :=
  let (s, bs, po) := s.readCached c pas false
  let old := ofLe bs
  if po then (s, 0, true)
  else match rmw k x y old pas.length with
    | none => (s, old, false)
    | some v =>
      let ws := pas.zip (leBytes pas.length v)
      let fix (line : Nat) (l : Line) : Line :=
        l.store s.clk.toNat deps ((ws.filter fun w => w.1 / 64 == line).map fun w => (w.1 % 64, w.2)) true
      -- own bytes still in the buffer are older: they leave first
      let s := (linesOf pas).foldl (fun s l => s.drainLine c l) s
      ((linesOf pas).foldl (fun s l => s.modCore c fun q =>
        { q with l1 := match tabGet? q.l1 l with | some z => tabSet q.l1 l (fix l z) | none => q.l1 }) s, old, false)

end Sys2Proof.Machine
end

