-- ==== Sys2Proof/Machine/Access.lean ====
section
/-!
DEFINITION. Sys2Proof/Machine/Access.lean: what the memory and atomic instructions share: effective addresses (R36),
path and alignment checks (R92, R215, R346), targets, the issue of an access with its port stalls, faults and operand-log
entries (R198, R202, R235, R236), the start of each lane's access, and releases and acquires (R205, R207).
-/
namespace Sys2Proof.Machine

/-- EffAddr(l) (R36). -/
def Env.effAddr (e : Env) (s : State) (m : MemRef) (n p : Nat) : Nat :=
  wrap ((e.opnd s m.base p 64 : Nat) + sext (e.opnd s m.index p 32) 32 * (if m.scale then (n : Int) else 1) +
    sext m.ofs.toNat 13) 64

/-- VAddr(l) of `ldv` (R247). -/
def Env.vAddr (e : Env) (s : State) (m : MemRef) (p : Nat) : Nat :=
  wrap ((e.opnd s m.base p 64 : Nat) + sext m.ofs.toNat 13) 64

/-! ### Paths (R92, R118, R346) -/

/-- The core that holds the team with CLUIX `j` of a team's cluster, and that team's place there (R118). -/
def State.clusterPeer (s : State) (c : Nat) (t : Team) (j : Nat) : Option (Nat × Nat) :=
  match s.grid? t.grid with
  | none => none
  | some gr =>
    let cs := gr.cw * gr.ch
    let k := t.n % cs
    if cs ≤ j then none
    else
      let ci := c % 24
      let x0 := ci % 6 - k % gr.cw
      let y0 := ci / 6 - k / gr.cw
      let q := c / 24 * 24 + (y0 + j / gr.cw) * 6 + (x0 + j % gr.cw)
      ((s.core q).teams.find? fun u => u.2.grid == t.grid && u.2.n == t.n / cs * cs + j).map fun u => (q, u.1)

/-- Whether an address is well formed for its path (R92, R346). `x` is the context slot. -/
def State.pathOk (s : State) (c x : Nat) (t : Team) (ea : Nat) (store : Bool) : Bool :=
  match pathOf ea with
  | 0 => fld ea 50 10 == 0
  | 1 => fld ea 22 38 == 0 && ea % 2 ^ 22 < t.size
  | 2 => fld ea 22 34 == 0 && (match s.clusterPeer c t (fld ea 56 4) with
    | none => false
    | some (q, j) => (s.team? q j).any fun u => ea % 2 ^ 22 < u.size)
  | 3 => fld ea 50 10 == 0 && !store
  | 10 =>
    let k := s.link
    let m := fld ea 50 10
    let lg := if m = k.podix then k.ownLog else tabGet 0 k.peerlog m
    k.pv && bitAt k.peerctx.toNat x && expSize lg != 0 && ea % 2 ^ 50 < expSize lg
  | _ => false

/-- The next byte of an access. -/
def eaAdd (ea i : Nat) : Nat := (ea + i) % 2 ^ 64

/-- The bytes of an `n`-byte access. -/
def eaRange (ea n : Nat) : List Nat := (natRange 0 n).map (eaAdd ea)

/-- Where the bytes of an access go; the region or page a fault names is that of the first byte that faults. An access to the
module's own window is taken for the bytes it reaches now, and checked again when it is performed (R347). -/
def State.resolve (s : State) (c x : Nat) (t : Team) (u : Use2) (eas : List Nat) : Except (Nat × PFault) Target :=
  match eas with
  | [] => .ok (.home [] 0 [])
  | ea :: _ =>
    match pathOf ea with
    | 1 => .ok (.scr c (eas.map fun a => t.base + a % 2 ^ 22))
    | 2 => match s.clusterPeer c t (fld ea 56 4) with
      | none => .ok (.scr c [])
      | some (q, j) => .ok (.scr q (eas.map fun a => ((s.team? q j).elim 0 (·.base)) + a % 2 ^ 22))
    | 10 =>
      if fld ea 50 10 = s.link.podix then
        .ok (.home (eas.map fun a => s.link.expbase * 2 ^ 30 + a % 2 ^ 50) 1 [])
      else .ok (.peer (fld ea 50 10) (ea % 2 ^ 50))
    | _ => match s.xlateBytes x u (eas.map (· % 2 ^ 50)) with
      | .error q => .error q
      | .ok (pas, attr, deps) => .ok (.home pas attr deps)

/-- The offset of an access in the module's own export window (R346). -/
def State.ownWindow (s : State) (ea : Nat) : Option Nat :=
  if pathOf ea = 10 ∧ fld ea 50 10 = s.link.podix then some (ea % 2 ^ 50) else none

/-- The pages of 16 KiB that a range meets, as (first byte, bytes). -/
def rangePages (va n : Nat) : List (Nat × Nat) :=
  if n = 0 then []
  else
    let p0 := va / 2 ^ 14
    let p1 := (va + n - 1) / 2 ^ 14
    (natRange p0 (p1 + 1 - p0)).map fun p =>
      let lo := max va (p * 2 ^ 14)
      (lo, min (va + n) ((p + 1) * 2 ^ 14) - lo)

/-- The target of a cache-control range, (physical address, length) pairs, and the table lines read (R219). -/
def State.resolveRange (s : State) (x : Nat) : List (Nat × Nat) → Except (Nat × PFault) (List (Nat × Nat) × List Nat)
  | [] => .ok ([], [])
  | (lo, n) :: t =>
    match s.xlate x (lo % 2 ^ 50) .read with
    | .page pa _ d => match s.resolveRange x t with
      | .ok (l, ds) => .ok ((pa, n) :: l, addDeps d ds)
      | .error q => .error q
    | .fault f => .error (lo, f)
    | .region _ _ _ _ => .ok ([], [])

/-- What a lane's access resolves to: its target, the record of its region for the versioned instructions (R246), and the
table lines of the translation (R232). -/
structure Resolved where
  tgt : Option Target := none
  reg : Option Nat := none
  deps : List Nat := []
  deriving DecidableEq, Repr

/-- The table lines of a target's translation. -/
def Target.deps : Target → List Nat
  | .home _ _ d => d
  | _ => []

/-- The resolution of a lane's access at issue or at a replay. -/
def State.resolveKind (s : State) (c x : Nat) (t : Team) (k : AccKind) (u : Use2) (eas : List Nat) (y : Nat) :
    Except (Nat × PFault) Resolved :=
  match k with
  | .ldv _ _ | .stv _ | .vpub =>
    match s.walk x (eas.headD 0 % 2 ^ 50) u with
    | .region r _ _ d => .ok { reg := some r, deps := d }
    | .fault f => .error (eas.headD 0 % 2 ^ 50, f)
    | .page _ _ _ => .ok {}
  | .range _ =>
    if pathOf (eas.headD 0) = 0 ∨ pathOf (eas.headD 0) = 3 then
      match s.resolveRange x (rangePages (eas.headD 0 % 2 ^ 50) y) with
      | .ok (l, d) => .ok { tgt := some (.range l), deps := d }
      | .error q => .error q
    else .ok { tgt := some (.range []) }
  | _ => match s.resolve c x t u eas with
    | .ok q => .ok { tgt := some q, deps := q.deps }
    | .error q => .error q

/-- The versioned region that holds a byte of a generic or read-only address, whatever its frames hold. -/
def State.regionAt (s : State) (x ea : Nat) : Option Nat :=
  if pathOf ea ≠ 0 ∧ pathOf ea ≠ 3 then none
  else match s.walk x (ea % 2 ^ 50) .vread with
    | .region r _ _ _ => some r
    | _ => none

/-- The versioned regions that a plain read touches (R230, R245). -/
def State.regionsOf (s : State) (x : Nat) (eas : List Nat) : List Nat :=
  eas.foldl (fun l ea => match s.regionAt x ea with
    | some r => if l.contains r then l else l ++ [r]
    | none => l) []

/-- A plain read translated through the frame sets that its instruction has pinned (R230, R245). -/
def State.pinnedBytes (s : State) (x : Nat) (pins : List (Nat × Nat)) :
    List Nat → Except (Nat × PFault) (List Nat × Nat × List Nat)
  | [] => .ok ([], 0, [])
  | va :: t =>
    let here : WalkRes := match (s.regionAt x va).bind fun r => pins.find? (·.1 == r) with
      | some (r, f) => match s.walk x va .vread, s.frame r f va with
        | .region _ a _ d, .page pa _ d' => .page pa a (addDeps d d')
        | _, q => q
      | none => s.xlate x va .read
    match here with
    | .fault f => .error (va, f)
    | .region r _ _ _ => .error (va, ⟨pVKind, 0, r / 64⟩)
    | .page pa a d => match s.pinnedBytes x pins t with
      | .error q => .error q
      | .ok (ps, a', d') => .ok (pa :: ps, if t.isEmpty then a else max (a % 2) (a' % 2) + 2 * (a / 2), addDeps d d')

/-! ### Overlap and port stalls -/

/-- A line meets one of the (address, length) pairs. -/
def meetsLine (spans : List (Nat × Nat)) (line : Nat) : Bool :=
  spans.any fun q => q.2 != 0 && decide (line * 64 < q.1 + q.2 ∧ q.1 < line * 64 + 64)

/-- Two (address, length) pairs share a 64-byte line. -/
def sameLine (a b : Nat × Nat) : Bool :=
  a.2 != 0 && b.2 != 0 && decide (a.1 / 64 ≤ (b.1 + b.2 - 1) / 64 ∧ b.1 / 64 ≤ (a.1 + a.2 - 1) / 64)

/-- Two targets share a byte, or a line that a cache-control range acts on (R202, R219). -/
def Target.overlap : Target → Target → Bool
  | .scr k as_, .scr q bs => k == q && as_.any bs.contains
  | .home as_ _ _, .home bs _ _ => as_.any bs.contains
  | .peer m o, .peer q p => m == q && (o < p + 16 && p < o + 16)
  | .range as_, .home bs _ _ => bs.any fun b => meetsLine as_ (b / 64)
  | .home as_ _ _, .range bs => as_.any fun a => meetsLine bs (a / 64)
  | .range as_, .range bs => as_.any fun a => bs.any (sameLine a)
  | _, _ => false

/-- An access that has been performed, its data returned or its monitor standing. -/
def Acc.performed (a : Acc) : Bool := a.st == 4 || a.st == 5 || a.st == 6

/-- An earlier outstanding access of a lane that shares a byte with a target (R202). -/
def State.earlierOverlap (s : State) (c pos : Nat) (t : Target) (before : Nat) : Bool :=
  (s.core c).pend.any fun p => p.1 < before && p.2.accs.any fun a =>
    a.pos == pos && !a.performed && (match a.tgt with | some q => t.overlap q | none => false)

/-- An access of the same instruction that comes before `a` and shares a byte with it: writes to a shared byte are performed in
ascending LANEIX (R217). -/
def Pend.beforeOverlap (p : Pend) (a : Acc) : Bool :=
  (p.accs.takeWhile (· != a)).any fun b => match a.tgt, b.tgt with
    | some t, some q => !b.performed && t.overlap q
    | _, _ => false

/-- The virtual bytes of an access, as (address, length) pairs; none on the paths that are not translated. -/
def accSpans (k : AccKind) (va n y : Nat) : List (Nat × Nat) :=
  if pathOf va ≠ 0 ∧ pathOf va ≠ 3 then []
  else match k with
    | .range _ => [(va % 2 ^ 50, y)]
    | _ => [(va % 2 ^ 50, max n 1)]

/-- Two lists of pairs share a line. -/
def spansMeet (as_ bs : List (Nat × Nat)) : Bool := as_.any fun a => bs.any (sameLine a)

/-- A logged access of the lane touches one of the lines of an access (R235). -/
def State.logConflict (s : State) (c pos : Nat) (spans : List (Nat × Nat)) : Bool :=
  !spans.isEmpty && (s.core c).pend.any fun p => p.2.accs.any fun a =>
    a.pos == pos && a.st == 3 && spansMeet spans (accSpans p.2.kind a.va a.n a.y)

/-- The words of a bank that a scratchpad target names (R199). -/
def Target.words : Target → List (Nat × Nat)
  | .scr k as_ => as_.map fun a => (k, a / 4)
  | _ => []

/-- Distinct elements. -/
def distinct {α : Type} [BEq α] (l : List α) : List α := l.foldl (fun l a => if l.contains a then l else l ++ [a]) []

/-- The requests of a request's accesses not yet performed (R198): lines by lane, and bank words once for the instruction; for a
cache-control range, the lines of the core that meet it. -/
def Core.pendRequests (k : Core) (p : Pend) : Nat :=
  let live := p.accs.filter fun a => !a.performed
  (distinct (live.flatMap fun a => a.tgt.elim [] Target.words)).length + live.foldl (fun n a => n + match a.tgt with
    | some (.scr _ _) => 0
    | some (.home as_ _ _) => (linesOf as_).length
    | some (.range spans) => ((k.l1.filter fun l => meetsLine spans l.1).length + (k.wcb.filter fun l => meetsLine spans l.1).length)
    | some (.peer _ _) | none => 1) 0

/-- Requests of a core in flight. -/
def Core.requests (k : Core) : Nat := k.pend.foldl (fun n p => n + k.pendRequests p.2) 0

/-- The group that holds a lane position. -/
def State.groupAt (s : State) (c pos : Nat) : Option Nat :=
  ((s.core c).groups.find? fun g => g.2.gbase ≤ pos && pos < g.2.gbase + g.2.gwid).map (·.1)

/-- The group that a request's lane belongs to now (R237). -/
def State.ownerOf (s : State) (c : Nat) (p : Pend) (pos : Nat) : Nat :=
  if p.slot.isSome then p.ctx else (s.groupAt c pos).getD p.ctx

/-! ### The start of a lane's access -/

/-- The role a staged access takes on its lines (R396): counting adds, plain writes, atomics. -/
def stageRole (k : AccKind) (x n : Nat) : LineRole :=
  let counts (o : FoldOp) : LineRole := if o = .add ∧ x % 2 ^ (8 * n) < 2 ^ (8 * n - 1) then .counter else .atomic
  match k with
  | .atom (.fold o) _ false => counts o
  | .red o _ false => counts o
  | .atom .exch _ false | .cas _ false => .atomic
  | _ => .writer

/-- The request that a pod peer receives (R346). -/
def peerOp (k : AccKind) (n x y : Nat) : Option PeerOp :=
  match k with
  | .load _ _ | .lds _ => some (.read n)
  | .store _ => some (.write (leBytes n x))
  | .atom o t _ => some (.atom o t (BitVec.ofNat 64 x))
  | .red o t _ => some (.atom (.fold o) t (BitVec.ofNat 64 x))
  | .cas w64 _ => some (.cas w64 (BitVec.ofNat 64 x) (BitVec.ofNat 64 y))
  | _ => none

/-- Whether an access is staged in a DETM context (R393). -/
def stagedKind : AccKind → Bool
  | .store _ | .atom _ _ _ | .red _ _ _ | .cas _ _ | .stv _ => true
  | _ => false

/-- A port carries requests (R350). -/
def Link.usable (k : Link) (p : Nat) : Bool := (k.port p).st == 2 || (k.port p).st == 3

/-- The ports in use of a range. -/
def Link.upPorts (k : Link) (lo n : Nat) : List Nat := (natRange lo n).filter k.usable

/-- The key of a flow (R346). -/
def flowKey (m ofs : Nat) : Nat := m * 2 ^ 44 + ofs / 64

/-- The port of a flow: that of its outstanding requests, else the one that the hash names (R346). -/
def Link.flowPort (k : Link) (m ofs : Nat) : Option Nat :=
  match tabGet? k.flows (flowKey m ofs) with
  | some (p, _) => some p
  | none =>
    let ups := k.upPorts 0 36
    if ups.isEmpty then none else some (listGet 0 ups (Config.flowHash m (ofs / 64) % ups.length))

/-- A request joins its flow. -/
def Link.depart (k : Link) (m ofs : Nat) : Link :=
  match k.flowPort m ofs with
  | none => k
  | some p => { k with flows := tabSet k.flows (flowKey m ofs) (p, ((tabGet? k.flows (flowKey m ofs)).elim 0 (·.2)) + 1) }

/-- A request of a flow completes. -/
def Link.arrive (k : Link) (m ofs : Nat) : Link :=
  match tabGet? k.flows (flowKey m ofs) with
  | some (p, n) => { k with flows := if n ≤ 1 then tabDel k.flows (flowKey m ofs) else tabSet k.flows (flowKey m ofs) (p, n - 1) }
  | none => k

/-- Replaces an access of a request. -/
def State.setAcc (s : State) (c id : Nat) (a b : Acc) : State :=
  s.modCore c fun k => match tabGet? k.pend id with
    | some p => { k with pend := tabSet k.pend id { p with accs := p.accs.map fun q => if q = a then b else q } }
    | none => k

/-- Takes an access out of a request; the last one lowers the slot once no region is pinned (R41, R214, R245). -/
def State.finishAcc (s : State) (c id : Nat) (a : Acc) : State :=
  match tabGet? (s.core c).pend id with
  | none => s
  | some p =>
    let accs := listDelFirst (· == a) p.accs
    if accs.isEmpty && p.pins.isEmpty then
      let s := s.modCore c fun k => { k with pend := tabDel k.pend id }
      match p.slot with
      | some b => s.sbDone c p.ctx b
      | none => s
    else s.modCore c fun k => { k with pend := tabSet k.pend id { p with accs := accs } }

/-- A request to a pod member leaves on the port of its flow (R346); with no port in use it waits for its time-out (R348). -/
def State.sendPeer (s : State) (c id : Nat) (a : Acc) (m o : Nat) (op : PeerOp) : State :=
  let port := s.link.flowPort m o
  let s := s.setAcc c id a { a with port := port, clk := s.clk.toNat }
  let s := match port with
    | some _ => { s with link := { s.link.depart m o with peerReqs := (m, o, op) :: s.link.peerReqs } }
    | none => s
  match op with
  | .read _ => s
  | _ => s.modCore c fun q => { q with peersWritten := insSorted m q.peersWritten }

/-- The accesses into which a plain write falls (R211). -/
def Acc.units (a : Acc) : List Acc :=
  (unitsOf a.va a.n).map fun u =>
    let o := u.headD 0
    { a with
      va := eaAdd a.va o, n := u.length, x := a.x / 2 ^ (8 * o) % 2 ^ (8 * u.length)
      tgt := match a.tgt with
        | some (.home pas attr deps) => some (.home ((pas.drop o).take u.length) attr deps)
        | some (.scr k as_) => some (.scr k ((as_.drop o).take u.length))
        | t => t
      own := a.own.map (· + o) }

/-- A lane of a request meets a fault at its frame (R235, R236, R240): the lanes of one instruction share an entry of the operand
log. In handler mode it is a double fault, taken like a fatal one (R234, R332). -/
def State.frameFault (s : State) (c id : Nat) (p : Pend) (a : Acc) (x va : Nat) (f : PFault) (acc : Nat) : State :=
  let g := s.ownerOf c p a.pos
  let lpc := codeAddr p.hdr p.k
  let (s, dr) := s.faultRecord x c g f va acc lpc [a.pos]
  if f.replayable && !p.hm then
    let l : LogLane := { pos := a.pos, va := va, code := f.code, level := f.level, line := f.line, touched := false, dropped := dr }
    let e : LogEntry := match tabGet? (s.core c).log id with
      | some e => { e with lanes := e.lanes ++ [l] }
      | none => { pend := id, slotCtx := x, acc := acc, lanes := [l], since := s.clk.toNat }
    (s.setAcc c id a { a with st := 3 }).modCore c fun k => { k with log := tabSet k.log id e }
  else
    (s.defer c g { code := tPage, lanes := [a.pos], resume := some (p.hdr, p.k), detail := pageDetail f,
                   info := [(a.pos, va % 2 ^ 32)], inHandler := p.hm, lats := p.lats.filter (·.1 == a.pos) }).finishAcc c id a

/-- An instruction may log a faulted lane: it has an entry already, or one is free (R236). -/
def State.mayLog (s : State) (c x id : Nat) : Bool := (tabGet? (s.core c).log id).isSome || s.logFree c x

/-- Starts the access of lane `pos` of request `id`, its target being known: a plain write falls into the parts that are written
at once, staged accesses are announced (R393), requests to peers leave the module (R346). -/
def State.startAcc (s : State) (c id pos : Nat) : State :=
  match tabGet? (s.core c).pend id with
  | none => s
  | some p =>
    match p.accs.find? fun a => a.pos == pos && a.st == 0, s.team? c p.place with
    | some a, some t =>
      let staged (tgt : Option Target) : Staged := {
        grid := t.grid, n := t.n, core := c, ctx := p.ctx, pend := if p.slot.isSome then some id else none,
        rln := (s.lane c pos).rln, kind := p.kind, acc := a,
        bytes := (match p.kind, tgt with | .store n, some q => q.pas.zip (leBytes n a.x) | _, _ => []),
        due := none, epoch := (s.grid? t.grid).elim 0 (·.epoch), seq := 0 }
      let stage (s : State) (lines : List Nat) (role : LineRole) (tgt : Option Target) : State :=
        let (s, _) := s.takeRoles c (s.ownerOf c p pos) t.ctx t.grid t.n lines role
        let s := if (s.ctx t.ctx).state = .halted then s else s.stage (staged tgt)
        if p.slot.isSome then s else s.finishAcc c id a
      let det := (s.ctx t.ctx).detm
      match a.tgt with
      | none =>
        -- an `stv` of a DETM context is staged by its address; its frame set is that of its commit (R393)
        (match p.kind, a.reg with
         | .stv _, some r =>
           if det then
             match s.frameBytes r (s.vrec r).wix ((eaRange a.va a.n).map (· % 2 ^ 50)) with
             | .ok ps => stage s (linesOf ps) .writer none
             | .error (va, f) => if f.replayable && !s.mayLog c t.ctx id then s else s.frameFault c id p a t.ctx va f 1
           else s
         | _, _ => s)
      | some tgt =>
        let global := match tgt with | .scr _ _ => false | _ => true
        if det && global && stagedKind p.kind then stage s (linesOf tgt.pas) (stageRole p.kind a.x a.n) (some tgt)
        else match p.kind, tgt with
          | k, .peer m o => match peerOp k a.n a.x a.y with
            | some op => s.sendPeer c id a m o op
            | none => s
          | .store _, _ => s.modCore c fun k => { k with pend := tabSet k.pend id { p with accs := p.accs.flatMap fun b =>
              if b = a then a.units else [b] } }
          | _, _ => s
    | _, _ => s

/-! ### Issue -/

/-- One lane of an instruction: position, effective address, the addresses of its bytes, data and compare value. -/
structure LaneReq where
  pos : Nat
  ea : Nat
  eas : List Nat
  x : Nat := 0
  y : Nat := 0

/-- Faults of one kind, level and page code are recorded together, with the address of the lowest lane (log entry 20). -/
def recordFaults (s : State) (c g x acc lpc : Nat) (fs : List (Nat × Nat × PFault)) : State × List (Nat × Bool) :=
  let keys := fs.foldl (fun l f => if l.contains (f.2.2.code, f.2.2.level) then l else l ++ [(f.2.2.code, f.2.2.level)])
    ([] : List (Nat × Nat))
  keys.foldl (fun (a : State × List (Nat × Bool)) k =>
    let mine := fs.filter fun f => f.2.2.code == k.1 && f.2.2.level == k.2
    match mine with
    | [] => a
    | (_, va, f) :: _ =>
      let (s, dropped) := a.1.faultRecord x c g f va acc lpc (mine.map (·.1))
      (s, a.2 ++ mine.map fun m => (m.1, dropped))) (s, [])

/-- The latches of lanes as they stand (R236). -/
def Env.latsOf (e : Env) (s : State) (ps : List Nat) : List (Nat × Vector QWord 16) :=
  ps.map fun p => (p, if e.once then e.cu.gx else (s.lane e.c p).lat)

/-- Traps of an address check: the failing lanes trap, the others perform the word again (R215, R326). -/
def Env.trapLanes (e : Env) (s : State) (hs : List (TrapLane × Nat)) : Res :=
  .trap s hs (e.lanes.filter fun p => !hs.any (·.1.pos == p))

/-- A cache-control instruction. -/
def isRange (k : AccKind) : Bool := match k with | .range _ => true | _ => false

/-- The issue of a memory or atomic instruction: `limit` are the path limits of its entry, `align` its natural alignment
or 0, `u` what the access is to the translation. -/
def Env.issueMem (e : Env) (s : State) (kind : AccKind) (slot : Option (Fin 8)) (dst : Operand) (reqs : List LaneReq)
    (u : Use2) (limit : Nat → Bool) (align : Nat) : Res :=
  match s.teamOf e.c e.x with
  | none => .done s
  | some t =>
    let x := t.ctx
    let isStore := u = .write ∨ u = .readWrite
    let badPath (r : LaneReq) : Bool := !limit (pathOf r.ea) || r.eas.any fun a =>
      pathOf a != pathOf r.ea || !s.pathOk e.c x t a (decide isStore) || (pathOf a == 10 && fld a 50 10 != fld r.ea 50 10)
    let fails := reqs.filterMap fun r =>
      if badPath r then some (({ pos := r.pos, info := r.ea } : TrapLane), tPath)
      else if align ≠ 0 ∧ r.ea % align ≠ 0 then some ({ pos := r.pos, info := r.ea }, tAlign)
      else none
    if !fails.isEmpty then e.trapLanes s fails
    else
      let full := slot.any fun k => 63 ≤ e.x.sbCount k.val
      if full || reqs.any (fun r => s.logConflict e.c r.pos (accSpans kind r.ea r.eas.length r.y)) then .wait s .instr
      else
        let res := reqs.map fun r => (r, s.resolveKind e.c x t kind u r.eas r.y)
        let faults := res.filterMap fun r => match r.2 with
          | .error (va, f) => some (r.1.pos, va, f)
          | .ok _ => none
        let fatal := faults.filter fun f => !f.2.2.replayable
        let trapL (f : Nat × Nat × PFault) : TrapLane × Nat := ({ pos := f.1, detail := pageDetail f.2.2, info := f.2.1 }, tPage)
        -- a fault met in handler mode is a double fault, and it is recorded like any other (R234, R332)
        let stop := if e.x.hmode then faults else fatal
        if !stop.isEmpty then e.trapLanes (recordFaults s e.c e.g x u.acc e.lpc stop).1 (stop.map trapL)
        else
          let plain := u = .read ∧ isRange kind = false
          let regs (r : LaneReq) : List Nat := if plain then s.regionsOf x r.eas else []
          let pins := (distinct (reqs.flatMap regs)).map fun r => (r, (s.vrec r).choose (s.ctx x).detm 0)
          if (!faults.isEmpty && !s.logFree e.c x) || pins.any (fun q => 65535 ≤ (s.vrec q.1).pin q.2) then .wait s .instr
          else
            let (id, s0) := s.fresh e.c
            let accs := res.map fun r =>
              let q : Resolved := match r.2 with | .ok q => q | .error _ => {}
              ({ pos := r.1.pos, va := r.1.ea, n := r.1.eas.length, tgt := q.tgt, x := r.1.x, y := r.1.y, reg := q.reg, fs := 0,
                 st := (match r.2 with | .ok _ => 0 | .error _ => 3), deps := q.deps, regs := regs r.1,
                 own := s.ownWindow r.1.ea } : Acc)
            let p : Pend := {
              ctx := e.g, place := e.x.place, slot := slot.map (·.val), kind := kind, dst := dst,
              lanes := e.lanes, accs := accs, hdr := e.cu.base, k := e.cu.k, hm := e.x.hmode, lats := e.latsOf s e.lanes,
              pins := pins, refused := [], sent := false, slotCtx := x }
            let s := s0.modCore e.c fun k => { k with pend := tabSet k.pend id p }
            let s := pins.foldl (fun s q => s.setPin q.1 q.2 ((s.vrec q.1).pin q.2 + 1)) s
            let s := match slot with | some k => s.sbIssue e.c e.g k.val | none => s
            let (s, drops) := recordFaults s e.c e.g x u.acc e.lpc faults
            let s := if faults.isEmpty then s else
              let le : LogEntry := { pend := id, slotCtx := x, acc := u.acc, since := s.clk.toNat, lanes := faults.map fun f => {
                  pos := f.1, va := f.2.1, code := f.2.2.code, level := f.2.2.level, line := f.2.2.line, touched := false,
                  dropped := (drops.find? (·.1 == f.1)).any (·.2) } }
              s.modCore e.c fun k => { k with log := tabSet k.log id le }
            .done ((accs.filter (·.st == 0)).foldl (fun s a => s.startAcc e.c id a.pos) s)

/-! ### The requests of a clause (R198) -/

/-- The bytes of an integer type's atomic access. -/
def atomBytes (t : IntTy) : Nat := tyWidth t / 8

/-- The element size of `ldx` (R286). -/
def ldxBytes : Width → Nat
  | .n16 => 2
  | .b32 => 4
  | _ => 1

/-- The accesses that a memory or sync word names: its memory operand, and the (offset, size) of each access of a lane. -/
def memOf : Instr → Option (MemRef × Nat × List (Nat × Nat))
  | .ld o | .lds o | .ldc o => some (o.m, widthBytes o.w, [(0, widthBytes o.w)])
  | .ldv o | .ldvNt o => some ({ o.m with index := .lit 0, scale := false }, 1, [(0, widthBytes o.w)])
  | .st o | .stv o => some (o.m, widthBytes o.w, [(0, widthBytes o.w)])
  | .ldx o => some (o.m, ldxBytes o.w, (natRange 0 4).map fun r => (16 * ldxBytes o.w * r, ldxBytes o.w))
  | .vpub o => some (o.m, 1, [(0, 1)])
  | .atom _ _ _ ty _ m _ => some (m, atomBytes ty, [(0, atomBytes ty)])
  | .red _ _ _ ty _ m => some (m, atomBytes ty, [(0, atomBytes ty)])
  | .cas _ _ w64 _ m _ => some (m, if w64 then 8 else 4, [(0, if w64 then 8 else 4)])
  | .waitc _ _ w64 _ m _ => some (m, if w64 then 8 else 4, [(0, if w64 then 8 else 4)])
  | _ => none

/-- The requests of one word (R198): the lines that each lane touches, or the distinct words of the banks. -/
def Env.wordRequests (e : Env) (s : State) : Nat :=
  match memOf e.i with
  | none => 0
  | some (m, n, parts) =>
    let lanes := match e.i with | .lds _ => [e.low] | _ => e.lanes
    let spans := lanes.flatMap fun p => parts.map fun q => (eaAdd (e.effAddr s m n p) q.1, q.2)
    let bank := spans.filter fun q => pathOf q.1 == 1 || pathOf q.1 == 2
    let rest := spans.filter fun q => !(pathOf q.1 == 1 || pathOf q.1 == 2)
    (distinct (bank.flatMap fun q => (eaRange q.1 q.2).map (· / 4))).length +
      rest.foldl (fun n q => n + ((q.1 % 64 + q.2 - 1) / 64 + 1)) 0

/-- The words of a clause from word `k` on, with the lanes in which each would take effect now. -/
def State.clauseRequests (s : State) (c g : Nat) (x : Group) (cu : Cursor) : Nat :=
  (cu.words.drop cu.k).foldl (fun n w => match decodeNat w 0 with
    | .ok i =>
      let e : Env := ⟨c, g, x, cu, i, effectLanes s c cu ((pfxOf i).getD pfx0)⟩
      n + e.wordRequests s
    | .error _ => n) 0

/-- The requests of a clause fit into those that are free; a clause that asks for more than a core has issues once none is in
flight (log entry 59). -/
def State.clauseFits (s : State) (c g : Nat) (x : Group) (cu : Cursor) : Bool :=
  let used := (s.core c).requests
  used == 0 || used + s.clauseRequests c g x cu ≤ 1024

/-! ### Releases and acquires (R205, R207) -/

/-- An access to a pod member whose acknowledgement only a release at pod scope waits for (R205). -/
def Acc.peerWrite (k : AccKind) (a : Acc) : Bool :=
  (match k with | .store _ | .red _ _ _ => true | _ => false) && (match a.tgt with | some (.peer _ _) => true | _ => false)

/-- A read with read-only semantics, to which no lane-scope fence extends (R220). -/
def Acc.readOnly (k : AccKind) (a : Acc) : Bool :=
  match k with
  | .load _ ro => ro || pathOf a.va == 3
  | .lds _ => pathOf a.va == 3
  | _ => false

/-- No access of the lanes issued before mark `m` is still outstanding, in the core or in the log, but for those of `skip`. -/
def State.lanesDone (s : State) (c : Nat) (ps : List Nat) (m : Nat) (skip : AccKind → Acc → Bool) : Bool :=
  !(s.core c).pend.any fun p => p.1 < m && (p.2.accs.any fun a => ps.contains a.pos && !skip p.2.kind a)

/-- No access of the lanes issued before mark `m` is outstanding, acknowledgements of pod members apart. -/
def State.lanesClear (s : State) (c : Nat) (ps : List Nat) (m : Nat) : Bool := s.lanesDone c ps m Acc.peerWrite

/-- A request that returns data to its lanes. -/
def AccKind.reads : AccKind → Bool
  | .load _ _ | .lds _ | .ldx _ | .atom _ _ _ | .cas _ _ | .waitc _ _ | .ldv _ _ => true
  | _ => false

/-- The earlier reads of the lanes have returned (R205). -/
def State.readsClear (s : State) (c : Nat) (ps : List Nat) : Bool :=
  s.lanesDone c ps (s.core c).nextId fun k _ => !k.reads

/-- No `cwait` of the lanes issued before mark `m` is outstanding (R284). -/
def State.cwaitClear (s : State) (c : Nat) (ps : List Nat) (m : Nat) : Bool :=
  !(s.core c).cmds.any fun q => q.1 < m && (match q.2.i with | .cwait _ => true | _ => false) && q.2.lanes.any ps.contains

/-- A release of the lanes at a scope below cluster has nothing left to wait for among what they issued before mark `m`. -/
def State.releaseClear (s : State) (c : Nat) (ps : List Nat) (m : Nat) : Bool := s.lanesClear c ps m && s.cwaitClear c ps m

/-- The team of a release has staged accesses to commit first (R394). -/
def State.mustCommit (s : State) (c : Nat) (g : Group) : Option (Nat × Nat) :=
  match s.teamOf c g with
  | some t => if (s.ctx t.ctx).detm && s.hasStaged t.grid t.n then some (t.grid, t.n) else none
  | none => none

/-- What the team of a release has committed is performed (R394). -/
def State.commitsDone (s : State) (c : Nat) (g : Group) : Bool :=
  (s.teamOf c g).all fun t => !s.transit.any fun q => q.grid == t.grid && q.n == t.n && q.due.isSome

/-- The rank of a scope (R205). -/
def scopeRank : Scope → Nat
  | .lane => 0 | .group => 1 | .team => 2 | .cluster => 3 | .die => 4 | .module => 5 | .pod => 6 | .system => 7

/-- Sends a flush to every member written and waits for their answers (R210). -/
def State.sendFlush (s : State) (c g place pos : Nat) : State :=
  let ms := (s.core c).peersWritten
  if ms.isEmpty then s
  else
    let (id, s) := s.fresh c
    let p : Pend := {
      ctx := g, place := place, slot := none, kind := .flush, dst := .lit 0, lanes := [pos],
      accs := ms.map fun m => { pos := pos, va := 0, n := 0, tgt := some (.peer m 0), x := 0, y := 0, reg := none, fs := 0, st := 0,
                                port := s.link.flowPort m 0, clk := s.clk.toNat },
      hdr := 0, k := 0, hm := false, lats := [], pins := [], refused := [], sent := false,
      slotCtx := (s.team? c place).elim 0 (·.ctx) }
    let s := s.modCore c fun k => { k with peersWritten := [], pend := tabSet k.pend id p }
    { s with link := { ms.foldl (fun k m => k.depart m 0) s.link with sent := ms.map (fun m => (1, m, 0)) ++ s.link.sent } }

/-- Every write of a core issued before mark `m` is at its home or has left for its member. -/
def Core.writesHome (k : Core) (m : Nat) : Bool :=
  !(k.flights.any fun f => f.1 < m) && !k.pend.any fun p => p.1 < m && (match p.2.kind with | .store _ | .stv _ | .red _ _ _ => true | _ => false) &&
    p.2.accs.any fun a => !Acc.peerWrite p.2.kind a && a.st != 3

/-- One round of a release by the lanes `ps` of group `gi` at the scope of rank `sc` (R205). Its progress `ph` is 0 before it
begins, and then 4 × a mark, below which accesses must have been performed, + a stage: 1 the lanes' own accesses, 2 the core
drain, 3 the acknowledgements of members, 0 the flushes and the flushing read. The answer is the next progress, or none once the
release is performed. -/
def State.releaseRound (s : State) (c gi : Nat) (g : Group) (ps : List Nat) (sc ph : Nat) : State × Option Nat :=
  let mark := if ph = 0 then (s.core c).nextId else ph / 4
  let skip (k : AccKind) (a : Acc) : Bool := Acc.peerWrite k a || (sc == 0 && Acc.readOnly k a)
  if ph = 0 ∨ ph % 4 = 1 then
    if !s.lanesDone c ps mark skip || !s.cwaitClear c ps mark then (s, some (4 * mark + 1))
    else if sc < 3 then (s, none)
    else
      let s := match s.mustCommit c g with | some (gr, n) => s.commitPoint gr n | none => s
      let s := s.drainAll c
      drained s (s.core c).nextId
  else if ph % 4 = 2 then drained s mark
  else if ph % 4 = 3 then acked s mark
  else flushed s (mark - 1)
where
  /-- The drained writes and the commits are performed: the signatures are posted. -/
  drained (s : State) (mark : Nat) : State × Option Nat :=
    if (s.core c).flights.any (fun f => f.1 < mark) || !s.commitsDone c g then (s, some (4 * mark + 2))
    else
      let s := s.postDie c
      let s := if 5 ≤ sc then s.postModule c else s
      if sc < 6 then (s, none) else acked s (s.core c).nextId
  /-- The members have acknowledged the lanes' writes: each is sent a flush, and at system scope the core drains again. -/
  acked (s : State) (mark : Nat) : State × Option Nat :=
    if !s.lanesDone c ps mark (fun _ _ => false) then (s, some (4 * mark + 3))
    else
      let s := s.sendFlush c gi g.place (ps.headD g.gbase)
      let s := if 7 ≤ sc then s.drainAll c else s
      flushed s (s.core c).nextId
  /-- The flushes have returned, and at system scope every write of the core is at its home. -/
  flushed (s : State) (mark : Nat) : State × Option Nat :=
    if !s.lanesDone c ps mark (fun _ _ => false) || (7 ≤ sc && !(s.core c).writesHome mark) then (s, some (4 * mark + 4))
    else (s, none)

/-- The acquire of lanes at the scope of rank `sc`; false while earlier reads have not returned. -/
def State.acquireRound (s : State) (c : Nat) (ps : List Nat) (sc : Nat) : State × Bool :=
  if sc = 0 then (s, true)
  else if !s.readsClear c ps then (s, false)
  else if sc < 3 then (s, true)
  else if sc < 5 then (s.acquireDie c, true)
  else (s.acquireModule c, true)

end Sys2Proof.Machine
end

