-- ==== Sys2Proof/Machine/Memory.lean ====
section
/-!
DEFINITION. Sys2Proof/Machine/Memory.lean: the memory class (R216 to R220, R286), the atomics (R221), and the events that
move data: returns, writes at home, drains and time-outs of L1 and the buffer (R200), walks (R228) and replays (R236).
-/
namespace Sys2Proof.Machine

/-! ### Loads, stores, cache control -/

/-- An access of `n` bytes at EffAddr. -/
def Env.req (e : Env) (s : State) (m : MemRef) (n p : Nat) (x y : Nat) : LaneReq :=
  let ea := e.effAddr s m n p
  { pos := p, ea := ea, eas := eaRange ea n, x := x, y := y }

def anyPath (_ : Nat) : Bool := true
def genericPaths (p : Nat) : Bool := p == 0 || p == 3

/-- `ld` (R216). -/
def execLd (o : MLoad) (s : State) : Host.Outcome State Fault Refusal :=
  execWord (.ld o) (fun e s =>
    e.issueMem s (.load o.w false) (some o.sb) o.d (e.lanes.map fun p => e.req s o.m (widthBytes o.w) p 0 0) .read anyPath 0) s

/-- `lds` (R216): one access, in the lowest lane of C. -/
def execLds (o : MLoad) (s : State) : Host.Outcome State Fault Refusal :=
  execWord (.lds o) (fun e s =>
    e.issueMem s (.lds o.w) (some o.sb) o.d [e.req s o.m (widthBytes o.w) e.low 0 0] .read anyPath 0) s

/-- `ldc` (R216). -/
def execLdc (o : MLoad) (s : State) : Host.Outcome State Fault Refusal :=
  execWord (.ldc o) (fun e s =>
    e.issueMem s (.load o.w true) (some o.sb) o.d (e.lanes.map fun p => e.req s o.m (widthBytes o.w) p 0 0) .read
      genericPaths 0) s

/-- `st` (R217). -/
def execSt (o : MStore) (s : State) : Host.Outcome State Fault Refusal :=
  execWord (.st o) (fun e s =>
    let n := widthBytes o.w
    e.issueMem s (.store n) none o.d (e.lanes.map fun p => e.req s o.m n p (e.opnd s o.d p (widthReg o.w) % 2 ^ (8 * n)) 0)
      .write anyPath 0) s

/-- `ldx` (R286): four rows of 16 elements. -/
def execLdx (o : MLoad) (s : State) : Host.Outcome State Fault Refusal :=
  execWord (.ldx o) (fun e s =>
    let n := ldxBytes o.w
    let reqs := e.lanes.map fun p =>
      let ea := e.effAddr s o.m n p
      ({ pos := p, ea := ea, eas := (natRange 0 4).flatMap fun r => eaRange (eaAdd ea (16 * n * r)) n } : LaneReq)
    e.issueMem s (.ldx n) (some o.sb) o.d reqs .read (fun p => p == 1 || p == 2) n) s

/-- `pref` (R218): a hint without effect. -/
def execPref (p : Pfx) (m : MemRef) (s : State) : Host.Outcome State Fault Refusal :=
  execWord (.pref p m) (fun _ s => .done s) s

/-- `cwb`, `cwbi` and `cinv` by number 0, 1 and 2 (R219). -/
def Env.rangeOp (e : Env) (s : State) (o : MRange) (op : Nat) : Res :=
  let reqs := e.lanes.map fun p =>
    let ea := e.effAddr s o.m 1 p
    ({ pos := p, ea := ea, eas := [ea], y := e.opnd s o.d p 32 } : LaneReq)
  let odd := if op = 2 then reqs.filter fun r => r.ea % 64 ≠ 0 ∨ r.y % 64 ≠ 0 else []
  -- the path check of issueMem comes first (R45); a lane that passes it and is misaligned takes T.ALIGN
  match s.teamOf e.c e.x with
  | none => .done s
  | some t =>
    let bad := reqs.filter fun r => !s.pathOk e.c t.ctx t r.ea false
    if bad.isEmpty && odd.isEmpty then e.issueMem s (.range op) (some o.sb) o.d reqs .read anyPath 0
    else e.trapLanes s (reqs.filterMap fun r =>
      if bad.any (·.pos == r.pos) then some (({ pos := r.pos, info := r.ea } : TrapLane), tPath)
      else if odd.any (·.pos == r.pos) then some ({ pos := r.pos, info := r.ea }, tAlign) else none)

/-- `cwb` (R219). -/
def execCwb (o : MRange) (s : State) : Host.Outcome State Fault Refusal := execWord (.cwb o) (fun e s => e.rangeOp s o 0) s
/-- `cwbi` (R219). -/
def execCwbi (o : MRange) (s : State) : Host.Outcome State Fault Refusal := execWord (.cwbi o) (fun e s => e.rangeOp s o 1) s
/-- `cinv` (R219). -/
def execCinv (o : MRange) (s : State) : Host.Outcome State Fault Refusal := execWord (.cinv o) (fun e s => e.rangeOp s o 2) s

/-- Sets the progress of a blocking instruction. -/
def Env.setPhase (e : Env) (n : Nat) (s : State) : State := s.modGroup e.c e.g fun r => { r with phase := n }

/-- `fence` (R220): the release, the acquire, or the release and then the acquire. Progress 1 means that the release is
performed. -/
def execFence (p : Pfx) (sc : Scope) (k : FenceKind) (s : State) : Host.Outcome State Fault Refusal :=
  execWord (.fence p sc k) (fun e s =>
    let r := scopeRank sc
    let acq (s : State) : Res :=
      let (s, ok) := s.acquireRound e.c e.lanes r
      if ok then .done s else .wait (e.setPhase 1 s) .instr
    if k = .acq || e.x.phase = 1 then acq s
    else
      -- the progress of the release is kept doubled
      match s.releaseRound e.c e.g e.x e.lanes r (e.x.phase / 2) with
      | (s, some ph) => .wait (e.setPhase (2 * ph) s) .instr
      | (s, none) => if k = .rel then .done s else acq s) s

/-! ### Atomics (R221) -/

/-- After an `atom` or `cas` of a DETM context its team commits (R394). -/
def Env.detCommit (e : Env) (r : Res) : Res :=
  match r with
  | .done s => match s.teamOf e.c e.x with
    | some t => if (s.ctx t.ctx).detm then .done (s.commitPoint t.grid t.n) else .done s
    | none => .done s
  | r => r

/-- `atom` (R221). -/
def execAtom (p : Pfx) (op : AtomOp) (team : Bool) (ty : IntTy) (d : Operand) (m : MemRef) (sb : Fin 8) (s : State) :
    Host.Outcome State Fault Refusal :=
  execWord (.atom p op team ty d m sb) (fun e s =>
    let n := atomBytes ty
    e.detCommit (e.issueMem s (.atom op ty team) (some sb) d
      (e.lanes.map fun p => e.req s m n p (e.opnd s d p (tyOpWidth ty)) 0) .readWrite
      (fun q => q != 3 && !(team && q == 10)) n)) s

/-- `red` (R221). -/
def execRed (p : Pfx) (op : FoldOp) (team : Bool) (ty : IntTy) (d : Operand) (m : MemRef) (s : State) :
    Host.Outcome State Fault Refusal :=
  execWord (.red p op team ty d m) (fun e s =>
    let n := atomBytes ty
    e.issueMem s (.red op ty team) none d (e.lanes.map fun p => e.req s m n p (e.opnd s d p (tyOpWidth ty)) 0) .write
      (fun q => q != 3 && !(team && q == 10)) n) s

/-- `cas` (R221): the compare value in the lower half of DATA, the new value in the upper half. -/
def execCas (p : Pfx) (team w64 : Bool) (d : Operand) (m : MemRef) (sb : Fin 8) (s : State) : Host.Outcome State Fault Refusal :=
  execWord (.cas p team w64 d m sb) (fun e s =>
    let n := if w64 then 8 else 4
    e.detCommit (e.issueMem s (.cas w64 team) (some sb) d
      (e.lanes.map fun p =>
        let v := e.opnd s d p (16 * n)
        e.req s m n p (v % 2 ^ (8 * n)) (v / 2 ^ (8 * n))) .readWrite
      (fun q => q != 3 && !(team && q == 10)) n)) s

/-! ### Returns -/

/-- A poisoned byte reaches a lane: nothing is written, the lane completes, and takes a deferred T.POISON (R329). -/
def State.poisonLane (s : State) (c id : Nat) (p : Pend) (a : Acc) : State :=
  let g := s.ownerOf c p a.pos
  let acc := match p.kind with | .atom _ _ _ | .cas _ _ => 3 | _ => 0
  let (s, _) := s.writeRecord p.slotCtx (s.groupRec c g
    { kind := 7, code := tPoison, acc := acc, va := a.va, lpc := codeAddr p.hdr p.k } [a.pos])
  (s.defer c g { code := tPoison, lanes := [a.pos], resume := some (p.hdr, p.k), detail := 0, info := [(a.pos, a.va % 2 ^ 32)],
                 inHandler := p.hm, lats := p.lats.filter (·.1 == a.pos) }).finishAcc c id a

/-- The value a load writes (R216). -/
def loadExt (w : Width) (x : Nat) : Nat :=
  match w with
  | .i8 => wrap (sext x 8) 32
  | .i16 => wrap (sext x 16) 32
  | _ => x

/-- The register writes of a loaded value of `k` registers: to a lane, or for `lds` once to a scalar or to every lane of C. -/
def Pend.writes (p : Pend) (pos k x : Nat) : List RegWrite :=
  match p.dst, p.kind with
  | .v i, .lds _ => p.lanes.flatMap fun q => (regWords k x).map fun w => .vec q (i.val + w.1) w.2
  | .v i, _ => (regWords k x).map fun w => .vec pos (i.val + w.1) w.2
  | .s i, _ => (regWords k x).map fun w => .sca (i.val + w.1) w.2
  | _, _ => []

/-- The register writes of an access that the mask `regs` names take place, in any order with what reads them (R42); with the
last one the access ends. -/
def State.writeLeft (s : State) (c id : Nat) (p : Pend) (a : Acc) (regs : Nat) : State :=
  let s := (maskPick regs true a.left).foldl (fun s w => s.putReg c p.ctx w) s
  let rest := maskPick regs false a.left
  if rest.isEmpty then s.finishAcc c id a else s.setAcc c id a { a with left := rest }

/-- An access has its data: the register writes `ws` follow (R42). -/
def State.give (s : State) (c id : Nat) (p : Pend) (a : Acc) (ws : List RegWrite) (regs : Nat) : State :=
  let b := { a with st := 6, left := ws }
  (s.setAcc c id a b).writeLeft c id p b regs

/-- The bytes of a load or an `ldv` lane are known. -/
def State.returnLane' (s : State) (c id : Nat) (p : Pend) (a : Acc) (bs : List Byte) (po : Bool) (regs : Nat) : State :=
  if po then s.poisonLane c id p a
  else
    let x := ofLe bs
    match p.kind with
    | .load w _ | .ldv w _ | .lds w => s.give c id p a (p.writes a.pos (widthReg w / 32) (loadExt w x)) regs
    | .ldx n => s.give c id p a (p.writes a.pos n x) regs
    | _ => s

/-- The old value of an atomic in its lane; `red` returns nothing, and a poisoned word only stays so under it (log entry 60). -/
def State.returnAtom (s : State) (c id : Nat) (p : Pend) (a : Acc) (old : Nat) (po : Bool) (regs : Nat) : State :=
  match p.kind with
  | .atom _ ty _ => if po then s.poisonLane c id p a else s.give c id p a (p.writes a.pos (tyOpWidth ty / 32) old) regs
  | .cas w64 _ => if po then s.poisonLane c id p a else s.give c id p a (p.writes a.pos (if w64 then 2 else 1) old) regs
  | _ => s.finishAcc c id a

/-- Whether an access of a request is staged instead of performed (R393). -/
def State.isStaged (s : State) (c : Nat) (p : Pend) (t : Target) : Bool :=
  (s.team? c p.place).any (fun q => (s.ctx q.ctx).detm) && stagedKind p.kind && !p.sent && (match t with | .scr _ _ => false | _ => true)

/-- The bytes that an access reaches in memory or in a scratchpad. -/
def Target.bytes : Target → List (Nat × Nat)
  | .scr k as_ => as_.map fun a => (k + 1, a)
  | .home pas _ _ => pas.map fun a => (0, a)
  | _ => []

/-- Where an access goes when it is performed: one to the own window, where the window lies now, or nowhere (R346, R347). -/
def State.landing (s : State) (a : Acc) : Option Target :=
  match a.own with
  | none => a.tgt
  | some o => (s.link.export o a.n).map fun pas => .home pas 1 []

/-- A request to the own window that lies outside it now is discarded, and DROP of its port adds 1 (R347). -/
def State.dropOwn (s : State) (a : Acc) : State :=
  match s.link.flowPort s.link.podix (a.own.getD 0) with
  | some p => { s with link := s.link.modPort p fun q => { q with drop := q.drop + 1 } }
  | none => s

/-- A write to the own window joins what a release at pod scope flushes (R210). -/
def State.noteOwn (s : State) (c : Nat) (pas : List Nat) : State :=
  let m := s.link.podix
  let sig := (linesOf pas).foldl (fun g l => g ||| sigOf l) (tabGet 0 s.link.peerSigs m)
  ({ s with link := { s.link with peerSigs := tabSet s.link.peerSigs m sig } }).modCore c fun k =>
    { k with peersWritten := insSorted m k.peersWritten }

/-- The atomic of one lane at its target: its old value, or none while it must wait (R211, R212). -/
def State.atomAt (s : State) (c id : Nat) (k : AccKind) (team : Bool) (a : Acc) (t : Target) : State × Option (Nat × Bool) :=
  match t with
  | .home pas attr deps =>
    if team && attr % 2 = 0 && !(pas.any inLinkRegs) then
      let (s, old, po) := s.teamAt c pas deps k a.x a.y
      (s, some (old, po))
    else
      let (s, r) := s.rmwAt c t k a.x a.y (some (c, id))
      (if a.own.isSome && r.isSome then s.noteOwn c pas else s, r)
  | _ => s.rmwAt c t k a.x a.y (some (c, id))

/-- Performs the atomics of one instruction at the bytes of `t`, in ascending LANEIX with nothing between them (R211), through
whatever addresses its lanes reach them. -/
def State.performAtoms (s : State) (c id : Nat) (p : Pend) (t : Target) (team : Bool) (regs : Nat) : State :=
  let same := p.accs.filterMap fun b => match b.st == 0, s.landing b with
    | true, some q => if q.bytes == t.bytes then some (b, q) else none
    | _, _ => none
  if same.any fun b => s.earlierOverlap c b.1.pos b.2 id then s
  else (same.foldl (fun (r : State × Bool) b =>
    if r.2 then r
    else match r.1.atomAt c id p.kind team b.1 b.2 with
      | (s, none) => (s, true)
      | (s, some (old, po)) => (s.returnAtom c id p b.1 old po regs, false)) (s, false)).1

/-- Makes room for an entry among the monitors of a home slice (R268): the oldest goes, and its lane completes; an entry of a
DETM context registers again at once (R399), which takes the next oldest. -/
def State.monRoom (s : State) (pa : Nat) : State × List Mon :=
  let slice := s.mons.filter fun m => homeSlice m.pa == homeSlice pa
  if slice.length < 4096 then (s, [])
  else
    let again := slice.takeWhile s.monDetm
    match slice.drop again.length with
    | m :: _ => (({ s with mons := s.mons.filter fun q => !again.contains q }).monDone m (2 + 256), again)
    | [] => (s, [])

/-- The registration of one `waitc` lane at its home (R268, R269): any line of the core that meets it is drained and dropped
(R200). -/
def State.registerWait (s : State) (c id : Nat) (p : Pend) (a : Acc) (pas : List Nat) (cmp : WaitCmp) : State :=
  let (s, ok) := s.toHome c (linesOf pas)
  let s := if ok then (linesOf pas).foldl (fun s l => (s.dropLine c l).sigAdd c l) s else s
  match s.team? c p.place with
  | none => s
  | some t =>
    if !ok then s
    else
      let det := (s.ctx t.ctx).detm
      if if det then s.detPoisoned t.grid t.n pas else s.homePoisoned pas then s.poisonLane c id p a
      else
        let (s, race) := if det then s.takeRoles c (s.ownerOf c p a.pos) t.ctx t.grid t.n (linesOf pas) .waiter else (s, false)
        if race then s
        else
          let x := ofLe (if det then s.detBytes t.grid t.n pas else s.softBytes pas)
          if monHolds cmp x a.x then (s.waitcStatus c id a.pos 0).finishLane c id a.pos
          else
            let (s, again) := s.monRoom (pas.headD 0)
            let m : Mon := { pa := pas.headD 0, n := pas.length, cmp := cmp, val := a.x, core := c, pend := id, pos := a.pos }
            { s.setAcc c id a { a with st := 4 } with mons := s.mons ++ [m] ++ again }

/-- One round of a cache-control lane at the lines of its range (R219). -/
def State.rangeLane (s : State) (c id : Nat) (a : Acc) (op : Nat) (spans : List (Nat × Nat)) : State :=
  let hit := meetsLine spans
  let k := s.core c
  let lines := ((k.l1.map (·.1)) ++ (k.wcb.map (·.1))).filter hit
  if op = 2 then
    let s := s.modCore c fun q => { q with l1 := q.l1.filter fun l => !hit l.1, wcb := q.wcb.filter fun l => !hit l.1 }
    s.finishAcc c id a
  else
    let s := lines.foldl (fun s l => (s.drainLine c l).writeBack c l) s
    if (s.core c).flights.any fun f => hit f.2.line then s
    else
      let s := if op = 1 then s.modCore c fun q => { q with l1 := q.l1.filter fun l => !hit l.1 } else s
      s.finishAcc c id a

/-- The answer of a pod member to a read or an atomic (R346), or its absence (R348). An engine's read keeps which of its bytes
are poisoned: 256 is added to them (R279). -/
def State.peerReturn (s : State) (c id : Nat) (p : Pend) (a : Acc) (data : List Byte) (poisoned : Bool) (regs : Nat) : State :=
  let s := match a.tgt with
    | some (.peer m o) => if a.port.isSome then { s with link := s.link.arrive m o } else s
    | _ => s
  match p.kind with
  | .load _ _ | .lds _ => s.returnLane' c id p a (data.take a.n) poisoned regs
  | .atom _ _ _ | .cas _ _ => s.returnAtom c id p a (ofLe (data.take a.n)) poisoned regs
  | .engine q true =>
    let bytes := (natRange 0 a.n).map fun i => (listGet 0 data i).toNat + if poisoned then 256 else 0
    (s.modCore c fun k => { k with cmds := k.cmds.map fun m => if m.1 = q then (q, { m.2 with aux := bytes }) else m }).finishAcc c id a
  | _ => s

/-- The parts of an access that are read at once (R211). -/
def accUnits (k : AccKind) (a : Acc) : List (List Nat) :=
  match k with
  | .ldx n => (natRange 0 4).map fun r => natRange (r * n) n
  | _ => unitsOf a.va a.n

/-- Some of the bytes of a target, by index. -/
def Target.part (t : Target) (is : List Nat) : Target :=
  match t with
  | .home pas attr deps => .home (is.map fun i => listGet 0 pas i) attr deps
  | .scr k as_ => .scr k (is.map fun i => listGet 0 as_ i)
  | t => t

/-- The bytes that a load or an `ldv` reads at a target, and whether one is poisoned (R202, R203, R247); none while it must
wait. In a DETM context its team takes the role of a reader, and sees its own staged writes (R393, R396). -/
def State.readFor (s : State) (c : Nat) (p : Pend) (a : Acc) (t : Target) : State × Option (List Byte × Bool) :=
  let ldv := match p.kind with | .ldv _ _ => true | _ => false
  let ro := !ldv && Acc.readOnly p.kind a
  match t, s.team? c p.place with
  | .home pas _ _, some tm =>
    if (s.ctx tm.ctx).detm then
      let role := if ro || pathOf a.va == 3 then LineRole.roReader else .reader
      let (s, race) := s.takeRoles c (s.ownerOf c p a.pos) tm.ctx tm.grid tm.n (linesOf pas) role
      if race then (s, none)
      else if ro then s.readAt c t true
      else match s.readHome c pas with
        | (s, some (bs, po)) =>
          (s, some (if ldv then (bs, po) else (s.detBytes tm.grid tm.n pas, s.detPoisoned tm.grid tm.n pas)))
        | (s, none) => (s, none)
    else if ldv then s.readHome c pas else s.readAt c t ro
  | _, _ => s.readAt c t ro

/-- Reads the parts of an access that the mask `units` of bytes names; with the last one its data is known. -/
def State.readUnits (s : State) (c id : Nat) (p : Pend) (a : Acc) (t : Target) (units regs : Nat) : State :=
  let todo := (accUnits p.kind a).filter fun u => maskOf u &&& units == maskOf u && !(u.any fun i => (tabGet? a.got i).isSome)
  let (s, b) := todo.foldl (fun (r : State × Acc) u =>
    match r.1.readFor c p a (t.part u) with
    | (s, some (bs, po)) =>
      (s, { r.2 with got := (u.zip bs).foldl (fun g w => tabSet g w.1 w.2) r.2.got, bad := r.2.bad || po })
    | (s, none) => (s, r.2)) (s, a)
  let s := s.setAcc c id a b
  if b.got.length = a.n then s.returnLane' c id p b (b.got.map (·.2)) b.bad regs else s

/-- An HBM4 error that is confined to the data of one access poisons that data (R22); lines that the core holds are not read
from HBM. -/
def State.hbmError (s : State) (c : Nat) (t : Target) : State :=
  match t with
  | .home pas _ _ =>
    let pas := pas.filter fun a => (tabGet? (s.core c).l1 (a / 64)).isNone && !inLinkRegs a
    { s with poison := pas.foldl (fun p a => insSorted a p) s.poison }
  | _ => s

/-- LOAD_DATA_RETURN (R203, R211, R216, R221, R286): the access of one lane is performed and its data returns. It happens only once
every earlier outstanding access of the lane to a common byte is performed (R202). -/
def execLoadDataReturn (c id pos : Nat) (data : List Byte) (r : Returned) (s : State) : Host.Outcome State Fault Refusal :=
  match tabGet? (s.core c).pend id with
  | none => .next s
  | some p =>
    match p.accs.find? fun a => a.pos == pos && (a.st == 0 || a.st == 6) with
    | none => .next s
    | some a =>
      if a.st = 6 then .next (s.writeLeft c id p a r.regs)
      else match a.tgt, s.landing a with
        | none, _ => .next s
        | some t0, none => .next (match p.kind with
          | .store _ | .red _ _ _ => s
          | _ => if s.isStaged c p t0 then s else (s.poisonLane c id p a).dropOwn a)
        | some _, some t =>
          let s := if r.poisoned then s.hbmError c t else s
          if s.earlierOverlap c pos t id || p.beforeOverlap a || s.isStaged c p t then .next s
          else match t, p.kind with
            | .peer _ _, _ => .next (s.peerReturn c id p a data r.poisoned r.regs)
            | _, .load _ _ | _, .lds _ | _, .ldx _ | .home _ _ _, .ldv _ _ => .next (s.readUnits c id p a t r.units r.regs)
            | _, .atom _ _ team | _, .cas _ team => .next (s.performAtoms c id p t team r.regs)
            | .home pas _ _, .waitc cmp _ => .next (s.registerWait c id p a pas cmp)
            | .range spans, .range op => .next (s.rangeLane c id a op spans)
            | _, _ => .next s

/-! ### Writes at home and drains -/

/-- Writes 4 or 8 bytes to the link register file (R347); the host's port and the device share it. Only PEERCTX, the
export window and the counters take a value here; PSTAT has its own row. -/
def Link.put (k : Link) (o n x : Nat) : Link :=
  if !((n = 4 ∧ o % 4 = 0) ∨ (n = 8 ∧ o % 8 = 0)) then k
  else
    let base := o / 8 * 8
    let old := k.reg64 base
    let v := if n = 8 then x % 2 ^ 64 else if o % 8 = 0 then old / 2 ^ 32 * 2 ^ 32 + x % 2 ^ 32 else old % 2 ^ 32 + x % 2 ^ 32 * 2 ^ 32
    if base = 8 then { k with peerctx := BitVec.ofNat 64 v }
    else if base = 0x10 then
      let k' := { k with expbase := fld v 30 12, explog := fld v 0 4 }
      -- a write of the window is announced to every member
      { k' with sent := (0, 1024, k'.ownLog) :: k'.sent }
    else if 0x400 ≤ base ∧ base < 0x400 + 32 * 45 then
      k.modPort ((base - 0x400) / 32) fun p => match (base - 0x400) / 8 % 4 with
        | 0 => { p with corr := BitVec.ofNat 64 v }
        | 1 => { p with uncorr := BitVec.ofNat 64 v }
        | 2 => { p with replay := BitVec.ofNat 64 v }
        | _ => { p with drop := BitVec.ofNat 64 v }
    else k

/-- The port number of PCIe. -/
def pciePort : Nat := 44

/-- Lanes of a port at full width (R344). -/
def fullWidth (p : Nat) : Nat := if p = pciePort then 16 else 4

/-- A port changes; a new STATE is written to the trap queue of context slot 0 (R350). -/
def State.portTo (s : State) (p : Nat) (q : Port) : State :=
  let old := (s.link.port p).st
  let s := { s with link := s.link.modPort p fun _ => q }
  if q.st = old || 45 ≤ p || (s.ctx 0).state = .empty then s else (s.writeRecord 0 { kind := 8, code := q.st, va := p }).1

/-- DROP of a port adds 1 (R351). -/
def State.countDrop (s : State) (p : Nat) : State := { s with link := s.link.modPort p fun q => { q with drop := q.drop + 1 } }

/-- A write of PSTAT (R350): EN = 0 holds the port DOWN, RETRAIN trains it again. -/
def State.pstat (s : State) (p x : Nat) : State :=
  let q := s.link.port p
  if !bitAt x 0 then s.portTo p { q with en := false, st := 0, lanes := 0, fails := 0, retrain := false }
  else
    let q := { q with en := true }
    if bitAt x 1 && 2 ≤ q.st then s.portTo p { q with st := 1, lanes := 0, fails := 0, retrain := true, errs := [] } else s.portTo p q

/-- A store of 4 or 8 bytes to the register file. -/
def State.linkStore (s : State) (o n x : Nat) : State :=
  if 0x100 ≤ o ∧ o < 0x100 + 8 * 45 then
    -- RETRAIN and EN are in the lower half of PSTAT
    if o % 8 = 0 ∧ (n = 4 ∨ n = 8) then s.pstat ((o - 0x100) / 8) x else s
  else { s with link := s.link.put o n x }

/-- The bytes of a flight that its units in a mask hold, as physical addresses. -/
def Flight.writes (f : Flight) (units : Nat) : List (Nat × Byte) :=
  let go := (f.units.filter fun u => u &&& units == u).foldl (· ||| ·) 0
  (f.bytes.filter fun b => bitAt go b.1).map fun b => (f.line * 64 + b.1, b.2)

/-- What is left of a flight when those units have been performed. -/
def Flight.rest (f : Flight) (units : Nat) : Flight :=
  let us := f.units.filter fun u => u &&& units != u
  { f with units := us, bytes := f.bytes.filter fun b => bitAt (us.foldl (· ||| ·) 0) b.1 }

/-- A plain write of an access is performed: in the bank, in the core (R200), at the own window's home (R346), or, by the answer
of its member, there. -/
def State.performStore (s : State) (c id : Nat) (a : Acc) (n : Nat) : State :=
  match a.tgt, s.landing a with
  | some (.peer m o), _ =>
    let s := if a.port.isSome then { s with link := s.link.arrive m o } else s
    s.finishAcc c id a
  | some _, none => (s.dropOwn a).finishAcc c id a
  | _, some (.scr k as_) => (s.scrWrite k (as_.zip (leBytes n a.x))).finishAcc c id a
  | _, some (.home pas attr deps) =>
    let ws := pas.zip (leBytes n a.x)
    if a.own.isNone then (s.storeBytes c attr deps ws).finishAcc c id a
    else
      let (s, ok) := s.toHome c (linesOf pas)
      if !ok || !s.canWrite (linesOf pas) (some (c, id)) then s
      else if pas.any inLinkRegs then (s.linkStore (pas.headD 0 - 0x1000) pas.length a.x).finishAcc c id a
      else (((linesOf pas).foldl (fun s l => (s.dropLine c l).sigAdd c l) (s.homeWrite ws [])).noteOwn c pas).finishAcc c id a
  | _, _ => s

/-- A flush returns: the member has posted the signature of the writes that this module sent it (R210); its own port controller
does so here. -/
def State.flushed (s : State) (c id : Nat) (a : Acc) : State :=
  match a.tgt with
  | some (.peer m o) =>
    let s := if a.port.isSome then { s with link := s.link.arrive m o } else s
    let sig := tabGet 0 s.link.peerSigs m
    let s := if m = s.link.podix ∧ sig ≠ 0 then
        { s with modBoard := s.modBoard.post sig, link := { s.link with peerSigs := tabDel s.link.peerSigs m } }
      else s
    s.finishAcc c id a
  | _ => s.finishAcc c id a

/-- One access of a request that returns nothing is performed, unless an earlier one to a common byte is not (R202). -/
def State.performWrite (s : State) (c id : Nat) (a : Acc) : State :=
  match tabGet? (s.core c).pend id with
  | none => s
  | some p =>
    if !p.accs.contains a || a.st != 0 then s
    else match a.tgt with
      | none => s
      | some t =>
        if s.earlierOverlap c a.pos t id || p.beforeOverlap a || s.isStaged c p t then s
        else match p.kind, t with
          | .store _, _ => s.performStore c id a a.n
          | .red _ _ _, .peer m o =>
            let s := if a.port.isSome then { s with link := s.link.arrive m o } else s
            s.finishAcc c id a
          | .red _ _ team, _ => match s.landing a with
            | some q => s.performAtoms c id p q team 0
            | none => (s.dropOwn a).finishAcc c id a
          | .engine _ false, .peer m o => ({ s with link := if a.port.isSome then s.link.arrive m o else s.link }).finishAcc c id a
          | .flush, _ => s.flushed c id a
          | _, _ => s

/-- WRITE_AT_HOME (R201, R204, R232): bytes of a write in flight take their place in coherence order, those that are written at
once together (R211), `units` being the mask of the offsets; writes to one line arrive in their order. Or parts of a retired
`st` or `red`, of an engine's write to a member, or of a flush are performed, `units` being the mask of those parts. -/
def execWriteAtHome (c : Nat) (q : Portion) (s : State) : Host.Outcome State Fault Refusal :=
  match tabGet? (s.core c).flights q.id with
  | some f =>
    if (s.core c).flights.any (fun w => w.1 < q.id && w.2.line == f.line) || !s.canWrite [f.line] (some (c, q.id)) ||
        inLinkRegs (f.line * 64) then .next s
    else
      let r := f.rest q.mask
      let s' := s.modCore c fun k => { k with flights := if r.bytes.isEmpty then tabDel k.flights q.id else tabSet k.flights q.id r }
      .next (if (f.writes q.mask).isEmpty then s' else s'.homeWrite (f.writes q.mask) [])
  | none => match tabGet? (s.core c).pend q.id with
    | none => .next s
    | some p => .next ((maskPick q.mask true p.accs).foldl (fun s a => s.performWrite c q.id a) s)

/-- WCB_DRAIN (R200). -/
def execWcbDrain (c line : Nat) (s : State) : Host.Outcome State Fault Refusal := .next (s.drainLine c line)

/-- WCB_LINE_TIMEOUT (R200): 1,024 clocks have passed since the line's first write. -/
def execWcbLineTimeout (c line : Nat) (s : State) : Host.Outcome State Fault Refusal :=
  match tabGet? (s.core c).wcb line with
  | some w => .next (if w.firstClk + 1024 ≤ s.clk.toNat then s.drainLine c line else s)
  | none => .next s

/-- L1_DIRTY_TIMEOUT (R200): the line is written back, at the latest 65,536 clocks after it became dirty. -/
def execL1DirtyTimeout (c line : Nat) (s : State) : Host.Outcome State Fault Refusal := .next (s.writeBack c line)

/-- CLEAN_LINE_EXPIRY (R200): a clean line is dropped, at the latest 8,192 clocks after its fill. -/
def execCleanLineExpiry (c line : Nat) (s : State) : Host.Outcome State Fault Refusal :=
  match tabGet? (s.core c).l1 line with
  | some l => .next (if l.dirty = 0 then s.dropLine c line else s)
  | none => .next s

/-! ### Walks and replays -/

/-- The entries that a walk reads, as (physical address, value), from the top to the leaf of an unversioned region. -/
def State.walkEntries (s : State) (x va : Nat) : List (Nat × Nat) :=
  let next (e : Nat) : Nat := fld e 12 30 * 4096
  let rd (a : Nat) : Nat × Nat := (a, s.homeRead a 8)
  let e1 := rd ((s.ctx x).ptroot.toNat + 8 * fld va 41 9)
  let e2 := rd (next e1.2 + 8 * fld va 32 9)
  let e3 := rd (next e2.2 + 8 * fld va 23 9)
  let e4 := rd (next e3.2 + if fld e3.2 2 2 = 1 then 8 * fld va 20 3 else 8 * fld va 14 9)
  if fld e3.2 2 2 = 2 then [e1, e2, e3] else [e1, e2, e3, e4]

/-- PAGE_WALK_COMPLETION (R228, R231): the walk's translation enters the TLB of the core, and the entries above the leaf the
cache of its die, which affects timing only; a fault leaves none, and the access that needs it takes the fault when it
issues. -/
def execPageWalkCompletion (c x va : Nat) (s : State) : Host.Outcome State Fault Refusal :=
  let es := s.walkEntries x va
  let e3 := (listGet (0, 0) es 2).2
  let leaf := (es.getLast?.getD (0, 0)).2
  let put (bits pa home : Nat) (user ro : Bool) (deps : List Nat) : State :=
    let e : TlbEntry := { ctx := x, page := va / 2 ^ bits, bits := bits, pa := pa, home := home, user := user, ro := ro, deps := deps }
    let s := s.modCore c fun k =>
      { k with tlb := (e :: k.tlb.filter fun q => !(q.ctx == x && q.bits == bits && q.page == e.page)).take 4096 }
    let old := (tabGet [] s.dirCache (c / 24)).filter fun q => !es.contains q
    { s with dirCache := tabSet s.dirCache (c / 24) ((es.take 3 ++ old).take 512) }
  if inWindow (s.ctx x) va then .next s
  else match s.walk x va .vread with
    | .region r attr ro deps => .next (put 23 r attr (bitAt e3 9) ro deps)
    | _ => match s.walk x va .fetch with
      | .page pa attr deps =>
        let bits := if fld e3 2 2 = 1 then 20 else 14
        .next (put bits (pa / 2 ^ bits * 2 ^ bits) attr (bitAt leaf 4) (bitAt leaf 3) deps)
      | _ => .next s

/-- What an access kind is to the translation. -/
def AccKind.use : AccKind → Use2
  | .load _ _ | .lds _ | .ldx _ | .range _ | .flush => .read
  | .atom _ _ _ | .cas _ _ => .readWrite
  | .waitc _ _ => .plainRead
  | .store _ | .red _ _ _ | .engine _ _ => .write
  | .ldv _ _ => .vread
  | .stv _ | .vpub => .vwrite

/-- What the access of a logged lane resolves to at a retry, and the frame sets that it pins then: a plain read is translated
through those that its instruction has pinned, and an `ldv` whose version was chosen through that one (R230, R245). -/
def State.retryResolve (s : State) (c x : Nat) (t : Team) (p : Pend) (a : Acc) :
    Except (Nat × PFault) Resolved × List (Nat × Nat) :=
  let eas := eaRange a.va (max a.n 1)
  match p.kind with
  | .load _ _ | .lds _ =>
    let new := ((s.regionsOf x eas).filter fun r => !(p.pins.any (·.1 == r))).map fun r => (r, (s.vrec r).choose (s.ctx x).detm 0)
    (match s.pinnedBytes x (p.pins ++ new) (eas.map (· % 2 ^ 50)) with
     | .ok (pas, attr, d) => .ok { tgt := some (.home pas attr d), deps := d }
     | .error q => .error q, new)
  | k => (match s.resolveKind c x t k k.use eas a.y with
    | .error q => .error q
    | .ok q => match k with
      | .ldv _ _ =>
        if a.fs = 0 || q.reg != a.reg then .ok q
        else match s.frameBytes (q.reg.getD 0) (a.fs - 1) (eas.map (· % 2 ^ 50)) with
          | .ok pas => .ok { q with tgt := some (.home pas 1 []) }
          | .error e => .error e
      | _ => .ok q, [])

/-- One lane of a log entry retries (R236): it is performed and leaves the entry, or the fault that it meets. -/
def State.retryLane (s : State) (c id : Nat) (l : LogLane) : State × Option (Nat × PFault) :=
  match tabGet? (s.core c).pend id with
  | none => (s, none)
  | some p =>
    match p.accs.find? fun a => a.pos == l.pos && a.st == 3, s.team? c p.place with
    | some a, some t =>
      let (found, new) := s.retryResolve c t.ctx t p a
      if new.any fun q => 65535 ≤ (s.vrec q.1).pin q.2 then (s, some (l.va, ⟨l.code, l.level, l.line⟩))
      else
        let s := new.foldl (fun s q => s.setPin q.1 q.2 ((s.vrec q.1).pin q.2 + 1)) s
        let s := s.modCore c fun k => match tabGet? k.pend id with
          | some p => { k with pend := tabSet k.pend id { p with pins := p.pins ++ new } }
          | none => k
        match found with
        | .error q => (s.setAcc c id a { a with regs := a.regs ++ new.map (·.1) }, some q)
        | .ok q =>
          let b := { a with tgt := q.tgt, reg := q.reg, deps := q.deps, regs := a.regs ++ new.map (·.1), st := 0,
                            fs := if q.reg = a.reg then a.fs else 0 }
          ((s.setAcc c id a b).startAcc c id a.pos, none)
    | _, _ => (s, none)

/-- The lanes `fs` of a log entry, of one group, met faults at a retry: fatal ones trap once younger instructions have retired;
the others stay, with a new record if the line was written or the record dropped (R236). -/
def State.retryFaults (s : State) (c id g : Nat) (e : LogEntry) (p : Pend) (fs : List (LogLane × Nat × PFault)) :
    State × List LogLane :=
  let lpc := codeAddr p.hdr p.k
  let fatal := fs.filter fun f => !f.2.2.replayable
  let stay := fs.filter fun f => f.2.2.replayable
  let (s, _) := recordFaults s c g e.slotCtx e.acc lpc (fatal.map fun f => (f.1.pos, f.2))
  let s := (distinct (fatal.map fun f => pageDetail f.2.2)).foldl (fun s d =>
    let mine := fatal.filter fun f => pageDetail f.2.2 == d
    let ps := mine.map (·.1.pos)
    s.defer c g { code := tPage, lanes := ps, resume := some (p.hdr, p.k), detail := d,
                  info := mine.map fun f => (f.1.pos, f.2.1 % 2 ^ 32), inHandler := p.hm,
                  lats := p.lats.filter fun l => ps.contains l.1 }) s
  let s := fatal.foldl (fun s f => s.finishLane c id f.1.pos) s
  let (s, drops) := recordFaults s c g e.slotCtx e.acc lpc ((stay.filter fun f => f.1.touched || f.1.dropped).map fun f => (f.1.pos, f.2))
  (s, stay.map fun f => { f.1 with
    va := f.2.1, code := f.2.2.code, level := f.2.2.level, line := f.2.2.line, touched := false,
    dropped := (drops.find? (·.1 == f.1.pos)).any (·.2) })

/-- The retry of an operand-log entry, after a write to the faulting line or on the 65,536-clock timer (R236). -/
def State.retryEntry (s : State) (c id : Nat) (timed : Bool) : State :=
  match tabGet? (s.core c).log id, tabGet? (s.core c).pend id with
  | some e, some p =>
    if !(e.lanes.any (·.touched) || (timed && e.since + 65536 ≤ s.clk.toNat)) then s
    else
      let (s, fs) := e.lanes.foldl (fun (r : State × List (LogLane × Nat × PFault)) l =>
        match r.1.retryLane c id l with
        | (s, none) => (s, r.2)
        | (s, some f) => (s, r.2 ++ [(l, f)])) (s, [])
      let (s, left) := (distinct (fs.map fun f => s.ownerOf c p f.1.pos)).foldl (fun (r : State × List LogLane) g =>
        let (s, l) := r.1.retryFaults c id g e p (fs.filter fun f => s.ownerOf c p f.1.pos == g)
        (s, r.2 ++ l)) (s, [])
      let e' := { e with lanes := left, since := s.clk.toNat }
      s.modCore c fun k => { k with log := if left.isEmpty then tabDel k.log id else tabSet k.log id e' }
  | _, _ => s

end Sys2Proof.Machine
end

