-- ==== Sys2Proof/Machine/Bank.lean ====
section
/-!
DEFINITION. Sys2Proof/Machine/Bank.lean: the ACCM banks of a core (R289 to R292), windows (R293), which rows a command
touches, and the events that map and free team bank numbers at their places in start order (R290, R294).
-/
namespace Sys2Proof.Machine

/-! ### Windows (R293) -/

/-- A window. -/
structure Win where
  bank : Nat
  row0 : Nat
  rows : Nat
  col0 : Nat
  cols : Nat
  deriving DecidableEq, Repr

/-- The fields of WIN0 and WIN1. -/
def winOf (w0 w1 : Nat) : Win :=
  { bank := fld w0 0 7, row0 := fld w0 11 10, rows := fld w0 21 11, col0 := fld w1 0 7, cols := fld w1 8 8 }

/-- A reserved bit of WIN0 or WIN1 is set. -/
def winBad (w0 w1 : Nat) : Bool := fld w0 7 4 != 0 || fld w1 16 16 != 0 || fld w1 7 1 != 0

/-- A window breaks R293. -/
def Win.range (w : Win) : Bool :=
  1024 < w.rows || 128 < w.cols || 128 < w.col0 + w.cols || (0 < w.rows && 127 < w.bank + (w.row0 + w.rows - 1) / 64)

/-- A window breaks the limits of R311 for `s` slices. -/
def Win.sliceBad (w : Win) (s : Nat) : Bool := 64 < w.rows || 64 < w.row0 + w.rows || 96 < w.cols || 127 < w.bank + 2 * s - 1

/-- Window row `i` (from 0) as team bank and row. -/
def Win.row (w : Win) (i : Nat) : Nat × Nat := (w.bank + (w.row0 + i) / 64, (w.row0 + i) % 64)

/-- The rows a window touches. -/
def Win.all (w : Win) : List (Nat × Nat) := if w.cols = 0 then [] else (natRange 0 w.rows).map w.row

/-! ### The commands of the matrix engine -/

/-- The T commands of the matrix engine. -/
def isMatrix (i : Instr) : Bool :=
  match i with
  | .aczero _ | .acrd _ | .acwr _ | .mma _ | .acst _ | .zsplit _ | .mmz _ | .zfold _ => true
  | _ => false

/-- The commands that run on the atom (R294). -/
def isAtomCmd (i : Instr) : Bool :=
  match i with
  | .mma _ | .zsplit _ | .mmz _ | .zfold _ => true
  | _ => false

/-- Matrix commands and bank events, which share the start order. -/
def inStartOrder (i : Instr) : Bool := isMatrix i || (match i with
  | .acalloc _ _ _ _ | .acfree _ _ _ => true
  | _ => false)

/-- The window of a command. -/
def Cmd.win (m : Cmd) : Win :=
  let b (i : Nat) : Nat := listGet 0 m.block i
  match m.i with
  | .aczero _ => winOf (b 0) (b 1)
  | .acrd _ | .acwr _ => winOf (b 2) (b 3)
  | .mma _ => winOf (b 4) (b 5)
  | .acst _ | .mmz _ => winOf (b 6) (b 7)
  | .zfold _ => winOf (b 5) (b 6)
  | _ => ⟨0, 0, 0, 0, 0⟩

/-- The slice count of a sliced command. -/
def Cmd.slices (m : Cmd) : Nat :=
  match m.i with
  | .mmz _ => fld (listGet 0 m.block 5) 17 4
  | .zfold _ => fld (listGet 0 m.block 4) 0 4
  | .zsplit _ => fld (listGet 0 m.block 8) 8 4
  | _ => 0

/-- The rows a command touches, over all its banks (R311). -/
def Cmd.rows (m : Cmd) : List (Nat × Nat) :=
  match m.i with
  | .mmz _ | .zfold _ => (natRange 0 (2 * m.slices)).flatMap fun q => m.win.all.map fun r => (r.1 + q, r.2)
  | _ => m.win.all

/-- The rows that a command has still to finish with: an `acst` is done with those it has drained (R291, R294). -/
def Cmd.rowsLeft (m : Cmd) : List (Nat × Nat) :=
  match m.i with
  | .acst _ => m.rows.drop (m.prog / m.win.cols)
  | _ => m.rows

/-- The rows that the next step of a command accesses. -/
def Cmd.rowsNext (m : Cmd) : List (Nat × Nat) :=
  match m.i with
  | .acst _ => m.rowsLeft.take 1
  | _ => m.rows

/-- A command has started and has not finished its accesses. -/
def Cmd.running (m : Cmd) : Bool := isMatrix m.i && m.order.isSome && m.state != .draining

/-- A started command that holds the engine: a saved one that waits to go on does not (R306, R322). -/
def Cmd.held (m : Cmd) : Bool := m.running && m.state != .waiting

/-! ### Mapped numbers -/

/-- The physical bank behind a team bank number, as the command at place `o` of the start order sees it. -/
def Team.bankAt (t : Team) (o n : Nat) : Option Bank :=
  (tabGet? t.banks n).filter fun b => b.mapAt < o && !b.freeAt.any (· < o)

/-- The physical bank of a LIVE row, none for a row that reads as zero (R292). -/
def Team.liveRow (t : Team) (o : Nat) (r : Nat × Nat) : Option Nat :=
  match t.bankAt o r.1 with
  | none => none
  | some b => if listGet false b.bands (r.2 / 16) then some b.phys else none

/-- A word of ACCM. -/
def accKey (phys row col : Nat) : Nat := (phys * 64 + row) * 128 + col
def Core.accGet (k : Core) (phys row col : Nat) : Word := tabGet 0 k.accm (accKey phys row col)
/-- Sets a word of ACCM; zero words are not listed. -/
def Core.accSet (k : Core) (phys row col : Nat) (x : Word) : Core :=
  { k with accm := if x = 0 then tabDel k.accm (accKey phys row col) else tabSet k.accm (accKey phys row col) x }

/-- Physical banks in use. -/
def Core.usedBanks (k : Core) : List Nat := k.teams.flatMap fun t => t.2.banks.map fun b => b.2.phys
/-- Physical banks that are free, lowest first. -/
def Core.freePhys (k : Core) : List Nat := (natRange 0 128).filter fun p => !k.usedBanks.contains p

/-- The next place in start order. -/
def State.nextPlace (s : State) (c : Nat) : Nat × State :=
  ((s.core c).nextOrder, s.modCore c fun k => { k with nextOrder := k.nextOrder + 1 })

/-- Numbers that are being freed become UNMAPPED once every earlier command has finished with the bank (R290). -/
def State.settleBanks (s : State) (c : Nat) : State :=
  let busy (j n f : Nat) : Bool := (s.core c).cmds.any fun m =>
    m.2.place == j && m.2.running && m.2.order.any (· < f) && m.2.rowsLeft.any fun r => r.1 == n
  s.modCore c fun k => { k with teams := k.teams.map fun t => (t.1, { t.2 with
    banks := t.2.banks.filter fun b => match b.2.freeAt with
      | none => true
      | some f => busy t.1 b.1 f }) }

/-- Frees the mapped numbers of a team that satisfy a test, at place `o`. -/
def Team.freeIf (t : Team) (o : Nat) (p : Nat → Bank → Bool) : Team :=
  { t with banks := t.banks.map fun b => if p b.1 b.2 && b.2.freeAt.isNone then (b.1, { b.2 with freeAt := some o }) else b }

/-- The ACCM banks that a group holds are freed (R142, R290, R300). -/
def State.freeBanks (s : State) (c : Nat) (x : Group) : State :=
  let (o, s) := s.nextPlace c
  (s.modTeam c x.place fun t => t.freeIf o fun _ b => b.holder == x.gbase).settleBanks c

/-- The lowest run of `n` UNMAPPED numbers (R299). -/
def Team.bankRun (t : Team) (n : Nat) : Option Nat :=
  (natRange 0 (129 - n)).find? fun b => (natRange b n).all fun i => (tabGet? t.banks i).isNone

def aOk : Nat := 0
def aFull : Nat := 1
def aCount : Nat := 2
def aParam : Nat := 3
def aRange : Nat := 4
def aAlign : Nat := 5
def aPath : Nat := 6
def aPage : Nat := 7
def aUnalloc : Nat := 8

/-- `acalloc` at its place in start order (R299): the first number and the status. -/
def State.allocBanks (s : State) (c j holder n : Nat) : State × Nat × Nat :=
  let (o, s) := s.nextPlace c
  match s.team? c j with
  | none => (s, 2 ^ 32 - 1, aFull)
  | some t =>
    if n = 0 ∨ 128 < n then (s, 2 ^ 32 - 1, aCount)
    else match t.bankRun n with
      | none => (s, 2 ^ 32 - 1, aFull)
      | some b =>
        let free := (s.core c).freePhys.take n
        if free.length < n then (s, 2 ^ 32 - 1, aFull)
        else
          let s := s.modCore c fun k => { k with accm := k.accm.filter fun w => !free.contains (w.1 / 8192) }
          let s := s.modTeam c j fun t => { t with banks := ((natRange b n).zip free).foldl (fun m q =>
            tabSet m q.1 { phys := q.2, holder := holder, bands := [true, true, true, true], mapAt := o, freeAt := none }) t.banks }
          (s, b, aOk)

/-- `acfree` at its place in start order (R300). -/
def State.unmapBanks (s : State) (c j a n : Nat) : State :=
  let (o, s) := s.nextPlace c
  (s.modTeam c j fun t => t.freeIf o fun i _ => a ≤ i && i < min (a + n) 128).settleBanks c

/-- Releases each LIVE band of 16 rows that lies wholly inside `rows` (R291); numbers with no LIVE band left are freed. -/
def State.releaseBands (s : State) (c j o : Nat) (rows : List (Nat × Nat)) : State :=
  let whole (n q : Nat) : Bool := (natRange (16 * q) 16).all fun r => rows.contains (n, r)
  (s.modTeam c j fun t => { t with banks := t.banks.map fun b =>
    if b.2.mapAt < o && !b.2.freeAt.any (· < o) then
      let bands := (natRange 0 4).map fun q => listGet false b.2.bands q && !whole b.1 q
      (b.1, { b.2 with bands := bands, freeAt := if bands.any id then b.2.freeAt else some (b.2.freeAt.getD o) })
    else b }).settleBanks c

end Sys2Proof.Machine
end

