-- ==== Sys2Proof/Machine/Barrier.lean ====
section
/-!
DEFINITION. Sys2Proof/Machine/Barrier.lean: barrier records, arrivals, exits and releases (R253 to R262), epochs of
deterministic operation (R392), and semaphores (R265, R267).
-/
namespace Sys2Proof.Machine

/-- The lane count of a grid's teams (R113). -/
def Grid.teamLanes (g : Grid) : Nat := g.groups * (8 * 2 ^ g.wcode)
/-- CS (R115). -/
def Grid.cs (g : Grid) : Nat := g.cw * g.ch
/-- N (R115). -/
def Grid.n (g : Grid) : Nat := g.gx * g.gy * g.gz

/-! ### Records -/

/-- The record that a hold or an arrival names (R253). -/
def State.barRec (s : State) (t : Team) (r : HoldRec) : Option BarRec :=
  match r with
  | .team b => t.recs[b.val]?
  | .cluster => (s.grid? t.grid).bind fun g => tabGet? g.crecs (t.n / max 1 g.cs)
  | .grid => (s.grid? t.grid).bind (·.rec_)

/-- The completion test (R257). -/
def BarRec.test (r : BarRec) : BarRec :=
  if r.arr = r.exp ∧ 0 < r.arr then { r with gen := r.gen + 1, arr := 0, amap := [], mv := false } else r

/-- A lane of the member set exits (R255). -/
def BarRec.exitLane (r : BarRec) (rln : Nat) (mapped : Bool) : BarRec :=
  if mapped && r.amap.contains rln then
    { r with exp := r.exp - 1, arr := r.arr - 1, amap := r.amap.filter (· != rln) }.test
  else { r with exp := r.exp - 1 }.test

/-- A new epoch of a grid under deterministic operation: the conflict records of the old one go (R392, R396). -/
def State.newEpoch (s : State) (gix : Nat) : State :=
  let s := s.modGrid gix fun g => { g with epoch := g.epoch + 1, closed := g.gone }
  { s with conflicts := s.conflicts.filter fun f => f.2.grid != gix }

/-- Replaces a record; a completion of the grid record ends the epoch. -/
def State.setRec (s : State) (c j : Nat) (t : Team) (r : HoldRec) (x : BarRec) : State :=
  match r with
  | .team b => s.modTeam c j fun t => { t with recs := t.recs.setIfInBounds b.val x }
  | .cluster => s.modGrid t.grid fun g => { g with crecs := tabSet g.crecs (t.n / max 1 g.cs) x }
  | .grid =>
    let done := ((s.grid? t.grid).bind (·.rec_)).any fun o => o.gen != x.gen
    let s := s.modGrid t.grid fun g => { g with rec_ := some x }
    if done then s.newEpoch t.grid else s

/-- A lane of team place `j` of core `c` exits: every record whose member set holds it is adjusted (R255). -/
def State.exitRecords (s : State) (c j rln : Nat) : State :=
  let one (s : State) (r : HoldRec) : State :=
    match s.team? c j with
    | none => s
    | some t => match s.barRec t r with
      | none => s
      | some x =>
        let member := match r with
          | .team b => b.val == 0 || (x.mv && x.mlo ≤ rln && rln < x.mlo + 2 ^ x.mlg)
          | _ => true
        let mapped := match r with | .team _ => true | _ => false
        if member then s.setRec c j t r (x.exitLane rln mapped) else s
  [HoldRec.team 0, .team 1, .team 2, .team 3, .cluster, .grid].foldl one s

/-! ### Member sets (R256) -/

/-- The fields of a barrier operand. -/
def barB (q : Nat) : Fin 4 := ⟨q % 4, Nat.mod_lt _ (by decide)⟩
def barLo (q : Nat) : Nat := fld q 16 13
def barK (q : Nat) : Nat := fld q 8 4

/-- A barrier operand breaks R256, for a team of `lanes` lanes. -/
def barBad (q lanes : Nat) : Bool :=
  if q % 4 = 0 then q / 4 != 0
  else fld q 29 3 != 0 || fld q 12 4 != 0 || fld q 2 6 != 0 || 13 < barK q || barLo q % 2 ^ barK q != 0 || lanes < barLo q + 2 ^ barK q

/-- Live lanes of a team whose team lane number lies in a range. -/
def State.liveIn (s : State) (c j lo n : Nat) : Nat :=
  (s.core c).groups.foldl (fun m g => if g.2.place = j then
    m + ((g.2.positions.map (s.lane c)).filter fun l => !l.exited && lo ≤ l.rln && l.rln < lo + n).length else m) 0

/-- The value checks of an arrival at a team record for one lane (R262). -/
def Team.arriveBad (t : Team) (lanes q rln : Nat) : Bool :=
  barBad q lanes ||
  (match t.recs[q % 4]? with
    | none => true
    | some r => (q % 4 != 0 && !(barLo q ≤ rln && rln < barLo q + 2 ^ barK q)) ||
        (q % 4 != 0 && r.mv && !(r.mlo == barLo q && r.mlg == barK q)) || r.amap.contains rln)

/-- Arrive(rec, C) (R257). -/
def State.arrive (s : State) (c j : Nat) (r : HoldRec) (q : Nat) (rlns : List Nat) : State :=
  match s.team? c j with
  | none => s
  | some t => match s.barRec t r with
    | none => s
    | some x =>
      let x := match r with
        | .team b => if b.val ≠ 0 ∧ x.mv = false then
            { x with mv := true, mlo := barLo q, mlg := barK q, exp := s.liveIn c j (barLo q) (2 ^ barK q) } else x
        | _ => x
      let mapped := match r with | .team _ => true | _ => false
      let x := { x with arr := x.arr + rlns.length, amap := if mapped then rlns.foldl (fun m l => insSorted l m) x.amap else x.amap }
      s.setRec c j t r x.test

/-! ### Held lanes (R258) -/

/-- A lane is released: (GEN − HG) mod 2³² is positive as a signed number. -/
def State.passes (s : State) (t : Team) (l : Lane) : Bool :=
  l.hk != .none && (s.barRec t l.hr).any fun r => (r.gen - l.hg).toNat != 0 && (r.gen - l.hg).toNat < 2 ^ 31

/-- The acquire scope of a record (R259). -/
def HoldRec.scope : HoldRec → Nat
  | .team _ => 2
  | .cluster => 3
  | .grid => 5

/-- The released lanes of a group pass, each with its acquire (R258, R259). -/
def State.passLanes (s : State) (c g : Nat) (ps : List Nat) : State :=
  match s.group? c g with
  | none => s
  | some x => match s.teamOf c x with
    | none => s
    | some t =>
      ps.foldl (fun s p =>
        let l := s.lane c p
        if !s.passes t l then s
        else
          let (s, ok) := s.acquireRound c [p] l.hr.scope
          if ok then s.modLane c p fun l => { l with hk := .none } else s) s

/-- A team has closed the epoch once every live lane of it is held at the grid barrier (R392). -/
def State.closeEpoch (s : State) (c j : Nat) : State :=
  match s.team? c j with
  | none => s
  | some t =>
    let all := (s.core c).groups.all fun g => g.2.place != j || (g.2.positions.map (s.lane c)).all fun l =>
      l.exited || (l.hk != .none && l.hr == .grid)
    if all then s.modGrid t.grid fun g => { g with closed := insSorted t.n g.closed } else s

/-! ### The barrier instructions -/

/-- `bar`, `cbar` and `gbar` in the lanes of C: the value checks, the release, the arrival and the hold (R261). -/
def Env.barrier (e : Env) (s : State) (r : HoldRec) (q : Nat) : Res :=
  match s.teamOf e.c e.x, s.gridOf e.c e.x with
  | some t, some gr =>
    let bad (p : Nat) : Bool := e.x.hmode || (match r with
      | .team _ => t.arriveBad gr.teamLanes q (s.lane e.c p).rln
      | .cluster => false
      | .grid => !gr.gbar)
    let fails := e.lanes.filter bad
    if !fails.isEmpty then e.trapLanes s (fails.map fun p => ({ pos := p }, tSync))
    else match s.releaseRound e.c e.g e.x e.lanes r.scope e.x.phase with
      | (s, some ph) => .wait (s.modGroup e.c e.g fun g => { g with phase := ph }) .instr
      | (s, none) =>
        let gen := (s.barRec t r).elim 0 (·.gen)
        let s := e.hold .arrive r (fun _ => gen) s
        let s := if r = .grid then s.closeEpoch e.c e.x.place else s
        let s := s.arrive e.c e.x.place r q (e.lanes.map fun p => (s.lane e.c p).rln)
        .done (s.passLanes e.c e.g e.lanes)
  | _, _ => .done s

/-- `bar` (R261). -/
def execBar (p : Pfx) (q : Operand) (s : State) : Host.Outcome State Fault Refusal :=
  execWord (.bar p q) (fun e s => let v := e.opnd s q e.low 32; e.barrier s (.team (barB v)) v) s

/-- `bar.arr` (R261): the token is the generation arrived in. -/
def execBarArr (p : Pfx) (dst : Option Operand) (q : Operand) (s : State) : Host.Outcome State Fault Refusal :=
  execWord (.barArr p dst q) (fun e s =>
    match s.teamOf e.c e.x, s.gridOf e.c e.x with
    | some t, some gr =>
      let v := e.opnd s q e.low 32
      let fails := e.lanes.filter fun p => e.x.hmode || t.arriveBad gr.teamLanes v (s.lane e.c p).rln
      if !fails.isEmpty then e.trapLanes s (fails.map fun p => ({ pos := p }, tSync))
      else match s.releaseRound e.c e.g e.x e.lanes 2 e.x.phase with
        | (s, some ph) => .wait (s.modGroup e.c e.g fun g => { g with phase := ph }) .instr
        | (s, none) =>
          let gen := (s.barRec t (.team (barB v))).elim 0 (·.gen)
          let s := s.arrive e.c e.x.place (.team (barB v)) v (e.lanes.map fun p => (s.lane e.c p).rln)
          .done (eachLane e.lanes (fun p s => e.write dst p 32 gen.toNat s) s)
    | _, _ => .done s) s

/-- `bar.w` (R261): held until the generation of the token has completed; q[31:2] is ignored. -/
def execBarW (p : Pfx) (q t : Operand) (s : State) : Host.Outcome State Fault Refusal :=
  execWord (.barW p q t) (fun e s =>
    if e.x.hmode then e.trapLanes s (e.lanes.map fun p => ({ pos := p }, tSync))
    else
      let r := HoldRec.team (barB (e.opnd s q e.low 32))
      let tok (p : Nat) : Word := BitVec.ofNat 32 (e.opnd s t p 32)
      let s := e.hold .token r tok s
      .done (s.passLanes e.c e.g e.lanes)) s

/-- `cbar` (R261). -/
def execCbar (p : Pfx) (s : State) : Host.Outcome State Fault Refusal :=
  execWord (.cbar p) (fun e s => e.barrier s .cluster 0) s

/-- `gbar` (R261). -/
def execGbar (p : Pfx) (s : State) : Host.Outcome State Fault Refusal :=
  execWord (.gbar p) (fun e s => e.barrier s .grid 0) s

/-- HELD_LANE_RELEASE (R258, R259): the released lanes of a group pass and acquire. -/
def execHeldLaneRelease (c g : Nat) (s : State) : Host.Outcome State Fault Refusal :=
  match s.group? c g with
  | none => .next s
  | some x => .next (s.passLanes c g x.positions)

/-! ### Semaphores (R265, R267) -/

/-- Adds to or sets a semaphore of a team. -/
def State.semApply (s : State) (c j k : Nat) (set : Bool) (a : Nat) : State :=
  match s.team? c j with
  | none => s
  | some t => s.semSet c j k (if set then BitVec.ofNat 32 a else t.semCount k + BitVec.ofNat 32 a)

/-- A semaphore operation of the sync unit. -/
def isSem (i : Instr) : Bool := match i with | .smadd _ | .smset _ => true | _ => false

/-- A queued semaphore operation of a group: applied once its release is performed, in the order of the group (R265, R267). -/
def Core.semQueued (k : Core) (g : Nat) : Bool := k.cmds.any fun m => m.2.ctx == g && isSem m.2.i

/-- A queued operation of the group on index `ix`, which a later wait of the group sees (R265). -/
def Core.semPending (k : Core) (x : Group) (ix : Nat) : Bool := k.cmds.any fun m =>
  isSem m.2.i && m.2.place == x.place && decide (x.gbase ≤ m.2.owner ∧ m.2.owner < x.gbase + x.gwid) && listGet 0 m.2.block 0 == ix

/-- `smadd` and `smset`: retire at issue; the sync unit applies them when the release at team scope of the lanes of C is
performed (R267). -/
def Env.semOp (e : Env) (s : State) (o : Sem2) (set : Bool) : Res :=
  let k := e.opnd s o.k e.low 32
  let a := e.opnd s o.a e.low 32
  if 63 < k then e.trapLanes s (e.lanes.map fun p => ({ pos := p }, tSync))
  else if !s.canBind e.c e.x.place k then .wait s .bind
  else
    let s := s.semApply e.c e.x.place k false 0
    if s.releaseClear e.c e.lanes (s.core e.c).nextId && !(s.core e.c).semQueued e.g then .done (s.semApply e.c e.x.place k set a)
    else
      let (id, s) := s.fresh e.c
      let cmd : Cmd := {
        i := if set then .smset o else .smadd o, ctx := e.g, owner := e.low, place := e.x.place, lpc := e.lpc, hm := e.x.hmode,
        thr := 0, block := [k, a], state := .waiting, prog := 0, prog2 := 0, shape := [], aux := [], status := 0, gst := 0,
        order := none, lanes := e.lanes, poisoned := false, faultLine := 0, touched := false, seq := id }
      .done (s.modCore e.c fun q => { q with cmds := tabSet q.cmds id cmd })

/-- `smadd` (R267). -/
def execSmadd (o : Sem2) (s : State) : Host.Outcome State Fault Refusal := execWord (.smadd o) (fun e s => e.semOp s o false) s
/-- `smset` (R267). -/
def execSmset (o : Sem2) (s : State) : Host.Outcome State Fault Refusal := execWord (.smset o) (fun e s => e.semOp s o true) s

/-- `smwait` (R267): waits for the count, then acquires at team scope. -/
def execSmwait (o : Sem2) (s : State) : Host.Outcome State Fault Refusal :=
  execWord (.smwait o) (fun e s =>
    let k := e.opnd s o.k e.low 32
    let a := e.opnd s o.a e.low 32
    if 63 < k then e.trapLanes s (e.lanes.map fun p => ({ pos := p }, tSync))
    else if !s.canBind e.c e.x.place k then .wait s .bind
    else
      let s := s.semApply e.c e.x.place k false 0
      if (s.core e.c).semPending e.x k || !(s.team? e.c e.x.place).any (fun t => semHolds (t.semCount k) (BitVec.ofNat 32 a)) then
        .wait s .smwait
      else if s.readsClear e.c e.lanes then .done s
      else .wait s .instr) s

/-- The sync unit applies a queued operation, the earlier ones of its group first. -/
def State.advanceSem (s : State) (c id : Nat) (m : Cmd) (set : Bool) : State :=
  let earlier := (s.core c).cmds.any fun q => q.1 < id && q.2.ctx == m.ctx && isSem q.2.i
  if earlier || !s.releaseClear c m.lanes m.seq then s
  else
    let s := s.modCore c fun q => { q with cmds := tabDel q.cmds id }
    s.semApply c m.place (listGet 0 m.block 0) set (listGet 0 m.block 1)

/-- SEMAPHORE_BIND (R265): a team's index takes a semaphore that is free, with the count 0. -/
def execSemaphoreBind (c place k : Nat) (s : State) : Host.Outcome State Fault Refusal :=
  .next (if k ≤ 63 && s.canBind c place k then s.semApply c place k false 0 else s)

/-! ### Condition monitors (R269) -/

/-- `waitc` (R269, R270): in a context with DETM = 1 only the form .ge is permitted (R398). -/
def execWaitc (p : Pfx) (cmp : WaitCmp) (w64 : Bool) (d : Operand) (m : MemRef) (sb : Fin 8) (s : State) :
    Host.Outcome State Fault Refusal :=
  execWord (.waitc p cmp w64 d m sb) (fun e s =>
    let n := if w64 then 8 else 4
    let reqs := e.lanes.map fun p =>
      let ea := e.effAddr s m n p
      ({ pos := p, ea := ea, eas := eaRange ea n, x := e.opnd s d p (16 * n) % 2 ^ (8 * n) } : LaneReq)
    -- T.PATH and T.ALIGN rank before T.DETSYNC (R45)
    let det := (s.ctx (s.ctxOf e.c e.x)).detm && cmp != .ge
    let bad (r : LaneReq) : Bool := pathOf r.ea != 0 || fld r.ea 50 10 != 0 || r.ea % n != 0
    if det && !reqs.all bad then
      if reqs.any bad then e.issueMem s (.waitc cmp w64) (some sb) d reqs .plainRead (· == 0) n
      else e.trapLanes s (e.lanes.map fun p => ({ pos := p }, tDetsync))
    else e.issueMem s (.waitc cmp w64) (some sb) d reqs .plainRead (· == 0) n) s

end Sys2Proof.Machine
end

