-- ==== Sys2Proof/Machine/Control.lean ====
section
/-!
DEFINITION. Sys2Proof/Machine/Control.lean: the issue of a clause (R23 to R28, R135 to R140, R235, R327) and the control
instructions (R143 to R149) but for `yieldpt` and `launch`.
-/
namespace Sys2Proof.Machine

/-! ### The issuing set (R135, R327) -/

/-- A lane is eligible (R135). -/
def Lane.eligible (l : Lane) (hmode : Bool) : Bool := !l.exited && l.hk == .none && (!hmode || l.inHandler)

/-- The position of a lane in the order of R327. -/
def Lane.point (l : Lane) : Nat := l.lpc.toNat * 16 + l.resw

/-- The eligible lanes at the least position, with that position. -/
def State.issuing (s : State) (c : Nat) (x : Group) : Option (Nat × Nat × List Nat) :=
  let el := x.positions.filter fun p => (s.lane c p).eligible x.hmode
  match listMin? (el.map fun p => (s.lane c p).point) with
  | none => none
  | some m => some (m / 16, m % 16, el.filter fun p => (s.lane c p).point == m)

/-! ### Clause headers and fetch (R24, R25, R235) -/

/-- One code word. -/
def State.fetchWord (s : State) (x va : Nat) : Except (Nat × PFault) Nat :=
  match s.xlateBytes x .fetch (vaRange (va % 2 ^ 50) 8) with
  | .error q => .error q
  | .ok (pas, _, _) => .ok (ofLe (s.homeBytes pas))

/-- A malformed header (R25). -/
def headerBad (h : Nat) : Bool :=
  fld h 60 4 != 15 || fld h 57 3 == 7 || fld h 0 29 != 0 || (!bitAt h 44 && (fld h 38 6 != 0 || fld h 30 8 != 0))

/-- The engine class of a header. -/
def headerClass (h : Nat) : EClass :=
  match fld h 57 3 with
  | 0 => .scalar | 1 => .vector | 2 => .memory | 3 => .matrix | 4 => .copy | 5 => .sync | _ => .control
/-- The number of instruction words. -/
def headerCount (h : Nat) : Nat := fld h 53 4 + 1
/-- YIELD. -/
def headerYield (h : Nat) : Bool := bitAt h 29

/-- The words of a clause, or the first fetch fault. -/
def State.fetchWords (s : State) (x base : Nat) : List Nat → Except (Nat × PFault) (List Nat)
  | [] => .ok []
  | i :: t => match s.fetchWord x (base + 8 * (i + 1)) with
    | .error q => .error q
    | .ok w => match s.fetchWords x base t with
      | .error q => .error q
      | .ok ws => .ok (w :: ws)

/-- What stands at a clause address: a fetch fault, a malformed header, or the header and its words. -/
inductive Fetched where
  | fault (va : Nat) (f : PFault)
  | bad
  | clause (h : Nat) (ws : List Nat)

/-- Fetches a clause whole (R235). -/
def State.fetchClause (s : State) (x base : Nat) : Fetched :=
  match s.fetchWord x base with
  | .error (va, f) => .fault va f
  | .ok h =>
    if headerBad h then .bad
    else match s.fetchWords x base (natRange 0 (headerCount h)) with
      | .error (va, f) => .fault va f
      | .ok ws => .clause h ws

/-- The slots of SBWAIT are clear (R27). -/
def Group.slotsClear (g : Group) (h : Nat) : Bool :=
  (natRange 0 8).all fun k => !bitAt h (45 + k) || g.sbCount k == 0

/-- The semaphore condition of R27, with the index bound or free to bind. -/
def State.semClear (s : State) (c : Nat) (x : Group) (h : Nat) : Bool :=
  !bitAt h 44 || (s.canBind c x.place (fld h 38 6) && !(s.core c).semPending x (fld h 38 6) &&
    (s.team? c x.place).any fun t => semHolds (t.semCount (fld h 38 6)) (regGet x.scal (fld h 30 8)))

/-- The conditions of R27, with the acquire at team scope of R266. -/
def State.headerHolds (s : State) (c : Nat) (x : Group) (h : Nat) (ps : List Nat) : Bool :=
  x.slotsClear h && s.semClear c x h && (!bitAt h 44 || s.readsClear c ps)

/-! ### Deferred traps (R330) -/

/-- The deferred traps of the lowest code among those with a lane that is eligible now. -/
def State.dueTraps (s : State) (c : Nat) (x : Group) : List Deferred :=
  let due := x.deferred.filter fun d => (d.inHandler || !x.hmode) && d.lanes.any fun p =>
    let l := s.lane c p
    !l.exited && l.hk == .none
  match listMin? (due.map (·.code)) with
  | none => []
  | some m => due.filter (·.code == m)

/-- The deferred trap to take next. -/
def State.dueTrap (s : State) (c : Nat) (x : Group) : Option Deferred := (s.dueTraps c x).head?

/-! ### Readiness (R28, R139, R140) -/

/-- A group that may issue or fault at a header now: at a clause boundary, not stopped, its interval passed. -/
def State.atBoundary (s : State) (x : Group) : Bool :=
  (x.state == .run || x.state == .wait) && x.cur.isNone && x.nextClk ≤ s.clk.toNat &&
    (match x.blk with | some .header => true | none => true | _ => false)

/-- The deadline of a STOPPING context has passed (R90, R337): 2,400 clocks make a microsecond. -/
def State.pastDln (s : State) (x : Nat) : Bool :=
  (s.ctx x).state == .stopping && (s.ctx x).stopClk + (s.ctx x).dln.toNat * 2400 ≤ s.clk.toNat

/-- Whether a group is ready, and for which class (R140). -/
def State.readyClass (s : State) (c : Nat) (x : Group) : Option EClass :=
  if !s.atBoundary x || s.pastDln (s.ctxOf c x) || (s.dueTrap c x).isSome then none
  else match s.issuing c x with
    | none => none
    | some (base, _, ps) => match s.fetchClause (s.ctxOf c x) base with
      | .clause h _ => if s.headerHolds c x h ps then some (headerClass h) else none
      | _ => none

/-- The first ready group at or after a pointer, wrapping (R140). -/
def roundRobin (ptr : Nat) (rs : List (Nat × Group)) : Option (Nat × Group) :=
  (rs.find? fun r => ptr ≤ r.1).orElse fun _ => rs.head?

/-- The choice of a port among its ready groups (R140). -/
def choose (port ptr : Nat) (rs : List (Nat × Group)) : Option (Nat × Group) :=
  let late := rs.filter fun r => r.2.passed == 31
  match late with
  | r0 :: t => some (t.foldl (fun m r => if r.2.age.getD 0 < m.2.age.getD 0 then r else m) r0)
  | [] =>
    let mx := if port = 8 then rs.filter fun r => r.2.role == .matrix else []
    roundRobin ptr (if mx.isEmpty then rs else mx)

/-- Brings the readiness bookkeeping of a core's groups up to date: the clock at which each last became ready, and the
states RUN and WAIT of groups at a boundary (R140, R142). With no event since clock `from`, a group that is ready now and was
not then became ready when the interval of R139 passed. -/
def State.refresh (s : State) (c : Nat) (from_ : Nat) : State :=
  (s.core c).groups.foldl (fun s q =>
    let rdy := (s.readyClass c q.2).isSome
    let live := (s.issuing c q.2).isSome
    s.modGroup c q.1 fun r =>
      { r with age := if rdy then some (r.age.getD (max from_ r.nextClk)) else none,
               state := if r.cur.isNone && (r.state == .run || r.state == .wait) then
                   (match r.blk with
                     | some (.fetch _ _ _ _) => .wait
                     | _ => if rdy || (live && s.clk.toNat < r.nextClk) then .run else .wait)
                 else r.state,
               since := if r.state == .run && !rdy then s.clk.toNat else r.since }) s

/-- The header is taken by a group: the index of its semaphore binds, and its lanes' latches are zero at RESW 0, else those of their
spill (R27, R265, R326, R327). -/
def State.enterClause (s : State) (c : Nat) (x : Group) (h resw : Nat) (ps : List Nat) : State :=
  let s := if bitAt h 44 then s.semApply c x.place (fld h 38 6) false 0 else s
  eachLane ps (fun p s => s.modLane c p fun l =>
    { l with lat := if resw = 0 then Vector.replicate 16 0 else s.unspill c x.place p }) s

/-- The place of a group in a clause at its issue. -/
def State.clauseCursor (s : State) (c : Nat) (x : Group) (base h resw : Nat) (ws ps : List Nat) : Cursor :=
  let ctx := s.ctx (s.ctxOf c x)
  { base := base, ecl := headerClass h, words := ws, k := resw, issuing := ps, live := ps
    gx := if resw = 0 then Vector.replicate 16 0 else s.unspill c x.place (ps.headD x.gbase)
    step := if ctx.detm then (s.gridOf c x).elim ctx.step (·.step) else ctx.step }

/-- The issue of a clause by a group (R27, R139, R327). -/
def State.issueClause (s : State) (c g : Nat) (x : Group) (port : Nat) : State :=
  match s.issuing c x with
  | none => s
  | some (base, resw, ps) => match s.fetchClause (s.ctxOf c x) base with
    | .clause h ws =>
      let ecl := headerClass h
      let cost := (ws.length - resw) * wordClocks ecl x ps
      let now := s.clk.toNat
      let s0 := s
      let s := s.enterClause c x h resw ps
      let cu := s.clauseCursor c x base h resw ws ps
      -- a memory or sync clause waits until its requests fit, which stalls the port (R198)
      if (ecl = .memory ∨ ecl = .sync) ∧ s.clauseFits c g x cu = false then s0 else
      let s := s.modGroup c g fun r => { r with cur := some cu, blk := none, phase := 0, state := .run, age := none, passed := 0,
                                                passClk := none, nextClk := now + cost + 3 }
      let s := s.modCtx (s.ctxOf c x) fun k => { k with zissued := true }
      let s := s.modCore c fun k => { k with pipeTurn := if port < 4 then (now, port + 1) else k.pipeTurn,
                                             ptr := k.ptr.setIfInBounds port ((g + 1) % 512),
                                             portFree := k.portFree.setIfInBounds port (now + max 1 cost) }
      -- groups of an earlier age that were ready for a port of this class are passed over, once a clock (R140)
      let s := (s.core c).groups.foldl (fun s q =>
        match q.2.age, x.age with
        | some a, some a0 =>
          if q.1 != g && a < a0 && q.2.passClk != some now && (s.readyClass c q.2).any fun e => (portsOf e).contains port then
            s.modGroup c q.1 fun r => { r with passed := r.passed + 1, passClk := some now }
          else s
        | _, _ => s) s
      if resw < ws.length then { s with agenda := List.replicate (ws.length - resw) (.word c g) ++ s.agenda }
      else advance s c g
    | _ => s

/-- Header faults and fetch faults of the groups of a core (R25, R235): taken at the clause boundary on no port. -/
def State.headerFaults (s : State) (c : Nat) : State :=
  (s.core c).groups.foldl (fun s q =>
    let x := q.2
    if !s.atBoundary x || (s.dueTrap c x).isSome then s
    else match s.issuing c x with
      | none => s
      | some (base, resw, ps) =>
        let slot := s.ctxOf c x
        let trap (s : State) (code : Nat) (hs : List TrapLane) (lpc : Nat) : State :=
          -- a decode fault stands at the header with RESW 0; a fetch fault leaves the position unchanged
          let s := if code = tIllop then eachLane ps (fun p s => s.modLane c p fun l => { l with resw := 0 }) s else s
          let s := s.modGroup c q.1 fun r => { r with blk := none, state := .run }
          s.enterHandler c q.1 code hs lpc
        match s.fetchClause slot base with
        | .clause _ _ => s
        | .bad => trap s tIllop (ps.map fun p => { pos := p }) base
        | .fault va f =>
          let hs := ps.map fun p => ({ pos := p, detail := pageDetail f, info := va % 2 ^ 32 } : TrapLane)
          let _ := resw
          let (s, dr) := s.faultRecord slot c q.1 f va 2 va ps
          if f.replayable && !x.hmode then
            s.modGroup c q.1 fun r => { r with blk := some (.fetch va f.line false dr), state := .wait, since := s.clk.toNat }
          else trap s tPage hs va) s

/-- CLAUSE_ISSUE (R27, R138 to R140): the port chooses among the groups that are ready for it, and the group issues. -/
def execClauseIssue (c port : Nat) (s : State) : Host.Outcome State Fault Refusal :=
  let s := (s.headerFaults c).refresh c s.clk.toNat
  let k := s.core c
  -- an exposure stops the module (R384); the vector pipes choose in turn on a clock (R140)
  if 9 ≤ port || (port < 4 && k.pipeTurn.1 == s.clk.toNat && port < k.pipeTurn.2) || s.expo.stopped || s.clk.toNat < (k.portFree[port]?).getD 0 then .next s
  else
    let rs := k.groups.filter fun q => (s.readyClass c q.2).any fun e => (portsOf e).contains port
    match choose port ((k.ptr[port]?).getD 0) rs with
    | none => .next s
    | some (g, x) => .next (s.issueClause c g x port)

/-- FETCH_FAULT_REPLAY (R235, R236): the fetch of a waiting group is tried again; another fault writes a record only after
a write to the line, or when the earlier record was dropped. -/
def execFetchFaultReplay (c g : Nat) (s : State) : Host.Outcome State Fault Refusal :=
  match s.group? c g with
  | none => .next s
  | some x => match x.blk with
    | some (.fetch _ _ touched dropped) =>
      if !touched && s.clk.toNat < x.since + 65536 then .next s else
      match s.issuing c x with
      | none => .next s
      | some (base, _, ps) => match s.fetchClause (s.ctxOf c x) base with
        | .fault va f =>
          if f.replayable then
            let (s, dr) := if touched || dropped then s.faultRecord (s.ctxOf c x) c g f va 2 va ps else (s, false)
            .next (s.modGroup c g fun r => { r with blk := some (.fetch va f.line false dr), since := s.clk.toNat })
          else
            let (s, _) := s.faultRecord (s.ctxOf c x) c g f va 2 va ps
            let s := s.modGroup c g fun r => { r with blk := none, state := .run }
            .next (s.enterHandler c g tPage (ps.map fun p => { pos := p, detail := pageDetail f, info := va % 2 ^ 32 }) va)
        | _ => .next (s.modGroup c g fun r => { r with blk := none, state := .run })
    | _ => .next s

/-! ### Transfers (R144) -/

/-- The tests of CTEST (R144). -/
def ctest (t : CTest) (x : Nat) : Bool :=
  match t with
  | .nz => x % 2 ^ 32 != 0
  | .z => x % 2 ^ 32 == 0
  | .neg => decide (sext x 32 < 0)
  | .pos => decide (0 ≤ sext x 32)

/-- A condition in a lane. -/
def Env.cond (e : Env) (s : State) (c : BrCond) (p : Nat) : Bool :=
  match c with
  | .always => true
  | .test t x => ctest t (e.psrc s x p)

/-- BranchTarget (R37). -/
def Env.target (e : Env) (ofs : BitVec 32) : Nat := wrap ((e.cu.base : Int) + 8 * sext ofs.toNat 32) 64

/-- A target that is no code address (R144). -/
def badTarget (a : Nat) : Bool := a % 8 != 0 || fld a 50 14 != 0

/-- Transfers lanes to their targets; lanes with a bad target trap (R144). -/
def Env.transfers (e : Env) (ts : List (Nat × Nat)) (s : State) : Res :=
  let good := ts.filter fun t => !badTarget t.2
  let s := good.foldl (fun s t => e.transfer t.1 t.2 s) s
  let bad := ts.filter fun t => badTarget t.2
  if bad.isEmpty then .done s else .trap s (bad.map fun t => ({ pos := t.1 }, tIllop)) []

/-- `nop` (R144). -/
def execNop (p : Pfx) (s : State) : Host.Outcome State Fault Refusal := execWord (.nop p) (fun _ s => .done s) s

/-- `br` (R144): the condition is read once. -/
def execBr (p : Pfx) (c : BrCond) (ofs : BitVec 32) (s : State) : Host.Outcome State Fault Refusal :=
  execWord (.br p c ofs) (fun e s =>
    if e.cond s c e.low then e.transfers (e.lanes.map fun p => (p, e.target ofs)) s else .done s) s

/-- `brc` (R144). -/
def execBrc (p : Pfx) (c : BrCond) (ofs : BitVec 32) (s : State) : Host.Outcome State Fault Refusal :=
  execWord (.brc p c ofs) (fun e s =>
    e.transfers ((e.lanes.filter (e.cond s c)).map fun p => (p, e.target ofs)) s) s

/-- `jmp` (R144). -/
def execJmp (p : Pfx) (a : Operand) (s : State) : Host.Outcome State Fault Refusal :=
  execWord (.jmp p a) (fun e s => e.transfers (e.lanes.map fun p => (p, e.opnd s a e.low 64)) s) s

/-- `jmpv` (R144). -/
def execJmpv (p : Pfx) (a : Operand) (s : State) : Host.Outcome State Fault Refusal :=
  execWord (.jmpv p a) (fun e s => e.transfers (e.lanes.map fun p => (p, e.opnd s a p 64)) s) s

/-- `call` (R144): v62 and v63 receive FallThrough in the lanes that transfer. -/
def execCall (p : Pfx) (c : BrCond) (ofs : BitVec 32) (s : State) : Host.Outcome State Fault Refusal :=
  execWord (.call p c ofs) (fun e s =>
    let ps := e.lanes.filter (e.cond s c)
    let s := if badTarget (e.target ofs) then s else eachLane ps (fun p s => s.setV e.c p 62 2 e.fallThrough) s
    e.transfers (ps.map fun p => (p, e.target ofs)) s) s

/-- `ret` (R144). -/
def execRet (p : Pfx) (a : Operand) (s : State) : Host.Outcome State Fault Refusal :=
  execWord (.ret p a) (fun e s => e.transfers (e.lanes.map fun p => (p, e.opnd s a p 64)) s) s

/-- One lane exits (R145). -/
def State.exitLane (s : State) (c g : Nat) (x : Group) (p : Nat) : State :=
  let rln := (s.lane c p).rln
  let s := s.modLane c p fun l => { l with lpc := exitedLpc, resw := 0 }
  let s := if (s.lane c p).inHandler then s.leaveHandler c g p else s
  s.exitRecords c x.place rln

/-- `exit` (R145): when the last lane of the group exits, the group enters EXITING (R142). -/
def execExit (p : Pfx) (s : State) : Host.Outcome State Fault Refusal :=
  execWord (.exit p) (fun e s =>
    let s := eachLane e.lanes (fun p s => e.leave p (s.exitLane e.c e.g e.x p)) s
    if (s.liveLanes e.c e.x).isEmpty then
      .done (((s.modGroup e.c e.g fun r => { r with state := .exiting }).freeBanks e.c e.x).fuseRecheck e.c)
    else .done s) s

/-- GROUP_CONTEXT_FREE (R142): in EXITING, once every slot is zero and nothing of the group is outstanding, the context,
its scalar set and its lane positions are free. -/
def execGroupContextFree (c g : Nat) (s : State) : Host.Outcome State Fault Refusal :=
  match s.group? c g with
  | none => .next s
  | some x =>
    let k := s.core c
    if x.state = .exiting && x.sbClear && x.cur.isNone && !(k.pend.any fun p => p.2.ctx == g) && !(k.cmds.any fun m => m.2.ctx == g) then
      .next (s.modCore c fun k => { k with groups := tabDel k.groups g,
                                           lanes := k.lanes.filter fun l => !(x.gbase ≤ l.1 && l.1 < x.gbase + x.gwid) })
    else .next s

/-! ### Splitting (R147) -/

def sOk : Nat := 0
def sNoCtx : Nat := 1
def sWidth : Nat := 2
def sHandler : Nat := 3

/-- The bases of the children: the aligned ranges that hold a lane that has not exited. -/
def State.splitKids (s : State) (c : Nat) (x : Group) (w : Nat) : List Nat :=
  ((natRange 0 (x.gwid / w)).map fun i => x.gbase + i * w).filter fun b => (natRange b w).any fun p => !(s.lane c p).exited

/-- The contexts of a core that are FREE, lowest first. -/
def Core.freeCtx (k : Core) : List Nat := (natRange 0 512).filter fun i => (tabGet? k.groups i).isNone

/-- Divides a group into children (R147). -/
def State.split (s : State) (c g : Nat) (x : Group) (w d : Nat) (kids : List Nat) : State :=
  let scal := regSet x.scal d 0
  let ftvd := BitVec.ofNat 32 (s.ctx (s.ctxOf c x)).ftvd.toNat
  let child (b : Nat) : Group :=
    { x with gbase := b, gwid := w, scal := scal, ftv := ftvd, sb := Vector.replicate 8 0, passed := 0, passClk := none, age := none,
             cur := none, blk := none, phase := 0,
             state := if (s.ctx (s.ctxOf c x)).state = .halted then .halted else .run
             deferred := x.deferred.filterMap fun q =>
               let ps := q.lanes.filter fun p => b ≤ p && p < b + w
               if ps.isEmpty then none else some { q with lanes := ps } }
  let free := (s.core c).freeCtx
  match kids with
  | [] => s
  | b0 :: rest =>
    let s := s.modGroup c g fun r => { child b0 with cur := r.cur, nextClk := r.nextClk, state := .run }
    let s := (rest.zip free).foldl (fun s q => s.modCore c fun k => { k with groups := tabSet k.groups q.2 (child q.1) }) s
    let s := s.modTeam c x.place fun t => { t with banks := t.banks.map fun b =>
      if b.2.holder = x.gbase then (b.1, { b.2 with holder := b0 }) else b }
    -- positions outside the children hold only exited lanes and are free
    (s.fuseRecheck c).modCore c fun k => { k with lanes := k.lanes.filter fun l =>
      !(x.gbase ≤ l.1 && l.1 < x.gbase + x.gwid) || kids.any fun b => b ≤ l.1 && l.1 < b + w }

/-- `gsplit` (R147). -/
def execGsplit (p : Pfx) (d a : Operand) (s : State) : Host.Outcome State Fault Refusal :=
  execWord (.gsplit p d a) (fun e s =>
    let di := match d with | .s i => i.val | _ => 0
    let put (s : State) (st : Nat) : State := s.setS e.c e.g di 1 st
    if !e.x.sbClear then .wait s .instr
    else
      let code := e.opnd s a e.low 32
      let w := 8 * 2 ^ (if code ≤ 5 then code else 0)
      if e.x.hmode then .done (put s sHandler)
      else if 5 < code || e.x.gwid ≤ w then .done (put s sWidth)
      else
        let kids := s.splitKids e.c e.x w
        if (s.core e.c).freeCtx.length + 1 < kids.length then
          if (s.ctx (s.ctxOf e.c e.x)).detm then .wait s .gsplit else .done (put s sNoCtx)
        else .done (s.split e.c e.g e.x w di kids)) s

/-! ### Fusing (R148, R149) -/

/-- The destination of the `gfuse` a group stands at. -/
def Group.fuseDst (x : Group) : Nat :=
  match x.cur with
  | none => 0
  | some cu => match decodeNat (listGet 0 cu.words cu.k) 0 with
    | .ok (.gfuse _ (.s i) _) => i.val
    | _ => 0

/-- A group's state when a fusion has ended its `gfuse` (R142). -/
def State.afterFuse (s : State) (c : Nat) (x : Group) : GState :=
  if (s.ctx (s.ctxOf c x)).state = .halted ∧ x.cur = none then .halted else .run

/-- Fuses the group `u` (upper base) into `l` (R148); both stand at their `gfuse`. -/
def State.fuse (s : State) (c l u : Nat) (x y : Group) : State :=
  -- the issuing lanes of U advance to the fall-through of U's clause
  let s := advance s c u
  let s := s.setS c l x.fuseDst 1 fOk
  let s := advance s c l
  let s := s.modGroup c l fun r => { r with gwid := 2 * x.gwid, gst := x.gst ||| y.gst, deferred := r.deferred ++ y.deferred,
                                            state := s.afterFuse c r, blk := none, fuseFail := none }
  let s := s.modTeam c x.place fun t => { t with banks := t.banks.map fun b =>
    if b.2.holder = y.gbase then (b.1, { b.2 with holder := x.gbase }) else b }
  let s := s.modCore c fun k =>
    { k with groups := tabDel k.groups u,
             pend := k.pend.map fun p => if p.2.ctx = u then (p.1, { p.2 with ctx := l }) else p,
             cmds := k.cmds.map fun m => if m.2.ctx = u then (m.1, { m.2 with ctx := l }) else m }
  s.fuseRecheck c

/-- Ends a wait in `gfuse` with a status. -/
def State.endFuse (s : State) (c g : Nat) (x : Group) (st : Nat) : State :=
  advance ((s.setS c g x.fuseDst 1 st).modGroup c g fun r => { r with fuseFail := none }) c g

/-- The progress of a group that waits in `gfuse`: 1 + 2 × its limit, and 1 more once it has met its buddy. -/
def fuseWaits (limit : Nat) (met : Bool) : Nat := 1 + 2 * limit + b2n met

/-- The group has met its buddy. -/
def Group.fuseMet (x : Group) : Bool := x.inFuse && x.phase != 0 && x.phase % 2 == 0

/-- The clock at which the limit of a waiting group passes. -/
def Group.fuseEnd (x : Group) : Nat := x.since + (x.phase - 1) / 2 * 256

/-- The limit of a waiting group has passed on an earlier clock (R149). -/
def State.fuseLate (s : State) (c : Nat) (x : Group) : Bool :=
  x.inFuse && !x.fuseMet && !(s.ctx (s.ctxOf c x)).detm && decide (x.fuseEnd < s.clk.toNat)

/-- A logged load or atomic of the group is outstanding (R237). -/
def Core.loggedSlot (k : Core) (g : Nat) : Bool := k.pend.any fun p => p.2.ctx == g && p.2.slot.isSome && p.2.accs.any (·.st == 3)

/-- The group in `gfuse` meets its waiting buddy: both are fused once the upper partner's slots are zero and no logged load or
atomic of the lower is outstanding. -/
def Env.meet (e : Env) (s : State) (limit u : Nat) (y : Group) : Res :=
  let (lo, hi, gl, gu) := if e.x.gbase < y.gbase then (e.g, u, e.x, y) else (u, e.g, y, e.x)
  if gu.sbClear && !(s.core e.c).loggedSlot lo then .done (s.fuse e.c lo hi gl gu)
  else
    let s := s.modGroup e.c u fun r => { r with phase := fuseWaits ((r.phase - 1) / 2) true }
    .wait (s.modGroup e.c e.g fun r => { r with phase := fuseWaits limit true }) .gfuse

/-- `gfuse` (R148): a status that a change of the buddy gave comes first, then a limit that has passed, its own or that of the
buddy that waits, then the checks. -/
def execGfuse (p : Pfx) (d a : Operand) (s : State) : Host.Outcome State Fault Refusal :=
  execWord (.gfuse p d a) (fun e s =>
    let di := match d with | .s i => i.val | _ => 0
    let limit := e.opnd s a e.low 32
    let put (s : State) (st : Nat) : Res := .done ((s.setS e.c e.g di 1 st).modGroup e.c e.g fun r => { r with fuseFail := none })
    let wait (s : State) : Res :=
      let k := s.ctx (s.ctxOf e.c e.x)
      if !k.detm && (k.state = .stopping || limit = 0) then put s fTimeout
      else .wait (s.modGroup e.c e.g fun r => { r with phase := fuseWaits limit false }) .gfuse
    match e.x.fuseFail with
    | some st => put s st
    | none =>
      if s.fuseLate e.c e.x then put s fTimeout
      else match (s.core e.c).fuseCheck e.x with
        | .error st => put s st
        | .ok (u, y) =>
          if !y.inFuse then wait s
          else if s.fuseLate e.c y then wait (s.endFuse e.c u y fTimeout)
          else e.meet s limit u y) s

/-- GFUSE_LIMIT_EXPIRY (R148, R149): the limit of a waiting group passes before its buddy arrives. -/
def execGfuseLimitExpiry (c g : Nat) (s : State) : Host.Outcome State Fault Refusal :=
  match s.group? c g with
  | none => .next s
  | some x =>
    if x.inFuse && !x.fuseMet && !(s.ctx (s.ctxOf c x)).detm && x.fuseEnd ≤ s.clk.toNat then
      .next (s.endFuse c g x (x.fuseFail.getD fTimeout))
    else .next s

end Sys2Proof.Machine
end

