-- ==== Sys2Proof/Machine/System.lean ====
section
/-!
DEFINITION. Sys2Proof/Machine/System.lean: special registers (R94, R95, R132), `trap` and `tret` (R339, R340), and the
delivery of deferred traps (R330).
-/
namespace Sys2Proof.Machine

/-- The value of a special register in lane `p` (R94, R117). -/
def Env.sreg (e : Env) (s : State) (r : SReg) (p : Nat) : Nat :=
  let x := (s.group? e.c e.g).getD e.x
  let slot := s.ctxOf e.c e.x
  let k := s.ctx slot
  let t := s.teamOf e.c e.x
  let n := t.elim 0 (·.n)
  let gr := s.gridOf e.c e.x
  match r with
  | .gwid => x.gwid
  | .gbase => x.gbase
  | .laneix => p - x.gbase
  | .grpix => x.grpix
  | .teamixX => gr.elim 0 fun g => n % g.gx
  | .teamixY => gr.elim 0 fun g => n / g.gx % g.gy
  | .teamixZ => gr.elim 0 fun g => n / (g.gx * g.gy)
  | .cluix => gr.elim 0 fun g => n % g.cs
  | .gridix => t.elim 0 (·.grid)
  | .gst => x.gst.toNat
  | .ftv => x.ftv.toNat
  | .step => k.step.toNat
  | .clk => s.clk.toNat
  | .ctxid => slot
  | .coreno => e.c
  | .hbase => k.hbase.toNat
  | .hlim => k.hlim.toNat
  | .hofs => k.hofs.toNat
  | .ptroot => k.ptroot.toNat
  | .tqbase => k.tqbase.toNat
  | .svbase => k.svbase.toNat
  | .rkey => k.rkey.toNat
  | .bkey => k.bkey.toNat
  | .ctxcfg => k.ctxcfg.toNat
  | .lead => k.lead.toNat
  | .ftvd => k.ftvd.toNat
  | .zwt => k.zwt.toNat
  | .dln => k.dln.toNat

/-- `sget` (R95). -/
def execSget (p : Pfx) (dst : Option Operand) (r : SReg) (s : State) : Host.Outcome State Fault Refusal :=
  execWord (.sget p dst r) (fun e s => .done (e.lanesOut dst (sregWidth r) (e.sreg s r) s)) s

/-- `sput` (R95, R132): FTV takes 1 to 4 and else FTVD; GST takes bits [6:0]. -/
def execSput (p : Pfx) (r : SReg) (a : Operand) (s : State) : Host.Outcome State Fault Refusal :=
  execWord (.sput p r a) (fun e s =>
    let v := e.opnd s a e.low 32
    let ftvd := (s.ctx (s.ctxOf e.c e.x)).ftvd.toNat
    .done (s.modGroup e.c e.g fun g => match r with
      | .ftv => { g with ftv := BitVec.ofNat 32 (if 1 ≤ v ∧ v ≤ 4 then v else ftvd) }
      | .gst => { g with gst := BitVec.ofNat 32 (v % 128) }
      | _ => g)) s

/-- `trap` (R339). -/
def execTrap (p : Pfx) (n : BitVec 27) (s : State) : Host.Outcome State Fault Refusal :=
  execWord (.trap p n) (fun e s => .trap s (e.lanes.map fun q => ({ pos := q, info := n.toNat }, tTrap)) []) s

/-- `tret` (R340). -/
def execTret (p : Pfx) (keep : Bool) (x : Option (Fin 64)) (s : State) : Host.Outcome State Fault Refusal :=
  execWord (.tret p keep x) (fun e s =>
    let dest (q : Nat) : Nat × Nat :=
      match x with
      | none => ((s.lane e.c q).thdr.toNat, (s.lane e.c q).tw)
      | some i => (e.opnd s (.v i) q 64, 0)
    let ts := e.lanes.map fun q => (q, dest q)
    let s := (ts.filter fun t => !badTarget t.2.1).foldl (fun s t =>
      e.leave t.1 (s.returnLane e.c e.g t.1 t.2.1 t.2.2 keep)) s
    let bad := ts.filter fun t => badTarget t.2.1
    if bad.isEmpty then .done s else .trap s (bad.map fun t => ({ pos := t.1 }, tIllop)) []) s

/-- The lanes of deferred traps of one cause that are eligible now, each with the first of those traps that names it; and what
is left of the traps, for lanes that are held or that take an earlier one first (R330). -/
def State.takers (s : State) (c : Nat) : List Deferred → List Nat → List (Nat × Deferred) × List Deferred
  | [], _ => ([], [])
  | d :: t, seen =>
    let alive := d.lanes.filter fun p => !(s.lane c p).exited
    let now := alive.filter fun p => (s.lane c p).hk == .none && !seen.contains p
    let later := alive.filter fun p => !now.contains p
    let (ps, rest) := s.takers c t (seen ++ now)
    (now.map (fun p => (p, d)) ++ ps, if later.isEmpty then rest else { d with lanes := later } :: rest)

/-- The deferred traps `ds`, of one cause, are taken by the lanes that are eligible now (R330): they stand at their resume
points, with the latches that their words read, and enter the handler together. -/
def State.deliver (s : State) (c g : Nat) (x : Group) (ds : List Deferred) : State :=
  let (now, later) := s.takers c ds []
  let rest := x.deferred.filter fun d => !ds.contains d
  let s := s.modGroup c g fun r =>
    { r with deferred := later ++ rest, blk := none, state := if r.state = .wait then .run else r.state }
  let s := now.foldl (fun s q =>
    match q.2.resume with
    | none => s
    | some (hdr, k) =>
      let s := match q.2.lats.find? (·.1 == q.1) with
        | some (_, lat) => s.spill c x.place q.1 lat
        | none => s
      s.modLane c q.1 fun l => { l with lpc := BitVec.ofNat 64 hdr, resw := k }) s
  let code := (ds.head?).elim 0 (·.code)
  let lpc := match now with
    | [] => 0
    | q :: _ => codeAddr (s.lane c q.1).lpc.toNat (s.lane c q.1).resw
  s.enterHandler c g code (now.map fun q =>
    { pos := q.1, detail := q.2.detail, info := ((q.2.info.find? (·.1 == q.1)).elim 0 (·.2)) }) lpc

/-- DEFERRED_TRAP_DELIVERY (R330). -/
def execDeferredTrapDelivery (c g : Nat) (s : State) : Host.Outcome State Fault Refusal :=
  match s.group? c g with
  | none => .next s
  | some x =>
    let boundary := x.cur.isNone && (x.state == .run || x.state == .wait)
    let ds := s.dueTraps c x
    .next (if boundary && !ds.isEmpty then s.deliver c g x ds else s)

end Sys2Proof.Machine
end

