-- ==== Sys2Proof/Machine/Version.lean ====
section
/-!
DEFINITION. Sys2Proof/Machine/Version.lean: the versioned region (R239 to R251): `ldv`, `stv`, `vpub`, resolutions, pins
and publications; and the commits of deterministic operation (R394, R396).
-/
namespace Sys2Proof.Machine

/-! ### Issue -/

/-- The first and the last byte of a lane's access lie in different 8 MiB regions (R246). -/
def spansRegions (r : LaneReq) : Bool := match r.eas.getLast? with
  | some a => a % 2 ^ 50 / 2 ^ 23 != r.ea % 2 ^ 50 / 2 ^ 23
  | none => false

/-- The path and region checks of R246: the failing lanes, with T.PATH before T.ALIGN (R45). -/
def Env.versionFails (e : Env) (reqs : List LaneReq) (paths : Nat → Bool) (span : Bool) : List (TrapLane × Nat) :=
  let _ := e
  reqs.filterMap fun r =>
    if !paths (pathOf r.ea) || r.eas.any fun a => pathOf a != pathOf r.ea || fld a 50 10 != 0 then
      some (({ pos := r.pos, info := r.ea } : TrapLane), tPath)
    else if span && spansRegions r then some ({ pos := r.pos, info := r.ea }, tAlign)
    else none

/-- `ldv` and `ldv.nt` (R247): address without index; the index is the minimum step. -/
def Env.loadVersion (e : Env) (s : State) (o : MLoad) (nt : Bool) : Res :=
  let n := widthBytes o.w
  let reqs := e.lanes.map fun p =>
    let ea := e.vAddr s o.m p
    ({ pos := p, ea := ea, eas := eaRange ea n, y := e.opnd s o.m.index p 32 } : LaneReq)
  let bad := e.versionFails reqs genericPaths true
  if !bad.isEmpty then e.trapLanes s bad
  else e.issueMem s (.ldv o.w nt) (some o.sb) o.d reqs .vread genericPaths 0

/-- `ldv` (R247). -/
def execLdv (o : MLoad) (s : State) : Host.Outcome State Fault Refusal := execWord (.ldv o) (fun e s => e.loadVersion s o false) s
/-- `ldv.nt` (R247). -/
def execLdvNt (o : MLoad) (s : State) : Host.Outcome State Fault Refusal := execWord (.ldvNt o) (fun e s => e.loadVersion s o true) s

/-- `stv` (R249). -/
def execStv (o : MStore) (s : State) : Host.Outcome State Fault Refusal :=
  execWord (.stv o) (fun e s =>
    let n := widthBytes o.w
    let reqs := e.lanes.map fun p => e.req s o.m n p (e.opnd s o.d p (widthReg o.w) % 2 ^ (8 * n)) 0
    let bad := e.versionFails reqs (· == 0) true
    if !bad.isEmpty then e.trapLanes s bad
    else e.issueMem s (.stv n) none o.d reqs .vwrite (· == 0) 0) s

/-- The group's `vpub` at the word of its cursor whose requests have not been sent. -/
def Env.unsentVpub (e : Env) (s : State) : Option (Nat × Pend) :=
  (s.core e.c).pend.find? fun p => p.2.kind == .vpub && p.2.ctx == e.g && p.2.hdr == e.cu.base && p.2.k == e.cu.k && !p.2.sent

/-- The release of a `vpub` is performed: its slot is raised and its lanes' requests go to the region homes, translated as they
issue now (R233, R250). -/
def Env.sendVpub (e : Env) (s : State) (o : MRange) (id : Nat) (p : Pend) : State :=
  let s := s.modCore e.c fun k => { k with pend := tabSet k.pend id { p with sent := true, slot := some o.sb.val } }
  let s := s.sbIssue e.c e.g o.sb.val
  match s.teamOf e.c e.x with
  | none => s
  | some t => (p.accs.filter (·.st == 0)).foldl (fun s a =>
    match s.resolveKind e.c t.ctx t .vpub .vwrite [a.va] 0 with
    | .ok q => s.setAcc e.c id a { a with reg := q.reg, deps := q.deps }
    | .error (va, f) => s.frameFault e.c id p a t.ctx va f 1) s

/-- `vpub` (R250): the checks, release at module scope, the requests, and the wait for every lane's answer. An odd progress is
1 + 2 × the request that waits for its answers; an even one is twice that of the release. -/
def execVpub (o : MRange) (s : State) : Host.Outcome State Fault Refusal :=
  execWord (.vpub o) (fun e s =>
    let releasing (s : State) (id ph : Nat) (p : Pend) : Res :=
      match s.releaseRound e.c e.g e.x e.lanes 5 ph with
      | (s, some ph) => .wait (e.setPhase (2 * ph) s) .instr
      | (s, none) => .wait (e.setPhase (2 * id + 1) (e.sendVpub s o id p)) .instr
    if e.x.phase % 2 = 1 then
      let id := e.x.phase / 2
      match tabGet? (s.core e.c).pend id with
      | none => .done s
      | some p =>
        if p.accs.any fun a => a.st == 0 || a.st == 3 then .wait s .instr
        else
          let no := p.accs.filter (·.st == 2)
          let s := no.foldl (fun s a => s.finishAcc e.c id a) s
          if no.isEmpty then .done s else .trap s (no.map fun a => ({ pos := a.pos }, tVstamp)) []
    else match e.unsentVpub s with
      | some (id, p) => releasing s id (e.x.phase / 2) p
      | none =>
        let reqs := e.lanes.map fun p => e.req s o.m 1 p (e.opnd s o.d p 32) 0
        let bad := e.versionFails reqs (· == 0) false
        if !bad.isEmpty then e.trapLanes s bad
        else if 63 ≤ e.x.sbCount o.sb.val then .wait s .instr
        else match e.issueMem s .vpub none o.d reqs .vwrite (· == 0) 0 with
          | .done s => match e.unsentVpub s with
            | none => .done s
            -- the release waits for what the lanes did before this word
            | some (id, p) =>
              let p := { p with accs := p.accs.map fun a => { a with deps := [] } }
              releasing (s.modCore e.c fun k => { k with pend := tabSet k.pend id p }) id (4 * id + 1) p
          | r => r) s

/-! ### Resolution of reads (R245, R247, R248) -/

/-- The lanes of a request that wait at a region home. -/
def Pend.waiting (p : Pend) (r : Nat) : List Acc := p.accs.filter fun a => a.reg == some r && a.tgt.isNone && a.st == 0 && a.fs == 0

/-- The largest minimum step of lanes. -/
def minStep (as_ : List Acc) : Nat := as_.foldl (fun m a => max m a.y) 0

/-- The lanes of a region resolve to frame set `f`: it is pinned, and each lane's bytes are translated (R245). -/
def State.resolveLanes (s : State) (c id r f : Nat) (p : Pend) (x : Nat) (as_ : List Acc) : State :=
  let s := s.setPin r f ((s.vrec r).pin f + 1)
  let s := s.modCore c fun k => { k with pend := tabSet k.pend id { p with pins := p.pins ++ [(r, f)] } }
  as_.foldl (fun s a =>
    let vas := (eaRange a.va a.n).map (· % 2 ^ 50)
    let b := { a with fs := f + 1, regs := [r] }
    match s.frameBytes r f vas with
    | .ok pas => s.setAcc c id a { b with tgt := some (.home pas 1 []), deps := addDeps a.deps (s.frameDeps r f vas) }
    | .error (va, q) => (s.setAcc c id a b).frameFault c id p b x va q 0) s

/-- Notes the clock at which a region first refused a request (R248). -/
def State.noteRefused (s : State) (c id r : Nat) (p : Pend) : State :=
  if (tabGet? p.refused r).isSome then s
  else s.modCore c fun k => { k with pend := tabSet k.pend id { p with refused := tabSet p.refused r s.clk.toNat } }

/-- LDV_RESOLUTION (R245, R247, R248): the lanes of one region resolve together, or are refused. -/
def execLdvResolution (c id r : Nat) (s : State) : Host.Outcome State Fault Refusal :=
  match tabGet? (s.core c).pend id with
  | none => .next s
  | some p => match s.team? c p.place, p.kind with
    | some t, .ldv _ _ =>
      let as_ := p.waiting r
      if as_.isEmpty then .next s
      else if s.vrecBad r then
        .next (as_.foldl (fun s a => s.frameFault c id p a t.ctx (a.va % 2 ^ 50) ⟨pBadEntry, 0, r / 64⟩ 0) s)
      else
        let v := s.vrec r
        let m := minStep as_
        let f := v.choose (s.ctx t.ctx).detm m
        if v.pstamp < m then .next (s.noteRefused c id r p)
        else if 65535 ≤ v.pin f || !s.mayLog c t.ctx id then .next s
        else .next (s.resolveLanes c id r f p t.ctx as_)
    | _, _ => .next s

/-- STALE_LIMIT_EXPIRY (R248): ZWT × 512 clocks have passed since the first refusal. `ldv` lanes take T.STALE; `ldv.nt`
lanes read P as it stands. -/
def execStaleLimitExpiry (c id r : Nat) (s : State) : Host.Outcome State Fault Refusal :=
  match tabGet? (s.core c).pend id with
  | none => .next s
  | some p => match s.team? c p.place, p.kind, tabGet? p.refused r with
    | some t, .ldv _ nt, some t0 =>
      let k := s.ctx t.ctx
      let as_ := p.waiting r
      let v := s.vrec r
      if as_.isEmpty || k.detm || k.zwt = 0 || s.clk.toNat < t0 + k.zwt.toNat * 512 || minStep as_ ≤ v.pstamp then .next s
      else if nt then
        if 65535 ≤ v.pin v.pix || !s.mayLog c t.ctx id then .next s
        else .next ((s.orGst c p.ctx gstStale).resolveLanes c id r v.pix p t.ctx as_)
      else
        let s := s.defer c p.ctx { code := tStale, lanes := as_.map (·.pos), resume := some (p.hdr, p.k), detail := 0,
                                   info := as_.map fun a => (a.pos, a.va % 2 ^ 32), inHandler := p.hm,
                                   lats := p.lats.filter fun l => as_.any (·.pos == l.1) }
        .next (as_.foldl (fun s a => s.finishLane c id a.pos) s)
    | _, _, _ => .next s

/-- PIN_RELEASE (R242, R245): the last bytes that a request reads through its pin on a region are read. -/
def execPinRelease (c id r : Nat) (s : State) : Host.Outcome State Fault Refusal :=
  match tabGet? (s.core c).pend id with
  | none => .next s
  | some p =>
    match p.pins.find? (·.1 == r) with
    | none => .next s
    | some (_, f) =>
      let busy := p.accs.any fun a => !a.performed && a.regs.contains r
      if busy then .next s
      else
        let p := { p with pins := listDelFirst (· == (r, f)) p.pins }
        let s := s.unpin r f
        if p.accs.isEmpty && p.pins.isEmpty then
          let s := s.modCore c fun k => { k with pend := tabDel k.pend id }
          .next (match p.slot with
            | some b => s.sbDone c p.ctx b
            | none => s)
        else .next (s.modCore c fun k => { k with pend := tabSet k.pend id p })

/-! ### Writes (R243) -/

/-- A region home holds the arriving `stv`: W is DRAINING, or an accepted publication waits (R242, R243). -/
def State.stvHeld (s : State) (r : Nat) : Bool := (s.vrec r).drn || s.pubs.any (·.record == r)

/-- An earlier `stv` of the lane, or a lower lane of the same one, that shares a byte is still to be resolved: writes of a lane to
one byte take their places in order (R202, R249). -/
def State.stvBehind (s : State) (c id : Nat) (p : Pend) (a : Acc) : Bool :=
  let open_ (b : Acc) : Bool := b.tgt.isNone && (b.st == 0 || b.st == 3) && decide (a.va < b.va + b.n ∧ b.va < a.va + a.n)
  ((s.core c).pend.any fun q => q.1 < id && (match q.2.kind with | .stv _ => true | _ => false) &&
    q.2.accs.any fun b => b.pos == a.pos && open_ b) || (p.accs.takeWhile (· != a)).any open_

/-- STV_RESOLUTION (R243): the lowest unresolved lane of an `stv` that may resolves into W; in a DETM context it is staged
(R393). -/
def execStvResolution (c id : Nat) (s : State) : Host.Outcome State Fault Refusal :=
  match tabGet? (s.core c).pend id with
  | none => .next s
  | some p => match s.team? c p.place, p.kind, p.accs.find? fun a => a.st == 0 && a.tgt.isNone && !s.stvBehind c id p a with
    | some t, .stv _, some a =>
      match a.reg with
      | none => .next s
      | some r =>
        if (s.ctx t.ctx).detm then .next (s.startAcc c id a.pos)
        else if s.vrecBad r then .next (s.frameFault c id p a t.ctx (a.va % 2 ^ 50) ⟨pBadEntry, 0, r / 64⟩ 1)
        else if s.stvHeld r then .next s
        else
          let v := s.vrec r
          let vas := (eaRange a.va a.n).map (· % 2 ^ 50)
          match s.frameBytes r v.wix vas with
          | .error (va, q) => .next (if q.replayable && !s.mayLog c t.ctx id then s else s.frameFault c id p a t.ctx va q 1)
          | .ok pas =>
            let b := { a with st := 1, tgt := some (.home pas 1 []), deps := addDeps a.deps (s.frameDeps r v.wix vas) }
            .next ((s.homePutRaw (r + 0x24) 4 (v.wpend + 1)).setAcc c id a b)
    | _, _, _ => .next s

/-- A write of an `n`-byte value by software at its home; the link registers take it as one access (R347). -/
def State.softStore (s : State) (pas : List Nat) (ws : List (Nat × Byte)) (bad : List Nat) : State :=
  if pas.any inLinkRegs then s.linkStore (pas.headD 0 - 0x1000) pas.length (ofLe (ws.map (·.2))) else s.homeWrite ws bad

/-- STV_WRITE_COMPLETION (R243): the lowest resolved lane's bytes are written at their home. -/
def execStvWriteCompletion (c id : Nat) (s : State) : Host.Outcome State Fault Refusal :=
  match tabGet? (s.core c).pend id with
  | none => .next s
  | some p => match p.kind, p.accs.find? (·.st == 1) with
    | .stv n, some a =>
      match a.tgt, a.reg with
      | some t, some r =>
        let pas := t.pas
        if s.earlierOverlap c a.pos t id || !s.canWrite (linesOf pas) (some (c, id)) then .next s
        else
          let s := (linesOf pas).foldl (fun s l => (s.dropLine c l).sigAdd c l) s
          let s := s.softStore pas (pas.zip (leBytes n a.x)) []
          .next ((s.homePutRaw (r + 0x24) 4 ((s.vrec r).wpend - 1)).finishAcc c id a)
      | _, _ => .next s
    | _, _ => .next s

/-! ### Publications (R244, R250) -/

/-- Every team of a grid with a lower index has closed the epoch and performed what it has staged (R394). -/
def State.detTurn (s : State) (grid n : Nat) : Bool :=
  match s.grid? grid with
  | none => true
  | some g => (natRange 0 n).all (fun m => g.closed.contains m || g.gone.contains m) &&
      !s.transit.any fun t => t.grid == grid && t.n < n

/-- PUBLICATION_ACCEPTANCE (R244, R250): the lowest undecided lane of a `vpub` reaches its region home. -/
def execPublicationAcceptance (c id : Nat) (s : State) : Host.Outcome State Fault Refusal :=
  match tabGet? (s.core c).pend id with
  | none => .next s
  | some p => match s.team? c p.place, p.kind, p.accs.find? (·.st == 0) with
    | some t, .vpub, some a =>
      match a.reg with
      | none => .next s
      | some r =>
        if !p.sent || ((s.ctx t.ctx).detm && !s.detTurn t.grid t.n) then .next s
        else
          let v := s.vrec r
          let ok := v.lstamp < a.x
          let p := { p with accs := p.accs.map fun b => if b.pos = a.pos then { b with st := if ok then 1 else 2 } else b }
          let s := s.modCore c fun k => { k with pend := tabSet k.pend id p }
          if ok then
            let s := s.homePutRaw (r + 0x30) 4 a.x
            .next { s with pubs := s.pubs ++ [{ record := r, stamp := a.x, core := c, pend := id, pos := a.pos, source := 0 }] }
          else .next s
    | _, _, _ => .next s

/-! ### Commits (R394, R396) -/

/-- The order of due accesses within a team: commit, then RLN, then issue. -/
def Staged.before (a b : Staged) : Bool :=
  let k (t : Staged) : Nat := ((t.due.getD 0) * 2 ^ 16 + t.rln) * 2 ^ 40 + t.seq
  decide (k a < k b)

/-- The first due access of a team. -/
def State.firstDue (s : State) (grid n : Nat) : Option Staged :=
  match s.transit.filter fun t => t.grid == grid && t.n == n && t.due.isSome with
  | [] => none
  | t0 :: ts => some (ts.foldl (fun a b => if b.before a then b else a) t0)

/-- A write of a commit meets readers of other teams (R396, case (c)). -/
def State.commitRace (s : State) (t : Staged) (lines : List Nat) : Option (Nat × Nat) :=
  lines.findSome? fun l => (tabGet? s.conflicts (conflictKey t.grid l)).bind fun f => (spanOther f.reader t.n).map fun m => (l, m)

/-- The frame of a staged `stv` faults when it is to be performed: a replayable fault is recorded once and awaits the frame, a
fatal one traps in its lane and ends the access (R236, R240). -/
def State.commitFault (s : State) (x : Nat) (t : Staged) (va : Nat) (f : PFault) : State :=
  if f.replayable ∧ t.acc.st = 1 then s
  else
    let (s, _) := s.faultRecord x t.core t.ctx f va 1 0 [t.acc.pos]
    let rest := listDelFirst (· == t) s.transit
    if f.replayable then
      { s with transit := s.transit.map fun q => if q = t then { t with acc := { t.acc with st := 1 } } else q }
    else
      let d : Deferred := { code := tPage, lanes := [t.acc.pos], resume := none, detail := pageDetail f,
                            info := [(t.acc.pos, va % 2 ^ 32)], inHandler := false, lats := [] }
      ({ s with transit := rest }).defer t.core t.ctx d

/-- Performs one due access at its home; none while it must wait. -/
def State.commitOne (s : State) (t : Staged) : Option State :=
  let drop (s : State) : State := { s with transit := listDelFirst (· == t) s.transit }
  let x := (s.grid? t.grid).elim 0 (·.ctx)
  let race (s : State) (pas : List Nat) (k : State → State) : State :=
    match s.commitRace t (linesOf pas) with
    | some (l, m) => s.detRace t.core t.ctx x l 0 (min t.n m + 2 ^ 32 * max t.n m) t.grid
    | none => k s
  -- the request and the access of an `atom` or `cas` that waits
  let waiter (s : State) : Option (Nat × Pend × Acc) :=
    t.pend.bind fun id => (tabGet? (s.core t.core).pend id).bind fun p => (p.accs.find? (·.pos == t.acc.pos)).map fun a => (id, p, a)
  let own (s : State) (pas : List Nat) : State := if t.acc.own.isSome then s.noteOwn t.core pas else s
  let back (s : State) (old : Nat) (po : Bool) : State :=
    match waiter s with
    | some (id, p, a) => s.returnAtom t.core id p a old po regsAll
    | none => s
  match t.kind, s.landing t.acc with
  | .stv n, _ =>
    match t.acc.reg with
    | none => some (drop s)
    | some r =>
      if s.stvHeld r then none
      else match s.frameBytes r (s.vrec r).wix ((eaRange t.acc.va n).map (· % 2 ^ 50)) with
        | .error (va, f) => some (s.commitFault x t va f)
        | .ok pas =>
          if !s.canWrite (linesOf pas) none (some t.grid) then none
          else some (race (drop s) pas fun s => s.softStore pas (pas.zip (leBytes n t.acc.x)) [])
  | k, some (.peer m o) =>
    match peerOp k t.acc.n t.acc.x t.acc.y with
    | none => some (drop s)
    | some op =>
      -- an `atom` or `cas` now waits for the member's answer
      some (match waiter (drop s) with
        | some (id, p, a) =>
          let s := (drop s).modCore t.core fun q => { q with pend := tabSet q.pend id { p with sent := true } }
          s.sendPeer t.core id a m o op
        | none =>
          let s := (drop s).modCore t.core fun q => { q with peersWritten := insSorted m q.peersWritten }
          if (s.link.flowPort m o).isSome then { s with link := { s.link with peerReqs := (m, o, op) :: s.link.peerReqs } } else s)
  | k, some tgt =>
    let pas := tgt.pas
    let lines := linesOf pas
    let self := t.pend.map fun id => (t.core, id)
    if !s.canWrite lines self (some t.grid) then none
    else
      let old := ofLe (s.softBytes pas)
      let po := s.homePoisoned pas
      let ws := t.writes s.softByte pas
      let bad := (t.bytes.zip pas).filterMap fun q => if t.bad.contains q.1.1 then some q.2 else none
      let s := lines.foldl (fun s l => s.dropLine t.core l) (drop s)
      match k with
      | .atom _ _ _ | .cas _ _ | .red _ _ _ =>
        if pas.any inLinkRegs then some (back s 0 false)
        else if po then some (back s 0 true)
        else if ws.isEmpty then some (back s old false)
        else some (race s pas fun s => back (own ((s.homeWrite ws []).markLost pas) pas) old false)
      | _ => some (race s pas fun s => own (s.softStore pas ws bad) pas)
  -- a request to the own window that lies outside it now is discarded (R347)
  | _, none => some (back ((drop s).dropOwn t.acc) 0 true)

/-- DETM_COMMIT (R394): the transit units perform the next due access of a team, once its turn has come. -/
def execDetmCommit (grid n : Nat) (s : State) : Host.Outcome State Fault Refusal :=
  if !s.detTurn grid n then .next s
  else match s.firstDue grid n with
    | none => .next s
    | some t =>
      -- an `atom` or `cas` of a saved team is performed once its restore has taken the request back (R393, R401)
      if t.pend.any fun id => (tabGet? (s.core t.core).pend id).isNone then .next s else .next ((s.commitOne t).getD s)

end Sys2Proof.Machine
end

