-- ==== Sys2Proof/Machine/Command.lean ====
section
/-!
DEFINITION. Sys2Proof/Machine/Command.lean: what the T commands share (R38): issue, the wait before start, the increase
and the status at completion, and the element accesses of the engines (R278, R279, R284).
-/
namespace Sys2Proof.Machine

/-- The T word of an instruction. -/
def twOf (i : Instr) : TW := ((tForm i).map (·.1)).getD default

/-- The slot of a T word is full (R41). -/
def Env.slotFull (e : Env) (sb : Fin 8) : Bool := 63 ≤ e.x.sbCount sb.val

/-- A T command is issued: its block of `n` scalars and its threshold are read, its slot is raised (R38). -/
def Env.newCmd (e : Env) (s : State) (n : Nat) (order : Option Nat) (aux : List Nat) : Nat × State :=
  let t := twOf e.i
  let (id, s) := s.fresh e.c
  let cmd : Cmd := {
    i := e.i, ctx := e.g, owner := e.low, place := e.x.place, lpc := e.lpc, hm := e.x.hmode,
    thr := t.wait.elim 0 fun w => regGet e.x.scal w.thr.val,
    block := (natRange t.pbase.val n).map fun k => (regGet e.x.scal k).toNat,
    state := .waiting, prog := 0, prog2 := 0, shape := [], aux := aux, status := 0, gst := 0, order := order, lanes := e.lanes,
    poisoned := false, faultLine := 0, touched := false, seq := id }
  (id, (s.modCore e.c fun q => { q with cmds := tabSet q.cmds id cmd }).sbIssue e.c e.g t.sb.val)

/-- The command's wait on WIX holds (R27, R38). -/
def State.wenHolds (s : State) (c : Nat) (m : Cmd) : Bool :=
  match (twOf m.i).wait with
  | none => true
  | some w => s.canBind c m.place w.ix.val && (s.team? c m.place).any fun t => semHolds (t.semCount w.ix.val) m.thr

/-- Binds the index a command waits on. -/
def State.wenBind (s : State) (c : Nat) (m : Cmd) : State :=
  match (twOf m.i).wait with
  | none => s
  | some w => if s.canBind c m.place w.ix.val then s.semApply c m.place w.ix.val false 0 else s

def State.cmd? (s : State) (c id : Nat) : Option Cmd := tabGet? (s.core c).cmds id
def State.modCmd (s : State) (c id : Nat) (f : Cmd → Cmd) : State :=
  match s.cmd? c id with
  | none => s
  | some m => s.modCore c fun q => { q with cmds := tabSet q.cmds id (f m) }

/-- A command still starts and goes on: its context is not HALTED and its group is not saved (R281, R306, R307, R322). -/
def State.cmdAlive (s : State) (c : Nat) (m : Cmd) : Bool :=
  ((s.team? c m.place).any fun t => (s.ctx t.ctx).state != .halted) && !(s.group? c m.ctx).any (·.state == .saved)

/-- The increase of a command can be applied: its index is bound or can be. -/
def State.canInc (s : State) (c : Nat) (m : Cmd) : Bool :=
  match (twOf m.i).inc with
  | none => true
  | some i => s.canBind c m.place i.ix.val

/-- Completion of a command: the increase, the scalars written, the flags, the end of its slot (R38). -/
def State.cmdFinish (s : State) (c id : Nat) (m : Cmd) (out : List (Nat × Nat)) : State :=
  let t := twOf m.i
  let s := match t.inc with
    | none => s
    | some i => s.semApply c m.place i.ix.val false (i.amt.val + 1)
  let s := out.foldl (fun s o => s.setS c m.ctx (t.pbase.val + o.1) 1 o.2) s
  let s := s.orGst c m.ctx m.gst
  (s.modCore c fun q => { q with cmds := tabDel q.cmds id }).sbDone c m.ctx t.sb.val

/-- A 64-bit value of a block. -/
def blk64 (b : List Nat) (i : Nat) : Nat := listGet 0 b i + 2 ^ 32 * listGet 0 b (i + 1)
/-- A word of a block. -/
def blk32 (b : List Nat) (i : Nat) : Nat := listGet 0 b i

/-! ### Element accesses of the owner lane -/

/-- What an element access comes to: performed, with its bytes and the places of those that are poisoned, to be tried again,
malformed, or a fault at an address. -/
inductive Elem where
  | ok (s : State) (bs : List Byte) (bad : List Nat)
  | again (s : State)
  | path
  | fault (va : Nat) (f : PFault)

/-- Whether every byte of an element is well formed (R92). -/
def State.elemPath (s : State) (c : Nat) (m : Cmd) (ea n : Nat) (store : Bool) : Bool :=
  match s.team? c m.place with
  | none => false
  | some t => (eaRange ea n).all fun a => s.pathOk c t.ctx t a store && pathOf a == pathOf ea

/-- The accesses that the owner lane issued before the command, logged ones too, are performed: those of the engine follow them
(R284, R295; log entry 62). -/
def State.ownerClear (s : State) (c : Nat) (m : Cmd) : Bool := s.lanesDone c [m.owner] m.seq fun _ _ => false

/-- Sends a command's request to a pod member (R346). -/
def State.peerElem (s : State) (c id : Nat) (m : Cmd) (mem ofs n : Nat) (op : PeerOp) (read : Bool) : State :=
  let (pid, s) := s.fresh c
  let a : Acc := { pos := m.owner, va := 0, n := n, tgt := some (.peer mem ofs), x := 0, y := 0, reg := none, fs := 0, st := 0 }
  let p : Pend := {
    ctx := m.ctx, place := m.place, slot := none, kind := .engine id read, dst := .lit 0, lanes := [m.owner], accs := [a],
    hdr := 0, k := 0, hm := m.hm, lats := [], pins := [], refused := [], sent := false,
    slotCtx := (s.team? c m.place).elim 0 (·.ctx) }
  (s.modCore c fun k => { k with pend := tabSet k.pend pid p }).sendPeer c pid a mem ofs op

/-- A command's requests to members are still outstanding. -/
def Core.engineBusy (k : Core) (id : Nat) (read : Bool) : Bool := k.pend.any fun p => p.2.kind == .engine id read

/-- The places of the bytes that satisfy a test. -/
def placesOf (bad : Nat → Bool) (as_ : List Nat) : List Nat := (natRange 0 as_.length).filter fun i => bad (listGet 0 as_ i)

/-- An element read (R278, R284): performed at the home, after the owner's earlier accesses. -/
def State.elemRead (s : State) (c id : Nat) (m : Cmd) (ea n : Nat) : Elem :=
  match s.team? c m.place with
  | none => .path
  | some t =>
    if !s.elemPath c m ea n false then .path
    else if !s.ownerClear c m then .again s
    else match s.resolve c t.ctx t .read (eaRange ea n) with
      | .error (va, f) => .fault va f
      | .ok (.peer mem ofs) =>
        if m.aux != [] then
          .ok (s.modCmd c id fun m => { m with aux := [] }) (m.aux.map (BitVec.ofNat 8)) (placesOf (256 ≤ ·) m.aux)
        else if (s.core c).engineBusy id true then .again s
        else .again (s.peerElem c id m mem ofs n (.read n) true)
      | .ok (.scr k as_) => .ok s (s.scrRead k as_).1 (placesOf (s.core k).scratchPoison.contains as_)
      | .ok (.home pas _ _) =>
        let det := (s.ctx t.ctx).detm
        let (s, race) := if det then
            s.takeRoles c m.ctx t.ctx t.grid t.n (linesOf pas) (if pathOf ea = 3 then .roReader else .reader)
          else (s, false)
        if race then .again s
        else match s.readHome c pas with
          | (s, some (bs, _)) =>
            if det then .ok s (s.detBytes t.grid t.n pas) (placesOf (fun a => s.detPoisoned t.grid t.n [a]) pas)
            else .ok s bs (placesOf s.poison.contains pas)
          | (s, none) => .again s
      | .ok (.range _) => .again s

/-- An element write (R278, R284): performed at the home, where it invalidates the core's own L1 line; the bytes at the places
`bad` carry poison (R279). -/
def State.elemWrite (s : State) (c id : Nat) (m : Cmd) (ea : Nat) (bs : List Byte) (bad : List Nat) : Elem :=
  match s.team? c m.place with
  | none => .path
  | some t =>
    let det := (s.ctx t.ctx).detm
    let staged (tgt : Target) : Staged := {
      grid := t.grid, n := t.n, core := c, ctx := m.ctx, pend := none, rln := (s.lane c m.owner).rln, kind := .store bs.length,
      acc := { pos := m.owner, va := ea, n := bs.length, tgt := some tgt, x := ofLe bs, y := 0, reg := none, fs := 0, st := 0,
               own := s.ownWindow ea },
      bytes := tgt.pas.zip bs, due := none, epoch := (s.grid? t.grid).elim 0 (·.epoch), seq := 0, bad := pick bad tgt.pas }
    if !s.elemPath c m ea bs.length true then .path
    else if !s.ownerClear c m then .again s
    else match s.resolve c t.ctx t .write (eaRange ea bs.length) with
      | .error (va, f) => .fault va f
      | .ok (.peer mem ofs) =>
        if det then .ok (s.stage (staged (.peer mem ofs))) bs bad
        -- the engine holds at most 256 issued elements of a command that are not yet performed (R278)
        else if 256 ≤ ((s.core c).pend.filter fun p => p.2.kind == .engine id false).length then .again s
        else .ok (s.peerElem c id m mem ofs bs.length (.write bs bad) false) bs bad
      | .ok (.scr k as_) => .ok (s.scrWrite k (as_.zip bs) (pick bad as_)) bs bad
      | .ok (.home pas attr deps) =>
        if det then
          let (s, race) := s.takeRoles c m.ctx t.ctx t.grid t.n (linesOf pas) .writer
          .ok (if race then s else s.stage (staged (.home pas attr deps))) bs bad
        else
          let (s, ok) := s.toHome c (linesOf pas)
          if !ok || !s.canWrite (linesOf pas) none then .again s
          else
            let s := (linesOf pas).foldl (fun s l => (s.dropLine c l).sigAdd c l) s
            let s := s.softStore pas (pas.zip bs) (pick bad pas)
            .ok (if (s.ownWindow ea).isSome then s.noteOwn c pas else s) bs bad
      | .ok (.range _) => .again s

/-- The record of a fault that a command meets (R234): LPC its word, LANES its owner; and whether it was dropped. -/
def State.cmdFault (s : State) (c : Nat) (m : Cmd) (f : PFault) (va acc : Nat) : State × Bool :=
  s.faultRecord ((s.team? c m.place).elim 0 (·.ctx)) c m.ctx f va acc m.lpc [m.owner]

/-- A command stalls at a replayable fault (R279, R305): a record is written when it first meets it, and at a retry if the line
of the faulting entry was written since or the earlier record was dropped (R236, R336). -/
def State.cmdStall (s : State) (c id : Nat) (m : Cmd) (f : PFault) (va acc : Nat) : State :=
  let (s, dropped) := if m.state != .stalled || m.touched || m.dropped then s.cmdFault c m f va acc else (s, false)
  s.modCmd c id fun m => { m with
    state := .stalled, faultLine := f.line, touched := false, faultVa := va, dropped := dropped, faultClk := s.clk.toNat }

/-- A stalled command tries its element again: the line of the faulting entry was written, or 65,536 clocks have passed (R236). -/
def State.retryDue (s : State) (m : Cmd) : Bool := m.state == .stalled && (m.touched || m.faultClk + 65536 ≤ s.clk.toNat)

/-- A command goes on after an element. -/
def Cmd.goOn (m : Cmd) (st : CmdState) : Cmd :=
  { m with state := st, faultLine := 0, touched := false, faultVa := 0, dropped := false }

/-- A deferred T.POISON of an engine command's owner, with its record (R329). -/
def State.cmdPoison (s : State) (c : Nat) (m : Cmd) (va : Nat) : State :=
  let (s, _) := s.writeRecord ((s.team? c m.place).elim 0 (·.ctx))
    (s.groupRec c m.ctx { kind := 7, code := tPoison, va := va, lpc := m.lpc } [m.owner])
  s.defer c m.ctx { code := tPoison, lanes := [m.owner], resume := none, detail := 0, info := [(m.owner, va % 2 ^ 32)],
                    inHandler := m.hm, lats := [] }

end Sys2Proof.Machine
end

