-- ==== Sys2Proof/Machine/Kernel.lean ====
section
/-!
DEFINITION. Sys2Proof/Machine/Kernel.lean: kernels, launches, the work distributor, the admission and the exit of teams,
and the completion of grids (R113 to R124, R128, R253, R395).
-/
namespace Sys2Proof.Machine

/-! ### Images and records (R113, R115) -/

/-- A 32-bit field of bytes. -/
def le32 (b : List Byte) (o : Nat) : Nat := ofLe ((b.drop o).take 4)
/-- A 64-bit field of bytes. -/
def le64 (b : List Byte) (o : Nat) : Nat := ofLe ((b.drop o).take 8)

/-- A kernel header breaks R113. -/
def headerBreaks (h : List Byte) : Bool :=
  let w := le32 h 0x10
  let groups := fld w 0 7
  let code := fld w 8 3
  let roles := le64 h 0x20 + 2 ^ 64 * le64 h 0x28
  le32 h 0 != 1 || le32 h 4 != 0 || le64 h 8 % 8 != 0 || 2 ^ 50 ≤ le64 h 8 || fld w 23 9 != 0 || fld w 11 5 != 0 || bitAt w 7 ||
    fld w 16 7 = 0 || 64 < fld w 16 7 || 5 < code || groups = 0 || 64 < groups || 8192 < groups * (8 * 2 ^ code) ||
    le32 h 0x14 % 256 != 0 || 0x400000 < le32 h 0x14 || le64 h 0x18 != 0 || le64 h 0x30 != 0 || le64 h 0x38 != 0 ||
    (natRange 0 64).any fun g => if g < groups then fld roles (2 * g) 2 == 3 else fld roles (2 * g) 2 != 0

/-- A launch record breaks R115. -/
def recordBreaks (r : List Byte) : Bool :=
  let gx := le32 r 8
  let gy := le32 r 0xC
  let gz := le32 r 0x10
  let w := le32 r 0x14
  let cw := fld w 0 3
  let ch := fld w 4 3
  let n := gx * gy * gz
  gx = 0 || gy = 0 || gz = 0 || fld w 8 24 != 0 || bitAt w 3 || ch = 0 || 4 < ch || cw = 0 || 6 < cw || le64 r 0x20 % 8 != 0 ||
    le64 r 0x28 != 0 || le64 r 0x30 != 0 || le64 r 0x38 != 0 || 2 ^ 32 < n || 12 < cw * ch || n % (max 1 (cw * ch)) != 0

/-- The grid that a well-formed record and header describe. -/
def newGrid (x : Nat) (r h : List Byte) (prio : Nat) (node : Option (Nat × Nat × Nat)) (step : Word) : Grid :=
  let w := le32 h 0x10
  { ctx := x, kimg := BitVec.ofNat 64 (le64 r 0), entry := BitVec.ofNat 64 (le64 h 8), vregs := fld w 16 7, wcode := fld w 8 3,
    groups := fld w 0 7, scratch := le32 h 0x14, roles := le64 h 0x20 + 2 ^ 64 * le64 h 0x28, gx := le32 r 8, gy := le32 r 0xC,
    gz := le32 r 0x10, cw := fld (le32 r 0x14) 0 3, ch := fld (le32 r 0x14) 4 3, gbar := bitAt (le32 r 0x14) 7,
    args := BitVec.ofNat 64 (le64 r 0x18), compl := BitVec.ofNat 64 (le64 r 0x20), prio := prio, lo := 0, gone := [],
    placed := !bitAt (le32 r 0x14) 7, node := node, rec_ := none, crecs := [], epoch := 0, closed := [], step := step,
    cfLine := none, cfTouched := false, cfDropped := false }

/-- The launch width of a grid's groups. -/
def Grid.width (g : Grid) : Nat := 8 * 2 ^ g.wcode

/-- The most teams of a grid that an empty core admits (R121). -/
def Grid.perCore (g : Grid) : Nat :=
  let c := min 16 (min (32768 / max 1 (g.groups * g.width)) (512 / max 1 g.groups))
  if g.scratch = 0 then c else min c (0x400000 / g.scratch)

/-- The co-resident capacity of R121. -/
def Grid.capacity (g : Grid) : Nat :=
  if g.cs = 1 then 576 * g.perCore else 24 * (6 / max 1 g.cw) * (4 / max 1 g.ch) * g.cs * g.perCore

/-! ### The launch (R116) -/

def lOk : Nat := 0
def lCtx : Nat := 1
def lXlate : Nat := 2
def lRecord : Nat := 3
def lShape : Nat := 4
def lDetm : Nat := 5
def lBusy : Nat := 6

/-- A physical LREC that no launch reads (R116). -/
def lrecBad (pa : Nat) : Bool := noBack pa || inFirmware pa || inLinkRegs pa || inLinkRegs (pa + 63)

/-- The 64 bytes of a launch record: at a virtual address for `launch`, at a physical one for a KERNEL node. -/
def State.readRecord (s : State) (x addr : Nat) (phys : Bool) : Except Nat (List Byte) :=
  if phys then
    if lrecBad addr then .error lRecord else .ok (s.homeBytes (natRange addr 64))
  else if addr % 64 ≠ 0 then .error lRecord
  else if !flatOk addr true then .error lXlate
  else match s.devRead x addr 64 with
    | .ok b => .ok b
    | .error _ => .error lXlate

/-- The module distributor decides a launch (R90, R116): its status and, when accepted, the new GRIDIX. -/
def State.launch (s : State) (x addr prio : Nat) (phys device : Bool) (node : Option (Nat × Nat × Nat)) : State × Nat × Nat :=
  let k := s.ctx x
  if k.state = .empty ∨ k.state = .halted then (s, lCtx, 0)
  else match s.readRecord x addr phys with
    | .error st => (s, st, 0)
    | .ok r =>
      let kimg := le64 r 0
      match if flatOk kimg true then s.devRead x kimg 64 else .error (0, ⟨pVKind, 0, 0⟩) with
      | .error _ => (s, lXlate, 0)
      | .ok h =>
        if kimg % 64 ≠ 0 || recordBreaks r || headerBreaks h then (s, lRecord, 0)
        else
          let g := newGrid x r h prio node k.step
          if g.gbar && g.capacity < g.n then (s, lShape, 0)
          else if device && k.detm then (s, lDetm, 0)
          else if 4096 ≤ s.grids.length then (s, lBusy, 0)
          else
            let id := s.nextGrid % 2 ^ 32
            let s := { s with grids := tabSet s.grids id g, nextGrid := (id + 1) % 2 ^ 32 }
            (if k.state = .loaded then s.modCtx x fun k => { k with state := .active } else s, lOk, id)

/-- `launch` (R128): the launching lane's release at module scope, then the command. -/
def execLaunch (t : TW) (s : State) : Host.Outcome State Fault Refusal :=
  execWord (.launch t) (fun e s =>
    if e.slotFull t.sb then .wait s .instr
    else match s.releaseRound e.c e.g e.x [e.low] 5 e.x.phase with
      | (s, some ph) => .wait (e.setPhase ph s) .instr
      | (s, none) => .done (e.newCmd s 2 none []).2) s

/-- The module distributor takes a `launch` (R128). -/
def State.launchStep (s : State) (c id : Nat) (m : Cmd) : State :=
  if !s.wenHolds c m || !s.canInc c m then s
  else match s.team? c m.place with
    | none => s
    | some t =>
      let (s, st, g) := (s.wenBind c m).launch t.ctx (blk64 m.block 0) t.prio false true none
      s.cmdFinish c id m [(2, st), (3, if st = lOk then g else 0)]

/-! ### Distributors (R119, R120) -/

/-- How long ago a grid was accepted, larger for earlier ones. -/
def State.gridAge (s : State) (g : Nat) : Nat := (s.nextGrid + 2 ^ 32 - g) % 2 ^ 32

/-- A range whose teams may be handed down and admitted (R90). -/
def State.rangeLive (s : State) (r : Range) : Bool :=
  (s.grid? r.grid).any fun g => (s.ctx g.ctx).state == .active

/-- The range to serve: the highest priority, then the earliest grid, then the lowest index. -/
def State.bestRange (s : State) (rs : List Range) : Option Range :=
  let better (a b : Range) : Bool := b.prio < a.prio || (a.prio == b.prio &&
    (s.gridAge b.grid < s.gridAge a.grid || (a.grid == b.grid && a.lo < b.lo)))
  rs.foldl (fun m r => if !s.rangeLive r then m else match m with
    | none => some r
    | some q => some (if better r q then r else q)) none

/-- The number of teams in ranges. -/
def rangeCount (rs : List Range) : Nat := rs.foldl (fun n r => n + (r.hi - r.lo)) 0

/-- Takes `c` teams from the bottom of a range. -/
def takeLow (rs : List Range) (r : Range) (c : Nat) : List Range :=
  if r.lo + c < r.hi then rs.map fun q => if q = r then { r with lo := r.lo + c } else q else listDelFirst (· == r) rs

/-- Takes `c` teams from the top of a range. -/
def takeHigh (rs : List Range) (r : Range) (c : Nat) : List Range :=
  rs.map fun q => if q = r then { r with hi := r.hi - c } else q

def State.dieR (s : State) (d : Nat) : List Range := tabGet [] s.dieRanges d
def State.cluR (s : State) (k : Nat) : List Range := tabGet [] s.cluRanges k

/-- The PRIO that a hand-down of a grid carries now (R112). -/
def State.gridPrio (s : State) (g : Grid) : Nat :=
  match g.node with
  | none => g.prio
  | some (d, q, _) => ((tabGet? s.walkers d).bind fun w => w.queues[q]?).elim g.prio (·.prio)

/-- The lowest index of a grid that has not exited. -/
def Grid.lowest (g : Grid) : Nat := g.gone.foldl (fun n i => if i = n then n + 1 else n) 0

/-- How many teams of a grid the module distributor may hand down from its unhanded range (R119, R395). -/
def State.handCount (s : State) (g : Grid) : Nat :=
  let left := g.n - g.lo
  let a := ceilDiv left 48
  let c := min left (max g.cs (ceilDiv a (max 1 g.cs) * g.cs))
  if (s.ctx g.ctx).detm then min c ((g.lowest + 4096) - g.lo) / max 1 g.cs * g.cs else c

/-- A grid holds back others (R121): a GBAR grid that waits to be placed. -/
def State.heldBack (s : State) (id : Nat) (prio : Nat) : Bool :=
  s.grids.any fun q => q.1 != id && q.2.gbar && !q.2.placed && (s.ctx q.2.ctx).state == .active && prio ≤ s.gridPrio q.2

/-- The grid whose teams the module distributor hands down next. -/
def State.nextGridDown (s : State) : Option (Nat × Grid) :=
  let ok (q : Nat × Grid) : Bool :=
    (s.ctx q.2.ctx).state == .active && q.2.placed && q.2.lo < q.2.n && 0 < s.handCount q.2 && !s.heldBack q.1 (s.gridPrio q.2)
  let better (a b : Nat × Grid) : Bool := s.gridPrio b.2 < s.gridPrio a.2 ||
    (s.gridPrio a.2 == s.gridPrio b.2 && s.gridAge b.1 < s.gridAge a.1)
  (s.grids.filter ok).foldl (fun m q => match m with
    | none => some q
    | some r => some (if better q r then q else r)) none

/-- RANGE_HAND_DOWN (R119): the module distributor fills a die distributor, or that one a cluster distributor. -/
def execRangeHandDown (die : Nat) (cluster : Option Nat) (s : State) : Host.Outcome State Fault Refusal :=
  match cluster with
  | none =>
    if 24 ≤ die || 8 ≤ rangeCount (s.dieR die) || s.expo.stopped then .next s
    else match s.nextGridDown with
      | none => .next s
      | some (id, g) =>
        let c := s.handCount g
        let r : Range := { grid := id, lo := g.lo, hi := g.lo + c, prio := s.gridPrio g }
        .next { s.modGrid id fun g => { g with lo := g.lo + c } with dieRanges := tabSet s.dieRanges die (s.dieR die ++ [r]) }
  | some k =>
    let ck := die * 4 + k
    if 24 ≤ die || 4 ≤ k || 2 ≤ rangeCount (s.cluR ck) || s.expo.stopped then .next s
    else
      let mine := (s.dieR die).filter fun r => (s.grid? r.grid).any (·.cs == 1)
      match s.bestRange mine with
      | none => .next s
      | some r =>
        let c := min (r.hi - r.lo) (max 1 (ceilDiv (rangeCount (s.dieR die)) 4))
        .next { s with dieRanges := tabSet s.dieRanges die (takeLow (s.dieR die) r c),
                       cluRanges := tabSet s.cluRanges ck (s.cluR ck ++ [{ r with hi := r.lo + c }]) }

/-- The range of a victim that a thief takes from: of its ranges of the highest priority, the one with the most unadmitted teams.
DESIGN CHOICE (log entry 64): R120 does not say which of several it is. -/
def State.victimRange (s : State) (rs : List Range) : Option Range :=
  (rs.filter s.rangeLive).foldl (fun m r => match m with
    | none => some r
    | some q => some (if q.prio < r.prio || (q.prio == r.prio && q.hi - q.lo < r.hi - r.lo) then r else q)) none

/-- The teams of the highest priority that a distributor holds: the priority and how many. -/
def State.topLoad (s : State) (rs : List Range) : Nat × Nat :=
  let live := rs.filter s.rangeLive
  let p := live.foldl (fun m r => max m (r.prio + 1)) 0
  (p, rangeCount (live.filter fun r => r.prio + 1 == p))

/-- RANGE_STEAL (R120): a distributor without teams takes the upper half of a sibling's range. -/
def execRangeSteal (die : Nat) (cluster : Option Nat) (victim : Nat) (s : State) : Host.Outcome State Fault Refusal :=
  let half (r : Range) : Nat :=
    let cs := (s.grid? r.grid).elim 1 Grid.cs
    (r.hi - r.lo) / 2 / max 1 cs * cs
  let most (get : Nat → List Range) (sibs : List Nat) : Bool :=
    let (p, n) := s.topLoad (get victim)
    sibs.all fun d => let (p', n') := s.topLoad (get d); p' < p || (p' == p && n' ≤ n)
  if s.expo.stopped then .next s
  else match cluster with
    | none =>
      if 24 ≤ die || 24 ≤ victim || victim = die || s.dieR die != [] || s.nextGridDown.isSome ||
          !most s.dieR ((natRange 0 24).filter (· != die)) then .next s
      else match s.victimRange (s.dieR victim) with
        | none => .next s
        | some r =>
          let c := half r
          if c = 0 then .next s
          else .next { s with dieRanges := tabSet (tabSet s.dieRanges victim (takeHigh (s.dieR victim) r c)) die
                                [{ r with lo := r.hi - c }] }
    | some k =>
      let me := die * 4 + k
      let vi := die * 4 + victim
      let parent := (s.dieR die).any fun r => s.rangeLive r && (s.grid? r.grid).any (·.cs == 1)
      let get (j : Nat) : List Range := s.cluR (die * 4 + j)
      if 24 ≤ die || 4 ≤ k || 4 ≤ victim || victim = k || s.cluR me != [] || parent ||
          !most get ((natRange 0 4).filter (· != k)) then .next s
      else match s.victimRange (s.cluR vi) with
        | none => .next s
        | some r =>
          let c := half r
          if c = 0 then .next s
          else .next { s with cluRanges := tabSet (tabSet s.cluRanges vi (takeHigh (s.cluR vi) r c)) me [{ r with lo := r.hi - c }] }

/-! ### Admission (R122, R123) -/

/-- Where a team would go on a core: its place, group contexts, group bases and scratchpad base. -/
structure Room where
  place : Nat
  gctx : List Nat
  bases : List Nat
  scr : Nat
  deriving DecidableEq, Repr

/-- The lowest free aligned range of `w` lane positions, aligned to `al`. -/
def freeLanes (used : List (Nat × Nat)) (w al : Nat) : Option Nat :=
  ((natRange 0 (32768 / max 1 al)).map (· * al)).find? fun b => b + w ≤ 32768 && !used.any fun u => b < u.1 + u.2 && u.1 < b + w

/-- The lowest free ranges for groups of the widths, one after the other. -/
def freeGroups (used : List (Nat × Nat)) : List Nat → Option (List Nat)
  | [] => some []
  | w :: t => match freeLanes used w w with
    | none => none
    | some b => (freeGroups ((b, w) :: used) t).map (b :: ·)

/-- The smallest power of two not below `n`. -/
def pow2Up (n : Nat) : Nat := if n ≤ 1 then 1 else 2 ^ (Nat.log2 (n - 1) + 1)

/-- The lowest free multiple of 256 bytes of scratchpad. -/
def freeScratch (used : List (Nat × Nat)) (size : Nat) : Option Nat :=
  if size = 0 then some 0
  else
    -- a free range begins at 0 or where a used one ends
    let at_ := 0 :: used.map fun u => ceilDiv (u.1 + u.2) 256 * 256
    listMin? (at_.filter fun b => b + size ≤ 0x400000 && !used.any fun u => b < u.1 + u.2 && u.1 < b + size)

/-- The resources for a team of groups of the given widths, or for a DETM context of groups at the given offsets of one
aligned range of `span` positions (R122). -/
def Core.room (k : Core) (widths : List Nat) (span : Option (Nat × List Nat)) (size : Nat) : Option Room :=
  if k.retired then none
  else
    let lanes := k.groups.map fun g => (g.2.gbase, g.2.gwid)
    let place := (natRange 0 16).find? fun j => (tabGet? k.teams j).isNone
    let free := (natRange 0 512).filter fun i => (tabGet? k.groups i).isNone
    let bases := match span with
      | none => freeGroups lanes widths
      | some (al, ofs) => (freeLanes lanes al al).map fun b => ofs.map (b + ·)
    let scr := freeScratch ((k.teams.filter fun t => t.2.size != 0 && t.2.state != .parked).map fun t => (t.2.base, t.2.size)) size
    match place, bases, scr with
    | some p, some bs, some b => if free.length < widths.length then none else some ⟨p, free.take widths.length, bs, b⟩
    | _, _, _ => none

/-- The room for a new team of a grid. -/
def State.roomFor (s : State) (c : Nat) (g : Grid) : Option Room :=
  let ws := List.replicate g.groups g.width
  let span := if (s.ctx g.ctx).detm then
      some (pow2Up (g.groups * g.width), (natRange 0 g.groups).map (· * g.width)) else none
  if s.root.retired.contains c then none else (s.core c).room ws span g.scratch

/-- A lane of a new team (R123, R182). The first position is the whole sum of R123; bits 63 to 50, which KIMG on path 0x3 or a sum of
2 ^ 50 or more leaves in it, take no part in the fetch. DESIGN CHOICE (log entry 64): R123 does not say that they are dropped. -/
def newLane (entry : DWord) (rln : Nat) : Lane := { emptyLane with lpc := entry, rln := rln }

/-- The role of group `i` of a grid. -/
def Grid.role (g : Grid) (i : Nat) : Role := match fld g.roles (2 * i) 2 with | 1 => .feeder | 2 => .matrix | _ => .vector

/-- Group `i` of a new team (R123). -/
def newGroup (g : Grid) (n i base place : Nat) (ftvd : Word) : Group :=
  let s0 : Regs 256 := Vector.replicate 256 0
  let s1 := regSet (regSet s0 0 (BitVec.ofNat 32 g.args.toNat)) 1 (BitVec.ofNat 32 (g.args.toNat / 2 ^ 32))
  { gbase := base, gwid := g.width, grpix := i, place := place, role := g.role i,
    scal := regSet (regSet s1 2 (BitVec.ofNat 32 n)) 3 (BitVec.ofNat 32 i),
    sb := Vector.replicate 8 0, gst := 0, ftv := ftvd, hmode := false, hcause := 0, state := .run, cur := none, blk := none,
    live := 0, full := false, ranges := [], nextClk := 0, age := none, passed := 0, passClk := none, deferred := [], since := 0, phase := 0 }

/-- Zeroes a scratchpad allocation. -/
def Core.clearScratch (k : Core) (base size : Nat) : Core :=
  { k with scratch := k.scratch.filter fun b => !(base ≤ b.1 && b.1 < base + size),
           scratchPoison := k.scratchPoison.filter fun a => !(base ≤ a && a < base + size) }

/-- Admits team `n` of a grid into a room (R122, R123, R253). -/
def State.admitTeam (s : State) (c gid n prio : Nat) (r : Room) : State :=
  match s.grid? gid with
  | none => s
  | some g =>
    let ftvd := BitVec.ofNat 32 (s.ctx g.ctx).ftvd.toNat
    let entry := g.kimg + g.entry
    let lanes := g.teamLanes
    let rec0 : BarRec := { emptyRec with exp := lanes }
    let t : Team :=
      { grid := gid, n := n, ctx := g.ctx, base := r.scr, size := g.scratch, prio := prio, state := .active,
        recs := (Vector.replicate 4 emptyRec).setIfInBounds 0 rec0, sems := [], banks := [], ready := none }
    let s := ((s.acquireModule c).dropReadOnly c).modCore c fun k => (k.clearScratch r.scr g.scratch)
    let s := s.modCore c fun k => { k with teams := tabSet k.teams r.place t }
    let s := ((natRange 0 g.groups).zip (r.bases.zip r.gctx)).foldl (fun s q =>
      let (i, base, ctx) := q
      let s := s.modCore c fun k => { k with groups := tabSet k.groups ctx (newGroup g n i base r.place ftvd) }
      (natRange 0 g.width).foldl (fun s l => s.modLane c (base + l) fun _ => newLane entry (i * g.width + l)) s) s
    let s := s.fuseRecheck c
    if n % max 1 g.cs = 0 then
      s.modGrid gid fun g => { g with crecs := tabSet g.crecs (n / max 1 g.cs) { emptyRec with exp := g.cs * lanes } }
    else s

/-- The cores of the rectangle with a corner, by CLUIX (R118); none when it does not fit the mesh. -/
def rectangle (g : Grid) (c : Nat) : Option (List Nat) :=
  let x0 := c % 24 % 6
  let y0 := c % 24 / 6
  if x0 + g.cw ≤ 6 ∧ y0 + g.ch ≤ 4 then
    some ((natRange 0 g.cs).map fun k => c / 24 * 24 + (y0 + k / g.cw) * 6 + (x0 + k % g.cw))
  else none

/-- Rooms on every core of a rectangle. -/
def State.rooms (s : State) (g : Grid) : List Nat → Option (List (Nat × Room))
  | [] => some []
  | c :: t => match s.roomFor c g with
    | none => none
    | some r => (s.rooms g t).map ((c, r) :: ·)

/-- The teams of a grid that have neither exited nor are resident. -/
def State.unplaced (s : State) (gid : Nat) (g : Grid) : Nat :=
  g.n - g.gone.length - s.cores.foldl (fun n k => n + (k.2.teams.filter fun t => t.2.grid == gid).length) 0

/-- A GBAR grid that is placed and has teams to place keeps the capacity it was counted (R121): no team of another grid takes
lane positions, contexts, scratchpad or a place meanwhile. -/
def State.reserved (s : State) (gid : Nat) : Bool :=
  s.grids.any fun q => q.1 != gid && q.2.gbar && q.2.placed && (s.ctx q.2.ctx).state == .active && 0 < s.unplaced q.1 q.2

/-- A ready PARKED team of the core goes ahead of admissions of its priority or lower (R125). -/
def Core.readyAhead (k : Core) (prio : Nat) : Bool := k.teams.any fun t => t.2.state == .parked && t.2.ready.isSome && prio ≤ t.2.prio

/-- How many teams of a grid a core can take together now, at most `n` (R121). -/
def Core.admits (g : Grid) (detm : Bool) : Nat → Core → Nat
  | 0, _ => 0
  | n + 1, k =>
    let span := if detm then some (pow2Up (g.groups * g.width), (natRange 0 g.groups).map (· * g.width)) else none
    match k.room (List.replicate g.groups g.width) span g.scratch with
    | none => 0
    | some r =>
      let t : Team := { grid := 0, n := 0, ctx := 0, base := r.scr, size := g.scratch, prio := 0, state := .active,
                        recs := Vector.replicate 4 emptyRec, sems := [], banks := [], ready := none }
      let gs := (r.gctx.zip r.bases).foldl (fun gs q => tabSet gs q.1 (newGroup g 0 0 q.2 r.place 0)) k.groups
      1 + Core.admits g detm n { k with teams := tabSet k.teams r.place t, groups := gs }

/-- Takes one team from every core of a list of (core, count). -/
def takeOne (cs : List Nat) (t : Tab Nat) : Tab Nat := cs.foldl (fun t c => tabSet t c (tabGet 0 t c - 1)) t

/-- The teams that rectangles of a die can hold, no core counted beyond what it admits. DESIGN CHOICE (log entry 64): R121 does not
say how overlapping rectangles are counted; they are taken one by one from the lowest corner. -/
def rectTeams (g : Grid) (die : Nat) : Nat → Tab Nat → Nat
  | 0, _ => 0
  | n + 1, t =>
    match (natRange (die * 24) 24).findSome? fun c => (rectangle g c).filter fun cs => cs.all fun q => 0 < tabGet 0 t q with
    | none => 0
    | some cs => g.cs + rectTeams g die n (takeOne cs t)

/-- The free capacity of the module for a grid (R121). -/
def State.freeCapacity (s : State) (g : Grid) : Nat :=
  let detm := (s.ctx g.ctx).detm
  let admits (c : Nat) : Nat := if s.root.retired.contains c then 0 else (s.core c).admits g detm g.perCore
  (natRange 0 24).foldl (fun n d =>
    if g.cs = 1 then (natRange (d * 24) 24).foldl (fun n c => n + admits c) n
    else n + rectTeams g d (24 * 16) ((natRange (d * 24) 24).map fun c => (c, admits c))) 0

/-- After an admission of a placed GBAR grid, its other teams still fit on the cores and rectangles counted (R121). -/
def State.keepsRoom (s : State) (gid : Nat) : Bool :=
  (s.grid? gid).all fun g => !g.gbar || decide (s.unplaced gid g ≤ s.freeCapacity g)

/-! ### Exit (R124) -/

/-- A context whose last grid has completed is LOADED again (R90). -/
def State.ctxIdle (s : State) (x : Nat) : State :=
  if (s.ctx x).state = .active ∧ (s.ctx x).saved = 0 ∧ !s.grids.any (fun g => g.2.ctx == x) then s.modCtx x fun k => { k with state := .loaded } else s

/-- A grid is over: it leaves the tables, and its context may be LOADED (R90, R124). -/
def State.gridOver (s : State) (gid : Nat) (g : Grid) : State :=
  ({ s with grids := tabDel s.grids gid, conflicts := s.conflicts.filter fun f => f.2.grid != gid }).ctxIdle g.ctx

/-- The add at COMPL waits, at a line whose write lets it try again. -/
def State.complWaits (s : State) (gid line : Nat) (touched dropped : Bool) : State :=
  s.modGrid gid fun g => { g with cfLine := some line, cfTouched := touched, cfDropped := dropped, cfClk := s.clk.toNat }

/-- The add at COMPL, then the end of the grid (R124). A replayable fault writes its record when it is first met, and again if the
line was written since or the earlier record dropped (R236). -/
def State.finishGrid (s : State) (gid : Nat) (g : Grid) : State :=
  let va := g.compl.toNat
  let record := g.cfLine.isNone || g.cfTouched || g.cfDropped
  if va = 0 || !flatOk va false then s.gridOver gid g
  else match s.xlateBytes g.ctx .readWrite (vaRange va 8) with
    | .error (a, f) =>
      let r : TqRec := { kind := if f.replayable then 1 else 2, code := f.code, acc := 3, level := f.level, va := a }
      let (s, dropped) := if record || !f.replayable then s.writeRecord g.ctx r else (s, false)
      if f.replayable then s.complWaits gid f.line false dropped else s.gridOver gid g
    | .ok (pas, _, _) =>
      let lines := linesOf pas
      if !s.canWrite lines none then s.complWaits gid (pas.headD 0 / 64) true false
      -- the link registers take no atomic (R347)
      else if pas.any inLinkRegs then s.gridOver gid g
      else
        let x := ofLe (s.softBytes pas) + 1
        (((s.homeWrite (pas.zip (leBytes 8 x)) []).markLost pas).postLines lines).gridOver gid g

/-- TEAM_EXIT (R124): every group of the team is gone; its writes are released at module scope, and its resources freed. -/
def execTeamExit (c place : Nat) (s : State) : Host.Outcome State Fault Refusal :=
  match s.team? c place with
  | none => .next s
  | some t =>
    let k := s.core c
    if t.state != .active || k.groups.any (fun g => g.2.place == place) || k.cmds.any (fun m => m.2.place == place) then .next s
    else
      let s := if s.transit.any fun q => q.grid == t.grid && q.n == t.n && q.due.isNone then s.commitPoint t.grid t.n else s
      let s := s.drainAll c
      let k := s.core c
      if k.pend.any (fun p => p.2.place == place) || !k.flights.isEmpty || s.hasStaged t.grid t.n then .next s
      else
        let s := (((s.postDie c).postModule c).modCore c fun k => { k with teams := tabDel k.teams place }).fuseRecheck c
        let s := s.modGrid t.grid fun g =>
          { g with gone := insSorted t.n g.gone, closed := insSorted t.n g.closed,
                   crecs := if (insSorted t.n g.gone).filter (fun m => m / max 1 g.cs == t.n / max 1 g.cs) |>.length |> (· == g.cs)
                     then tabDel g.crecs (t.n / max 1 g.cs) else g.crecs }
        match s.grid? t.grid with
        | none => .next s
        | some g => .next (if g.gone.length = g.n then s.finishGrid t.grid g else s)

end Sys2Proof.Machine
end

