-- ==== Sys2Proof/Machine/Matrix.lean ====
section
/-!
DEFINITION. Sys2Proof/Machine/Matrix.lean: the matrix engine (R289 to R307): the issue, start and completion of its
commands, `acalloc`, `acfree`, `aczero`, `acrd`, `acwr`, `mma` and `acst`. The sliced product is in Machine/Slice.lean.
-/
namespace Sys2Proof.Machine

/-! ### Scratchpad of the team -/

/-- `n` bytes of the team's allocation, and whether any is poisoned. -/
def State.teamBytes (s : State) (c : Nat) (t : Team) (ofs n : Nat) : List Byte × Bool := s.scrRead c (natRange (t.base + ofs) n)
/-- A natural value of the team's allocation. -/
def State.teamNat (s : State) (c : Nat) (t : Team) (ofs n : Nat) : Nat := ofLe (s.teamBytes c t ofs n).1
/-- Writes an `n`-byte value. -/
def State.teamPut (s : State) (c : Nat) (t : Team) (ofs n x : Nat) : State :=
  s.scrWrite c ((natRange (t.base + ofs) n).zip (leBytes n x))

/-- A footprint of `rows` rows of `len` bytes at a stride, from an offset, lies in the allocation (R297). -/
def fits (t : Team) (ofs rows stride len : Nat) : Bool := rows = 0 || len = 0 || ofs + (rows - 1) * stride + len ≤ t.size

/-- The F3 code of a format (R51). -/
def fmtOf3 : Nat → Option Fmt
  | 0 => some .f32 | 2 => some .f16 | 3 => some .bf16 | 4 => some .e4m3 | 5 => some .e5m2 | 6 => some .mk8
  | _ => none

/-- The mode of FMOD (R49). -/
def rndOf : Nat → Rnd
  | 1 => .rtz | 2 => .rdn | 3 => .rup | 4 => .rsr
  | _ => .rne

/-- The format of `mma` (R302); none for .i8. -/
def mmaFmt : Nat → Option Fmt
  | 0 => some .e4m3 | 1 => some .e5m2 | 2 => some .mk8 | 4 => some .bf16 | 5 => some .f16
  | _ => none
/-- The element size of `mma`. -/
def mmaSize (f : Nat) : Nat := if 4 ≤ f then 2 else 1

/-! ### Issue -/

/-- A matrix T command is issued (R294): with 16 commands held, it waits. -/
def Env.matrix (e : Env) (s : State) (t : TW) (n : Nat) (aux : List Nat) : Res :=
  let held := ((s.core e.c).cmds.filter fun m => isMatrix m.2.i).length
  if e.slotFull t.sb || 16 ≤ held then .wait s .instr else .done (e.newCmd s n none aux).2

/-- The draws a command reserves at issue (R73): FTV, the key of the stream and the first index. -/
def Env.reserve (e : Env) (s : State) (r : Rnd) (w : Win) : State × List Nat :=
  let l := s.lane e.c e.x.gbase
  let ix := if l.rstep = e.cu.step then l.ridx.toNat else 0
  let aux := [e.x.ftv.toNat, (s.ctx (s.ctxOf e.c e.x)).rkey.toNat, e.cu.step.toNat, (s.teamOf e.c e.x).elim 0 (·.n), l.rln, ix]
  -- with no draw the stream does not move (R73, R182)
  if r = .rsr ∧ w.rows * w.cols ≠ 0 then
    (s.modLane e.c e.x.gbase fun l => { l with rstep := e.cu.step, ridx := BitVec.ofNat 32 (ix + w.rows * w.cols) }, aux)
  else (s, aux)

/-- Draw `i` of those reserved. -/
def Cmd.drawAt (m : Cmd) (r : Rnd) (i : Nat) : Nat :=
  let a (k : Nat) : Nat := listGet 0 m.aux k
  if r = .rsr then draw (a 1) (a 2) (a 3) (a 4) ((a 5 + i) % 2 ^ 32) 0 else 0

/-- `aczero` (R301). -/
def execAczero (t : TW) (s : State) : Host.Outcome State Fault Refusal := execWord (.aczero t) (fun e s => e.matrix s t 2 []) s
/-- `acrd` (R301). -/
def execAcrd (t : TW) (s : State) : Host.Outcome State Fault Refusal := execWord (.acrd t) (fun e s => e.matrix s t 4 []) s
/-- `acwr` (R301). -/
def execAcwr (t : TW) (s : State) : Host.Outcome State Fault Refusal := execWord (.acwr t) (fun e s => e.matrix s t 4 []) s
/-- `mma` (R302). -/
def execMma (t : TW) (s : State) : Host.Outcome State Fault Refusal := execWord (.mma t) (fun e s => e.matrix s t 6 []) s

/-- A command that reserves draws: the mode and the window come from its block. -/
def Env.matrixDraws (e : Env) (s : State) (t : TW) (n rndWord rndBit win : Nat) : Res :=
  let b (i : Nat) : Nat := (regGet e.x.scal (t.pbase.val + i)).toNat
  let held := ((s.core e.c).cmds.filter fun m => isMatrix m.2.i).length
  if e.slotFull t.sb || 16 ≤ held then .wait s .instr
  else
    let (s, aux) := e.reserve s (rndOf (fld (b rndWord) rndBit 3)) (winOf (b win) (b (win + 1)))
    .done (e.newCmd s n none aux).2

/-- `acst` (R304). -/
def execAcst (t : TW) (s : State) : Host.Outcome State Fault Refusal := execWord (.acst t) (fun e s => e.matrixDraws s t 8 5 3 6) s

/-! ### Bank events (R294, R299, R300) -/

/-- Every matrix command and bank event that the group issued before `id` has its place in start order. -/
def Core.placed (k : Core) (g id : Nat) : Bool :=
  !k.cmds.any fun q => q.1 < id && q.2.ctx == g && inStartOrder q.2.i && q.2.order.isNone

/-- An `acalloc` of a context with DETM = 1 that only lacks physical banks waits for them (R400). -/
def State.acallocWaits (s : State) (c j n : Nat) : Bool :=
  n != 0 && n ≤ 128 && (s.core c).freePhys.length < n && (s.team? c j).any fun t => (s.ctx t.ctx).detm && (t.bankRun n).isSome

/-- Bank events whose turn has come take their places (R294). -/
def State.bankEvents (s : State) (c : Nat) : State :=
  let one (s : State) (q : Nat × Cmd) : State :=
    if !(s.core c).placed q.2.ctx q.1 || q.2.order.isSome then s
    else match q.2.i with
      | .acfree _ _ _ =>
        (s.modCore c fun k => { k with cmds := tabDel k.cmds q.1 }).unmapBanks c q.2.place (listGet 0 q.2.block 0) (listGet 0 q.2.block 1)
      | .acalloc _ _ _ _ =>
        if s.acallocWaits c q.2.place (listGet 0 q.2.block 0) then s else
        let o := (s.core c).nextOrder
        let (s, b, st) := s.allocBanks c q.2.place ((s.group? c q.2.ctx).elim 0 (·.gbase)) (listGet 0 q.2.block 0)
        s.modCmd c q.1 fun m => { m with order := some o, state := .draining, status := st, prog := b }
      | _ => s
  (s.core c).cmds.foldl one s

/-- A bank event joins the core's commands. -/
def Env.bankEvent (e : Env) (s : State) (block : List Nat) : State :=
  let (id, s) := s.fresh e.c
  let cmd : Cmd := {
    i := e.i, ctx := e.g, owner := e.low, place := e.x.place, lpc := e.lpc, hm := e.x.hmode, thr := 0, block := block,
    state := .waiting, prog := 0, prog2 := 0, shape := [], aux := [], status := 0, gst := 0, order := none, lanes := e.lanes,
    poisoned := false, faultLine := 0, touched := false, seq := id }
  (s.modCore e.c fun q => { q with cmds := tabSet q.cmds id cmd }).bankEvents e.c

/-- `acalloc` (R299). -/
def execAcalloc (d a : Operand) (p : Pfx) (sb : Fin 8) (s : State) : Host.Outcome State Fault Refusal :=
  execWord (.acalloc d a p sb) (fun e s =>
    if e.slotFull sb || s.acallocWaits e.c e.x.place (e.opnd s a e.low 32) then .wait s .instr
    else .done (e.bankEvent (s.sbIssue e.c e.g sb.val) [e.opnd s a e.low 32])) s

/-- `acfree` (R300). -/
def execAcfree (p : Pfx) (a n : Operand) (s : State) : Host.Outcome State Fault Refusal :=
  execWord (.acfree p a n) (fun e s => .done (e.bankEvent s [e.opnd s a e.low 32, e.opnd s n e.low 32])) s

/-! ### Checks at the start (R297, R301 to R304, R315 to R320) -/

/-- The first status of A.PARAM, A.RANGE and A.ALIGN that applies. -/
def checks (param range align : Bool) : Nat := if param then aParam else if range then aRange else if align then aAlign else aOk

/-- The status of a command's checks at its start. -/
def Cmd.check (m : Cmd) (t : Team) : Nat :=
  let b (i : Nat) : Nat := listGet 0 m.block i
  let w := m.win
  match m.i with
  | .aczero _ => checks (winBad (b 0) (b 1)) w.range false
  | .acrd _ | .acwr _ =>
    let acwr := match m.i with | .acwr _ => true | _ => false
    checks (winBad (b 2) (b 3) || b 0 % 4 != 0 || fld (b 1) 24 7 != 0 || fld (b 1) 0 24 % 4 != 0 || (acwr && bitAt (b 1) 31))
      (w.range || !fits t (b 0) w.rows (fld (b 1) 0 24) (4 * w.cols)) false
  | .mma _ =>
    let f := fld (b 3) 16 3
    let k := fld (b 3) 0 13
    let len := k * mmaSize f
    checks (winBad (b 4) (b 5) || fld (b 3) 19 12 != 0 || fld (b 3) 13 3 != 0 || 5 < f || 4096 < k || b 0 % 16 != 0 || b 1 % 16 != 0 ||
        fld (b 2) 0 16 % 16 != 0 || fld (b 2) 16 16 % 16 != 0 || 64 < w.rows || 96 < w.cols)
      (w.range || !fits t (b 0) w.rows (fld (b 2) 0 16) len || !fits t (b 1) w.cols (fld (b 2) 16 16) len) false
  | .acst _ =>
    let z := ((fmtOf3 (fld (b 5) 0 3)).elim 32 fmtWidth) / 8
    let bias := b 4 != 2 ^ 32 - 1
    checks (winBad (b 6) (b 7) || fld (b 5) 12 20 != 0 || 3 < fld (b 5) 6 4 || 4 < fld (b 5) 3 3 || (fmtOf3 (fld (b 5) 0 3)).isNone ||
        (bias && b 4 % 4 != 0))
      (w.range || (bias && !fits t (b 4) (min w.rows 1) 0 (4 * w.cols)))
      (b 0 % z != 0 || b 2 % z != 0)
  | .zsplit _ =>
    let f64 := bitAt (b 8) 7
    let z := if f64 then 8 else 4
    let sl := m.slices
    let k := fld (b 7) 0 17
    let ln := fld (b 8) 0 7
    let rows := if k = 0 then 0 else ln
    checks (b 0 % z != 0 || b 1 % z != 0 || b 2 % z != 0 || b 3 % 16 != 0 || b 4 % 16 != 0 || b 5 % 16 != 0 || b 6 % 4 != 0 ||
        fld (b 7) 17 15 != 0 || 65536 < k || fld (b 8) 12 20 != 0 || sl = 0 || (if f64 then 9 else 4) < sl || 96 < ln)
      (!fits t (b 0 + (k - 1) * b 2) rows (b 1) z || !fits t (b 3 + (sl - 1) * b 5) rows (b 4) k || !fits t (b 6) rows 4 4) false
  | .mmz _ =>
    let sl := m.slices
    let k := fld (b 5) 0 17
    let nch := max 1 (ceilDiv k 4096)
    let pass := fld (b 8) 8 6
    let chunk := fld (b 8) 0 4
    let np := sl * (sl + 1) / 2
    checks (winBad (b 6) (b 7) || b 0 % 16 != 0 || b 1 % 16 != 0 || fld (b 2) 0 16 % 16 != 0 || fld (b 2) 16 16 % 16 != 0 ||
        b 3 % 16 != 0 || b 4 % 16 != 0 || fld (b 5) 21 10 != 0 || sl = 0 || 9 < sl || 65536 < k || w.sliceBad sl ||
        fld (b 8) 14 18 != 0 || fld (b 8) 4 4 != 0 || !((pass < np && chunk < nch) || (pass = np && chunk = 0)))
      (w.range || !fits t (b 0 + (sl - 1) * b 3) w.rows (fld (b 2) 0 16) k || !fits t (b 1 + (sl - 1) * b 4) w.cols (fld (b 2) 16 16) k)
      false
  | .zfold _ =>
    let z := if bitAt (b 4) 7 then 8 else 4
    let sl := m.slices
    checks (winBad (b 5) (b 6) || b 0 % 4 != 0 || b 1 % 4 != 0 || b 2 % z != 0 || b 3 % z != 0 || fld (b 4) 12 20 != 0 ||
        fld (b 4) 4 3 != 0 || 4 < fld (b 4) 8 3 || sl = 0 || 9 < sl || w.sliceBad sl)
      (w.range || !fits t (b 0) (if w.cols = 0 then 0 else w.rows) 4 4 || !fits t (b 1) (if w.rows = 0 then 0 else w.cols) 4 4 ||
        !fits t (b 2) w.rows (b 3) (z * w.cols)) false
  | _ => aOk

/-! ### Order among running commands (R294, R321) -/

/-- `n` ranges of `len` bytes of an allocation, `stride` bytes apart. -/
structure Span where
  start : Nat
  n : Nat
  stride : Nat
  len : Nat
  deriving DecidableEq, Repr

/-- A span shares a byte with the `len` bytes from `lo`. -/
def Span.meets (q : Span) (lo len : Nat) : Bool :=
  let b := if lo < q.start + q.len ∨ q.stride = 0 then 0 else (lo - q.start - q.len) / q.stride + 1
  let a := q.start + b * q.stride
  len != 0 && q.len != 0 && decide (b < q.n ∧ a < lo + len ∧ lo < a + q.len)

/-- Two spans share a byte. -/
def Span.hits (p q : Span) : Bool :=
  q.meets p.start ((p.n - 1) * p.stride + p.len) && (natRange 0 p.n).any fun i => q.meets (p.start + i * p.stride) p.len

/-- The bytes of the team's allocation that a command has still to access, or that its `next` step accesses (R301 to R304, R315
to R319). -/
def State.spans (s : State) (c : Nat) (m : Cmd) (t : Team) (next : Bool) : List Span :=
  let b (i : Nat) : Nat := listGet 0 m.block i
  let w := m.win
  let rows (ofs n stride len : Nat) : Span := ⟨ofs, n, stride, len⟩
  match m.i with
  | .acrd _ | .acwr _ => [rows (b 0) w.rows (fld (b 1) 0 24) (4 * w.cols)]
  | .mma _ =>
    let len := fld (b 3) 0 13 * mmaSize (fld (b 3) 16 3)
    [rows (b 0) w.rows (fld (b 2) 0 16) len, rows (b 1) w.cols (fld (b 2) 16 16) len]
  | .acst _ =>
    let z := ((fmtOf3 (fld (b 5) 0 3)).elim 32 fmtWidth) / 8
    let done := if w.cols = 0 then w.rows else m.prog / w.cols
    let dest := (natRange done (if next then min 1 (w.rows - done) else w.rows - done)).filterMap fun (i : Nat) =>
      let ea := wrap ((blk64 m.block 0 : Int) + i * sext (b 2) 32) 64
      let own := pathOf ea = 1 ∨ (pathOf ea = 2 ∧ s.clusterPeer c t (fld ea 56 4) = some (c, m.place))
      if own then some (rows (ea % 2 ^ 22) 1 0 (z * w.cols)) else none
    dest ++ if b 4 = 2 ^ 32 - 1 then [] else [rows (b 4) 1 0 (4 * w.cols)]
  | .zsplit _ =>
    let z := if bitAt (b 8) 7 then 8 else 4
    let k := fld (b 7) 0 17
    let n := if k = 0 then 0 else fld (b 8) 0 7
    ((natRange 0 n).map fun i => rows (b 0 + i * b 1) k (b 2) z) ++
      ((natRange 0 m.slices).map fun q => rows (b 3 + q * b 5) n (b 4) k) ++ [rows (b 6) n 4 4]
  | .mmz _ =>
    let k := fld (b 5) 0 17
    ((natRange 0 m.slices).map fun q => rows (b 0 + q * b 3) w.rows (fld (b 2) 0 16) k) ++
      ((natRange 0 m.slices).map fun q => rows (b 1 + q * b 4) w.cols (fld (b 2) 16 16) k)
  | .zfold _ =>
    let z := if bitAt (b 4) 7 then 8 else 4
    [rows (b 0) w.rows 4 4, rows (b 1) w.cols 4 4, rows (b 2) w.rows (b 3) (z * w.cols)]
  | _ => []

/-- A command of the sliced product. -/
def isSliced (i : Instr) : Bool := match i with | .zsplit _ | .mmz _ | .zfold _ => true | _ => false

/-- The next step of command `m` must follow command `q`, which started earlier: they share a row, or a byte of the scratchpad
where one of them is a sliced command (R294, R321). -/
def State.behind (s : State) (c : Nat) (m q : Cmd) (t : Team) : Bool :=
  q.running && q.place == m.place && q.order.any (fun o => m.order.any (o < ·)) &&
    ((m.rowsNext.any fun r => q.rowsLeft.contains r) ||
     ((isSliced m.i || isSliced q.i) && (s.spans c m t true).any fun h => (s.spans c q t false).any fun k => h.hits k))

/-- Every command that started earlier has finished with the rows, and the bytes, that the next step of `m` needs. -/
def State.turn (s : State) (c id : Nat) (m : Cmd) (t : Team) : Bool :=
  !(s.core c).cmds.any fun q => q.1 != id && s.behind c m q.2 t

/-- A started command waits for rows of a stopped one, or of one that itself waits so: it cannot go on before a restore (R322).
The engine holds 16 commands, so 16 rounds are enough. -/
def State.stuck (s : State) (c : Nat) (t : Team) : Nat → Cmd → Bool
  | 0, _ => false
  | n + 1, m => (s.core c).cmds.any fun q => s.behind c m q.2 t && (q.2.state == .waiting || s.stuck c t n q.2)

/-- A started command that stands behind a stopped one. -/
def State.cmdStuck (s : State) (c : Nat) (m : Cmd) : Bool :=
  isMatrix m.i && m.order.isSome && (s.team? c m.place).any fun t => s.stuck c t 16 m

/-! ### Start (R294, R408) -/

/-- The cores of a die that hold a matrix grant. -/
def State.grants (s : State) (die : Nat) : List Nat :=
  (natRange (die * 24) 24).filter fun c => (s.core c).cmds.any fun m => m.2.held && isAtomCmd m.2.i

/-- An unstarted atom command of a core that only a grant keeps from starting. -/
def State.wantsGrant (s : State) (c : Nat) : Bool :=
  let k := s.core c
  !(k.cmds.any fun m => m.2.held && isAtomCmd m.2.i) &&
    k.cmds.any fun m => isAtomCmd m.2.i && m.2.state == .waiting && (m.2.order.isSome || s.wenHolds c m.2) && s.cmdAlive c m.2

/-- The number of 10 µs periods that CLK has counted (R408). -/
def State.period (s : State) : Nat := s.clk.toNat / 24000

/-- The core is given a grant now (R408, R409): the shares are those of this period, its die holds fewer than its share, and the core is
the next waiting one. -/
def State.granted (s : State) (c : Nat) : Bool :=
  let die := c / 24
  let last := (s.power.last[die]?).getD 0
  let wait := (natRange (die * 24) 24).filter s.wantsGrant
  let next := (wait.find? fun q => last < q % 24 + 1).orElse fun _ => wait.head?
  s.period ≤ s.power.shared && (s.grants die).length < (s.power.shares[die]?).getD 0 && next == some c

/-- Whether a command may start now. Of the commands of one group without a wait, one starts before an earlier one only if that
one waits for the atom. A restored command that has its place goes before those that have none (R307, R322). -/
def State.mayStart (s : State) (c id : Nat) (m : Cmd) : Bool :=
  let k := s.core c
  let free (m : Cmd) : Bool := !isAtomCmd m.i || (!(k.cmds.any fun q => q.2.held && isAtomCmd q.2.i) && s.granted c)
  let room (m : Cmd) : Bool := isAtomCmd m.i || (k.cmds.filter fun q => q.2.held && !isAtomCmd q.2.i).length < 3
  let nowait (m : Cmd) : Bool := (twOf m.i).wait.isNone
  let first := k.cmds.any fun q => q.1 != id && isMatrix q.2.i && isAtomCmd q.2.i == isAtomCmd m.i && q.2.state == .waiting &&
    s.cmdAlive c q.2 && q.2.order.any fun o => m.order.all (o < ·)
  let earlier := m.order.isNone && nowait m && k.cmds.any fun q =>
    q.1 < id && q.2.ctx == m.ctx && q.2.order.isNone && isMatrix q.2.i && nowait q.2 && free q.2
  isMatrix m.i && m.state == .waiting && (m.order.isSome || s.wenHolds c m) && s.cmdAlive c m && free m && room m &&
    !first && !earlier

/-- MATRIX_COMMAND_START (R294, R295, R297): the command takes its place in start order; a failed check ends it. -/
def execMatrixCommandStart (c id : Nat) (s : State) : Host.Outcome State Fault Refusal :=
  match s.cmd? c id with
  | none => .next s
  | some m =>
    match s.team? c m.place with
    | none => .next s
    | some t =>
      if s.expo.stopped || !s.mayStart c id m then .next s
      else
        let s := s.wenBind c m
        let die := c / 24
        let s := if isAtomCmd m.i then
            { s with power := { s.power with last := s.power.last.setIfInBounds die (c % 24 + 1) } } else s
        -- a restored command goes on where it stopped (R307, R322)
        if m.order.isSome then .next (s.modCmd c id fun m => { m with state := .running })
        else
        let (o, s) := s.nextPlace c
        let st := m.check t
        let b8 := listGet 0 m.block 8
        let mmz := match m.i with | .mmz _ => true | _ => false
        let s := s.modCmd c id fun m =>
          { m with order := some o, status := st, state := if st = aOk then .running else .draining,
                   prog := if mmz then fld b8 8 6 else m.prog, prog2 := if mmz then fld b8 0 4 else m.prog2, shape := [1] }
        .next (s.bankEvents c)

/-! ### Effects -/

/-- What the effect of a command gathers: the state, GST bits, whether a row was not LIVE, and the first poisoned offset. -/
structure Eff where
  s : State
  gst : Nat := 0
  un : Bool := false
  po : Option Nat := none

/-- The GST bit and the status mark of a row that is not LIVE (R292). -/
def Eff.dead (e : Eff) (read : Bool) : Eff := { e with un := true, gst := if read then e.gst ||| gstAccUr else e.gst }

/-- Bytes of the scratchpad, with the first poison met. -/
def Eff.bytes (e : Eff) (c : Nat) (t : Team) (ofs n : Nat) : Eff × List Byte :=
  let (bs, po) := e.s.teamBytes c t ofs n
  (if po && e.po.isNone then { e with po := some ofs } else e, bs)

/-- The words of window row `i`, and where they lie; none for a row that is not LIVE. -/
def rowAt (t : Team) (o : Nat) (w : Win) (i : Nat) : Option (Nat × Nat) :=
  (t.liveRow o (w.row i)).map fun p => (p, (w.row i).2)

/-- Sets the words of one row from column `col0`. -/
def Core.accRow (k : Core) (phys row col0 : Nat) : List Nat → Core
  | [] => k
  | x :: t => (k.accSet phys row col0 (BitVec.ofNat 32 x)).accRow phys row (col0 + 1) t

/-- Splits bytes into `k` elements of `n` bytes. -/
def elements (n : Nat) (bs : List Byte) (k : Nat) : List Nat := (natRange 0 k).map fun i => ofLe ((bs.drop (n * i)).take n)

/-- `aczero`, `acrd` and `acwr` (R301). -/
def Cmd.move (m : Cmd) (s : State) (c : Nat) (t : Team) (o : Nat) : Eff :=
  let w := m.win
  let b (i : Nat) : Nat := listGet 0 m.block i
  let str := fld (b 1) 0 24
  if w.cols = 0 then { s := s }
  else (natRange 0 w.rows).foldl (fun (e : Eff) i =>
    let at_ := rowAt t o w i
    let ofs := b 0 + i * str
    match m.i with
    | .aczero _ =>
      (match at_ with
       | none => e.dead false
       | some (p, r) => { e with s := e.s.modCore c fun k => k.accRow p r w.col0 (List.replicate w.cols 0) })
    | .acrd _ =>
      let xs := (natRange w.col0 w.cols).map fun j => at_.elim 0 fun q => ((e.s.core c).accGet q.1 q.2 j).toNat
      let e := if at_.isNone then e.dead true else e
      { e with s := e.s.scrWrite c ((natRange (t.base + ofs) (4 * w.cols)).zip (xs.flatMap (leBytes 4))) }
    | _ =>
      let (e, bs) := e.bytes c t ofs (4 * w.cols)
      let xs := elements 4 bs w.cols
      (match at_ with
       | none => e.dead false
       | some (p, r) => { e with s := e.s.modCore c fun k => k.accRow p r w.col0 xs })) { s := s }

/-- One output of `mma` (R303). -/
def mmaWord (f : Nat) (zacc : Bool) (w : Nat) (as_ bs : List Nat) : Nat × Flags :=
  match mmaFmt f with
  | none =>
    let acc : Int := if zacc then 0 else sext w 32
    (wrap ((as_.zip bs).foldl (fun a p => a + sext p.1 8 * sext p.2 8) acc) 32, noFlags)
  | some fm => groupedDot fm (if zacc then 0 else w) as_ bs

/-- `mma` (R303). -/
def Cmd.mul (m : Cmd) (s : State) (c : Nat) (t : Team) (o : Nat) : Eff :=
  let w := m.win
  let b (i : Nat) : Nat := listGet 0 m.block i
  let f := fld (b 3) 16 3
  let z := mmaSize f
  let k := fld (b 3) 0 13
  let zacc := bitAt (b 3) 31
  if w.cols = 0 || w.rows = 0 then { s := s }
  else
    let cols := (natRange 0 w.cols).foldl (fun (a : Eff × List (List Nat)) j =>
      let (e, bs) := a.1.bytes c t (b 1 + j * fld (b 2) 16 16) (k * z)
      (e, a.2 ++ [elements z bs k])) (({ s := s } : Eff), [])
    (natRange 0 w.rows).foldl (fun (e : Eff) i =>
      let (e, bs) := e.bytes c t (b 0 + i * fld (b 2) 0 16) (k * z)
      let row := elements z bs k
      let at_ := rowAt t o w i
      let outs : List (Nat × Flags) := (natRange 0 w.cols).map fun j =>
        mmaWord f zacc (at_.elim 0 fun q => ((e.s.core c).accGet q.1 q.2 (w.col0 + j)).toNat) row (listGet [] cols.2 j)
      let fl : Flags := flagsAll (List.map Prod.snd outs)
      let e := { e with gst := e.gst ||| fl.gst }
      let xs := List.map Prod.fst outs
      match at_ with
      | none => e.dead (!zacc)
      | some (p, r) => { e with s := e.s.modCore c fun k => k.accRow p r w.col0 xs }) cols.1

/-! ### The drain of `acst` (R305) -/

/-- The epilogue: the output code and the flags of one word. -/
def acstValue (ctl ftv scale bias : Nat) (word : Nat) (u : Nat) : Nat × Flags :=
  let x : FVal := if bitAt ctl 11 then FVal.fin (decide (sext word 32 < 0)) (sext word 32).natAbs 0 else fval .f32 word
  let (y, f1) := fmaVal .f32 .rne x (fval .f32 scale) (fval .f32 bias) 0
  let (a, f2) := match fld ctl 6 4 with
    | 0 => (y, noFlags)
    | 1 => (match fval .f32 y with
        | .nan _ => (qnan .f32, noFlags)
        | .inf true => (0, noFlags)
        | .inf false => (y, noFlags)
        | .fin sg mg _ => (if mg = 0 ∨ sg then 0 else y, noFlags))
    | 2 => fnVal ftv .tanh .f32 .rne (fval .f32 y) 0
    | _ => fnVal ftv .sig .f32 .rne (fval .f32 y) 0
  let (o, f3) := match fmtOf3 (fld ctl 0 3) with
    | some .f32 => (a, noFlags)
    | some f => cvtFF f (rndOf (fld ctl 3 3)) (fval .f32 a) u
    | none => (a, noFlags)
  (o, flagsOr f1 (flagsOr f2 f3))

/-- An `acst` with REL = 1 has finished its first `n` rows: the bands that lie wholly in them are released (R291). -/
def State.acstRelease (s : State) (c : Nat) (m : Cmd) (n : Nat) : State :=
  if bitAt (listGet 0 m.block 5) 10 && m.win.cols != 0 then
    s.releaseBands c m.place (m.order.getD 0) ((natRange 0 (min m.win.rows n)).map m.win.row)
  else s

/-- The end of an `acst`: a status, and the release of the bands it finished (R291). -/
def State.acstEnd (s : State) (c id : Nat) (m : Cmd) (st rowsDone : Nat) : State :=
  ((s.modCmd c id fun m => { m.goOn .draining with status := st }).acstRelease c m rowsDone).settleBanks c

/-- One element of an `acst` (R305, R297). -/
def State.acstStep (s : State) (c id : Nat) (m : Cmd) (t : Team) : State :=
  let w := m.win
  let b (i : Nat) : Nat := listGet 0 m.block i
  if w.rows * w.cols ≤ m.prog then s.acstEnd c id m m.status w.rows
  else
    let i := m.prog / w.cols
    let j := m.prog % w.cols
    let ctl := b 5
    let z := ((fmtOf3 (fld ctl 0 3)).elim 32 fmtWidth) / 8
    let at_ := rowAt t (m.order.getD 0) w i
    let word := at_.elim 0 fun q => ((s.core c).accGet q.1 q.2 (w.col0 + j)).toNat
    let hasBias := b 4 != 2 ^ 32 - 1
    let (e, bb) := if hasBias then Eff.bytes { s := s } c t (b 4 + 4 * j) 4 else ({ s := s }, [])
    let (o, fl) := acstValue ctl (listGet 0 m.aux 0) (b 3) (if hasBias then ofLe bb else 0) word
      (m.drawAt (rndOf (fld ctl 3 3)) m.prog)
    let ea := wrap ((blk64 m.block 0 : Int) + i * sext (b 2) 32 + (z * j : Nat)) 64
    match s.elemWrite c id m ea (leBytes z o) [] with
    | .path => s.acstEnd c id m aPath i
    | .again s => s
    | .fault va f =>
      if f.replayable then s.cmdStall c id m f va 1 else (s.cmdFault c m f va 1).1.acstEnd c id m aPage i
    | .ok s _ _ =>
      let s := if e.po.isSome && !m.poisoned then s.cmdPoison c m (2 ^ 60 + b 4 + 4 * j) else s
      let s := s.modCmd c id fun m =>
        { m.goOn .running with
          prog := m.prog + 1, poisoned := m.poisoned || e.po.isSome, status := if at_.isNone then aUnalloc else m.status
          gst := m.gst ||| fl.gst ||| (if at_.isNone then gstAccUr else 0) }
      if w.rows * w.cols ≤ m.prog + 1 then
        match s.cmd? c id with
        | some m => s.acstEnd c id m m.status w.rows
        | none => s
      else if j + 1 = w.cols then (s.acstRelease c m (i + 1)).settleBanks c
      else s

/-- A running `acst` of a HALTED context stops at its next block of 64 window rows (R307). -/
def Cmd.acstHeld (m : Cmd) : Bool := m.win.cols = 0 || m.prog % (64 * m.win.cols) = 0

/-- The effect of a one-shot command is over: its flags, status and poison, and its release. -/
def State.matDone (s : State) (c id : Nat) (m : Cmd) (e : Eff) (rel : Option (List (Nat × Nat))) : State :=
  let _ := s
  let s := match e.po with
    | some ofs => e.s.cmdPoison c m (2 ^ 60 + ofs)
    | none => e.s
  let s := s.modCmd c id fun m =>
    { m with state := .draining, gst := m.gst ||| e.gst, status := if e.un then aUnalloc else m.status, poisoned := e.po.isSome }
  match rel with
  | some rows => s.releaseBands c m.place (m.order.getD 0) rows
  | none => s.settleBanks c

/-! ### Retry and completion -/

/-- The place of the status in a command's block (R297). -/
def statusIx (i : Instr) : Nat :=
  match i with
  | .aczero _ => 2
  | .acrd _ | .acwr _ => 4
  | .mma _ => 6
  | .acst _ => 8
  | .zsplit _ | .mmz _ => 9
  | _ => 7

/-- MATRIX_COMMAND_COMPLETION (R295, R297, R299): every write is performed; the increase, the status, the end of the slot. -/
def execMatrixCommandCompletion (c id : Nat) (s : State) : Host.Outcome State Fault Refusal :=
  match s.cmd? c id with
  | none => .next s
  | some m =>
    if m.state != .draining then .next s
    else match m.i with
      | .acalloc d _ _ sb =>
        let di := match d with | .s i => i.val | _ => 0
        let s := (s.setS c m.ctx di 1 m.prog).setS c m.ctx (di + 1) 1 m.status
        .next ((s.modCore c fun q => { q with cmds := tabDel q.cmds id }).sbDone c m.ctx sb.val)
      | _ =>
        if isMatrix m.i && !(s.core c).engineBusy id false && s.canInc c m then
          let done := match m.i with
            | .mmz _ => m.status = aOk || m.status = aUnalloc
            | _ => false
          let np := m.slices * (m.slices + 1) / 2
          .next ((s.cmdFinish c id m ((if done then [(8, np * 256)] else []) ++ [(statusIx m.i, m.status)])).settleBanks c)
        else .next s

end Sys2Proof.Machine
end

