-- ==== Sys2Proof/Machine/Slice.lean ====
section
/-!
DEFINITION. Sys2Proof/Machine/Slice.lean: the sliced product (R308 to R322), the steps by which a running matrix command
proceeds (R294, R303, R305, R317), and the retry of an engine's element (R305, R369).
-/
namespace Sys2Proof.Machine

/-! ### The split (R308, R309) -/

/-- The line exponent of finite elements: the least e with every magnitude below 2ᵉ; none when all are zero. -/
def lineExp (xs : List FVal) : Option Int :=
  xs.foldl (fun acc v => match v with
    | .fin _ m e => if m = 0 then acc else
        let t := e + Nat.log2 m + 1
        match acc with
        | none => some t
        | some q => some (if q < t then t else q)
    | _ => acc) none

/-- σ_t(x) at line exponent `e`: digit `t` of the magnitude in base 128, with the sign of x. -/
def sliceOf (e : Int) (t : Nat) (v : FVal) : Int :=
  match v with
  | .fin sg m k =>
    let sh := k + 7 * t - e
    let d := (if 0 ≤ sh then m * 2 ^ sh.toNat else m / 2 ^ (-sh).toNat) % 128
    if sg then -(d : Int) else d
  | _ => 0

/-- The exponent word of a line, and its exponent when it has slices. -/
def lineWord (xs : List FVal) : Nat × Option Int :=
  if xs.any fun v => match v with | .nan _ | .inf _ => true | _ => false then (0x7FFFFFFF, none)
  else match lineExp xs with
    | none => (0x80000000, none)
    | some e => (wrap e 32, some e)

/-- `zsplit` (R315). -/
def Cmd.split (m : Cmd) (s : State) (c : Nat) (t : Team) : Eff :=
  let b (i : Nat) : Nat := listGet 0 m.block i
  let f : Fmt := if bitAt (b 8) 7 then .f64 else .f32
  let z := fmtWidth f / 8
  let k := fld (b 7) 0 17
  if k = 0 then { s := s }
  else (natRange 0 (fld (b 8) 0 7)).foldl (fun (e : Eff) i =>
    let (e, xs) := (natRange 0 k).foldl (fun (a : Eff × List FVal) q =>
      let (e, bs) := a.1.bytes c t (b 0 + i * b 1 + q * b 2) z
      (e, fval f (ofLe bs) :: a.2)) (e, [])
    let xs := xs.reverse
    let (word, ex) := lineWord xs
    let s := e.s.teamPut c t (b 6 + 4 * i) 4 word
    let s := (natRange 1 m.slices).foldl (fun s sl =>
      let bytes := xs.map fun v => BitVec.ofNat 8 (wrap (ex.elim 0 fun e => sliceOf e sl v) 8)
      s.scrWrite c ((natRange (t.base + b 3 + (sl - 1) * b 5 + i * b 4) k).zip bytes)) s
    { e with s := s, gst := e.gst ||| (if word = 0x7FFFFFFF then flagIV.gst else 0) }) { s := s }

/-! ### Passes (R310 to R312, R317) -/

/-- The passes in order: (t, u) by rising diagonal, and within it by rising t (R310). -/
def passList (sl : Nat) : List (Nat × Nat) :=
  (natRange 2 sl).flatMap fun d => (natRange 1 (d - 1)).map fun t => (t, d - t)

/-- One chunk of one pass of an `mmz` (R317): the accumulators of diagonal t + u take the chunk sums. -/
def Cmd.chunk (m : Cmd) (s : State) (c : Nat) (tm : Team) (o tt u ch : Nat) (first : Bool) : Eff :=
  let b (i : Nat) : Nat := listGet 0 m.block i
  let w := m.win
  let k := fld (b 5) 0 17
  let k0 := 4096 * ch
  let n := min k (k0 + 4096) - k0
  let q := tt + u - 2
  if w.rows = 0 || w.cols = 0 then { s := s }
  else
    let cols := (natRange 0 w.cols).foldl (fun (a : Eff × List (List Nat)) j =>
      let (e, bs) := a.1.bytes c tm (b 1 + (u - 1) * b 4 + j * fld (b 2) 16 16 + k0) n
      (e, a.2 ++ [elements 1 bs n])) (({ s := s } : Eff), [])
    (natRange 0 w.rows).foldl (fun (e : Eff) i =>
      let (e, bs) := e.bytes c tm (b 0 + (tt - 1) * b 3 + i * fld (b 2) 0 16 + k0) n
      let row := elements 1 bs n
      let lo := tm.liveRow o (w.bank + 2 * q, w.row0 + i)
      let hi := tm.liveRow o (w.bank + 2 * q + 1, w.row0 + i)
      let outs := (natRange 0 w.cols).map fun j =>
        let z := (row.zip (listGet [] cols.2 j)).foldl (fun (a : Int) p => a + sext p.1 8 * sext p.2 8) 0
        let word (p : Option Nat) : Nat := p.elim 0 fun ph => ((e.s.core c).accGet ph (w.row0 + i) (w.col0 + j)).toNat
        let old : Nat := if first then 0 else word lo + 2 ^ 32 * word hi
        wrap ((old : Int) + z) 64
      let put (e : Eff) (p : Option Nat) (xs : List Nat) : Eff :=
        match p with
        | none => e.dead (!first)
        | some ph => { e with s := e.s.modCore c fun k => k.accRow ph (w.row0 + i) w.col0 xs }
      put (put e lo (outs.map (· % 2 ^ 32))) hi (outs.map (· / 2 ^ 32))) cols.1

/-- One chunk of a running `mmz` (R317, R322). Its first poison is reported as it is met. -/
def State.mmzStep (s : State) (c id : Nat) (m : Cmd) (t : Team) : State :=
  let sl := m.slices
  let ps := passList sl
  let k := fld (listGet 0 m.block 5) 0 17
  let nch := max 1 (ceilDiv k 4096)
  match ps[m.prog]? with
  | none => (s.modCmd c id fun m => { m with state := .draining }).settleBanks c
  | some (tt, u) =>
    let zacc := bitAt (listGet 0 m.block 5) 31 && listGet 0 m.block 8 == 0
    let e := m.chunk s c t (m.order.getD 0) tt u m.prog2 (zacc && tt == 1 && m.prog2 == 0)
    let s := match e.po with
      | some ofs => if m.poisoned then e.s else e.s.cmdPoison c m (2 ^ 60 + ofs)
      | none => e.s
    let (p', c') := if m.prog2 + 1 < nch then (m.prog, m.prog2 + 1) else (m.prog + 1, 0)
    let s := s.modCmd c id fun m =>
      { m with prog := p', prog2 := c', gst := m.gst ||| e.gst, status := if e.un then aUnalloc else m.status,
               poisoned := m.poisoned || e.po.isSome, state := if p' < ps.length then .running else .draining }
    s.settleBanks c

/-- The progress word of a stopped `mmz` goes to its block (R322). -/
def State.mmzStop (s : State) (c : Nat) (m : Cmd) : State :=
  s.setS c m.ctx ((twOf m.i).pbase.val + 8) 1 (m.prog * 256 + m.prog2)

/-! ### The fold (R313, R319) -/

/-- The value of one output from its diagonals D₂ …, the exponent words and the format. -/
def foldValue (f : Fmt) (r : Rnd) (ds : List Nat) (ea eb : Nat) (u : Nat) : Nat × Flags :=
  let special (e : Nat) : Bool := e == 0x7FFFFFFF
  let zero (e : Nat) : Bool := e == 0x80000000
  if special ea || special eb then (qnan f, flagIV)
  else if zero ea || zero eb then (0, noFlags)
  else
    -- Σ D_d 2^(7 (S + 1 − d)) at exponent eA + eB − 7 (S + 1)
    let sum := ds.foldl (fun (a : Int) d => a * 128 + sext d 64) 0
    roundDy f (sum, sext ea 32 + sext eb 32 - 7 * (ds.length + 1 : Nat)) false r u

/-- `zfold` (R319). -/
def Cmd.fold (m : Cmd) (s : State) (c : Nat) (t : Team) (o : Nat) : Eff :=
  let b (i : Nat) : Nat := listGet 0 m.block i
  let w := m.win
  let f : Fmt := if bitAt (b 4) 7 then .f64 else .f32
  let z := fmtWidth f / 8
  let r := rndOf (fld (b 4) 8 3)
  let sl := m.slices
  if w.cols = 0 then { s := s }
  else (natRange 0 w.rows).foldl (fun (e : Eff) i =>
    (natRange 0 w.cols).foldl (fun (e : Eff) j =>
      let (e, xa) := e.bytes c t (b 0 + 4 * i) 4
      let (e, xb) := e.bytes c t (b 1 + 4 * j) 4
      let word (n : Nat) : Option Nat := (t.liveRow o (w.bank + n, w.row0 + i)).map fun ph =>
        ((e.s.core c).accGet ph (w.row0 + i) (w.col0 + j)).toNat
      let ds := (natRange 0 sl).map fun q => (word (2 * q)).getD 0 + 2 ^ 32 * (word (2 * q + 1)).getD 0
      let dead := (natRange 0 (2 * sl)).any fun q => (word q).isNone
      let (x, fl) := foldValue f r ds (ofLe xa) (ofLe xb) (m.drawAt r (i * w.cols + j))
      let e := if dead then e.dead true else e
      { e with s := e.s.teamPut c t (b 2 + i * b 3 + j * z) z x, gst := e.gst ||| fl.gst }) e) { s := s }

/-! ### The engine proceeds -/

/-- One step of a running matrix command: a one-shot command has its whole effect, an `mmz` one chunk, an `acst` one
element. It waits its turn among the commands that started earlier. -/
def State.matrixStep (s : State) (c id : Nat) (m : Cmd) : State :=
  match s.team? c m.place with
  | none => s
  | some t =>
    let halted := (s.ctx t.ctx).state == .halted
    -- in a HALTED context a command that stops gives the engine back (R307, R322)
    let rest (s : State) : State := s.modCmd c id fun m => { m with state := .waiting }
    if m.state != .running || !s.ownerClear c m then s
    else if !s.turn c id m t then (if halted && s.cmdStuck c m then rest s else s)
    else
      let o := m.order.getD 0
      match m.i with
      | .aczero _ | .acwr _ => s.matDone c id m (m.move s c t o) none
      | .acrd _ => s.matDone c id m (m.move s c t o) (if bitAt (listGet 0 m.block 1) 31 then some m.win.all else none)
      | .mma _ => s.matDone c id m (m.mul s c t o) none
      | .zsplit _ => s.matDone c id m (m.split s c t) none
      | .zfold _ => s.matDone c id m (m.fold s c t o) (if bitAt (listGet 0 m.block 4) 11 then some m.rows else none)
      | .mmz _ => if halted then rest (s.mmzStop c m) else s.mmzStep c id m t
      | .acst _ => if halted && m.acstHeld then rest s else s.acstStep c id m t
      | _ => s

/-- `zsplit` (R315). -/
def execZsplit (t : TW) (s : State) : Host.Outcome State Fault Refusal := execWord (.zsplit t) (fun e s => e.matrix s t 9 []) s
/-- `mmz` (R316). -/
def execMmz (t : TW) (s : State) : Host.Outcome State Fault Refusal := execWord (.mmz t) (fun e s => e.matrix s t 9 []) s
/-- `zfold` (R318). -/
def execZfold (t : TW) (s : State) : Host.Outcome State Fault Refusal := execWord (.zfold t) (fun e s => e.matrixDraws s t 7 4 8 5) s

end Sys2Proof.Machine
end

