-- ==== Sys2Proof/Machine/Save.lean ====
section
/-!
DEFINITION. Sys2Proof/Machine/Save.lean: stopping a group at `yieldpt` or at its deadline, and the save image (R146, R237,
R251, R264, R272, R281, R288, R306, R307, R322, R337, R341 to R343).
-/
namespace Sys2Proof.Machine

/-! ### What a save waits for (R337) -/

/-- A lane of an outstanding request that an image records: logged, registered, decided while its team was parked, in a stale
wait, or staged. A logged lane of a read whose version is chosen is not: it completes before the save (R251, R252). -/
def State.accSaveable (s : State) (c id : Nat) (p : Pend) (a : Acc) : Bool :=
  (a.st == 3 && a.regs.isEmpty) || (match p.kind with
    | .waitc _ _ => a.st == 4 || a.st == 5
    | .ldv _ _ => a.tgt.isNone && a.st == 0 && a.fs == 0
    | _ => false) || s.transit.any fun t => t.core == c && t.pend == some id && t.acc.pos == a.pos

/-- A write already retired by `st` or `red`, on its way to a home or a member: it completes after the save in any case (R222). -/
def Acc.leaves (p : Pend) (a : Acc) : Bool :=
  p.slot.isNone && a.st == 0 && (match p.kind, a.tgt with
    | .store _, some (.home _ _ _) | .store _, some (.peer _ _) | .red _ _ _, some (.home _ _ _) | .red _ _ _, some (.peer _ _) => true
    | _, _ => false)

/-- A request has lanes in a group. -/
def State.pendOf (s : State) (c g : Nat) (p : Pend) : Bool :=
  if p.slot.isSome then p.ctx == g else p.accs.any fun a => s.ownerOf c p a.pos == g

/-- A command that an image records (R281, R288, R306, R307, R322). -/
def State.cmdSaveable (s : State) (c id : Nat) (m : Cmd) : Bool :=
  let k := s.core c
  match m.i with
  | .tcp _ | .tcpz _ => m.state != .draining && !k.engineBusy id true && !k.engineBusy id false
  | .cseal _ | .cwait _ | .colwait _ => true
  | .colput _ => m.state != .draining && !k.engineBusy id true
  | .acst _ => m.order.isNone || (m.state != .draining && (m.state == .stalled || m.acstHeld || s.cmdStuck c m) && !k.engineBusy id false)
  | .mmz _ => m.state != .draining
  | .aczero _ | .acrd _ | .acwr _ | .mma _ | .zsplit _ | .zfold _ => m.order.isNone || (m.state != .draining && s.cmdStuck c m)
  | .acalloc _ _ _ _ | .acfree _ _ _ => m.order.isNone
  | .exposeExpose _ | .exposeConfig _ | .exposeJoin _ => m.state == .draining
  | _ => false

/-- Everything outstanding of a group is done or can be recorded. -/
def State.saveReady (s : State) (c g : Nat) : Bool :=
  let k := s.core c
  !(k.results.any fun r => r.2.ctx == g) &&
    (k.pend.all fun p => !s.pendOf c g p.2 || (!p.2.accs.isEmpty && p.2.accs.all fun a => s.accSaveable c p.1 p.2 a || Acc.leaves p.2 a)) &&
    k.cmds.all fun m => m.2.ctx != g || s.cmdSaveable c m.1 m.2

/-- The commands of a saved group that an image records stop; `mmz` writes its progress (R281, R306, R322). -/
def State.stopCmds (s : State) (c g : Nat) : State :=
  (s.core c).cmds.foldl (fun s q =>
    if q.2.ctx != g then s
    else match q.2.i with
      | .tcp _ | .tcpz _ | .colput _ => s.modCmd c q.1 fun m => { m with state := .waiting, aux := [] }
      | .acst _ | .aczero _ | .acrd _ | .acwr _ | .mma _ | .zsplit _ | .zfold _ => s.modCmd c q.1 fun m => { m with state := .waiting }
      | .mmz _ => (if q.2.order.isSome then s.mmzStop c q.2 else s).modCmd c q.1 fun m => { m with state := .waiting }
      | _ => s) s

/-- A `waitc` that was decided while its team was parked writes its status and lowers its slot (R125, R272). -/
def State.finishWaits (s : State) (c : Nat) (mine : Pend → Bool) : State :=
  ((s.core c).pend.filter fun p => mine p.2).foldl (fun s p => (p.2.accs.filter (·.st == 5)).foldl (fun s a =>
    (s.waitcStatus c p.1 a.pos a.x).finishLane c p.1 a.pos) s) s

/-- The group is saved. -/
def State.saveGroup (s : State) (c g live : Nat) (full : Bool) (ranges : List (Nat × Nat)) : State :=
  ((s.finishWaits c (·.ctx == g)).stopCmds c g).modGroup c g fun r => { r with state := .saved, live := live, full := full, ranges := ranges }

/-- A full save of a group. -/
def State.saveFull (s : State) (c g : Nat) : State := s.saveGroup c g (2 ^ 64 - 1) true []

/-- An abandoned word: its lanes stand at it (R326, R337). -/
def State.standAt (s : State) (c g : Nat) (x : Group) (cu : Cursor) : State :=
  let s := eachLane cu.live (fun p s =>
    let s := if cu.k = 0 then s else s.spill c x.place p (if onceClass cu.ecl then cu.gx else (s.lane c p).lat)
    s.modLane c p fun l => { l with lpc := BitVec.ofNat 64 cu.base, resw := cu.k }) s
  s.modGroup c g fun r => { r with cur := none, blk := none, phase := 0 }

/-- The forced save of a group whose deadline has passed (R337). -/
def State.forceSave (s : State) (c g : Nat) : State :=
  match s.group? c g with
  | none => s
  | some x =>
    let boundary (s : State) : State := if s.saveReady c g then s.saveFull c g else s
    match x.state, x.cur, x.blk with
    | .parked, _, _ => match x.cur with
      | some cu => if s.saveReady c g then (s.standAt c g x cu).saveFull c g else s
      | none => boundary s
    | .run, none, _ | .wait, none, _ => if x.nextClk ≤ s.clk.toNat then boundary s else s
    | .wait, some cu, some .smwait | .wait, some cu, some .stepadv | .wait, some cu, some .bind =>
      if s.saveReady c g then (s.standAt c g x cu).saveFull c g else s
    | .wait, some cu, some .gfuse =>
      if (s.ctx (s.ctxOf c x)).detm then if s.saveReady c g then (s.standAt c g x cu).saveFull c g else s
      else boundary (s.endFuse c g x fTimeout)
    | _, _, _ => s

/-! ### Records of the image (R342, R343) -/

def Role.code : Role → Nat
  | .vector => 0
  | .feeder => 1
  | .matrix => 2

/-- The bits of a list of small numbers. -/
def bitsOf (xs : List Nat) : Nat := xs.foldl (fun m i => m ||| 2 ^ i) 0

/-- A group record (R342). -/
def State.groupBytes (s : State) (c : Nat) (x : Group) : List Byte :=
  let hset := bitsOf ((x.positions.filter fun p => (s.lane c p).inHandler).map (· - x.gbase))
  leBytes 4 x.gbase ++ leBytes 4 x.gwid ++ leBytes 4 x.grpix ++
    leBytes 4 (x.hcause * 2 ^ 24 + b2n x.full * 512 + b2n x.hmode * 256 + x.role.code) ++ leBytes 4 x.gst.toNat ++
    leBytes 4 x.ftv.toNat ++ leBytes 8 ((natRange 0 8).foldl (fun n k => n + x.sbCount k % 64 * 2 ^ (6 * k)) 0) ++
    leBytes 8 x.live ++ leBytes 24 0 ++ leBytes 32 hset ++ leBytes 32 0 ++ (x.scal.toList.map fun w => leBytes 4 w.toNat).flatten

def HoldKind.code : HoldKind → Nat
  | .none => 0
  | .arrive => 1
  | .token => 2
def HoldRec.code : HoldRec → Nat
  | .team b => b.val
  | .cluster => 4
  | .grid => 5
def BatchState.code : BatchState → Nat
  | .empty => 0
  | .sealed => 1
  | .complete => 2

/-- A lane record (R343). -/
def Lane.bytes (l : Lane) : List Byte :=
  let pred := bitsOf ((natRange 1 7).filter fun i => (l.p[i]?).getD false) / 2
  leBytes 8 l.lpc.toNat ++ leBytes 8 l.thdr.toNat ++
    leBytes 4 (l.resw * 2 ^ 28 + l.tw * 2 ^ 24 + b2n l.exited * 2 ^ 23 + l.hk.code * 2 ^ 21 + l.hr.code * 2 ^ 18 + pred * 2 ^ 9) ++
    leBytes 4 l.hg.toNat ++ leBytes 4 l.rstep.toNat ++ leBytes 4 l.ridx.toNat ++ leBytes 4 l.rln ++ leBytes 4 l.open_.length ++
    (l.hsave.toList.map fun w => leBytes 4 w.toNat).flatten ++
    (l.batch.toList.map fun b => leBytes 4 (b.1.code * 2 ^ 30 + b.2.length)).flatten ++ leBytes 8 0

/-- A barrier record of 1,088 bytes. -/
def BarRec.bytes (r : BarRec) : List Byte :=
  leBytes 4 r.gen.toNat ++ leBytes 4 r.exp ++ leBytes 4 r.arr ++ leBytes 4 r.mlo ++ leBytes 4 r.mlg ++ leBytes 4 (b2n r.mv) ++
    leBytes 40 0 ++ leBytes 1024 (bitsOf r.amap)

/-- 15 latches, 240 bytes. -/
def latBytes (v : Vector QWord 16) : List Byte := ((natRange 0 15).map fun i => leBytes 16 ((v[i]?).getD 0).toNat).flatten

def CmdState.code : CmdState → Nat
  | .waiting => 0
  | .running => 1
  | .stalled => 2
  | .draining => 3

/-- The rows of one opcode that share its word (R96, R386). -/
def rowSel : Instr → Nat
  | .ctxldUpdate _ | .ctxsvStop _ | .exposeConfig _ => 1
  | .ctxldResume _ | .ctxsvEvict _ | .exposeJoin _ => 2
  | _ => 0

/-- A command of 256 bytes; the layout within the entry is the model's own (log entry 30). -/
def State.cmdBytes (s : State) (c id : Nat) (m : Cmd) : List Byte :=
  let l := s.lane c m.owner
  let member := if l.open_.contains id then 0 else match listIdx (fun b : BatchState × List Nat => b.2.contains id) l.batch.toList with
    | some b => b + 1
    | none => 31
  let gb := (s.group? c m.ctx).elim 0 (·.gbase)
  let words (n : Nat) (xs : List Nat) : List Byte := ((natRange 0 10).map fun i => leBytes n (listGet 0 xs i)).flatten
  leBytes 8 ((encodeNat m.i).getD 0) ++ words 4 m.block ++ leBytes 4 m.thr.toNat ++ leBytes 4 l.rln ++ leBytes 8 m.prog ++
    leBytes 8 m.prog2 ++ leBytes 8 (m.order.elim 0 (· + 1)) ++ leBytes 4 m.state.code ++ leBytes 4 m.status ++ leBytes 4 m.gst ++
    leBytes 4 (b2n m.hm + 2 * b2n m.poisoned + 16 * rowSel m.i + 256 * member) ++ leBytes 8 m.lpc ++ leBytes 4 gb ++
    leBytes 4 m.block.length ++ words 4 m.shape ++ leBytes 4 m.shape.length ++ leBytes 4 m.aux.length ++
    ((natRange 0 8).map fun i => leBytes 8 (listGet 0 m.aux i)).flatten ++ leBytes 32 (bitsOf (m.lanes.map (· - gb)))

/-- The instruction word that an outstanding request came from, but for its prefix and address fields. -/
def Pend.instr (p : Pend) : Instr :=
  let m : MemRef := ⟨.s 0, .lit 0, 0, false⟩
  let sb : Fin 8 := ⟨p.slot.getD 0 % 8, Nat.mod_lt _ (by decide)⟩
  let wOf (n : Nat) : Width := if n = 1 then .n8 else if n = 2 then .n16 else if n = 4 then .b32 else if n = 8 then .b64 else .b128
  match p.kind with
  | .load w ro => if ro then .ldc ⟨pfx0, w, p.dst, m, sb⟩ else .ld ⟨pfx0, w, p.dst, m, sb⟩
  | .lds w => .lds ⟨pfx0, w, p.dst, m, sb⟩
  | .ldx n => .ldx ⟨pfx0, wOf n, p.dst, m, sb⟩
  | .atom op ty team => .atom pfx0 op team ty p.dst m sb
  | .cas w64 team => .cas pfx0 team w64 p.dst m sb
  | .waitc c w64 => .waitc pfx0 c w64 p.dst m sb
  | .store n => .st ⟨pfx0, wOf n, p.dst, m⟩
  | .red op ty team => .red pfx0 op team ty p.dst m
  | .range op => if op = 0 then .cwb ⟨pfx0, p.dst, m, sb⟩ else if op = 1 then .cwbi ⟨pfx0, p.dst, m, sb⟩ else .cinv ⟨pfx0, p.dst, m, sb⟩
  | .ldv w nt => if nt then .ldvNt ⟨pfx0, w, p.dst, m, sb⟩ else .ldv ⟨pfx0, w, p.dst, m, sb⟩
  | .stv n => .stv ⟨pfx0, wOf n, p.dst, m⟩
  | .vpub => .vpub ⟨pfx0, p.dst, m, sb⟩
  | .engine _ _ | .flush => .nop pfx0

/-- A log entry: 64 bytes, then 48 bytes a lane; the layout within is the model's own (log entry 30). -/
def State.logBytes (s : State) (c id : Nat) (p : Pend) (accs : List Acc) : List Byte :=
  let gb := (s.group? c (s.ownerOf c p ((accs.head?).elim 0 (·.pos)))).elim 0 (·.gbase)
  let log := (s.core c).log.find? fun e => e.2.pend == id
  let lane (a : Acc) : List Byte :=
    let q := log.bind fun e => e.2.lanes.find? (·.pos == a.pos)
    let seq := (s.transit.find? fun t => t.core == c && t.pend == some id && t.acc.pos == a.pos).elim 0 fun t => t.seq + 1
    leBytes 2 (s.lane c a.pos).rln ++ leBytes 2 a.n ++ leBytes 1 (q.elim 0 (·.code)) ++ leBytes 1 (q.elim 0 (·.level)) ++
      leBytes 1 (b2n (q.any (·.touched)) + 2 * b2n (q.any (·.dropped))) ++ leBytes 1 (if a.st = 4 then 0 else a.st) ++ leBytes 8 a.va ++
      leBytes 16 a.x ++ leBytes 8 a.y ++ leBytes 8 (if seq = 0 then q.elim 0 (·.line) else 2 ^ 63 + seq)
  leBytes 8 ((encodeNat p.instr).getD 0) ++ leBytes 8 p.hdr ++ leBytes 4 p.k ++ leBytes 4 gb ++
    leBytes 4 (b2n p.hm + 2 * b2n log.isSome + 4 * log.elim 0 (·.2.acc) + id % 2 ^ 16 * 2 ^ 16) ++ leBytes 4 accs.length ++
    leBytes 32 (bitsOf (p.lanes.map (· - gb))) ++ (accs.map lane).flatten

/-- A block of 256 bytes that keeps 16 bytes and the latches of a lane: the model's own (log entry 31). -/
def latBlock (head : List Byte) (v : Vector QWord 16) : List Byte := head ++ leBytes (16 - head.length) 0 ++ latBytes v

/-- The latches of the lanes of a log entry (R330). -/
def Pend.latBlocks (p : Pend) (accs : List Acc) : List (List Byte) :=
  accs.map fun a => latBlock [] ((p.lats.find? (·.1 == a.pos)).elim (Vector.replicate 16 0) (·.2))

/-- A registered `waitc` lane of 16 bytes (R272): owner, DATA register, width, slot, and a number of its instruction. -/
def State.monBytes (s : State) (c id : Nat) (p : Pend) (a : Acc) : List Byte :=
  let w64 := match p.kind with | .waitc _ w => w | _ => false
  leBytes 4 ((s.lane c a.pos).rln + p.dst.code % 64 * 2 ^ 16 + b2n w64 * 2 ^ 24 + p.slot.getD 0 % 8 * 2 ^ 28) ++ leBytes 4 (id % 2 ^ 16) ++
    leBytes 4 ((s.group? c p.ctx).elim 0 (·.gbase)) ++ leBytes 4 0

/-- A pending deferred trap of 48 bytes. -/
def Deferred.bytes (d : Deferred) (gbase : Nat) : List Byte :=
  let res := match d.resume with
    | none => 0
    | some (h, k) => 2 ^ 62 + k * 2 ^ 52 + h
  leBytes 4 d.code ++ leBytes 4 gbase ++ leBytes 32 (bitsOf (d.lanes.map (· - gbase))) ++ leBytes 8 (res + b2n d.inHandler * 2 ^ 63)

/-- The words and the latches of its lanes (R330). -/
def Deferred.latBlocks (d : Deferred) : List (List Byte) :=
  d.lanes.map fun p => latBlock (leBytes 2 d.detail ++ leBytes 4 ((d.info.find? (·.1 == p)).elim 0 (·.2)))
    ((d.lats.find? (·.1 == p)).elim (Vector.replicate 16 0) (·.2))

/-! ### Writing an image (R338, R341) -/

/-- Writes bytes at a physical address. -/
def State.homeBlock (s : State) (a : Nat) (bs : List Byte) : State := s.homeRaw ((natRange a bs.length).zip bs) []

/-- The groups of a team in ascending GBASE. -/
def State.teamGroups (s : State) (c j : Nat) : List (Nat × Group) :=
  let gs := (s.core c).groups.filter fun g => g.2.place == j
  let bases := gs.foldl (fun l g => insSorted g.2.gbase l) []
  bases.filterMap fun b => gs.find? fun g => g.2.gbase == b

/-- Maximal runs of blocks of 256 bytes, as (offset, length). -/
def blockRuns : List Nat → List (Nat × Nat)
  | [] => []
  | b :: t => match blockRuns t with
    | (o, n) :: r => if o = 256 * (b + 1) then (256 * b, n + 256) :: r else (256 * b, 256) :: (o, n) :: r
    | [] => [(256 * b, 256)]

/-- The named ranges of the groups, merged (R146). -/
def mergeRanges (rs : List (Nat × Nat)) : List (Nat × Nat) :=
  blockRuns (rs.foldl (fun l r => (natRange (r.1 / 256) (r.2 / 256)).foldl (fun l b => insSorted b l) l) [])

/-- An image under way: the state, the image's base, the next offset, and (offset, count) of each section so far. -/
structure Img where
  s : State
  base : Nat
  off : Nat
  dir : List (Nat × Nat)

/-- Adds a section of `len` bytes: its count and its pieces at offsets within it. -/
def Img.sect (m : Img) (count len : Nat) (pieces : List (Nat × List Byte)) : Img :=
  { m with s := pieces.foldl (fun s q => s.homeBlock (m.base + m.off + q.1) q.2) m.s, off := m.off + len, dir := m.dir ++ [(m.off, count)] }

/-- A section of entries that follow each other. -/
def Img.flat (m : Img) (es : List (List Byte)) : Img := m.sect es.length es.flatten.length [(0, es.flatten)]

/-- The directory entry `k` of a context. -/
def State.dirEntry (s : State) (x k : Nat) : Nat := (s.ctx x).svbase.toNat + 0x10000 + 16 * k

/-- The first 4 KiB boundary of the SVBASE area past every image of the directory. -/
def State.nextImage (s : State) (x : Nat) : Nat :=
  (natRange 0 (s.ctx x).saved.toNat).foldl (fun m k =>
    let e := s.dirEntry x k
    max m (ceilDiv (s.homeRead e 8 + s.homeRead (e + 12) 4 * 1024) 4096 * 4096)) 0x110000

/-- The scratchpad allocation of a team, in its park slot when it is parked (R126). -/
def State.teamScratch (s : State) (c j : Nat) (t : Team) (ofs n : Nat) : List Byte :=
  if t.state = .parked then s.mem.read (parkSlot c j + 0x200000 + ofs) n else (s.core c).scratch.read (t.base + ofs) n

/-- The latch spill of a lane is in use: it stands inside a clause, or entered the handler from one (R326, R333). -/
def Lane.spilled (l : Lane) : Bool := l.resw != 0 || (l.inHandler && l.tw != 0)

/-- Writes the image of a team at an offset of the SVBASE area: the state and the image's length. -/
def State.writeImage (s : State) (c j : Nat) (t : Team) (g : Grid) (ofs : Nat) : State × Nat :=
  let x := s.ctx t.ctx
  let base := x.svbase.toNat + ofs
  let k := s.core c
  let gs := s.teamGroups c j
  let lanes := gs.flatMap fun q => q.2.positions.filterMap fun p => (tabGet? k.lanes p).map fun l => (q.2, p, l)
  let full := gs.any (·.2.full)
  let gone : Lane := { emptyLane with rln := 0 }
  let recOf (r : Nat) : List Byte := (lanes.find? fun q => q.2.2.rln == r).elim ({ gone with rln := r } : Lane).bytes fun q => q.2.2.bytes
  let nl := g.teamLanes
  let ranges := if full then [] else mergeRanges (gs.flatMap (·.2.ranges))
  let crec := if t.n % max 1 g.cs = 0 then tabGet? g.crecs (t.n / max 1 g.cs) else none
  let grec := if t.n = 0 then g.rec_ else none
  let pends := k.pend.filter fun p => p.2.place == j
  let isMon (p : Pend) (a : Acc) : Bool := !x.detm && a.st == 4 && (match p.kind with | .waitc _ _ => true | _ => false)
  let m : Img := { s := s, base := base, off := 256, dir := [] }
  let m := m.flat (gs.map fun q => s.groupBytes c q.2)
  let m := m.flat ((natRange 0 nl).map recOf)
  let m := m.sect nl (256 * nl) (lanes.flatMap fun q => (natRange 0 64).filterMap fun i =>
    if bitAt q.1.live i then some (256 * q.2.2.rln + 4 * i, leBytes 4 (regGet q.2.2.v i).toNat) else none)
  let spl := b2n (lanes.any fun q => q.2.2.spilled) * nl
  let m := m.sect spl (256 * spl) (lanes.filterMap fun q =>
    if q.2.2.spilled then some (256 * q.2.2.rln, s.mem.read (spillAddr c j q.2.2.rln) 240) else none)
  let m := m.sect (if t.size = 0 then 0 else 1) t.size (if full then [(0, s.teamScratch c j t 0 t.size)]
    else ranges.map fun r => (r.1, s.teamScratch c j t r.1 r.2))
  let m := m.flat (ranges.map fun r => leBytes 4 r.1 ++ leBytes 4 r.2)
  let m := m.flat ((t.recs.toList ++ crec.toList ++ grec.toList).map BarRec.bytes)
  let m := m.flat (t.sems.map fun q => leBytes 4 (q.1 + 2 ^ 31) ++ leBytes 4 q.2.toNat)
  let m := m.flat (t.banks.map fun b =>
    leBytes 4 (b.1 + 256 * bitsOf ((natRange 0 4).filter fun i => listGet false b.2.bands i)) ++ leBytes 4 b.2.holder ++
      leBytes 4 b.2.mapAt ++ leBytes 4 (b.2.freeAt.elim 0 (· + 1)) ++
      ((natRange 0 64).flatMap fun r => (natRange 0 128).flatMap fun q => leBytes 4 (k.accGet b.2.phys r q).toNat))
  let m := m.flat ((k.cmds.filter fun q => q.2.place == j).map fun q => s.cmdBytes c q.1 q.2)
  let logs := pends.filterMap fun p =>
    let as_ := p.2.accs.filter fun a => !isMon p.2 a && !Acc.leaves p.2 a
    if as_.isEmpty then none else some (p.1, p.2, as_)
  let traps := gs.flatMap fun q => q.2.deferred.map fun d => (q.2.gbase, d)
  let m := m.flat (logs.map fun q => s.logBytes c q.1 q.2.1 q.2.2)
  let m := m.flat (pends.flatMap fun p => (p.2.accs.filter (isMon p.2)).map (s.monBytes c p.1 p.2))
  let m := m.flat (traps.map fun q => q.2.bytes q.1)
  -- the model's own table of lane positions and its blocks of latches follow the sections (log entry 31)
  let posOf (r : Nat) : List Byte := leBytes 4 ((lanes.find? fun q => q.2.2.rln == r).elim 0 fun q => q.2.1 + 1)
  let blocks := (logs.flatMap fun q => q.2.1.latBlocks q.2.2) ++ traps.flatMap fun q => q.2.latBlocks
  let own := ((natRange 0 nl).map posOf ++ blocks).flatten
  let m := m.sect 0 own.length [(0, own)]
  let shape := g.cw + 16 * g.ch + b2n g.gbar * 128
  let head := leBytes 8 g.kimg.toNat ++ leBytes 4 t.n ++ leBytes 4 t.grid ++ leBytes 4 g.gx ++ leBytes 4 g.gy ++ leBytes 4 g.gz ++
    leBytes 4 shape ++ leBytes 8 g.args.toNat ++ leBytes 8 g.compl.toNat ++ leBytes 4 (t.prio * 2 ^ 16 + gs.length) ++
    leBytes 4 x.step.toNat ++ leBytes 4 (b2n full + 2 * b2n crec.isSome + 4 * b2n grec.isSome) ++ leBytes 4 0 ++
    (m.dir.map fun d => leBytes 4 d.1 ++ leBytes 4 d.2).flatten ++ leBytes 80 0
  (m.s.homeBlock base head, m.off)

/-- What goes on of a request when its team leaves the core: its retired writes, under no lane (R222). -/
def Pend.orphan (p : Pend) : Option Pend :=
  match p.accs.filter (Acc.leaves p) with
  | [] => none
  | as_ => some { p with place := 16, ctx := 2 ^ 20, accs := as_.map fun a => { a with pos := 2 ^ 24 + a.pos } }

/-- What a saved or discarded team held in its core is gone, but for its retired writes. -/
def State.dropTeam (s : State) (c j : Nat) : State :=
  let k := s.core c
  let mine (g : Nat) : Bool := (tabGet? k.groups g).any (·.place == j)
  let pos (p : Nat) : Bool := k.groups.any fun g => g.2.place == j && g.2.gbase ≤ p && p < g.2.gbase + g.2.gwid
  let pends := (k.pend.filter fun p => p.2.place == j).map (·.1)
  let s := { s with mons := s.mons.filter fun m => !(m.core == c && pends.contains m.pend) }
  let rest (p : Nat × Pend) : Option (Nat × Pend) := if p.2.place = j then p.2.orphan.map fun q => (p.1, q) else some p
  let drop (k : Core) : Core := { k with
    teams := tabDel k.teams j, groups := k.groups.filter (·.2.place != j), lanes := k.lanes.filter fun l => !pos l.1,
    pend := k.pend.filterMap rest, log := k.log.filter fun e => !pends.contains e.2.pend,
    cmds := k.cmds.filter (·.2.place != j), results := k.results.filter fun r => !mine r.2.ctx }
  (s.modCore c drop).fuseRecheck c

/-- Pins that a saved request holds are given back; its lanes resolve anew after the restore (R251). -/
def State.unpinTeam (s : State) (c j : Nat) : State :=
  ((s.core c).pend.filter fun p => p.2.place == j).foldl (fun s p => p.2.pins.foldl (fun s q => s.unpin q.1 q.2) s) s

/-- The last group of a team is saved: the image, its directory entry, and SAVED (R338). -/
def State.imageTeam (s : State) (c j : Nat) : State :=
  match s.team? c j with
  | none => s
  | some t => match s.grid? t.grid with
    | none => s
    | some g =>
      let ofs := s.nextImage t.ctx
      let (s, len) := s.writeImage c j t g ofs
      let e := s.dirEntry t.ctx (s.ctx t.ctx).saved.toNat
      let s := (s.homePutRaw e 8 ofs).homePutRaw (e + 8) 8 (t.n + ceilDiv len 1024 * 2 ^ 32)
      let s := s.postLines (e / 64 :: natRange (((s.ctx t.ctx).svbase.toNat + ofs) / 64) (ceilDiv len 64))
      let s := s.modCtx t.ctx fun k => { k with saved := k.saved + 1 }
      -- a grid with a grid record waits to be placed again (R127, R264)
      let s := if g.gbar then s.modGrid t.grid fun g => { g with placed := false } else s
      (s.unpinTeam c j).dropTeam c j

def xOk : Nat := 0
def xState : Nat := 1
def xRecord : Nat := 2
def xFault : Nat := 3
def xOp : Nat := 4
def xHalted : Nat := 5

/-- The 128 bytes of a slot's record (R87). -/
def Ctx.bytes (k : Ctx) : List Byte :=
  leBytes 8 k.hbase.toNat ++ leBytes 8 k.hlim.toNat ++ leBytes 8 k.hofs.toNat ++ leBytes 8 k.ptroot.toNat ++
    leBytes 8 k.tqbase.toNat ++ leBytes 8 k.svbase.toNat ++ leBytes 8 k.rkey.toNat ++ leBytes 4 k.bkey.toNat ++
    leBytes 4 k.ctxcfg.toNat ++ leBytes 4 k.lead.toNat ++ leBytes 4 k.ftvd.toNat ++ leBytes 4 k.zwt.toNat ++
    leBytes 4 k.dln.toNat ++ leBytes 4 k.step.toNat ++ leBytes 4 k.saved.toNat ++ leBytes 40 0

/-- Writes the record of a slot at the block's address in the issuing context, and releases it at module scope (R97): the status, or
none while the write must wait (R232). -/
def State.putRecord (s : State) (own : Nat) (b : List Nat) (k : Ctx) : Option (State × Nat) :=
  match s.xlateBytes own .write (vaRange (blk64 b 0 % 2 ^ 50) 128) with
  | .error _ => some (s, xFault)
  | .ok (pas, _, _) =>
    if !s.canWrite (linesOf pas) none then none
    -- 128 bytes are no access to the link registers (R347)
    else if pas.any inLinkRegs then some (s, xOk)
    else some ((s.homeWrite (pas.zip k.bytes) []).postLines (linesOf pas), xOk)

/-- A context that is STOPPING and has no team left in a core is STOPPED, and the record of its STOP is written at that moment
(R90); not before an exposure in progress ends. -/
def State.stopDone (s : State) (x : Nat) : State :=
  let k := s.ctx x
  let stopped (s : State) : State := s.modCtx x fun k => { k with state := .stopped, stopper := none }
  if k.state ≠ .stopping ∨ s.expo.stopped ∨ s.cores.any (fun q => q.2.teams.any (·.2.ctx == x)) then s
  else match k.stopper.bind fun q => (s.cmd? q.1 q.2).map fun m => (q.1, q.2, m) with
    | none => stopped s
    | some (c, id, m) => match s.putRecord ((s.team? c m.place).elim 0 (·.ctx)) m.block k with
      | none => s
      | some (s, st) => (stopped s).modCmd c id fun m => { m with state := .draining, status := st }

/-- Images of the teams of a core whose every group is saved. -/
def State.imageTeams (s : State) (c : Nat) : State :=
  (s.core c).teams.foldl (fun s q =>
    let gs := s.teamGroups c q.1
    if (s.ctx q.2.ctx).state == .stopping && !gs.isEmpty && gs.all (·.2.state == .saved) then (s.imageTeam c q.1).stopDone q.2.ctx
    else s.stopDone q.2.ctx) s

/-! ### The two stop points -/

/-- The block of `yieldpt`: live map, ranges, and whether the save is full (R146). -/
def yieldBlock (b : List Nat) (vregs size : Nat) : Nat × List (Nat × Nat) × Bool :=
  let live := blk64 b 0
  let n := fld (blk32 b 2) 0 3
  let ranges := (natRange 0 n).map fun i => (blk32 b (3 + 2 * i), blk32 b (4 + 2 * i))
  let bad := decide (2 ^ vregs ≤ live) || 4 < n || fld (blk32 b 2) 3 29 != 0 ||
    ranges.any fun r => r.1 % 256 != 0 || r.2 % 256 != 0 || size < r.1 + r.2
  if bad then (2 ^ 64 - 1, [], true) else (live, ranges, false)

/-- `yieldpt` (R146): a stop point of a STOPPING context, otherwise no effect. -/
def execYieldpt (p : Pfx) (pbase : Fin 256) (s : State) : Host.Outcome State Fault Refusal :=
  let r := execWord (.yieldpt p pbase) (fun e s =>
    let stop := (s.ctx (s.ctxOf e.c e.x)).state == .stopping && !e.x.hmode && (s.liveLanes e.c e.x).all e.cu.issuing.contains
    if !stop then .done s
    else if !s.saveReady e.c e.g then .wait s .instr
    else
      let b := (natRange pbase.val 11).map fun k => (regGet e.x.scal k).toNat
      let (live, ranges, full) := yieldBlock b (s.vregsOf e.c e.x) ((s.teamOf e.c e.x).elim 0 (·.size))
      .done (s.saveGroup e.c e.g live full ranges)) s
  match r, s.focus with
  | .next s', some (c, _) => .next (s'.imageTeams c)
  | r, _ => r

/-- DLN_EXPIRY (R90, R337): groups of a STOPPING context at a clause boundary or in an abandoned wait are saved in full. -/
def execDlnExpiry (x : Nat) (s : State) : Host.Outcome State Fault Refusal :=
  if (s.ctx x).state != .stopping then .next s
  else
    .next ((s.cores.map Prod.fst).foldl (fun s c =>
      let s := if s.pastDln x then (s.core c).groups.foldl (fun s q =>
          if s.ctxOf c q.2 == x then s.forceSave c q.1 else s) s else s
      s.imageTeams c) s |>.stopDone x)

end Sys2Proof.Machine
end

