-- ==== Sys2Proof/Machine/Restore.lean ====
section
/-!
DEFINITION. Sys2Proof/Machine/Restore.lean: the restore of a saved team (R127, R237, R251, R264, R272, R281, R290, R307,
R338, R389), and the placement of grids with a grid record (R121, R253, R264).
-/
namespace Sys2Proof.Machine

/-! ### Reading an image (R341 to R343) -/

/-- An image: its physical address and its length in bytes. -/
structure Image where
  at_ : Nat
  len : Nat
  deriving DecidableEq, Repr

/-- The image of directory entry `k` of a context. -/
def State.image (s : State) (x k : Nat) : Image :=
  let e := s.dirEntry x k
  ⟨(s.ctx x).svbase.toNat + s.homeRead e 8, s.homeRead (e + 12) 4 * 1024⟩

/-- A field of an image. -/
def State.img (s : State) (m : Image) (o n : Nat) : Nat := s.homeRead (m.at_ + o) n
/-- Bytes of an image. -/
def State.imgBytes (s : State) (m : Image) (o n : Nat) : List Byte := s.homeBytes (natRange (m.at_ + o) n)
/-- Offset and count of section `k`. -/
def State.imgSect (s : State) (m : Image) (k : Nat) : Nat × Nat := (s.img m (0x40 + 8 * k) 4, s.img m (0x44 + 8 * k) 4)

def imgTeam (s : State) (m : Image) : Nat := s.img m 8 4
def imgGrid (s : State) (m : Image) : Nat := s.img m 12 4
def imgPrio (s : State) (m : Image) : Nat := s.img m 0x32 1

/-- The launch record that an image implies (R115). -/
def State.imgRecord (s : State) (m : Image) : List Byte :=
  s.imgBytes m 0 8 ++ s.imgBytes m 0x10 16 ++ s.imgBytes m 0x20 16 ++ leBytes 24 0

/-- The size of an entry of section `k` of a team of a grid. -/
def sectSize (k scratch : Nat) : Nat :=
  match k with
  | 0 => 1152 | 1 => 128 | 2 => 256 | 3 => 256 | 4 => scratch | 5 => 8 | 6 => 1088 | 7 => 8 | 8 => 32784 | 9 => 256 | 10 => 64
  | 11 => 16 | 12 => 48 | _ => 0

/-- A group of an image. -/
structure GImg where
  gbase : Nat
  gwid : Nat
  grpix : Nat
  word : Nat
  at_ : Nat
  deriving DecidableEq, Repr

def State.imgGroups (s : State) (m : Image) : List GImg :=
  let (o, n) := s.imgSect m 0
  (natRange 0 n).map fun i =>
    let a := o + 1152 * i
    ⟨s.img m a 4, s.img m (a + 4) 4, s.img m (a + 8) 4, s.img m (a + 12) 4, a⟩

/-- A group record fits the kernel's shape. -/
def GImg.fits (q : GImg) (g : Grid) : Bool :=
  [8, 16, 32, 64, 128, 256].contains q.gwid && q.gbase % q.gwid == 0 && q.grpix < g.groups && fld q.word 0 2 == (g.role q.grpix).code

/-- The image is inconsistent (R338). -/
def State.imgBad (s : State) (m : Image) (g : Grid) : Bool :=
  let gs := s.imgGroups m
  ((natRange 0 13).any fun k => let (o, n) := s.imgSect m k; m.len < o + n * sectSize k g.scratch) ||
    !gs.all (·.fits g) || gs.length != s.img m 0x30 2 || g.teamLanes < gs.foldl (fun n q => n + q.gwid) 0 ||
    (s.imgSect m 1).2 != g.teamLanes || (s.imgSect m 2).2 != g.teamLanes

/-- The grid of an image: as the module still holds it, or as the image describes it; none when KIMG names no header. -/
def State.imgGridOf (s : State) (x : Nat) (m : Image) : Option Grid :=
  match s.grid? (imgGrid s m) with
  | some g => if g.kimg.toNat = s.img m 0 8 ∧ (g.ctx = x ∨ g.ctx = 64) then some { g with ctx := x } else none
  | none =>
    let r := s.imgRecord m
    let kimg := le64 r 0
    match if flatOk kimg true && kimg % 64 = 0 then s.devRead x kimg 64 else .error (0, ⟨pVKind, 0, 0⟩) with
    | .error _ => none
    | .ok h =>
      if headerBreaks h || recordBreaks r then none
      else
        let g := newGrid x r h (imgPrio s m) none (s.ctx x).step
        let held := ((natRange 0 (s.ctx x).saved.toNat).filterMap fun k =>
          let q := s.image x k
          if imgGrid s q = imgGrid s m then some (imgTeam s q) else none)
        some { g with lo := g.n, gone := (natRange 0 g.n).filter fun i => !held.contains i }

/-! ### Entries of the directory -/

/-- Entry `k` is consumed: the last entry takes its place, and SAVED decreases by 1 (R338; log entry 32). -/
def State.consume (s : State) (x k : Nat) : State :=
  let n := (s.ctx x).saved.toNat
  let s := if k + 1 = n then s else s.homeBlock (s.dirEntry x k) (s.homeBytes (natRange (s.dirEntry x (n - 1)) 16))
  s.modCtx x fun c => { c with saved := c.saved - 1 }

/-- An inconsistent image halts its context, and is not tried again (R338). -/
def State.badImage (s : State) (x : Nat) (m : Image) : State :=
  let team := imgTeam s m
  let s := s.modCtx x fun k => { k with refused := (imgGrid s m, team) :: k.refused }
  ((s.writeRecord x { kind := 3, code := tRestore, team := team }).1).haltCtx x

/-! ### Rebuilding a team -/

/-- A barrier record of an image. -/
def State.imgRec (s : State) (m : Image) (i : Nat) : BarRec :=
  let a := (s.imgSect m 6).1 + 1088 * i
  let map := s.img m (a + 64) 1024
  { gen := BitVec.ofNat 32 (s.img m a 4), exp := s.img m (a + 4) 4, arr := s.img m (a + 8) 4, mlo := s.img m (a + 12) 4,
    mlg := s.img m (a + 16) 4, mv := s.img m (a + 20) 4 != 0, amap := (natRange 0 8192).filter fun r => bitAt map r }

/-- Where the lanes of an image stood: (RLN, position at the save). Without the model's own table, RLN follows GRPIX. -/
def State.imgPositions (s : State) (m : Image) (g : Grid) (gs : List GImg) : List (Nat × Nat) :=
  let (o, _) := s.imgSect m 13
  let w := g.width
  let derived (r : Nat) : Option Nat :=
    (gs.find? fun q => q.grpix == r / w && (q.gwid ≥ w || q.gbase % w / q.gwid == r % w / q.gwid)).map fun q => q.gbase + r % w % q.gwid
  (natRange 0 g.teamLanes).filterMap fun r =>
    if o = 0 then (derived r).map fun p => (r, p)
    else match s.img m (o + 4 * r) 4 with
      | 0 => none
      | p + 1 => some (r, p)

/-- A lane of an image (R343). -/
def State.imgLane (s : State) (m : Image) (r live hset ix : Nat) : Lane :=
  let a := (s.imgSect m 1).1 + 128 * r
  let v := (s.imgSect m 2).1 + 256 * r
  let w := s.img m (a + 0x10) 4
  let bits := fld w 9 7
  { v := Vector.ofFn fun i : Fin 64 => if bitAt live i.val then BitVec.ofNat 32 (s.img m (v + 4 * i.val) 4) else 0,
    p := Vector.ofFn fun i : Fin 8 => i.val != 0 && bitAt bits (i.val - 1),
    lpc := if bitAt w 23 then exitedLpc else BitVec.ofNat 64 (s.img m a 8), resw := fld w 28 4,
    tlpc := BitVec.ofNat 64 (wordAddr (s.img m (a + 8) 8) (fld w 24 4)), rln := r, rstep := BitVec.ofNat 32 (s.img m (a + 0x18) 4),
    ridx := BitVec.ofNat 32 (s.img m (a + 0x1C) 4), lat := Vector.replicate 16 0,
    hk := (match fld w 21 2 with | 1 => .arrive | 2 => .token | _ => .none),
    hr := (match fld w 18 3 with | 4 => .cluster | 5 => .grid | b => .team ⟨b % 4, Nat.mod_lt _ (by decide)⟩),
    hg := BitVec.ofNat 32 (s.img m (a + 0x14) 4), inHandler := bitAt hset ix, thdr := BitVec.ofNat 64 (s.img m (a + 8) 8),
    tw := fld w 24 4, hsave := Vector.ofFn fun i : Fin 4 => BitVec.ofNat 32 (s.img m (a + 0x28 + 4 * i.val) 4), open_ := [],
    batch := Vector.ofFn fun i : Fin 16 =>
      ((match s.img m (a + 0x38 + 4 * i.val) 4 / 2 ^ 30 with | 1 => .sealed | 2 => .complete | _ => .empty), []) }

/-- A group of an image at its new base (R342). -/
def State.imgGroup (s : State) (m : Image) (g : Grid) (q : GImg) (base place : Nat) : Group :=
  let a := q.at_
  { newGroup g 0 0 base place 0 with
    gwid := q.gwid, grpix := q.grpix, role := g.role q.grpix,
    scal := Vector.ofFn fun i : Fin 256 => BitVec.ofNat 32 (s.img m (a + 0x80 + 4 * i.val) 4),
    sb := Vector.ofFn fun i : Fin 8 => fld (s.img m (a + 0x18) 8) (6 * i.val) 6, gst := BitVec.ofNat 32 (s.img m (a + 0x10) 4),
    ftv := BitVec.ofNat 32 (s.img m (a + 0x14) 4), hmode := bitAt q.word 8, hcause := fld q.word 24 8 }

/-- What the rest of a restore needs: group context, old and new base, width. -/
structure Place where
  gctx : Nat
  old : Nat
  base : Nat
  wid : Nat
  deriving DecidableEq, Repr

/-- The place of the group that stood at an old base. -/
def placeOf (ps : List Place) (gb : Nat) : Place := (ps.find? (·.old == gb)).getD ⟨0, gb, 0, 0⟩
/-- Positions of a bitmap by LANEIX. -/
def bitmapPos (q : Place) (bits : Nat) : List Nat := ((natRange 0 q.wid).filter fun i => bitAt bits i).map (q.base + ·)

/-- A command of an image (log entry 30); `posOf` gives the position of a lane by RLN. -/
def State.imgCmd (s : State) (m : Image) (a : Nat) (ps : List Place) (posOf : Nat → Nat) (place id : Nat) : Option (Cmd × Nat) :=
  let f := s.img m (a + 0x5C) 4
  match decodeNat (s.img m a 8) (fld f 4 4) with
  | .error _ => none
  | .ok i =>
    let q := placeOf ps (s.img m (a + 0x68) 4)
    some ({ i := i, ctx := q.gctx, owner := posOf (s.img m (a + 0x34) 4), place := place, lpc := s.img m (a + 0x60) 8, hm := bitAt f 0,
            thr := BitVec.ofNat 32 (s.img m (a + 0x30) 4),
            block := (natRange 0 (s.img m (a + 0x6C) 4)).map fun k => s.img m (a + 8 + 4 * k) 4,
            state := (match s.img m (a + 0x50) 4 with | 1 => .running | 2 => .stalled | 3 => .draining | _ => .waiting),
            prog := s.img m (a + 0x38) 8, prog2 := s.img m (a + 0x40) 8,
            shape := (natRange 0 (s.img m (a + 0x98) 4)).map fun k => s.img m (a + 0x70 + 4 * k) 4,
            aux := (natRange 0 (s.img m (a + 0x9C) 4)).map fun k => s.img m (a + 0xA0 + 8 * k) 8,
            status := s.img m (a + 0x54) 4, gst := s.img m (a + 0x58) 4,
            order := (match s.img m (a + 0x48) 8 with | 0 => none | o + 1 => some o),
            lanes := bitmapPos q (s.img m (a + 0xE0) 32), poisoned := bitAt f 1, faultLine := 0, touched := false, seq := id },
          fld f 8 5)

/-- The kind, destination and slot of a request by its word. -/
def pendKind : Instr → Option (AccKind × Operand × Option Nat)
  | .ld o => some (.load o.w false, o.d, some o.sb.val)
  | .ldc o => some (.load o.w true, o.d, some o.sb.val)
  | .lds o => some (.lds o.w, o.d, some o.sb.val)
  | .ldx o => some (.ldx (widthBytes o.w), o.d, some o.sb.val)
  | .atom _ op team ty d _ sb => some (.atom op ty team, d, some sb.val)
  | .cas _ team w64 d _ sb => some (.cas w64 team, d, some sb.val)
  | .waitc _ c w64 d _ sb => some (.waitc c w64, d, some sb.val)
  | .st o => some (.store (widthBytes o.w), o.d, none)
  | .red _ op team ty d _ => some (.red op ty team, d, none)
  | .cwb o => some (.range 0, o.d, some o.sb.val)
  | .cwbi o => some (.range 1, o.d, some o.sb.val)
  | .cinv o => some (.range 2, o.d, some o.sb.val)
  | .ldv o => some (.ldv o.w false, o.d, some o.sb.val)
  | .ldvNt o => some (.ldv o.w true, o.d, some o.sb.val)
  | .stv o => some (.stv (widthBytes o.w), o.d, none)
  | .vpub o => some (.vpub, o.d, some o.sb.val)
  | _ => none

/-- The head and the latches of block `k` of the model's own table at `b0` (log entry 31). -/
def State.imgBlock (s : State) (m : Image) (b0 k : Nat) : Nat × Vector QWord 16 :=
  let b := b0 + 256 * k
  (s.img m b 16, Vector.ofFn fun i : Fin 16 => if i.val < 15 then BitVec.ofNat 128 (s.img m (b + 16 + 16 * i.val) 16) else 0)

/-- A request of an image (R237, log entry 30): it takes a new identifier; its logged lanes form a log entry, and the others are
resolved again. The latches of its lanes are the blocks from `b0` on. -/
def State.restoreLog (s : State) (c x : Nat) (m : Image) (a b0 : Nat) (ps : List Place) (posOf : Nat → Nat) (place : Nat)
    (grid team : Nat) : State :=
  match decodeNat (s.img m a 8) 0 with
  | .error _ => s
  | .ok i => match pendKind i with
    | none => s
    | some (kind, dst, slot) =>
      let q := placeOf ps (s.img m (a + 0x14) 4)
      let f := s.img m (a + 0x18) 4
      let n := s.img m (a + 0x1C) 4
      let (id, s) := s.fresh c
      let at_ (k : Nat) : Nat := a + 64 + 48 * k
      let acc (k : Nat) : Acc :=
        let b := at_ k
        { pos := posOf (s.img m b 2), va := s.img m (b + 8) 8, n := s.img m (b + 2) 2, tgt := none, x := s.img m (b + 16) 16,
          y := s.img m (b + 32) 8, reg := none, fs := 0, st := if s.img m (b + 7) 1 = 3 then 3 else 0 }
      let accs := (natRange 0 n).map acc
      let lat (k : Nat) : Nat × Vector QWord 16 := ((acc k).pos, if b0 = 0 then Vector.replicate 16 0 else (s.imgBlock m b0 k).2)
      let logged := (natRange 0 n).filterMap fun k =>
        let b := at_ k
        let g := s.img m (b + 6) 1
        if s.img m (b + 7) 1 = 3 then
          some ({ pos := posOf (s.img m b 2), va := s.img m (b + 8) 8, code := s.img m (b + 4) 1, level := s.img m (b + 5) 1,
                  line := s.img m (b + 40) 8, touched := bitAt g 0, dropped := bitAt g 1 } : LogLane)
        else none
      let seqs := (natRange 0 n).filterMap fun k =>
        let w := s.img m (at_ k + 40) 8
        if bitAt w 63 && s.img m (at_ k + 7) 1 != 3 then some (posOf (s.img m (at_ k) 2), w % 2 ^ 63 - 1) else none
      let p : Pend := {
        ctx := q.gctx, place := place, slot := slot, kind := kind, dst := dst, lanes := bitmapPos q (s.img m (a + 0x20) 32),
        accs := accs, hdr := s.img m (a + 8) 8, k := s.img m (a + 0x10) 4, hm := bitAt f 0, lats := (natRange 0 n).map lat,
        pins := [], refused := [], sent := false, slotCtx := x }
      let s := s.modCore c fun k => { k with
        pend := tabSet k.pend id p,
        log := if logged.isEmpty then k.log else tabSet k.log id {
          pend := id, slotCtx := x, acc := fld f 2 2, lanes := logged, since := s.clk.toNat } }
      -- an access still staged belongs to its new request
      let s := { s with transit := s.transit.map fun t =>
        match seqs.find? fun w => t.grid == grid && t.n == team && t.pend.isSome && t.seq == w.2 with
        | some w => { t with core := c, ctx := q.gctx, pend := some id, acc := { t.acc with pos := w.1 } }
        | none => t }
      accs.foldl (fun s b =>
        if b.st = 3 || seqs.any (·.1 == b.pos) then s
        else match s.team? c place with
          | none => s
          | some t => match s.resolveKind c x t kind kind.use (eaRange b.va (max b.n 1)) b.y with
            | .ok q => (s.setAcc c id b { b with tgt := q.tgt, reg := q.reg, deps := q.deps, own := s.ownWindow b.va }).startAcc c id b.pos
            | .error (va, f) =>
              let l : LogLane := ⟨b.pos, va, f.code, f.level, f.line, true, false⟩
              let p' (p : Pend) : Pend := { p with accs := p.accs.map fun d => if d.pos = b.pos then { d with st := 3 } else d }
              s.modCore c fun k => match tabGet? k.pend id with
                | some p => { k with
                    pend := tabSet k.pend id (p' p),
                    log := tabSet k.log id (match tabGet? k.log id with
                      | some e => { e with lanes := e.lanes ++ [l] }
                      | none => { pend := id, slotCtx := x, acc := kind.use.acc, lanes := [l], since := s.clk.toNat }) }
                | none => k) s

/-- Registered `waitc` lanes complete with `W.SPURIOUS`, reason 2; the slot falls with the last lane (R272). -/
def State.restoreMons (s : State) (c : Nat) (m : Image) (ps : List Place) (posOf : Nat → Nat) (logged : List Nat) : State :=
  let (o, n) := s.imgSect m 11
  let es := (natRange 0 n).map fun i => (s.img m (o + 16 * i) 4, s.img m (o + 16 * i + 4) 4, s.img m (o + 16 * i + 8) 4)
  let s := es.foldl (fun s e =>
    let d := fld e.1 16 6
    let p := posOf (fld e.1 0 13)
    if bitAt e.1 24 then s.setV c p (d + 2) 2 (2 + 512) else s.setV c p (d + 1) 1 (2 + 512)) s
  let reqs := es.foldl (fun l e => if l.any (fun q : Nat × Nat × Nat => q.2.1 == e.2.1) || logged.contains e.2.1 then l else l ++ [e]) []
  reqs.foldl (fun s e => s.sbDone c (placeOf ps e.2.2).gctx (fld e.1 28 3)) s

/-- Pending deferred traps of an image; the blocks of their lanes begin at block `k0` of the model's own table. -/
def State.restoreDeferred (s : State) (c : Nat) (m : Image) (ps : List Place) (b0 k0 : Nat) : State :=
  let (o, n) := s.imgSect m 12
  ((natRange 0 n).foldl (fun (r : State × Nat) i =>
    let a := o + 48 * i
    let q := placeOf ps (s.img m (a + 4) 4)
    let lanes := bitmapPos q (s.img m (a + 8) 32)
    let w := s.img m (a + 40) 8
    let blocks : List (Nat × Nat × Vector QWord 16) :=
      if b0 = 0 then [] else ((natRange 0 lanes.length).zip lanes).map fun e => (e.2, s.imgBlock m b0 (r.2 + e.1))
    (r.1.defer c q.gctx {
      code := s.img m a 4, lanes := lanes, resume := if bitAt w 62 then some (w % 2 ^ 52, fld w 52 4) else none,
      detail := (blocks.head?).elim 0 fun e => fld e.2.1 0 16, info := blocks.map fun e => (e.1, fld e.2.1 16 32),
      inHandler := bitAt w 63, lats := blocks.map fun e => (e.1, e.2.2) }, r.2 + lanes.length)) (s, k0)).1

/-- Commands of an image, in their batches (R281, R288, R307). -/
def State.restoreCmds (s : State) (c : Nat) (m : Image) (ps : List Place) (posOf : Nat → Nat) (place : Nat) : State :=
  let (o, n) := s.imgSect m 9
  (natRange 0 n).foldl (fun s i =>
    match s.imgCmd m (o + 256 * i) ps posOf place (s.core c).nextId with
    | none => s
    | some (cmd, member) =>
      let (id, s) := s.fresh c
      let s := s.modCore c fun k => { k with cmds := tabSet k.cmds id cmd, nextOrder := max k.nextOrder (cmd.order.elim 0 (· + 1)) }
      s.modLane c cmd.owner fun l =>
        if member = 0 then { l with open_ := l.open_ ++ [id] }
        else if member ≤ 16 then
          let b := (l.batch[member - 1]?).getD (.empty, [])
          { l with batch := l.batch.setIfInBounds (member - 1) (b.1, b.2 ++ [id]) }
        else l) s

/-- Copies of a lane's open set that were done at the save keep their place in its count (R282, R343). -/
def State.restoreOpen (s : State) (c p n : Nat) : State :=
  let live := (s.lane c p).open_.length
  let (dead, s) := s.fresh c
  s.modLane c p fun l => { l with open_ := l.open_ ++ List.replicate (n - live) dead }

/-- Restores one team into a room (R338, steps 2 to 6). -/
def State.restoreTeam (s : State) (c x : Nat) (m : Image) (gid : Nat) (g : Grid) (room : Room) : State :=
  let gs := s.imgGroups m
  let n := imgTeam s m
  let ps : List Place := (gs.zip (room.gctx.zip room.bases)).map fun q => ⟨q.2.1, q.1.gbase, q.2.2, q.1.gwid⟩
  let at_ := s.imgPositions m g gs
  let newPos (p : Nat) : Option (Nat × Place × GImg) := (gs.find? fun q => q.gbase ≤ p && p < q.gbase + q.gwid).map fun q =>
    let pl := placeOf ps q.gbase
    (pl.base + (p - q.gbase), pl, q)
  let posOf (r : Nat) : Nat := ((at_.find? (·.1 == r)).bind fun q => newPos q.2).elim 0 (·.1)
  let (so, sn) := s.imgSect m 7
  let (bo, bn) := s.imgSect m 8
  let free := (s.core c).freePhys
  let bank (i : Nat) : Nat × Bank :=
    let w := s.img m (bo + 32784 * i) 4
    (w % 128, { phys := listGet 0 free i, holder := (placeOf ps (s.img m (bo + 32784 * i + 4) 4)).base,
                bands := (natRange 8 4).map (bitAt w), mapAt := s.img m (bo + 32784 * i + 8) 4,
                freeAt := (match s.img m (bo + 32784 * i + 12) 4 with | 0 => none | f + 1 => some f) })
  let banks := (natRange 0 bn).map bank
  let t : Team :=
    { grid := gid, n := n, ctx := x, base := room.scr, size := g.scratch, prio := imgPrio s m, state := .active,
      recs := Vector.ofFn fun i : Fin 4 => s.imgRec m i.val,
      sems := (natRange 0 sn).foldl (fun l i => tabSet l (s.img m (so + 8 * i) 4 % 64) (BitVec.ofNat 32 (s.img m (so + 8 * i + 4) 4))) [],
      banks := banks.foldl (fun l b => tabSet l b.1 b.2) [], ready := none }
  let s := ((s.acquireModule c).dropReadOnly c).modCore c fun k => k.clearScratch room.scr g.scratch
  let order := banks.foldl (fun o b => max o (max b.2.mapAt (b.2.freeAt.getD 0) + 1)) (s.core c).nextOrder
  let s := s.modCore c fun k => { k with teams := tabSet k.teams room.place t, nextOrder := order }
  -- accumulator words
  let s := s.modCore c fun k => (natRange 0 bn).foldl (fun k i => (natRange 0 64).foldl (fun k r => (natRange 0 128).foldl (fun k q =>
    k.accSet (listGet 0 free i) r q (BitVec.ofNat 32 (s.img m (bo + 32784 * i + 16 + 4 * (128 * r + q)) 4))) k) k) k
  -- scratchpad: everything, or the ranges
  let (co, cn) := s.imgSect m 4
  let (ro, rn) := s.imgSect m 5
  let ranges := if cn = 0 then [] else if bitAt (s.img m 0x38 4) 0 then [(0, g.scratch)]
    else (natRange 0 rn).map fun i => (s.img m (ro + 8 * i) 4, s.img m (ro + 8 * i + 4) 4)
  let s := ranges.foldl (fun s r => s.scrWrite c ((natRange (room.scr + r.1) r.2).zip (s.imgBytes m (co + r.1) r.2))) s
  -- groups and lanes
  let s := (gs.zip ps).foldl (fun s q => s.modCore c fun k =>
    { k with groups := tabSet k.groups q.2.gctx (s.imgGroup m g q.1 q.2.base room.place) }) s
  let s := at_.foldl (fun s q => match newPos q.2 with
    | none => s
    | some (p, pl, gi) =>
      let l := s.imgLane m q.1 (s.img m (gi.at_ + 0x20) 8) (s.img m (gi.at_ + 0x40) 32) (p - pl.base)
      let s := if l.spilled then
          { s with mem := s.mem.write (spillAddr c room.place q.1) (s.imgBytes m ((s.imgSect m 3).1 + 256 * q.1) 240) } else s
      s.modLane c p fun _ => l) s
  let s := s.restoreCmds c m ps posOf room.place
  let s := at_.foldl (fun s q => match newPos q.2 with
    | none => s
    | some (p, _, _) => s.restoreOpen c p (s.img m ((s.imgSect m 1).1 + 128 * q.1 + 0x24) 4)) s
  let (lo, ln) := s.imgSect m 10
  let own := (s.imgSect m 13).1
  let b0 := if own = 0 then 0 else own + 4 * g.teamLanes
  let (_, done, logged, s) := (natRange 0 ln).foldl (fun (q : Nat × Nat × List Nat × State) _ =>
    let s := q.2.2.2
    let num := s.img m (q.1 + 0x18) 4 / 2 ^ 16
    let lanes := s.img m (q.1 + 0x1C) 4
    (q.1 + 64 + 48 * lanes, q.2.1 + lanes, num :: q.2.2.1,
     s.restoreLog c x m q.1 (if b0 = 0 then 0 else b0 + 256 * q.2.1) ps posOf room.place gid n)) (lo, 0, [], s)
  let s := s.restoreDeferred c m ps b0 done
  let s := s.restoreMons c m ps posOf logged
  -- the cluster record, where the module no longer holds it (R264)
  let s := s.modGrid gid fun q =>
    if (tabGet? q.crecs (n / max 1 g.cs)).isSome || !bitAt (s.img m 0x38 4) 1 then q
    else { q with crecs := tabSet q.crecs (n / max 1 g.cs) (s.imgRec m 4) }
  -- groups of a context that another image has halted stay where they are (R338)
  let s := (if (s.ctx x).state = .halted then s.haltGroups x else s).fuseRecheck c
  -- the step check of R389
  let step := (s.ctx x).step
  ps.foldl (fun s q =>
    let ahead := (natRange q.base q.wid).filter fun p => let l := s.lane c p; !l.exited && decide (step.toNat < l.rstep.toNat)
    if ahead.isEmpty then s
    else s.defer c q.gctx { code := tRestore, lanes := ahead, resume := none, detail := 0, info := [], inHandler := false, lats := [] }) s

/-! ### TEAM_RESTORE (R127, R338) -/

/-- The room for a saved team on a core. -/
def State.restoreRoom (s : State) (c : Nat) (m : Image) (g : Grid) : Option Room :=
  let gs := s.imgGroups m
  let span := if (s.ctx g.ctx).detm then
      let al := pow2Up (g.groups * g.width)
      some (al, gs.map fun q => q.gbase % al)
    else none
  let banks := (s.imgSect m 8).2
  let sems := (s.imgSect m 7).2
  if s.root.retired.contains c || (s.core c).freePhys.length < banks || 64 < (s.core c).boundSems + sems then none
  else (s.core c).room (gs.map (·.gwid)) span g.scratch

/-- The directory entries of a context that hold the teams of one cluster: (entry, CLUIX). -/
def State.clusterEntries (s : State) (x : Nat) (m : Image) (g : Grid) : List (Nat × Nat) :=
  (natRange 0 (s.ctx x).saved.toNat).filterMap fun k =>
    let q := s.image x k
    if imgGrid s q = imgGrid s m ∧ imgTeam s q / max 1 g.cs = imgTeam s m / max 1 g.cs then some (k, imgTeam s q % max 1 g.cs) else none

/-- Restores the entries with their cores and rooms; the entry of the highest number goes first, so that numbers hold. -/
def State.restoreAll (s : State) (x gid : Nat) (g : Grid) : List (Nat × Nat × Room) → State
  | [] => s
  | (k, c, r) :: t => State.restoreAll ((s.restoreTeam c x (s.image x k) gid g r).consume x k) x gid g t

/-- Rooms for several saved teams. -/
def State.restoreRooms (s : State) (x : Nat) (g : Grid) : List (Nat × Nat) → Option (List (Nat × Nat × Room))
  | [] => some []
  | (k, c) :: t => match s.restoreRoom c (s.image x k) g with
    | none => none
    | some r => (s.restoreRooms x g t).map ((k, c, r) :: ·)

/-- The context restores saved teams: it is ACTIVE, or an inconsistent image of it has halted it (R338). -/
def Ctx.restores (k : Ctx) : Bool := k.state == .active || (k.state == .halted && !k.refused.isEmpty)

/-- The cores on which the teams of entry `k` go when `c` is their core, or the corner of their cluster: (entry, core). -/
def State.restoreCores (s : State) (x k c : Nat) (g : Grid) : Option (List (Nat × Nat)) :=
  if g.cs = 1 then some [(k, c)]
  else (rectangle g c).map fun cs => (s.clusterEntries x (s.image x k) g).map fun e => (e.1, listGet 0 cs e.2)

/-- The restore of entry `k` with its cluster at core `c`, when there is room. -/
def State.restoreAt (s : State) (x k c gid : Nat) (g : Grid) : Option State :=
  ((s.restoreCores x k c g).bind fun cs => s.restoreRooms x g cs.reverse).map fun rs => s.restoreAll x gid g rs

/-- Every saved team of a grid can be restored, one after the other, and the teams that no core has admitted yet still fit (R121,
R127). -/
def State.restoresAll (s : State) (x gid : Nat) (g : Grid) : Nat → Bool
  | 0 => s.keepsRoom gid
  | n + 1 => match (natRange 0 (s.ctx x).saved.toNat).find? fun k => imgGrid s (s.image x k) = gid with
    | none => s.keepsRoom gid
    | some k => match (natRange 0 576).findSome? fun c => s.restoreAt x k c gid g with
      | none => false
      | some s => s.restoresAll x gid g n

/-- TEAM_RESTORE (R127, R338): the team of a directory entry is admitted on a core; a team of a cluster with its whole
cluster, whose corner the core is; a team of a GBAR grid only once the grid is placed, and so that every other team of it can
still be restored. -/
def execTeamRestore (x k c : Nat) (s : State) : Host.Outcome State Fault Refusal :=
  if !(s.ctx x).restores || (s.ctx x).saved.toNat ≤ k || 576 ≤ c || s.expo.stopped then .next s
  else
    let m := s.image x k
    let gid := imgGrid s m
    let isRefused (q : Image) : Bool := (s.ctx x).refused.contains (imgGrid s q, imgTeam s q)
    match s.imgGridOf x m with
    | none => .next (if isRefused m then s else s.badImage x m)
    | some g =>
      let es := (s.clusterEntries x m g).map fun e => s.image x e.1
      match es.find? fun q => s.imgBad q g with
      | some q => .next (if isRefused q then s else s.badImage x q)
      | none =>
        let s' := { s with grids := tabSet s.grids gid g }
        if (g.gbar && !g.placed) || s.reserved gid then .next s'
        else match s'.restoreAt x k c gid g with
          | none => .next s'
          | some t => .next (if !g.gbar || t.restoresAll x gid g (t.ctx x).saved.toNat then t else s')

/-! ### Grids with a grid record (R121, R253, R264) -/

/-- The grid record that the image of team 0 of a grid holds. -/
def State.savedGridRec (s : State) (gid : Nat) (g : Grid) : Option BarRec :=
  (natRange 0 (s.ctx g.ctx).saved.toNat).findSome? fun k =>
    let m := s.image g.ctx k
    let f := s.img m 0x38 4
    if imgGrid s m = gid ∧ imgTeam s m = 0 ∧ bitAt f 2 then some (s.imgRec m (4 + b2n (bitAt f 1))) else none

/-- GBAR_GRID_PLACEMENT (R121, R253): the grid is placed when the free capacity reaches its teams and a grid record is
free; a grid whose teams were saved takes its record again (R127, R264). -/
def execGbarGridPlacement (gid : Nat) (s : State) : Host.Outcome State Fault Refusal :=
  match s.grid? gid with
  | none => .next s
  | some g =>
    let used := (s.grids.filter fun q => q.2.placed && q.2.rec_.isSome).length
    let r := (g.rec_.orElse fun _ => s.savedGridRec gid g).getD { emptyRec with exp := g.n * g.teamLanes }
    let t := s.modGrid gid fun g => { g with placed := true, rec_ := some r }
    let saved := (natRange 0 (s.ctx g.ctx).saved.toNat).any fun k => imgGrid s (s.image g.ctx k) = gid
    let fits := if saved then t.restoresAll g.ctx gid g (s.ctx g.ctx).saved.toNat else decide (s.unplaced gid g ≤ s.freeCapacity g)
    if !g.gbar || g.placed || (s.ctx g.ctx).state != .active || 64 ≤ used || s.reserved gid || !fits || s.expo.stopped then .next s
    else .next t

end Sys2Proof.Machine
end

