-- ==== Sys2Proof/Machine/Ephemeris.lean ====
section
/-!
DEFINITION. Sys2Proof/Machine/Ephemeris.lean: the ephemeris, the step context, `stepadv` and `steprd` (R374, R375, R377,
R378, R380 to R382).
-/
namespace Sys2Proof.Machine

/-! ### Replicas (R374, R375) -/

def emptyMember : MemberEnt := ⟨false, false, 0⟩
def emptyPod : PodEnt := ⟨0, false, false, 0⟩
def Replica.member (r : Replica) (i : Nat) : MemberEnt := tabGet emptyMember r.members i
def Replica.pod (r : Replica) (i : Nat) : PodEnt := tabGet emptyPod r.pods i
def MemberEnt.live (m : MemberEnt) : Bool := m.mem && !m.sil
def PodEnt.live (p : PodEnt) : Bool := p.mem && !p.sil && p.nlive != 0

/-- The module's own pod. -/
def State.ownPod (s : State) : Nat := s.stepCtx.rank / 1024
/-- Replica of a quadrant. -/
def State.replica (s : State) (q : Nat) : Replica := (s.replicas[q]?).getD ⟨[], [], []⟩
def State.modReplica (s : State) (q : Nat) (f : Replica → Replica) : State :=
  { s with replicas := s.replicas.setIfInBounds q (f (s.replica q)) }
def State.modReplicas (s : State) (f : Replica → Replica) : State := { s with replicas := s.replicas.map f }
def Replica.modMember (r : Replica) (i : Nat) (f : MemberEnt → MemberEnt) : Replica :=
  { r with members := tabSet r.members i (f (r.member i)) }
def Replica.modPod (r : Replica) (i : Nat) (f : PodEnt → PodEnt) : Replica := { r with pods := tabSet r.pods i (f (r.pod i)) }

/-- A replica of the pod `own` takes a membership change. -/
def Replica.take (r : Replica) (own : Nat) (m : Mark) : Replica :=
  if m.pod then r.modPod m.rank fun p => { p with sil := true }
  else if m.rank / 1024 != own then r
  else r.modMember (m.rank % 1024) fun e => if m.join then ⟨true, false, m.step⟩ else { e with sil := true }

/-- A replica takes what it has not taken yet. -/
def Replica.settle (r : Replica) (own : Nat) : Replica := { r.due.foldl (·.take own) r with due := [] }

/-- A membership change: the replica of Meridian die 0 takes it, and each other one before its next message (R375, R378). -/
def State.mark (s : State) (m : Mark) : State :=
  [1, 2, 3].foldl (fun s q => s.modReplica q fun r => { r with due := r.due ++ [m] }) (s.modReplica 0 (·.take s.ownPod m))

/-- The live member entries. -/
def Replica.liveMembers (r : Replica) : List (Nat × MemberEnt) := r.members.filter (·.2.live)
/-- The live pod entries of pods other than `own`. -/
def Replica.livePods (r : Replica) (own : Nat) : List (Nat × PodEnt) := r.pods.filter fun p => p.1 != own && p.2.live

/-- The pod entry of the own pod, computed from its member entries (R374). -/
def Replica.ownEntry (r : Replica) (own : Nat) : PodEnt :=
  let live := r.liveMembers
  { nlive := live.length, mem := r.members.any (·.2.mem), sil := (r.pod own).sil,
    min := BitVec.ofNat 32 ((listMin? (live.map (·.2.step.toNat))).getD 0) }

/-- The steps that LMIN takes the smallest of. -/
def Replica.steps (r : Replica) (own : Nat) : List Nat :=
  r.liveMembers.map (·.2.step.toNat) ++ (r.livePods own).map (·.2.min.toNat)

/-- Live members of the job. -/
def Replica.liveCount (r : Replica) (own : Nat) : Nat := r.liveMembers.length + (r.livePods own).foldl (fun n p => n + p.2.nlive) 0

/-- A member's STEP in a replica: the larger of what it holds and what a message carries. -/
def Replica.advance (r : Replica) (i : Nat) (t : Word) : Replica :=
  r.modMember i fun m => { m with step := if m.step.toNat < t.toNat then t else m.step }

/-- The step context. -/
def State.isStepCtx (s : State) (x : Nat) : Bool := s.stepCtx.bound && s.stepCtx.sctx == x

/-- The own member entry of a replica is live. -/
def State.ownLive (s : State) (q : Nat) : Bool := ((s.replica q).member (s.stepCtx.rank % 1024)).live

/-- The STEP of a member changed in replica `q`; the replica of Meridian die 0 is the one by which silence is judged (R378). -/
def State.noteStep (s : State) (q i : Nat) : State :=
  if q = 0 then { s with stepCtx := { s.stepCtx with changed := tabSet s.stepCtx.changed i s.clk.toNat } } else s

/-- The module's own step changed: a quadrant replica takes it at once, and it is broadcast (R375, R377). -/
def State.ownAdvance (s : State) (q : Nat) (t : Word) : State :=
  let i := s.stepCtx.rank % 1024
  let s := (s.modReplica q fun r => r.advance i t).noteStep q i
  { s with outbox := .advance t.toNat :: s.outbox }

/-- MEMBER_ADVANCE_MESSAGE (R375): a STEP change of a member of the own pod reaches one replica. -/
def execMemberAdvanceMessage (q i : Nat) (t : BitVec 32) (s : State) : Host.Outcome State Fault Refusal :=
  if 4 ≤ q || 1024 ≤ i then .next s
  else
    let s := s.modReplica q (·.settle s.ownPod)
    let newer := ((s.replica q).member i).step.toNat < t.toNat
    let s := s.modReplica q fun r => r.advance i t
    .next (if newer then s.noteStep q i else s)

/-! ### Beacons (R375) -/

/-- The leader of the own pod: the live member with the lowest PODIX. -/
def State.podLeader (s : State) : Option Nat := listMin? ((s.replica 0).liveMembers.map (·.1))

/-- This module leads its pod. -/
def State.leads (s : State) : Bool := s.stepCtx.bound && s.podLeader == some (s.stepCtx.rank % 1024)

/-- POD_BEACON_SEND (R375): the leader sends its pod's entry, the epoch and the highest step that a wait needs. -/
def execPodBeaconSend (s : State) : Host.Outcome State Fault Refusal :=
  if !s.leads then .next s
  else
    let e := (s.replica 0).ownEntry s.ownPod
    .next { s with outbox := .beacon e.min.toNat e.nlive s.stepCtx.epoch s.stepCtx.need :: s.outbox,
                   stepCtx := { s.stepCtx with sentBeacon := s.clk.toNat } }

/-- POD_BEACON_RECEIVE (R375): the beacon of another pod reaches one replica. SIL is never cleared by it (R379). -/
def execPodBeaconReceive (q pod : Nat) (min : BitVec 32) (nlive : Nat) (epoch need : BitVec 32) (s : State) :
    Host.Outcome State Fault Refusal :=
  let _ := epoch
  if 4 ≤ q || 256 ≤ pod || pod == s.ownPod then .next s
  else
    let s := s.modReplica q fun r => (r.settle s.ownPod).modPod pod fun p =>
      { p with nlive := Nat.min nlive 1024, min := if p.min.toNat < min.toNat then min else p.min }
    .next { s with stepCtx := { s.stepCtx with beacons := tabSet s.stepCtx.beacons pod s.clk.toNat,
                                               farNeed := Nat.max s.stepCtx.farNeed need.toNat } }

/-! ### stepadv (R381) -/

/-- The wait of `stepadv` to step `t` is over in quadrant `q`. -/
def State.stepMet (s : State) (x q t : Nat) : Bool :=
  !s.isStepCtx x || !s.ownLive q || ((s.replica q).steps s.ownPod).all fun v => t ≤ v + 1 + (s.ctx x).lead.toNat

/-- The quadrant of a core. -/
def quadrant (c : Nat) : Nat := meridianOf (c / 24)

/-- `stepadv` (R381): the release, the wait, the step, the acquire. Its progress is twice that of the release, then 1 while it waits
for the replica, and 3 once the step is advanced. -/
def execStepadv (p : Pfx) (d a : Operand) (s : State) : Host.Outcome State Fault Refusal :=
  execWord (.stepadv p d a) (fun e s =>
    let x := s.ctxOf e.c e.x
    let t := e.opnd s a e.low 32
    let put (s : State) (v : Nat) : State := e.write (some d) e.low 32 v s
    let acquire (s : State) : Res :=
      let (s, ok) := s.acquireRound e.c e.lanes 5
      if ok then .done s else .wait (e.setPhase 3 s) .instr
    let advance (s : State) : Res :=
      if t ≤ (s.ctx x).step.toNat then .done (put s 1)
      -- a wait that an exposure's stop meets goes on after it (R386)
      else if !s.stepMet x (quadrant e.c) t || (e.x.phase == 1 && s.expo.stopped) then .wait (e.setPhase 1 s) .stepadv
      else
        let s := s.modCtx x fun k => { k with step := BitVec.ofNat 32 t }
        acquire (put (if s.isStepCtx x then s.ownAdvance (quadrant e.c) (BitVec.ofNat 32 t) else s) 0)
    if e.x.phase = 3 then acquire s
    else if e.x.phase = 1 then advance s
    else match s.releaseRound e.c e.g e.x e.lanes 5 (e.x.phase / 2) with
      | (s, some ph) => .wait (e.setPhase (2 * ph) s) .instr
      | (s, none) => advance s) s

/-- The step that a waiting `stepadv` of a group needs: t − 1 − LEAD. -/
def State.waitNeed (s : State) (c : Nat) (x : Group) : Option Nat :=
  match x.blk, x.cur with
  | some .stepadv, some cu => match decodeNat (listGet 0 cu.words cu.k) 0 with
    | .ok (.stepadv p d a) =>
      let e : Env := { c := c, g := 0, x := x, cu := cu, i := .stepadv p d a, lanes := cu.live }
      some (e.opnd s a e.low 32 - 1 - (s.ctx (s.ctxOf c x)).lead.toNat)
    | _ => none
  | _, _ => none

/-- The step that a waiting `stepadv` waits to advance to is reached by the replica. -/
def State.stepadvReady (s : State) (c : Nat) (x : Group) : Bool :=
  match s.waitNeed c x with
  | none => true
  | some n =>
    let t := s.ctxOf c x
    !s.isStepCtx t || !s.ownLive (quadrant c) || ((s.replica (quadrant c)).steps s.ownPod).all (n ≤ ·)

/-- STEPADV_NEED_ANNOUNCE (R378): the step that a wait needs is announced to the pod leader. -/
def execStepadvNeedAnnounce (own : Bool) (c g : Nat) (step : BitVec 32) (s : State) : Host.Outcome State Fault Refusal :=
  let take (s : State) (n : Nat) : State := { s with stepCtx := { s.stepCtx with need := max s.stepCtx.need n } }
  if !own then .next (if s.leads then take s step.toNat else s)
  else match (s.group? c g).bind fun x => if s.isStepCtx (s.ctxOf c x) then s.waitNeed c x else none with
    | none => .next s
    | some n => .next (if s.leads then take s n else { s with outbox := .need n :: s.outbox })

/-! ### steprd (R382) -/

/-- LMIN in a replica (R375); a free value where no member lives (log entry 34). -/
def State.lmin (s : State) (q : Nat) : Nat :=
  (listMin? ((s.replica q).steps s.ownPod)).getD (Config.lminNone s.clk.toNat).toNat

/-- The two words that `steprd` writes. -/
def State.stepRead (s : State) (x q a : Nat) : Nat × Nat :=
  let r := s.replica q
  let k := s.ctx x
  let sel := fld a 30 2
  let rest := fld a 0 30
  if sel = 0 then if rest = 0 then (k.step.toNat, k.lead.toNat) else (0, 0)
  else if !s.isStepCtx x then (0, 0)
  else if sel = 1 then
    if 1024 ≤ rest then (0, 0)
    else let m := r.member rest; (m.step.toNat, 2 * b2n m.mem + b2n m.sil)
  else if sel = 2 then
    if 256 ≤ rest then (0, 0)
    else
      let p := if rest = s.ownPod then r.ownEntry rest else r.pod rest
      (p.min.toNat, p.nlive * 4 + 2 * b2n p.mem + b2n p.sil)
  else if rest != 0 then (0, 0)
  else (s.lmin q, r.liveCount s.ownPod)

/-- `steprd` (R382): the slot rises and falls with the read, which completes at once. -/
def execSteprd (p : Pfx) (d a : Operand) (sb : Fin 8) (s : State) : Host.Outcome State Fault Refusal :=
  execWord (.steprd p d a sb) (fun e s =>
    if e.slotFull sb then .wait s .instr
    else
      let (lo, hi) := s.stepRead (s.ctxOf e.c e.x) (quadrant e.c) (e.opnd s a e.low 32)
      .done (e.write (some d) e.low 64 (lo + 2 ^ 32 * hi) s)) s

end Sys2Proof.Machine
end

