-- ==== Sys2Proof/Machine/Collective.lean ====
section
/-!
DEFINITION. Sys2Proof/Machine/Collective.lean: the collective (R352 to R373), the publications of accepted stamps (R244), and
the retry of a stalled engine element (R236).
-/
namespace Sys2Proof

/-- The number of chunks, and the wire width in bits. -/
def CollParams.nch (p : CollParams) : Nat := Machine.ceilDiv p.nblk p.chb
def CollParams.w (p : CollParams) : Nat := if p.w24 then 24 else 16
/-- The size of a result block in bytes, and the number of result regions (R353). -/
def CollParams.ob (p : CollParams) : Nat := if p.obf16 then 64 else 128
def CollParams.nr (p : CollParams) : Nat := Machine.ceilDiv (0x20000 + p.nblk * p.ob) (2 ^ 23)
/-- Bytes of chunk buffer (R354). -/
def CollParams.res (p : CollParams) : Nat := p.nblk * ((2 + p.lcap) * (4 + 4 * p.w) + 512)
/-- The blocks of a chunk. -/
def CollParams.blocks (p : CollParams) (c : Nat) : List Nat := (Machine.natRange (c * p.chb) p.chb).filter (· < p.nblk)

end Sys2Proof

namespace Sys2Proof.Machine

def kOk : Nat := 0
def kRecord : Nat := 1
def kFault : Nat := 2
def kFull : Nat := 3
def kSpace : Nat := 4
def kStamp : Nat := 5
def kMember : Nat := 6
def kNotOpen : Nat := 7
def kParam : Nat := 8
def kDup : Nat := 9
def kStale : Nat := 10
def kPage : Nat := 11
def kPoison : Nat := 12
def kOrder : Nat := 13

/-! ### Accessors -/

def State.coll? (s : State) (h : Nat) : Option Coll := tabGet? s.colls h
def State.modColl (s : State) (h : Nat) (f : Coll → Coll) : State :=
  match s.coll? h with
  | none => s
  | some c => { s with colls := tabSet s.colls h (f c) }
def Coll.inst (c : Coll) (t : Nat) : Option Inst := c.insts.find? (·.t == t)
def Coll.modInst (c : Coll) (t : Nat) (f : Inst → Inst) : Coll := { c with insts := c.insts.map fun i => if i.t = t then f i else i }
def State.modInst (s : State) (h t : Nat) (f : Inst → Inst) : State := s.modColl h fun c => c.modInst t f

/-! ### Members, coordinator and roots (R355) -/

/-- The member at a position is live by the replica that serves the handle. -/
def State.posLive (s : State) (h : Nat) (c : Coll) (pos : Nat) : Bool :=
  let r := s.replica (h % 4)
  let rank := listGet 0 c.ranks pos
  if rank / 1024 = s.ownPod then (r.member (rank % 1024)).live else (r.pod (rank / 1024)).live

/-- The live member that holds a role: the one `k` places after the first, or the next live one in the same order. -/
def State.roleAt (s : State) (h : Nat) (c : Coll) (live : List Nat) (k : Nat) : Option Nat :=
  let n := live.length
  (live.drop (k % max 1 n) ++ live.take (k % max 1 n)).find? fun p => s.posLive h c p

def State.coordinates (s : State) (h : Nat) (c : Coll) (i : Inst) : Bool := s.roleAt h c i.live 0 == some c.own
def State.isRoot (s : State) (h : Nat) (c : Coll) (i : Inst) (ch : Nat) : Bool := s.roleAt h c i.live ch == some c.own
/-- The chunks that this module is the root of. -/
def State.ownChunks (s : State) (h : Nat) (c : Coll) (i : Inst) : List Nat := (natRange 0 c.params.nch).filter (s.isRoot h c i)

/-- A discarded message adds 1 to DROP of the port it came over, which the spec leaves open (R351; log entry 58). -/
def State.dropMessage (s : State) : State :=
  let ps := s.link.upPorts 0 44
  if ps.isEmpty then s else s.countDrop (listGet 0 ps (Config.sprayPort s.clk.toNat % ps.length))

/-- A message of a collective is discarded: DISC adds 1 (R357, R362, R371). -/
def State.discardMsg (s : State) (h : Nat) : State := (s.modColl h fun c => { c with disc := c.disc + 1 }).dropMessage

/-- Sends a message of an instance to the other members. -/
def State.sendColl (s : State) (h : Nat) (c : Coll) (t : Nat) (b : CollBody) : State :=
  { s with outbox := .coll { handle := h, params := c.params, step := t, poisoned := false, body := b } :: s.outbox }

/-- The module's own member entry is live. -/
def State.memberOk (s : State) (h : Nat) : Bool := s.link.pv && s.ownLive (h % 4)

/-! ### Instances (R356 to R358) -/

/-- Instance `t` can open: it is the next step, and at most one other instance is not FREE. -/
def Coll.canOpen (c : Coll) (t : Nat) : Bool := t == c.next && decide (c.insts.length < 2)

/-- An instance of step `t` that has just opened in state `st`. -/
def newInst (t st : Nat) (live : List Nat) (q : Nat) : Inst :=
  { t := t, st := st, live := live, quorum := q, values := [], chunks := [], poisonedOwn := false, arrived := [], firstArr := none,
    closedAt := 0, onTime := [], lateSet := [], xa := [], timed := false, ndisc := 0, npois := 0, limited := false, sums := [],
    late := [], result := [], flags := 0, written := false, published := 0 }

/-- Opens instance `t` over the members live now (R355). -/
def State.openInst (s : State) (h t : Nat) : State :=
  match s.coll? h with
  | none => s
  | some c =>
    let live := (natRange 0 c.ranks.length).filter (s.posLive h c)
    let l := live.length
    let q := if c.params.frac then max 1 (ceilDiv (l * c.params.quorum) 65536) else min c.params.quorum l
    s.modColl h fun c => { c with next := t + 1, insts := c.insts ++ [newInst t 1 live q] }

/-! ### The passes (R359 to R363) -/

/-- An entry of the sequencer log (R387). -/
def State.addLog (s : State) (kind cid step a h : Nat) : State :=
  let n := (s.seqLog.getLast?).elim 0 (·.lsn + 1)
  { s with seqLog := (s.seqLog ++ [({ lsn := n, kind := kind, cid := cid, step := step, a := a, h := h } : SeqLog)]).drop (s.seqLog.length + 1 - 256) }

/-- A bitmap of positions. -/
def posMap (ps : List Nat) : Nat := ps.foldl (fun m p => m ||| 2 ^ p) 0

/-- The values of a block of the module's own contribution. -/
def Inst.block (i : Inst) (b : Nat) : List FVal := (tabGet [] i.values b).map (fval .f32)

/-- Mantissas of a block at exponent `x`, `none` for an element NaN, and whether one was limited (R360). -/
def mantissas (w x : Nat) (vs : List FVal) : List (Option Int) × Bool :=
  let lim : Nat := 2 ^ (w - 1) - 1
  let one (v : FVal) : Option Int × Bool := match v with
    | .nan _ | .inf _ => (none, false)
    | .fin sg m e =>
      let (k, _) := roundInt sg ⟨m, e + ((w : Int) - 2) - ((x : Int) - 127), false⟩ .rne 0
      if lim < k then (some (signed sg lim), true) else (some (signed sg k), false)
  (vs.map fun v => (one v).1, vs.any fun v => (one v).2)

/-- The module's contribution packed at exponents of its own, or at given ones (R360, R362). -/
def Inst.packAt (i : Inst) (p : CollParams) (xs : List Nat) : Contrib × Bool :=
  let bs := (natRange 0 p.nblk).map fun b => mantissas p.w (listGet 0 xs b) (i.block b)
  ({ pos := 0, exps := xs, mants := bs.map (·.1) }, bs.any (·.2))

/-- The module's own block exponents (R80 step 2). -/
def Inst.ownExps (i : Inst) (p : CollParams) : List Nat := (natRange 0 p.nblk).map fun b => (blockExp (i.block b)).1

/-- Sends the module's late contribution, at given exponents, to the chunk roots; LATE_CONTRIBUTION of its own position delivers
it (R362). -/
def State.sendLate (s : State) (h t : Nat) (xs : List Nat) : State :=
  match s.coll? h with
  | none => s
  | some c => match c.inst t with
    | none => s
    | some i =>
      let k := { (i.packAt c.params xs).1 with pos := c.own }
      (s.sendColl h c t (.late c.own (k.exps.zip k.mants))).modInst h t fun i => { i with ownLate := some k }

/-- Instance `t` is FREE; the other members are told (R357). An own contribution that the chunk roots do not have by now is late for
its step and discarded (R362). -/
def State.freeInst (s : State) (h t : Nat) : State :=
  match s.coll? h with
  | none => s
  | some c =>
    let free (s : State) : State := (s.modColl h fun c => { c with insts := c.insts.filter (·.t != t) }).sendColl h c t (.freed c.own)
    match c.inst t with
    | none => free s
    | some i =>
      let unsent := c.params.nch ≤ i.chunks.length && !i.poisonedOwn && !i.arrived.any (·.pos == c.own)
      let s := if unsent then s.sendLate h t (i.ownExps c.params) else s
      let s := if (unsent || i.ownLate.isSome) && !(s.ownChunks h c i).isEmpty then s.modColl h fun c => { c with disc := c.disc + 1 } else s
      free s

/-- A late contribution that has its own exponents. -/
def Inst.hasLate (i : Inst) (pos : Nat) : Bool := i.sums.any fun k => k.pos == pos && !k.exps.isEmpty

/-- The mantissas of an on-time member are in. -/
def Inst.hasSum (i : Inst) (pos : Nat) : Bool := i.sums.any fun k => k.pos == pos && k.exps.isEmpty

/-- The exponent close takes effect on this module (R356, R359, R387). -/
def State.applyClose (s : State) (h t : Nat) (onTime late xa : List Nat) (timed : Bool) (ndisc : Nat) (gone : List Nat) : State :=
  match s.coll? h with
  | none => s
  | some c => match c.inst t with
    | none => s
    | some i =>
      if i.st != 1 then s
      else
        let prev := if t = 0 then none else c.inst (t - 1)
        let lost := late.filter fun p => prev.any (·.lateGone.contains p)
        let late := late.filter fun p => !lost.contains p
        let onTime := onTime.filter fun p => !i.dropped.contains p
        let folded := prev.elim [] fun q => late.filterMap fun p => (q.late ++ q.ownLate.toList).find? (·.pos == p)
        let own := onTime.contains c.own
        let (k, lim) := i.packAt c.params xa
        let mine : List Contrib := if own then [{ k with pos := c.own, exps := [] }] else []
        let s := s.modInst h t fun i => { i with
          st := 2, closedAt := s.clk.toNat, onTime := onTime, lateSet := late, xa := xa, timed := timed, ndisc := ndisc,
          npois := i.npois + gone.length + lost.length, limited := own && lim, sums := folded ++ mine }
        let s := if t = 0 then s else s.modInst h (t - 1) fun q => { q with ownLate := q.ownLate.filter fun _ => !late.contains c.own }
        let s := s.addLog 1 c.params.cid t onTime.length (Config.mapDigest (posMap onTime)).toNat
        let s := if late.isEmpty then s else s.addLog 3 c.params.cid t late.length (Config.mapDigest (posMap late)).toNat
        let s := if own then s.sendColl h c t (.mantissas c.own k.mants lim) else s
        -- a contribution that arrived and is not on time is late
        let s := if !own && i.arrived.any (·.pos == c.own) && !i.dropped.contains c.own then s.sendLate h t (i.ownExps c.params) else s
        -- the previous instance becomes FREE when it has left PUBLISHING
        if prev.any fun q => q.st == 4 then s.freeInst h (t - 1) else s

/-- The coordinator closes the exponent pass now (R359). -/
def State.closeNow (s : State) (h t : Nat) (timed : Bool) : State :=
  match s.coll? h with
  | none => s
  | some c => match c.inst t with
    | none => s
    | some i =>
      let inTime := i.arrived.filter fun a => !i.dropped.contains a.pos
      let onTime := inTime.foldl (fun l a => insSorted a.pos l) []
      let prev := if t = 0 then none else c.inst (t - 1)
      let held := prev.elim [] (·.late)
      let gone := prev.elim [] (·.lateGone)
      let late := (held.take c.params.lcap).map (·.pos)
      let lateOf (q : Inst) : List Nat := (q.arrived.map (·.pos)).filter fun p => !q.onTime.contains p && !q.dropped.contains p && !q.lateGone.contains p
      let ndisc := prev.elim 0 fun q => ((lateOf q).foldl (fun l p => insSorted p l) (held.foldl (fun l k => insSorted k.pos l) [])).length - late.length
      let xs := inTime.map (·.exps) ++ (held.filter fun k => late.contains k.pos).map (·.exps)
      let xa := (natRange 0 c.params.nblk).map fun b => xs.foldl (fun m x => max m (listGet 0 x b)) 0
      (s.sendColl h c t (.close onTime late xa timed ndisc gone)).applyClose h t onTime late xa timed ndisc gone

/-- The coordinator closes the pass when the arrivals reach Q, or every member that is still live has arrived (R359). -/
def State.tryClose (s : State) (h t : Nat) : State :=
  match s.coll? h with
  | none => s
  | some c => match c.inst t with
    | none => s
    | some i =>
      let n := i.arrived.length
      let all := i.live.all fun p => !s.posLive h c p || i.arrived.any (·.pos == p)
      if i.st == 1 && s.coordinates h c i && !s.expo.stopped && 0 < n && (i.quorum ≤ n || all) then s.closeNow h t false else s

/-- A member arrives: its block exponents are delivered (R359). After the close it is late (R362). -/
def State.arriveAt (s : State) (h t : Nat) (k : Contrib) : State :=
  match (s.coll? h).bind (·.inst t) with
  | none => s
  | some i =>
    if i.arrived.any (·.pos == k.pos) then s
    else (s.modInst h t fun i => { i with arrived := i.arrived ++ [k], firstArr := some (i.firstArr.getD s.clk.toNat) }).tryClose h t

/-- Members leave the on-time set: at the mantissa close late ones, whose contributions are late ones of this step, and those dropped
for poison, each counted once (R360, R363). -/
def State.applyDepart (s : State) (h t : Nat) (late poisoned : List Nat) : State :=
  match s.coll? h with
  | none => s
  | some c => match c.inst t with
    | none => s
    | some i =>
      let new := poisoned.filter fun p => !i.dropped.contains p
      let out := late ++ new
      let s := s.modInst h t fun i => { i with
        onTime := i.onTime.filter fun p => !out.contains p, sums := i.sums.filter fun k => !(out.contains k.pos && k.exps.isEmpty),
        dropped := i.dropped ++ new, npois := i.npois + new.length }
      if late.contains c.own then s.sendLate h t i.xa else s

/-- A late contribution to step `t` is dropped for poison: it leaves the late set of the step, which the next instance holds once
its pass has closed, and NPOIS counts it there (R363, R365). -/
def State.applyLateGone (s : State) (h t pos : Nat) : State :=
  match (s.coll? h).bind fun c => (c.inst (t + 1)).filter (·.st != 1) with
  | none => s.modInst h t fun i => { i with late := i.late.filter (·.pos != pos), lateGone := insSorted pos i.lateGone }
  | some q =>
    if !q.lateSet.contains pos then s
    else s.modInst h (t + 1) fun q => { q with
      lateSet := q.lateSet.filter (· != pos), sums := q.sums.filter fun k => !(k.pos == pos && !k.exps.isEmpty), npois := q.npois + 1 }

/-! ### The root (R361) -/

/-- One element of the result: on-time mantissas, folded late ones with their exponents, the agreed exponent, and D. -/
def rootElem (p : CollParams) (d xa : Nat) (on : List (Option Int)) (late : List (Nat × Option Int)) : Nat × Flags × Bool :=
  let f : Fmt := if p.obf16 then .bf16 else .f32
  let w : Int := p.w
  let unit : Int := (xa : Int) - 127 - (w - 2)
  if on.any (·.isNone) || late.any (·.2.isNone) then (qnan f, flagIV, false)
  else if p.op = 2 then
    let vs := (on.map fun m => (m.getD 0, unit)) ++ late.map fun q => (q.2.getD 0, (q.1 : Int) - 127 - (w - 2))
    let best := vs.foldl (fun (m : Option (Int × Int)) v => match m with
      | none => some v
      | some b => some (if 0 < (dyAdd v.1 v.2 (-b.1) b.2).1 then v else b)) none
    match best with
    | none => (infCode f true, noFlags, false)
    | some v =>
      let (code, fl) := roundFmt f (v.1 < 0) ⟨v.1.natAbs, v.2, false⟩ .rne 0
      (code, fl, false)
  else
    let term (q : Nat × Option Int) : Int :=
      let m := q.2.getD 0
      let sh : Int := (q.1 : Int) - xa + 64
      if 0 ≤ sh then m * 2 ^ sh.toNat else signed (m < 0) (m.natAbs / 2 ^ (-sh).toNat)
    let trunc := late.any fun q => q.1 + 64 < xa
    let a : Int := (on.foldl (fun (n : Int) m => n + m.getD 0) 0) * 2 ^ 64 + late.foldl (fun (n : Int) q => n + term q) 0
    if p.op = 1 ∧ d = 0 then (qnan f, flagIV, trunc)
    else if a = 0 then (zeroCode f false, noFlags, trunc)
    else
      let mag := if p.op = 1 then divMag a.natAbs (unit - 64) d 0 else ⟨a.natAbs, unit - 64, false⟩
      let (code, fl) := roundFmt f (a < 0) mag .rne 0
      (code, fl, trunc)

/-- The result elements of a chunk and its flags: [4:0] the flags, [5] TRUNC. -/
def Inst.chunkResult (i : Inst) (p : CollParams) (ch : Nat) : List Nat × Nat :=
  let d := i.onTime.length + i.lateSet.length
  let on := i.sums.filter fun k => k.exps.isEmpty && i.onTime.contains k.pos
  let late := i.sums.filter fun k => !k.exps.isEmpty && i.lateSet.contains k.pos
  let el (b e : Nat) : Nat × Flags × Bool :=
    rootElem p d (listGet 0 i.xa b) (on.map fun k => listGet none (listGet [] k.mants b) e)
      (late.map fun k => (listGet 0 k.exps b, listGet none (listGet [] k.mants b) e))
  let rs := (p.blocks ch).flatMap fun b => (natRange 0 32).map (el b)
  (rs.map (·.1), (flagsAll (rs.map (·.2.1))).gst ||| (if rs.any (·.2.2) then 32 else 0) ||| (if i.limited then 16 else 0))

/-! ### Messages (R349, R355 to R364) -/

/-- The previous step has left PUBLISHING on this module (R356). -/
def Coll.prevPublished (c : Coll) (t : Nat) : Bool := !c.insts.any fun q => q.t + 1 == t && (q.st == 3 || q.st == 2)

/-- A message that has come before the exponent close it follows waits for that close (R360, R362). -/
def Inst.early (i : Inst) (b : CollBody) : Bool :=
  i.st == 1 && match b with
    | .mantissas _ _ _ | .result _ _ _ | .late _ _ => true
    | .depart late _ => !late.isEmpty
    | .exponents _ _ | .close _ _ _ _ _ _ | .freed _ | .lateGone _ => false

/-- The poisoned late contribution of a member to step `t` is dropped, and the other members are told (R363). -/
def State.dropLate (s : State) (h : Nat) (c : Coll) (t pos : Nat) : State := (s.sendColl h c t (.lateGone pos)).applyLateGone h t pos

/-- A late contribution to step `t` is delivered (R362): it is held for the next step, or joins the sums of that step when its close
has named it already; otherwise it is discarded. `own`: it is the module's own. -/
def State.takeLate (s : State) (h : Nat) (c : Coll) (t : Nat) (k : Contrib) (own : Bool) : State :=
  let lost (s : State) : State := if own then s.modColl h fun c => { c with disc := c.disc + 1 } else s.discardMsg h
  match (c.inst (t + 1)).filter (·.st != 1), c.inst t with
  | some q, _ =>
    if q.hasLate k.pos then s
    else if q.lateSet.contains k.pos then s.modInst h (t + 1) fun q => { q with sums := q.sums ++ [k] }
    else lost s
  | none, some i =>
    if i.late.any (·.pos == k.pos) || i.lateGone.contains k.pos then s else s.modInst h t fun i => { i with late := i.late ++ [k] }
  | none, none => lost s

/-- One message for an instance of step `t` that is not FREE, or was (R359 to R364). -/
def State.takeBody (s : State) (h : Nat) (c : Coll) (t : Nat) (i? : Option Inst) (m : CollMsg) : State :=
  match m.body, i? with
  | .late pos bs, _ =>
    if m.poisoned then s.dropLate h c t pos
    else s.takeLate h c t { pos := pos, exps := bs.map (·.1), mants := bs.map (·.2) } false
  | .lateGone pos, _ => s.applyLateGone h t pos
  | .freed pos, _ => s.modColl h fun c => { c with freed := tabSet c.freed pos (max (tabGet 0 c.freed pos) (t + 1)) }
  | _, none => s.discardMsg h
  | .exponents pos xs, some _ => if m.poisoned then s else s.arriveAt h t { pos := pos, exps := xs, mants := [] }
  | .close onTime late xa timed ndisc gone, some _ => if m.poisoned then s else s.applyClose h t onTime late xa timed ndisc gone
  | .mantissas pos ms lim, some i =>
    if i.st == 4 || !i.onTime.contains pos || i.hasSum pos then s
    else if m.poisoned then (s.sendColl h c t (.depart [] [pos])).applyDepart h t [] [pos]
    else s.modInst h t fun i => { i with sums := i.sums ++ [{ pos := pos, exps := [], mants := ms }], limited := i.limited || lim }
  | .depart late poisoned, some _ => s.applyDepart h t late poisoned
  | .result ch codes fl, some i =>
    if m.poisoned || i.st == 4 then s
    else s.modInst h t fun i => { i with result := tabSet i.result ch codes, flags := i.flags ||| fl }

/-- A message of a step that follows the next one, or of the next one while it cannot open, is held (R358). -/
def State.hold (s : State) (h : Nat) (m : CollMsg) : State := s.modColl h fun c => { c with held := c.held ++ [m] }

/-- A message reaches its collective (R357, R358, R367). -/
def State.collTake (s : State) (m : CollMsg) : State :=
  let h := m.handle
  let t := m.step
  match s.coll? h with
  | none => s
  | some c =>
    if m.params != c.params then (s.modColl h fun c => { c with mism := c.mism + 1 }).dropMessage
    else match m.body, c.inst t with
      | .freed _, i? => s.takeBody h c t i? m
      | b, some i => if i.early b then s.hold h m else s.takeBody h c t (some i) m
      | _, none =>
        if t < c.next then s.takeBody h c t none m
        else if !c.canOpen t || c.closing then s.hold h m
        else
          let s := s.openInst h t
          match (s.coll? h).bind fun c => (c.inst t).map fun i => (c, i) with
          | none => s
          | some (c, i) => if i.early m.body then s.hold h m else s.takeBody h c t (some i) m

/-- One round over the messages that are held; each is taken as if it had just arrived, or held again (R358). -/
def State.takeHeld (s : State) (h : Nat) : State :=
  match s.coll? h with
  | none => s
  | some c => c.held.foldl State.collTake (s.modColl h fun c => { c with held := [] })

/-- Held messages are taken as long as the ones taken before them make room; `n` rounds are enough for `n` messages. -/
def State.takeRounds (s : State) (h : Nat) : Nat → State
  | 0 => s
  | n + 1 => (s.takeHeld h).takeRounds h n

/-- Messages held for a step that can open, or for a close that has come, are taken (R358). -/
def State.collSettle (s : State) (h : Nat) : State := s.takeRounds h ((s.coll? h).elim 0 (·.held.length))

/-- Every open collective takes what it can. -/
def State.settleAll (s : State) : State := s.colls.foldl (fun s c => s.collSettle c.1) s

/-- COLLECTIVE_MESSAGE (R349, R355 to R364). -/
def execCollectiveMessage (m : CollMsg) (s : State) : Host.Outcome State Fault Refusal := .next ((s.collTake m).collSettle m.handle)

/-- LATE_CONTRIBUTION (R362): the packed blocks of a late member are delivered to the chunk roots, and the coordinator is notified. For
this module's own position its own late contribution is. -/
def execLateContribution (h t pos : Nat) (m : LateMsg) (s : State) : Host.Outcome State Fault Refusal :=
  match s.coll? h with
  | none => .next s
  | some c =>
    if pos = c.own then match (c.inst t).bind (·.ownLate) with
      | none => .next s
      | some k => .next ((s.modInst h t fun i => { i with ownLate := none }).takeLate h c t k true)
    else .next ((s.collTake { handle := h, params := m.params, step := t, poisoned := m.poisoned, body := .late pos m.blocks }).collSettle h)

/-! ### Events of the passes -/

/-- COLLECTIVE_ARRIVAL (R359, R368): every chunk of this module's contribution is read, and its exponents are delivered. -/
def execCollectiveArrival (h t : Nat) (s : State) : Host.Outcome State Fault Refusal :=
  match s.coll? h with
  | none => .next s
  | some c => match c.inst t with
    | none => .next s
    | some i =>
      if s.expo.stopped || i.chunks.length < c.params.nch || i.poisonedOwn || i.arrived.any (·.pos == c.own) || !s.memberOk h then .next s
      else
        let xs := i.ownExps c.params
        let k : Contrib := { pos := c.own, exps := xs, mants := [] }
        let s := s.sendColl h c t (.exponents c.own xs)
        if i.st = 1 then .next ((s.arriveAt h t k).collSettle h)
        else .next ((s.modInst h t fun i => { i with arrived := i.arrived ++ [k] }).sendLate h t xs)

/-- EXPONENT_TIMER_EXPIRY (R359): T after the first arrival. -/
def execExponentTimerExpiry (h t : Nat) (s : State) : Host.Outcome State Fault Refusal :=
  match s.coll? h with
  | none => .next s
  | some c => match c.inst t with
    | none => .next s
    | some i =>
      let due := c.params.timer != 0 && i.firstArr.any fun f => f + c.params.timer * 2400 ≤ s.clk.toNat
      if i.st == 1 && due && s.coordinates h c i && !s.expo.stopped then .next ((s.closeNow h t true).collSettle h) else .next s

/-- The chunks that this module is the root of now and whose result it does not have. -/
def State.openChunks (s : State) (h : Nat) (c : Coll) (i : Inst) : List Nat :=
  (s.ownChunks h c i).filter fun ch => (tabGet? i.result ch).isNone

/-- MANTISSA_CLOSE (R360, R361): the roots hold the sums of all on-time members, and the late contributions to be folded; the chunks
that this module is the root of are rounded and sent. A successor computes the chunks it inherits, though its instance is
PUBLISHING by then (R355); a module that is no root learns of the close by the first result. -/
def execMantissaClose (h t : Nat) (s : State) : Host.Outcome State Fault Refusal :=
  match s.coll? h with
  | none => .next s
  | some c => match c.inst t with
    | none => .next s
    | some i =>
      let mine := s.openChunks h c i
      let all := i.onTime.all i.hasSum && i.lateSet.all i.hasLate
      let known := if mine.isEmpty then i.st == 2 && !i.result.isEmpty else (i.st == 2 || i.st == 3) && all
      if !known || s.expo.stopped || !c.prevPublished t then .next s
      else
        let res := mine.map fun ch => (ch, i.chunkResult c.params ch)
        let s := s.modInst h t fun i => { i with
          st := 3, result := res.foldl (fun r q => tabSet r q.1 q.2.1) i.result, flags := res.foldl (fun n q => n ||| q.2.2) i.flags }
        .next (res.foldl (fun s q => s.sendColl h c t (.result q.1 q.2.1 q.2.2)) s)

/-- MANTISSA_TIMER_EXPIRY (R360): T after the exponent close, on-time members whose mantissas are not in leave the set. -/
def execMantissaTimerExpiry (h t : Nat) (s : State) : Host.Outcome State Fault Refusal :=
  match s.coll? h with
  | none => .next s
  | some c => match c.inst t with
    | none => .next s
    | some i =>
      let due := c.params.timer != 0 && i.closedAt + c.params.timer * 2400 ≤ s.clk.toNat
      let out := i.onTime.filter fun p => !i.hasSum p
      if i.st != 2 || !due || out.isEmpty || !s.coordinates h c i || s.expo.stopped then .next s
      else .next ((s.sendColl h c t (.depart out [])).applyDepart h t out [])

/-! ### Publication (R364 to R366, R244) -/

/-- The version record of result region `k`. -/
def State.resultRegion (s : State) (c : Coll) (k : Nat) : Option Nat :=
  match s.walk c.ctx (c.rva + k * 2 ^ 23) .vread with
  | .region r _ _ _ => some r
  | _ => none

/-- The header of R365. -/
def Inst.header (i : Inst) : List Byte :=
  let non := i.onTime.length
  let nl := i.lateSet.length
  (([i.t, non, nl, non + nl, i.ndisc, i.npois, i.live.length, i.quorum, b2n i.timed * 64 + i.flags % 64].map (leBytes 4)).flatten) ++
    leBytes (0x1000 - 0x24) 0 ++ leBytes 0x8000 (posMap i.onTime) ++ leBytes 0x8000 (posMap i.lateSet) ++ leBytes 0xF000 0

/-- The bytes of the result area: the header and the elements. -/
def Inst.resultBytes (i : Inst) (p : CollParams) : List Byte :=
  i.header ++ ((natRange 0 p.nch).flatMap fun ch => (tabGet [] i.result ch).flatMap fun x => leBytes (p.ob / 32) x)

/-- Writes the result into the W frames of its regions; none while a region has no W frame or does not translate (R243). -/
def State.writeResult (s : State) (c : Coll) (bs : List Byte) : List Nat → Option State
  | [] => some s
  | k :: t => match s.resultRegion c k with
    | none => none
    | some r =>
      let v := s.vrec r
      let part := (bs.drop (k * 2 ^ 23)).take (2 ^ 23)
      if s.vrecBad r || v.drn || s.pubs.any (·.record == r) then none
      else match s.frameBytes r v.wix (vaRange ((c.rva + k * 2 ^ 23) % 2 ^ 50) part.length) with
        | .error _ => none
        | .ok pas => if !s.canWrite (linesOf pas) none then none
          else ((s.homeWrite (pas.zip part) []).postLines (linesOf pas)).writeResult c bs t

/-- The region that is published after `n` others: the data regions in ascending order, then the header's (R364). -/
def pubOrder (nr n : Nat) : Nat := if n + 1 < nr then n + 1 else 0

/-- Instance `t` leaves PUBLISHING (R356, R372). -/
def State.leavePublishing (s : State) (h t : Nat) : State :=
  match s.coll? h with
  | none => s
  | some c =>
    if c.closing || (c.inst (t + 1)).any fun q => q.st != 1 then s.freeInst h t else s.modInst h t fun i => { i with st := 4 }

/-- RESULT_PUBLICATION (R364, R366): the result is written, or its next region's publication is accepted or refused. -/
def execResultPublication (h t : Nat) (s : State) : Host.Outcome State Fault Refusal :=
  match s.coll? h with
  | none => .next s
  | some c => match c.inst t with
    | none => .next s
    | some i =>
      let all := (natRange 0 c.params.nch).all fun ch => (tabGet? i.result ch).isSome
      if (i.st != 3 && i.st != 2) || !all || !c.prevPublished t || s.expo.stopped then .next s
      else if !i.written then
        match s.writeResult c (i.resultBytes c.params) (natRange 0 c.params.nr) with
        | none => .next s
        | some s => .next (s.modInst h t fun i => { i with st := 3, written := true })
      else if s.pubs.any fun p => p.source == h + 1 then .next s
      else match s.resultRegion c (pubOrder c.params.nr i.published) with
        | none => .next s
        | some r =>
          if (s.vrec r).lstamp < t then
            let s := s.homePutRaw (r + 0x30) 4 t
            .next { s with pubs := s.pubs ++ [{ record := r, stamp := t, core := 0, pend := 0, pos := 0, source := h + 1 }] }
          else .next (((s.modColl h fun c => { c with broken := true }).leavePublishing h t).collSettle h)

/-- The WAITCLOSE nodes that wait for a step up to `t` of collective `h` are done: the collective may close or break afterwards
(R107). -/
def State.notePublished (s : State) (h t : Nat) : State :=
  let run (r : NodeRun) : NodeRun :=
    if r.typ == 7 && !bitAt (listGet 0 r.words 1) 8 && r.prog == h && decide (listGet 0 r.words 2 ≤ t) then { r with done := true } else r
  { s with walkers := List.map (fun w => (w.1, { w.2 with queues := w.2.queues.map fun k => { k with busy := k.busy.map run } })) s.walkers }

/-- PUBLISH (R244): the oldest accepted publication of a record, once no write to W is pending and no drain holds it. -/
def execPublish (r : Nat) (s : State) : Host.Outcome State Fault Refusal :=
  match s.pubs.find? (·.record == r) with
  | none => .next s
  | some b =>
    let v := s.vrec r
    if !v.ready || s.expo.stopped then .next s
    else
      let s := (s.publish r b.stamp)
      let s := { s with pubs := listDelFirst (· == b) s.pubs }
      if b.source = 0 then
        match (tabGet? (s.core b.core).pend b.pend).bind fun p => (p.accs.find? (·.pos == b.pos)).map fun a => (p, a) with
        | some (p, a) => .next (s.give b.core b.pend p a (p.writes b.pos 1 v.pstamp) regsAll)
        | none => .next s
      else
        let h := b.source - 1
        match (s.coll? h).bind fun c => (c.inst b.stamp).map fun i => (c, i) with
        | none => .next s
        | some (c, i) =>
          let s := s.modInst h b.stamp fun i => { i with published := i.published + 1 }
          if i.published + 1 < c.params.nr then .next s
          else .next ((((s.modColl h fun c => { c with newest := some b.stamp }).notePublished h b.stamp).leavePublishing h b.stamp).collSettle h)

/-! ### colopen (R352 to R354, R368) -/

/-- The parameters of a record. -/
def collParams (b : List Byte) : CollParams :=
  let w := le32 b 0xC
  { nblk := fld (le32 b 8) 0 21, frac := bitAt w 31, op := fld w 26 2, w24 := bitAt w 25, obf16 := bitAt w 24, chb := fld w 16 8 + 1,
    lcap := fld w 8 4, quorum := le32 b 0x10, timer := le32 b 0x14, mva := le64 b 0x18, nmem := le32 b 0x20, cid := le32 b 0x28 }

/-- A record breaks R352. -/
def collBad (b : List Byte) : Bool :=
  let w := le32 b 0xC
  let p := collParams b
  le64 b 0 % 2 ^ 23 != 0 || 2 ^ 50 ≤ le64 b 0 || fld (le32 b 8) 21 11 != 0 || p.nblk = 0 || 1048576 < p.nblk || p.op = 3 ||
    fld w 28 3 != 0 || fld w 12 4 != 0 || fld w 0 8 != 0 || p.quorum = 0 || (if p.frac then 65536 else 262144) < p.quorum ||
    p.mva % 64 != 0 || p.nmem = 0 || 262144 < p.nmem || (b.drop 0x2C).any (· != 0)

/-- A membership list breaks R352. -/
def ranksBad : List Nat → Bool
  | [] => false
  | [a] => 2 ^ 18 ≤ a
  | a :: b :: t => b ≤ a || 2 ^ 18 ≤ a || ranksBad (b :: t)

/-- The tables lead to a valid region entry of `va`, and it is not that of a versioned region: its leaf is of no concern (R353,
R367, R383). -/
def State.plainRegion (s : State) (x va : Nat) : Bool :=
  let k := s.ctx x
  let a1 := k.ptroot.toNat + 8 * fld va 41 9
  let e1 := s.homeRead a1 8
  let a2 := fld e1 12 30 * 4096 + 8 * fld va 32 9
  let e2 := s.homeRead a2 8
  let a3 := fld e2 12 30 * 4096 + 8 * fld va 23 9
  let e3 := s.homeRead a3 8
  !inWindow k va && k.ptroot.toNat != 0 && (dirFault e1 a1 0).isNone && (dirFault e2 a2 1).isNone && (regionFault e3 a3).isNone &&
    fld e3 2 2 != 2

/-- The statuses of the result regions, in order (R353, R367). -/
def State.regionCheck (s : State) (x rva step0 : Nat) : List Nat → Nat
  | [] => kOk
  | k :: t =>
    let va := rva + k * 2 ^ 23
    if 2 ^ 50 ≤ va then kFault
    else if s.plainRegion x va then kRecord
    else match s.walk x va .vread with
      | .page _ _ _ => kRecord
      | .fault f => if f.code = pVKind then kRecord else kFault
      | .region r _ ro _ =>
        if ro then kRecord else if step0 ≤ (s.vrec r).lstamp then kStamp else s.regionCheck x rva step0 t

/-- What a `colopen` finds: a status, or the record and the ranks. -/
def State.openCheck (s : State) (x addr : Nat) : Except Nat (List Byte × List Nat) :=
  if !flatOk addr true then .error kFault
  else if addr % 64 != 0 then .error kRecord
  else match s.devRead x addr 64 with
    | .error _ => .error kFault
    | .ok b =>
      let p := collParams b
      if collBad b then .error kRecord
      else if !flatOk p.mva true then .error kFault
      else match s.devRead x p.mva (4 * p.nmem) with
        | .error _ => .error kFault
        | .ok l =>
          let ranks := (natRange 0 p.nmem).map fun i => le32 l (4 * i)
          if ranksBad ranks then .error kRecord
          else match s.regionCheck x (le64 b 0) (le32 b 0x24) (natRange 0 p.nr) with
            | 0 => .ok (b, ranks)
            | st => .error st

/-- Opens a collective: the state, the handle and the status. -/
def State.collOpen (s : State) (x addr : Nat) : State × Nat × Nat :=
  let no (st : Nat) : State × Nat × Nat := (s, 2 ^ 32 - 1, st)
  match s.openCheck x addr with
  | .error st => no st
  | .ok (b, ranks) =>
    let p := collParams b
    match listIdx (· == s.stepCtx.rank) ranks, (natRange 0 64).find? fun h => (s.coll? h).isNone with
    | none, _ => no kMember
    | some own, h? =>
      if !s.link.pv || !s.ownLive ((h?.getD 0) % 4) then no kMember
      else match h? with
        | none => no kFull
        | some h =>
          if 2 ^ 28 < s.colls.foldl (fun n c => n + c.2.params.res) p.res then no kSpace
          else
            let c : Coll := {
              ctx := x, rva := le64 b 0, step0 := le32 b 0x24, params := p, ranks := ranks, own := own, closing := false,
              broken := false, disc := 0, mism := 0, next := le32 b 0x24, insts := [], newest := none, freed := [], held := [],
              closer := none }
            ({ s with colls := tabSet s.colls h c }, h, kOk)

/-! ### The commands (R368 to R372) -/

/-- The T commands of the class. -/
def Env.collCmd (e : Env) (s : State) (t : TW) (n : Nat) : Res := if e.slotFull t.sb then .wait s .instr else .done (e.newCmd s n none []).2

/-- `colopen`: the issuing group's earlier stores are ordered as by a release at module scope (R97, R368). -/
def execColopen (t : TW) (s : State) : Host.Outcome State Fault Refusal :=
  execWord (.colopen t) (fun e s =>
    if e.slotFull t.sb then .wait s .instr
    else match s.releaseRound e.c e.g e.x e.x.positions 5 e.x.phase with
      | (s, some ph) => .wait (e.setPhase ph s) .instr
      | (s, none) => e.collCmd s t 2) s
/-- `colput` (R369). -/
def execColput (t : TW) (s : State) : Host.Outcome State Fault Refusal := execWord (.colput t) (fun e s => e.collCmd s t 5) s
/-- `colwait` (R370). -/
def execColwait (t : TW) (s : State) : Host.Outcome State Fault Refusal := execWord (.colwait t) (fun e s => e.collCmd s t 2) s
/-- `colclose` (R372). -/
def execColclose (t : TW) (s : State) : Host.Outcome State Fault Refusal := execWord (.colclose t) (fun e s => e.collCmd s t 1) s

/-- A collective of a context that takes commands. -/
def State.openColl (s : State) (x h : Nat) : Option Coll := (s.coll? h).filter fun c => c.ctx == x && !c.closing

/-- Whether the WAITCLOSE of a node is over: 1 the step has published, 2 it cannot any more, 0 neither. A step below STEP0 counts as
published: R107 names no fault for it (DESIGN CHOICE, log entry 55). -/
def State.waitClose (s : State) (x h t : Nat) : Nat :=
  match s.openColl x h with
  | none => 2
  | some c => if t < c.step0 || c.newest.any (t ≤ ·) then 1 else if c.broken then 2 else 0

/-- `colstat` (R371): the slot rises and falls with the read. -/
def execColstat (p : Pfx) (d a : Operand) (sb : Fin 8) (s : State) : Host.Outcome State Fault Refusal :=
  execWord (.colstat p d a sb) (fun e s =>
    if e.slotFull sb then .wait s .instr
    else
      let h := e.opnd s a e.low 32 % 64
      let x := s.ctxOf e.c e.x
      let w := match (s.coll? h).filter (·.ctx == x) with
        | none => [0, 0, 0, 0]
        | some c =>
          let tlo := (c.insts.head?).elim c.next (·.t)
          let st (t : Nat) : Nat := (c.inst t).elim 0 (·.st)
          [tlo, st tlo + 16 * st (tlo + 1) + 256 + 512 * b2n c.closing + 1024 * b2n c.broken, c.disc.toNat, c.mism.toNat]
      .done (e.write (some d) e.low 128 (ofLe (w.flatMap (leBytes 4))) s)) s

/-- The block of `colput`: step, handle, first chunk and number of chunks. -/
def putT (b : List Nat) : Nat := blk32 b 2
def putH (b : List Nat) : Nat := fld (blk32 b 3) 20 6
def putFirst (b : List Nat) : Nat := fld (blk32 b 3) 0 20
def putCount (b : List Nat) : Nat := fld (blk32 b 4) 0 21

/-- The checks of `colput` (R367). -/
def State.putCheck (s : State) (x : Nat) (b : List Nat) : Nat :=
  let t := putT b
  match s.openColl x (putH b) with
  | none => kNotOpen
  | some c =>
    let chunks := natRange (putFirst b) (putCount b)
    if c.broken then kStamp
    else if !s.memberOk (putH b) then kMember
    else if fld (blk32 b 3) 26 6 != 0 || fld (blk32 b 4) 21 11 != 0 || putCount b = 0 || 2 ^ 20 < putCount b ||
        c.params.nch < putFirst b + putCount b || blk64 b 0 % 4 != 0 || !flatOk (blk64 b 0) false then kParam
    else if (c.inst t).any fun i => chunks.any i.chunks.contains then kDup
    else if t < c.step0 || (t < c.next && (c.inst t).isNone) then kStale
    else if c.next < t then kOrder
    else kOk

/-- Another `colput` that is under way names one of the chunks; it is served first (R354, R369). -/
def State.putClash (s : State) (c id : Nat) (b : List Nat) : Bool :=
  s.cores.any fun k => k.2.cmds.any fun m => (k.1 != c || m.1 != id) && (m.2.state == .running || m.2.state == .stalled) &&
    (match m.2.i with | .colput _ => true | _ => false) && putH m.2.block == putH b && putT m.2.block == putT b &&
    decide (putFirst b < putFirst m.2.block + putCount m.2.block) && decide (putFirst m.2.block < putFirst b + putCount b)

/-- Instance t − 2 is FREE on every live member (R357). -/
def State.oldFree (s : State) (h : Nat) (c : Coll) (t : Nat) : Bool :=
  t < c.step0 + 2 || ((c.inst (t - 2)).isNone && (natRange 0 c.ranks.length).all fun p =>
    p == c.own || !s.posLive h c p || t ≤ tabGet 0 c.freed p + 1)

/-- The release of a command's owner before its reads; none until it is done. -/
def State.ownerRelease (s : State) (c id : Nat) (m : Cmd) : Option State × State :=
  match s.group? c m.ctx with
  | none => (some s, s)
  | some x => match s.releaseRound c m.ctx x [m.owner] 5 m.prog2 with
    | (s, some ph) => (none, s.modCmd c id fun m => { m with prog2 := ph })
    | (s, none) => (some s, s)

/-- A `colput` has read its chunks: they are put. A contribution that held poison is dropped: the member is counted and never arrives
(R363, R369). -/
def State.putEnd (s : State) (h t : Nat) (c : Coll) (b : List Nat) (poisoned : Bool) : State :=
  let s := s.modInst h t fun i => { i with chunks := (natRange (putFirst b) (putCount b)).foldl (fun l q => insSorted q l) i.chunks,
                                           poisonedOwn := i.poisonedOwn || poisoned }
  if poisoned && (c.inst t).any (!·.poisonedOwn) then (s.sendColl h c t (.depart [] [c.own])).applyDepart h t [] [c.own] else s

/-- One block of a running `colput` (R369). -/
def State.putStep (s : State) (c id : Nat) (m : Cmd) : State :=
  let b := m.block
  let h := putH b
  let t := putT b
  let fin (s : State) (st : Nat) : State := s.cmdFinish c id m [(5, st)]
  match s.coll? h with
  | none => fin s kNotOpen
  | some col =>
    let p := col.params
    let lo := putFirst b * p.chb
    let hi := min p.nblk ((putFirst b + putCount b) * p.chb)
    let k := lo + m.prog
    if hi ≤ k then fin (s.putEnd h t col b m.poisoned) (if m.poisoned then kPoison else kOk)
    else match s.elemRead c id m (blk64 b 0 + 128 * m.prog) 128 with
      | .path => fin s kParam
      | .again s => s
      | .fault va f => if f.replayable then s.cmdStall c id m f va 0 else fin (s.cmdFault c m f va 0).1 kPage
      | .ok s bs bad =>
        let s := s.modInst h t fun i => { i with values := tabSet i.values k ((natRange 0 32).map fun e => le32 bs (4 * e)) }
        s.modCmd c id fun m => { m.goOn .running with prog := m.prog + 1, poisoned := m.poisoned || !bad.isEmpty }

/-- `colput` goes on (R358, R369). -/
def State.colputStep (s : State) (c id : Nat) (m : Cmd) : State :=
  match s.team? c m.place with
  | none => s
  | some tm =>
    if !s.canInc c m || !s.cmdAlive c m then s
    else if m.state = .running then
      -- a module that finds its own entry silent stops its contributions (R379)
      if s.memberOk (putH m.block) then s.putStep c id m else s.cmdFinish c id m [(5, kMember)]
    else if m.state != .waiting || s.expo.stopped || !s.wenHolds c m || s.putClash c id m.block then s
    else
      let s := s.wenBind c m
      let b := m.block
      let h := putH b
      match s.putCheck tm.ctx b, s.coll? h with
      | 0, some col =>
        if !s.oldFree h col (putT b) then s
        else match s.ownerRelease c id m with
          | (none, s) => s
          | (some s, _) =>
            let s := if (col.inst (putT b)).isSome then s else (s.openInst h (putT b)).collSettle h
            s.modCmd c id fun m => { m with state := .running }
      -- a restored command that had opened its instance goes on
      | st, _ => s.cmdFinish c id m [(5, st)]

/-- `colwait` ends when its step has published here, or cannot (R370). -/
def State.colwaitStep (s : State) (c id : Nat) (m : Cmd) : State :=
  match s.team? c m.place with
  | none => s
  | some tm =>
    if !s.wenHolds c m || !s.canInc c m then s
    else
      let h := blk32 m.block 0 % 64
      let t := blk32 m.block 1
      let fin (st : Nat) : State := (s.wenBind c m).cmdFinish c id m [(2, st)]
      match s.openColl tm.ctx h with
      | none => fin kNotOpen
      | some col =>
        if col.broken then fin kStamp
        else if blk32 m.block 0 / 64 != 0 || t < col.step0 then fin kParam
        else if col.newest.any (t ≤ ·) then fin kOk
        else if !s.memberOk h then fin kMember
        else s

/-- `colclose` (R372): later commands find the handle closing; a LATE instance is freed at once. -/
def State.collClose (s : State) (h : Nat) (o : Owner) : State :=
  let s := s.modColl h fun c => { c with
    closing := true, closer := some o, held := c.held.filter (·.step < c.next),
    insts := c.insts.map fun i => if i.st = 4 then { i with late := [], ownLate := none } else i }
  match s.coll? h with
  | none => s
  | some c => (c.insts.filter (·.st == 4)).foldl (fun s i => s.freeInst h i.t) s

/-- Every instance of a closing collective is FREE: the handle is freed. -/
def State.collClosed (s : State) (h : Nat) : Option State :=
  match s.coll? h with
  | none => some s
  | some c => if c.closing && c.insts.isEmpty then some { s with colls := tabDel s.colls h } else none

/-- `colopen` and `colclose` go on. -/
def State.colopenStep (s : State) (c id : Nat) (m : Cmd) : State :=
  match s.team? c m.place with
  | none => s
  | some t =>
    if !s.wenHolds c m || !s.canInc c m then s
    else
      let (s, h, st) := (s.wenBind c m).collOpen t.ctx (blk64 m.block 0)
      s.cmdFinish c id m [(2, h), (3, st)]

def State.colcloseStep (s : State) (c id : Nat) (m : Cmd) : State :=
  match s.team? c m.place with
  | none => s
  | some t =>
    if !s.canInc c m then s
    else
      let h := blk32 m.block 0 % 64
      if m.state = .running then match s.collClosed h with
        | some s => s.cmdFinish c id m [(1, kOk)]
        | none => s
      else if !s.wenHolds c m then s
      else
        let s := s.wenBind c m
        if blk32 m.block 0 / 64 != 0 || (s.openColl t.ctx h).isNone then s.cmdFinish c id m [(1, kNotOpen)]
        else (s.collClose h (.cmd c id)).modCmd c id fun m => { m with state := .running }

/-! ### ENGINE_ELEMENT_RETRY (R236, R305, R369) -/

/-- A stalled `acst` or `colput` tries its element again; another fault writes a record only after a write to the line, or when the
earlier record was dropped. -/
def execEngineElementRetry (c id : Nat) (s : State) : Host.Outcome State Fault Refusal :=
  match s.cmd? c id with
  | none => .next s
  | some m =>
    if !s.retryDue m || !s.cmdAlive c m then .next s
    else match s.team? c m.place, m.i with
      | some t, .acst _ => .next (s.acstStep c id m t)
      | some _, .colput _ => .next (s.putStep c id m)
      | _, _ => .next s

end Sys2Proof.Machine
end

