-- ==== Sys2Proof/Machine/Context.lean ====
section
/-!
DEFINITION. Sys2Proof/Machine/Context.lean: `ctxld` and `ctxsv` (R87 to R91, R96 to R98).
-/
namespace Sys2Proof.Machine

/-! ### Context records (R87, R88) -/

/-- DLN 0 selects 100 (R87). -/
def dlnOf (x : Nat) : BitVec 16 := if x = 0 then 100 else BitVec.ofNat 16 x

/-- The slot that a record fills. -/
def ctxOfRecord (b : List Byte) : Ctx :=
  { emptyCtx with
    hbase := BitVec.ofNat 64 (le64 b 0), hlim := BitVec.ofNat 64 (le64 b 8), hofs := BitVec.ofNat 64 (le64 b 0x10),
    ptroot := BitVec.ofNat 64 (le64 b 0x18), tqbase := BitVec.ofNat 64 (le64 b 0x20), svbase := BitVec.ofNat 64 (le64 b 0x28),
    rkey := BitVec.ofNat 64 (le64 b 0x30), bkey := BitVec.ofNat 32 (le32 b 0x38), ctxcfg := BitVec.ofNat 32 (le32 b 0x3C),
    lead := BitVec.ofNat 8 (le32 b 0x40), ftvd := BitVec.ofNat 3 (le32 b 0x44), zwt := BitVec.ofNat 32 (le32 b 0x48),
    dln := dlnOf (le32 b 0x4C % 2 ^ 16), step := BitVec.ofNat 32 (le32 b 0x50), saved := BitVec.ofNat 32 (le32 b 0x54) }

/-- A user-mode window reaches bytes that no user page may (R87). -/
def windowBad (b : List Byte) : Bool :=
  let lo := le64 b 0x10
  let hi := lo + (le64 b 8 - le64 b 0)
  let meets (a n : Nat) : Bool := lo < a + n && a < hi && lo < hi
  !bitAt (le32 b 0x3C) 0 && (meets 0x1000 0x1000 || (natRange 0 24).any fun d =>
    meets (d * 2 ^ 37) 0x1000 || meets (d * 2 ^ 37 + 0x1E00000000) 0x200000000)

/-- The save area of a record with SAVED ≠ 0 has no matching directory (R87). -/
def State.directoryBad (s : State) (b : List Byte) : Bool :=
  let sv := le64 b 0x28
  let n := le32 b 0x54
  n != 0 && (65536 < n || (natRange 0 n).any fun k =>
    let e := sv + 0x10000 + 16 * k
    let ofs := s.homeRead e 8
    let m : Image := ⟨sv + ofs, s.homeRead (e + 12) 4 * 1024⟩
    ofs % 4096 != 0 || ofs < 0x110000 || imgTeam s m != s.homeRead (e + 8) 4 || s.img m 0x33 1 != 0 ||
      s.img m 0x38 4 / 8 != 0 || s.img m 0x3C 4 != 0 || s.img m 0xB0 80 != 0 || (natRange 0 14).any fun q =>
        let (o, c) := s.imgSect m q
        m.len < o + c * sectSize q 0)

/-- A record that LOAD refuses (R87). -/
def State.recordBad (s : State) (b : List Byte) : Bool :=
  let page (a : Nat) (lo : Nat) : Bool := a % 2 ^ lo != 0 || 2 ^ 42 ≤ a
  le64 b 0 % 2 ^ 14 != 0 || 2 ^ 50 ≤ le64 b 0 || le64 b 8 % 2 ^ 14 != 0 || 2 ^ 50 ≤ le64 b 8 || le64 b 8 < le64 b 0 ||
    page (le64 b 0x10) 14 || 2 ^ 42 < le64 b 0x10 + (le64 b 8 - le64 b 0) || page (le64 b 0x18) 12 || page (le64 b 0x20) 14 ||
    page (le64 b 0x28) 12 || 4 ≤ le32 b 0x3C || 256 ≤ le32 b 0x40 || le32 b 0x44 = 0 || 4 < le32 b 0x44 || 2 ^ 16 ≤ le32 b 0x4C ||
    (b.drop 0x58).any (· != 0) || windowBad b || s.directoryBad b

/-! ### Issue (R96) -/

/-- The operation code of a block. -/
def ctxOp (b : List Nat) : Nat := fld (blk32 b 2) 8 3
/-- The target CTXID. -/
def ctxTarget (b : List Nat) : Nat := fld (blk32 b 2) 0 6

/-- The checks at issue: `X.OP`, then `X.FAULT`. -/
def State.ctxCheck (s : State) (x : Nat) (b : List Nat) (load : Bool) : Nat :=
  let w := blk32 b 2
  let mask := fld w 16 4
  let update := load && ctxOp b = 1
  let ea := blk64 b 0
  if 2 < ctxOp b || fld w 20 12 != 0 || fld w 11 5 != 0 || fld w 6 2 != 0 || (mask != 0) != update then xOp
  else if load && ctxOp b = 2 then xOk
  else if ea % 128 != 0 || !flatOk ea load then xFault
  else match s.xlateBytes x (if load then .read else .write) (vaRange (ea % 2 ^ 50) 128) with
    | .ok _ => xOk
    | .error _ => xFault

/-- `ctxld` and `ctxsv` are issued after a release at module scope of the group's earlier stores (R96, R97). -/
def Env.ctxCmd (e : Env) (s : State) (t : TW) (load : Bool) : Res :=
  if e.slotFull t.sb then .wait s .instr
  else match s.releaseRound e.c e.g e.x e.x.positions 5 e.x.phase with
    | (s, some ph) => .wait (e.setPhase ph s) .instr
    | (s, none) =>
      let (id, s) := e.newCmd s 4 none []
      let b := (natRange t.pbase.val 4).map fun k => (regGet e.x.scal k).toNat
      .done (s.modCmd e.c id fun m => { m with status := s.ctxCheck (s.ctxOf e.c e.x) b load })

/-- `ctxld`, LOAD; also the operation codes that no row names, which return `X.OP` (R96). -/
def execCtxldLoad (t : TW) (s : State) : Host.Outcome State Fault Refusal := execWord (.ctxldLoad t) (fun e s => e.ctxCmd s t true) s
/-- `ctxld`, UPDATE. -/
def execCtxldUpdate (t : TW) (s : State) : Host.Outcome State Fault Refusal := execWord (.ctxldUpdate t) (fun e s => e.ctxCmd s t true) s
/-- `ctxld`, RESUME. -/
def execCtxldResume (t : TW) (s : State) : Host.Outcome State Fault Refusal := execWord (.ctxldResume t) (fun e s => e.ctxCmd s t true) s
/-- `ctxsv`, SNAPSHOT; also the operation codes that no row names, which return `X.OP`. -/
def execCtxsvSnapshot (t : TW) (s : State) : Host.Outcome State Fault Refusal :=
  execWord (.ctxsvSnapshot t) (fun e s => e.ctxCmd s t false) s
/-- `ctxsv`, STOP. -/
def execCtxsvStop (t : TW) (s : State) : Host.Outcome State Fault Refusal := execWord (.ctxsvStop t) (fun e s => e.ctxCmd s t false) s
/-- `ctxsv`, EVICT. -/
def execCtxsvEvict (t : TW) (s : State) : Host.Outcome State Fault Refusal := execWord (.ctxsvEvict t) (fun e s => e.ctxCmd s t false) s

/-! ### The module distributor (R90, R91, R97) -/

/-- Commands of one group reach the module distributor in issue order (R91). -/
def State.reachesNext (s : State) (c id : Nat) (m : Cmd) : Bool :=
  let dist (i : Instr) : Bool := match i with
    | .launch _ | .ctxldLoad _ | .ctxldUpdate _ | .ctxldResume _ | .ctxsvSnapshot _ | .ctxsvStop _ | .ctxsvEvict _ => true
    | _ => false
  !(s.core c).cmds.any fun q => q.1 < id && q.2.ctx == m.ctx && q.2.state == .waiting && dist q.2.i

/-- UPDATE of the masked fields, each checked with the reserved bits of its own word; the other fields are neither
checked nor copied (R87, R97; log entry 41). -/
def ctxUpdate (k : Ctx) (b : List Byte) (mask : Nat) : Except Nat Ctx :=
  if (bitAt mask 0 && 256 ≤ le32 b 0x40) || (bitAt mask 1 && (le32 b 0x44 = 0 || 4 < le32 b 0x44)) ||
      (bitAt mask 3 && 2 ^ 16 ≤ le32 b 0x4C) then .error xRecord
  else .ok { k with
    lead := if bitAt mask 0 then BitVec.ofNat 8 (le32 b 0x40) else k.lead,
    ftvd := if bitAt mask 1 then BitVec.ofNat 3 (le32 b 0x44) else k.ftvd,
    zwt := if bitAt mask 2 then BitVec.ofNat 32 (le32 b 0x48) else k.zwt,
    dln := if bitAt mask 3 then dlnOf (le32 b 0x4C % 2 ^ 16) else k.dln }

/-- `ctxld` (R90, R97): the state and the status. -/
def State.ctxLoad (s : State) (own : Nat) (b : List Nat) : State × Nat :=
  let x := ctxTarget b
  let k := s.ctx x
  let record : Except Nat (List Byte) := match s.devRead own (blk64 b 0) 128 with
    | .ok r => .ok r
    | .error _ => .error xFault
  match ctxOp b with
  | 0 =>
    if k.state != .empty then (s, xState)
    else match record with
      | .error st => (s, st)
      | .ok r =>
        if s.recordBad r then (s, xRecord)
        else
          let n := ctxOfRecord r
          let s := s.modCtx x fun _ => { n with state := if n.saved = 0 then .loaded else .stopped }
          -- the step context's STEP is that of the own member entry (R377)
          (if s.isStepCtx x then s.ownAdvance 0 n.step else s, xOk)
  | 1 =>
    -- FTVD of a context with DETM = 1 stands (R400)
    if k.state = .empty ∨ k.state = .halted ∨ (k.detm ∧ bitAt (blk32 b 2) 17) then (s, xState)
    else match record with
      | .error st => (s, st)
      | .ok r => match ctxUpdate k r (fld (blk32 b 2) 16 4) with
        | .error st => (s, st)
        | .ok n => (s.modCtx x fun _ => n, xOk)
  | _ =>
    if k.state != .stopped then (s, xState)
    else
      let busy := k.saved != 0 || s.grids.any fun g => g.2.ctx == x
      (s.modCtx x fun k => { k with state := if busy then .active else .loaded }, xOk)

/-- Everything of the teams and grids of a HALTED context is discarded (R90, R127, R290). -/
def State.discard (s : State) (x : Nat) : State :=
  let s := s.cores.foldl (fun s k => k.2.teams.foldl (fun s t =>
    if t.2.ctx = x then (s.unpinTeam k.1 t.1).dropTeam k.1 t.1 else s) s) s
  let mine (g : Nat) : Bool := (s.grid? g).any (·.ctx == x)
  let keep (rs : List Range) : List Range := rs.filter fun r => !mine r.grid
  { s with transit := s.transit.filter fun t => !mine t.grid, conflicts := s.conflicts.filter fun f => !mine f.2.grid,
           dieRanges := List.map (fun q => (q.1, keep q.2)) s.dieRanges, cluRanges := List.map (fun q => (q.1, keep q.2)) s.cluRanges,
           grids := s.grids.filter fun g => g.2.ctx != x }

/-- The slot is EMPTY; grids of a STOPPED context stay with the distributors under no slot, until their teams are
restored (R90; log entry 33). -/
def State.emptySlot (s : State) (x : Nat) : State :=
  let s := if (s.ctx x).state = .halted then s.discard x
    else { s with grids := List.map (fun g => (g.1, if g.2.ctx = x then { g.2 with ctx := 64 } else g.2)) s.grids }
  s.modCtx x fun _ => emptyCtx

/-- What a `ctxsv` comes to at the module distributor: it must wait, it is decided, or a STOP goes on. -/
inductive SaveRes where
  | again
  | status (s : State) (st : Nat)
  | stopping (s : State)

/-- `ctxsv` (R90, R91, R97). -/
def State.ctxSave (s : State) (own c id : Nat) (b : List Nat) : SaveRes :=
  let x := ctxTarget b
  let k := s.ctx x
  let put (s : State) (f : State → State) : SaveRes := match s.putRecord own b (s.ctx x) with
    | some (s, st) => .status (f s) st
    | none => .again
  match ctxOp b with
  | 0 => if k.state = .empty then .status s xState else put s fun s => s
  | 1 =>
    if x = own then .status s xState
    else match k.state with
      | .loaded | .active =>
        .stopping (s.modCtx x fun k => { k with state := .stopping, stopClk := s.clk.toNat, stopper := some (c, id), zissued := true })
      | _ => .status s xState
  | _ =>
    if x = own || k.state = .empty || k.state = .active || k.state = .stopping then .status s xState
    -- SAVED is written 0 for a HALTED context (R90)
    else put (if k.state = .halted then s.modCtx x fun k => { k with saved := 0 } else s) (·.emptySlot x)

/-- A STOP in progress ends when its context is STOPPED or HALTED, and not before an exposure in progress ends (R90). Its status is
kept from the moment it was decided. -/
def State.ctxStopping (s : State) (c id : Nat) (m : Cmd) : State :=
  let x := ctxTarget m.block
  if m.state = .draining then
    if s.expo.stopped || !s.canInc c m then s else s.cmdFinish c id m [(3, m.status)]
  else if (s.ctx x).state = .stopping then s.stopDone x
  else (s.modCtx x fun k => { k with stopper := none }).modCmd c id fun m => { m with state := .draining, status := xHalted }

/-- The module distributor takes or goes on with a `ctxld` or `ctxsv`. -/
def State.ctxStep (s : State) (c id : Nat) (m : Cmd) (load : Bool) : State :=
  match s.team? c m.place with
  | none => s
  | some t =>
    if m.state != .waiting then s.ctxStopping c id m
    else if !s.wenHolds c m || !s.canInc c m || !s.reachesNext c id m then s
    else
      let s := s.wenBind c m
      if m.status != xOk then s.cmdFinish c id m [(3, m.status)]
      else if load then
        let (s, st) := s.ctxLoad t.ctx m.block
        s.cmdFinish c id m [(3, st)]
      else match s.ctxSave t.ctx c id m.block with
        | .again => s
        | .status s st => s.cmdFinish c id m [(3, st)]
        | .stopping s => (s.modCmd c id fun m => { m with state := .running }).stopDone (ctxTarget m.block)

end Sys2Proof.Machine
end

