-- ==== Sys2Proof/Machine/Expose.lean ====
section
/-!
DEFINITION. Sys2Proof/Machine/Expose.lean: `expose`, exposures and joins, and the marking of silent members (R376, R378,
R379, R383 to R388, R390).
-/
namespace Sys2Proof.Machine

def eOk : Nat := 0
def eState : Nat := 1
def eDesc : Nat := 2
def eFault : Nat := 3
def eTime : Nat := 4
def eBuddy : Nat := 5
def eLog : Nat := 6
def eMember : Nat := 7
def eOp : Nat := 8

/-! ### Membership changes (R378, R379) -/

/-- The log entry and the record of a membership change (R379, R387). -/
def State.membership (s : State) (rank epoch join : Nat) : State :=
  let s := (s.addLog 2 epoch rank join 0)
  (s.writeRecord s.stepCtx.sctx { kind := 9, code := join, va := rank, lpc := epoch }).1

/-- Every open instance of every collective looks again at its close, and takes what waited for it (R355, R359). -/
def State.recheckAll (s : State) : State :=
  (s.colls.foldl (fun s c => c.2.insts.foldl (fun s i => s.tryClose c.1 i.t) s) s).settleAll

/-- A live member of the own pod stands below a step that a wait needs, and has not moved for STO (R378). -/
def State.stale (s : State) (i : Nat) : Bool :=
  let m := (s.replica 0).member i
  m.live && decide (m.step.toNat < max s.stepCtx.need s.stepCtx.farNeed) && decide (tabGet 0 s.stepCtx.changed i + s.stepCtx.sto * 2400 ≤ s.clk.toNat)

/-- No beacon of a live pod has arrived for STO (R378). -/
def State.podStale (s : State) (p : Nat) : Bool :=
  ((s.replica 0).pod p).live && decide (tabGet 0 s.stepCtx.beacons p + s.stepCtx.sto * 2400 ≤ s.clk.toNat)

/-- This module acts as the leader of its pod: every live member before it is silent itself (R378). -/
def State.actsLeader (s : State) : Bool :=
  let i := s.stepCtx.rank % 1024
  s.stepCtx.bound && ((s.replica 0).member i).live && ((s.replica 0).liveMembers.all fun m => decide (i ≤ m.1) || s.stale m.1)

/-- A leader may decide a marking now (R378). -/
def State.mayMark (s : State) (pod : Bool) (rank : Nat) : Bool :=
  if pod then
    s.actsLeader && (((s.replica 0).livePods s.ownPod).all fun p => decide (s.ownPod < p.1) || s.podStale p.1) && rank != s.ownPod &&
      s.podStale rank
  else s.actsLeader && rank / 1024 == s.ownPod && s.stale (rank % 1024)

/-- SILENT_MARKING (R378, R379): a member, or with `pod` the pod of that number, is silent from the next epoch on. -/
def execSilentMarking (pod : Bool) (rank : Nat) (epoch : BitVec 32) (byPeer : Bool) (s : State) : Host.Outcome State Fault Refusal :=
  if !s.stepCtx.bound || epoch.toNat != s.stepCtx.epoch + 1 || !(byPeer || s.mayMark pod rank) then .next s
  else
    let s := s.mark { join := false, pod := pod, rank := rank, step := 0 }
    let s := { s with stepCtx := { s.stepCtx with epoch := epoch.toNat } }
    let s := if byPeer then s else { s with outbox := .silent pod rank epoch.toNat :: s.outbox }
    .next (s.membership (if pod then rank * 1024 else rank) epoch.toNat 0).recheckAll

/-! ### CONFIG (R376) -/

/-- A step descriptor breaks its table. -/
def State.stepDescBad (s : State) (b : List Byte) : Bool :=
  let sto := le32 b 8
  2 ^ 18 ≤ le32 b 0 || !s.link.pv || le32 b 0 % 1024 != s.link.podix || 64 ≤ le32 b 4 || sto < 1000 || 10 ^ 8 < sto ||
    le32 b 0xC < 10 || sto / 4 < le32 b 0xC || 2 ^ 18 ≤ le32 b 0x10 || le32 b 0x14 = 0 || 262144 < le32 b 0x14 ||
    le64 b 0x18 % 64 != 0 || le64 b 0x20 % 4096 != 0 || 2 ^ 42 ≤ le64 b 0x20 || (b.drop 0x2C).any (· != 0)

/-- `expose` CONFIG with its descriptor: the state and the status. -/
def State.config (s : State) (x : Nat) (b : List Byte) : State × Nat :=
  let n := le32 b 0x14
  if s.stepDescBad b then (s, eDesc)
  else if !flatOk (le64 b 0x18) true then (s, eFault)
  else match s.devRead x (le64 b 0x18) (4 * n) with
    | .error _ => (s, eFault)
    | .ok l =>
      let ranks := (natRange 0 n).map fun i => le32 l (4 * i)
      if ranksBad ranks then (s, eDesc)
      else
        let rank := le32 b 0
        let step := (s.ctx (le32 b 4)).step
        let own := ranks.filter fun r => r / 1024 == rank / 1024
        let pods := (ranks.map (· / 1024)).foldl (fun l p => insSorted p l) []
        let s := s.modReplicas fun r =>
          let r := own.foldl (fun r k => r.modMember (k % 1024) fun _ => ⟨true, false, step⟩) (r.settle s.ownPod)
          pods.foldl (fun r p => r.modPod p fun _ => ⟨(ranks.filter fun k => k / 1024 == p).length, true, false, step⟩) r
        ({ s with stepCtx := {
            bound := true, rank := rank, sctx := le32 b 4, sto := le32 b 8, bper := le32 b 0xC, buddy := le32 b 0x10,
            keep := le64 b 0x20, ksz := le32 b 0x28, epoch := 0, need := 0,
            changed := own.foldl (fun t k => tabSet t (k % 1024) s.clk.toNat) [],
            beacons := pods.foldl (fun t p => tabSet t p s.clk.toNat) [], sentBeacon := s.clk.toNat } }, eOk)

/-! ### EXPOSE and JOIN: the start (R383, R388, R390) -/

/-- The records of the listed regions, or the status (R383). -/
def State.exposeRegions (s : State) (x : Nat) : List Nat → Except Nat (List Nat)
  | [] => .ok []
  | a :: t =>
    if a % 2 ^ 23 != 0 then .error eDesc
    else if !flatOk a true then .error eFault
    else if s.plainRegion x (a % 2 ^ 50) then .error eDesc
    else match s.walk x (a % 2 ^ 50) .vread with
      | .page _ _ _ => .error eDesc
      | .fault f => .error (if f.code = pVKind then eDesc else eFault)
      | .region r _ _ _ => match s.exposeRegions x t with
        | .ok rs => .ok (r :: rs)
        | .error e => .error e

/-- The exposure descriptor's common checks: the region records, or the status. -/
def State.exposeDesc (s : State) (x : Nat) (b : List Byte) : Except Nat (List Nat) :=
  let maxst := le32 b 0x1C
  if le64 b 0 % 4096 != 0 || 65536 < le32 b 0xC || maxst = 0 || 300 < maxst || ((b.drop 0x20).take 0x20).any (· != 0) then .error eDesc
  else if !flatOk (le64 b 0) false || !flatOk (le64 b 0x10) true then .error eFault
  else match s.devRead x (le64 b 0x10) (8 * le32 b 0xC) with
    | .error _ => .error eFault
    | .ok l => s.exposeRegions x ((natRange 0 (le32 b 0xC)).map fun i => le64 l (8 * i))

/-- A member of this rank lives, as far as the module can tell: in the own pod by its entry, elsewhere by that of its pod. -/
def State.rankLive (s : State) (rank : Nat) : Bool :=
  if rank / 1024 = s.ownPod then ((s.replica 0).member (rank % 1024)).live else ((s.replica 0).pod (rank / 1024)).live

/-- The module's buddy is silent (R385). -/
def State.buddySilent (s : State) : Bool :=
  let b := s.stepCtx.buddy
  if b / 1024 = s.ownPod then ((s.replica 0).member (b % 1024)).sil else ((s.replica 0).pod (b / 1024)).sil

/-- An exposure or a join is in progress (R386, R390). -/
def State.exposing (s : State) : Bool := s.expo.stopped || s.expo.draining || s.expo.joining

/-- `expose` begins: the state, and its status when it is over at once (R376, R383, R388, R390). -/
def State.exposeBegin (s : State) (x : Nat) (b : List Nat) (o : Owner) : State × Option Nat :=
  let op := blk32 b 0
  let addr := blk64 b 1
  if 3 ≤ op then (s, some eOp)
  else if addr % 64 != 0 || !flatOk addr true then (s, some eFault)
  else match s.devRead x addr (if op = 2 then 128 else 64) with
    | .error _ => (s, some eFault)
    | .ok d =>
      if s.exposing || (if op = 1 then !(s.replica 0).liveMembers.isEmpty else !s.stepCtx.bound) then (s, some eState)
      else if op = 1 then let (s, st) := s.config x d; (s, some st)
      else match s.exposeDesc x d with
        | .error st => (s, some st)
        | .ok rs =>
          let e : Exposure := {
            stopped := op = 0, since := s.clk.toNat, maxst := le32 d 0x1C, draining := false, joining := op = 2, owner := some o, ctx := x,
            img := le64 d 0, isz := le32 d 8, regions := rs, xid := le32 d 0x18, pins := [], hold := le64 d 0x40, peer := le64 d 0x48,
            rank := le64 d 0x50, done := s.expo.done }
          if op = 0 then ({ s with expo := e }, none)
          else
            let m := (s.replica 0).member (e.rank % 1024)
            if (d.drop 0x58).any (· != 0) then (s, some eDesc)
            else if 2 ^ 18 ≤ e.rank || e.rank / 1024 != s.ownPod || e.rank % 1024 != s.link.podix || !m.mem || !m.sil ||
                !s.rankLive e.peer then (s, some eMember)
            else ({ s with expo := e, outbox := .pull e.hold e.xid :: s.outbox }, none)

/-- `expose` is issued after a release of the group's earlier stores at module scope (R97, R390). -/
def Env.exposeCmd (e : Env) (s : State) (t : TW) : Res :=
  if e.slotFull t.sb then .wait s .instr
  else match s.releaseRound e.c e.g e.x e.x.positions 5 e.x.phase with
    | (s, some ph) => .wait (e.setPhase ph s) .instr
    | (s, none) => .done (e.newCmd s 3 none []).2

/-- `expose`, EXPOSE; also the operation codes that no row names, which return `E.OP` (R390). -/
def execExposeExpose (t : TW) (s : State) : Host.Outcome State Fault Refusal := execWord (.exposeExpose t) (fun e s => e.exposeCmd s t) s
/-- `expose`, CONFIG. -/
def execExposeConfig (t : TW) (s : State) : Host.Outcome State Fault Refusal := execWord (.exposeConfig t) (fun e s => e.exposeCmd s t) s
/-- `expose`, JOIN. -/
def execExposeJoin (t : TW) (s : State) : Host.Outcome State Fault Refusal := execWord (.exposeJoin t) (fun e s => e.exposeCmd s t) s

/-- The outcome of an exposure or join waits for its owner. -/
def State.exposeEnd (s : State) (st : Nat) : State :=
  let e := s.expo
  { s with expo := { e with stopped := false, draining := false, joining := false, owner := none, pins := [],
                            done := match e.owner with | some o => e.done ++ [(o, e.xid, st)] | none => e.done } }

/-- An outcome that an owner, or a restored command of the same exposure, may collect. -/
def State.exposeDone (s : State) (o : Owner) (xid : Option Nat) : Option (Owner × Nat × Nat) :=
  s.expo.done.find? fun d => d.1 == o || xid == some d.2.1

/-- `expose` goes on (R390): its state is `draining` while it waits for the outcome; `prog` is 1 + its XID. -/
def State.exposeStep (s : State) (c id : Nat) (m : Cmd) : State :=
  match s.team? c m.place with
  | none => s
  | some t =>
    if !s.canInc c m then s
    else if m.state = .draining then
      match s.exposeDone (.cmd c id) (if m.prog = 0 then none else some (m.prog - 1)) with
      | none => s
      | some d => ({ s with expo := { s.expo with done := listDelFirst (· == d) s.expo.done } }).cmdFinish c id m [(3, d.2.2)]
    else if m.state = .running then
      -- the stop is over, and the drain goes on without the group
      if s.expo.stopped && s.expo.owner == some (.cmd c id) then s else s.modCmd c id fun m => { m with state := .draining }
    else if !s.wenHolds c m then s
    else
      let s := s.wenBind c m
      match s.exposeBegin t.ctx m.block (.cmd c id) with
      | (s, some st) => s.cmdFinish c id m [(3, st)]
      | (s, none) => s.modCmd c id fun m => { m with state := .running, prog := s.expo.xid + 1 }

/-! ### The capture (R383, R384) -/

/-- A log entry of 32 bytes (R387). -/
def SeqLog.bytes (l : SeqLog) : List Byte :=
  leBytes 8 l.lsn ++ leBytes 1 l.kind ++ leBytes 3 0 ++ leBytes 4 l.cid ++ leBytes 4 l.step ++ leBytes 4 l.a ++ leBytes 8 l.h

def MemberEnt.word (m : MemberEnt) : Nat := m.step.toNat + b2n m.sil * 2 ^ 32 + b2n m.mem * 2 ^ 33
def PodEnt.word (p : PodEnt) : Nat := p.min.toNat + b2n p.sil * 2 ^ 32 + b2n p.mem * 2 ^ 33 + p.nlive * 2 ^ 34

/-- What an image holds of the exponents of an instance: those agreed, or the largest of the arrivals so far. -/
def Inst.topExps (i : Inst) (n : Nat) : List Nat :=
  (natRange 0 n).map fun b => if i.st = 1 then i.arrived.foldl (fun m k => max m (listGet 0 k.exps b)) 0 else listGet 0 i.xa b

/-- The bytes of the bitmaps of an instance and of its exponents: the live, arrived, on-time, late and dropped members. -/
def Inst.mapBytes (i : Inst) (p : CollParams) : List Byte :=
  ([i.live, i.arrived.map (·.pos), i.onTime, i.lateSet, i.dropped].flatMap fun l => leBytes (ceilDiv p.nmem 8) (posMap l)) ++
    (i.topExps p.nblk).map (BitVec.ofNat 8)
/-- Their number for each instance. -/
def collMapLen (p : CollParams) : Nat := 5 * ceilDiv p.nmem 8 + p.nblk

/-- A collective in entries of 512 bytes: its handle and record, the states of its instances, and their bitmaps, which take further
entries where they do not fit; the layout within the entries is the model's own (log entry 36). -/
def Coll.bytes (h : Nat) (c : Coll) : List Byte :=
  let p := c.params
  let inst (k : Nat) : List Byte := match listGet none (c.insts.map some) k with
    | none => leBytes 32 0
    | some i => leBytes 4 i.t ++ leBytes 4 i.st ++ leBytes 4 i.quorum ++ leBytes 4 i.ndisc ++ leBytes 4 i.npois ++
        leBytes 4 (b2n i.timed + 2 * b2n i.limited + 4 * b2n i.written + 256 * i.flags) ++ leBytes 4 i.published ++ leBytes 4 0
  let b := leBytes 4 (h + 1) ++ leBytes 4 (b2n c.closing + 2 * b2n c.broken) ++ leBytes 8 c.rva ++
    leBytes 4 p.nblk ++ leBytes 4 (b2n p.frac * 2 ^ 31 + p.op * 2 ^ 26 + b2n p.w24 * 2 ^ 25 + b2n p.obf16 * 2 ^ 24 + (p.chb - 1) * 2 ^ 16 + p.lcap * 2 ^ 8) ++
    leBytes 4 p.quorum ++ leBytes 4 p.timer ++ leBytes 8 p.mva ++ leBytes 4 p.nmem ++ leBytes 4 c.step0 ++ leBytes 4 p.cid ++ leBytes 4 0 ++
    leBytes 4 c.next ++ leBytes 4 (c.newest.elim 0 (· + 1)) ++ leBytes 4 c.disc.toNat ++ leBytes 4 c.mism.toNat ++
    inst 0 ++ inst 1 ++ c.insts.flatMap (·.mapBytes p)
  b ++ leBytes (ceilDiv b.length 512 * 512 - b.length) 0

/-- Bytes cut into entries of 512. -/
def entries512 (b : List Byte) : List (List Byte) := (natRange 0 (b.length / 512)).map fun i => (b.drop (512 * i)).take 512

/-- A held late contribution: 64 bytes of header, then its blocks (log entry 36). -/
def Contrib.bytes (k : Contrib) (h t n : Nat) : List Byte :=
  let word (x : Option Int) : List Byte := leBytes 4 (x.elim (2 ^ 31) fun v => wrap v 32)
  leBytes 4 h ++ leBytes 4 t ++ leBytes 4 k.pos ++ leBytes 52 0 ++ (natRange 0 n).flatMap fun b =>
    leBytes 4 (listGet 0 k.exps b) ++ (natRange 0 32).flatMap fun e => word (listGet none (listGet [] k.mants b) e)

/-- The queues of a context: table entries and descriptors. -/
def State.ctxQueues (s : State) (x : Nat) : List (List Byte) :=
  s.walkers.flatMap fun w => (natRange 0 32).filterMap fun q =>
    (w.2.queues[q]?).bind fun u => if u.st = 0 ∨ u.ctx ≠ x then none
      else some (s.homeBytes (natRange (w.1 * 2 ^ 37 + 16 * q) 16) ++ s.homeBytes (natRange u.desc 128))

/-- The image of an exposure, complete but for its XID. -/
def State.exposeImage (s : State) : List Byte :=
  let x := s.stepCtx.sctx
  let k := s.ctx x
  let mine (g : Nat) : Bool := (s.grid? g).any (·.ctx == x)
  let range (g lo hi pr : Nat) : List Byte := leBytes 8 g ++ leBytes 8 lo ++ leBytes 8 (hi - 1) ++ leBytes 8 pr
  let ranges := (s.grids.filterMap fun g => if g.2.ctx = x ∧ g.2.lo < g.2.n then some (range g.1 g.2.lo g.2.n (s.gridPrio g.2)) else none) ++
    ((s.dieRanges ++ s.cluRanges).flatMap fun d => (d.2.filter fun r => mine r.grid).map fun r => range r.grid r.lo r.hi r.prio)
  let teams := s.cores.flatMap fun c => (c.2.teams.map (·.2)).filter (·.ctx == x)
  let sems := teams.flatMap fun t => t.sems.map fun q => leBytes 4 (q.1 + 2 ^ 31) ++ leBytes 4 q.2.toNat
  let recs := (teams.flatMap fun t => t.recs.toList.map BarRec.bytes) ++
    ((s.grids.filter fun g => g.2.ctx == x).flatMap fun g => (g.2.crecs.map fun r => r.2.bytes) ++ (g.2.rec_.toList.map BarRec.bytes))
  let r := s.replica 0
  let eph := ((natRange 0 1024).map fun i => leBytes 8 (r.member i).word) ++
    (natRange 0 256).map fun i => leBytes 8 (if i = s.ownPod then r.ownEntry i else r.pod i).word
  let open_ := s.colls.filter fun c => c.2.ctx == x
  let colls := open_.flatMap fun c => entries512 (c.2.bytes c.1)
  let late := open_.flatMap fun c => c.2.insts.flatMap fun i => i.late.map fun q => q.bytes c.1 i.t c.2.params.nblk
  let regs := s.expo.regions.map fun q =>
    let v := s.vrec q
    leBytes 8 q ++ leBytes 4 v.pstamp ++ leBytes 4 v.qstamp ++ leBytes 4 v.lstamp ++ leBytes 4 v.pix ++ leBytes 8 0
  let logs := s.seqLog.map SeqLog.bytes
  let sects := [s.ctxQueues x, ranges, sems, recs, eph, colls, late, regs, logs, []]
  let dir := sects.foldl (fun (q : Nat × List Byte) es => (q.1 + es.flatten.length, q.2 ++ leBytes 4 q.1 ++ leBytes 4 es.length)) (128, [])
  leBytes 4 0 ++ leBytes 4 s.stepCtx.rank ++ leBytes 4 k.step.toNat ++ leBytes 4 s.stepCtx.epoch ++ leBytes 8 k.rkey.toNat ++
    leBytes 8 ((s.seqLog.getLast?).elim 0 (·.lsn)) ++ leBytes 8 s.clk.toNat ++ leBytes 4 dir.1 ++ leBytes 4 0 ++ dir.2 ++ (sects.map List.flatten).flatten

/-- Sets XP of the P frame set of a record (R242). -/
def State.setXp (s : State) (r : Nat) : State :=
  let v := s.vrec r
  if v.xp v.pix then s else s.setWord20 r (v.word20 + 2 ^ (9 + v.pix))

/-- EXPOSURE_STOP_END (R383, R384): the capture finishes, or MAXST has passed; the module resumes either way, and the collectives
take the decisions that the stop held up. The writes of the image wait as every write does (R232). -/
def execExposureStopEnd (s : State) : Host.Outcome State Fault Refusal :=
  let e := s.expo
  if !e.stopped then .next s
  else if e.since + e.maxst * 2400 < s.clk.toNat then .next (s.exposeEnd eTime).recheckAll
  else
    let img := s.exposeImage
    if e.isz < img.length then .next (s.exposeEnd eDesc).recheckAll
    else match s.xlateBytes e.ctx .write (vaRange (e.img % 2 ^ 50) img.length) with
      | .error _ => .next (s.exposeEnd eFault).recheckAll
      | .ok (pas, _, _) =>
        if !s.canWrite (linesOf pas) none then .next s
        else
          let s := s.homeWrite (pas.zip img) []
          let s := (s.homeWrite ((pas.take 4).zip (leBytes 4 e.xid)) []).postLines (linesOf pas)
          let pins := e.regions.map fun r => (r, (s.vrec r).pix)
          let s := e.regions.foldl (fun s r => s.setXp r) s
          .next ({ s with expo := { e with stopped := false, draining := true, pins := pins },
                          outbox := .drain s.stepCtx.buddy e.xid img.length :: s.outbox } : State).recheckAll

/-- The exposure of a peer whose buddy this module is goes to the next of the two slots of the keep area, when it fits there; its XID
is written last (R385). -/
def State.keepExposure (s : State) (bytes : List Byte) : State :=
  let k := s.stepCtx
  let size := k.ksz * 2 ^ 19
  let pas := natRange (k.keep + k.keepSlot * size) bytes.length
  if !k.bound || size < bytes.length || pas.any noBack || !s.canWrite (linesOf pas) none then s
  else
    let s := s.homeWrite ((pas.zip bytes).drop 4) []
    let s := (s.homeWrite ((pas.zip bytes).take 4) []).postLines (linesOf pas)
    { s with stepCtx := { k with keepSlot := 1 - k.keepSlot } }

/-- EXPOSURE_DRAIN_COMPLETION (R242, R385): the drain of a frame set is over, and its XP is cleared; or that of the whole exposure is, which a
silent buddy makes fail; or a peer's exposure is kept. -/
def execExposureDrainCompletion (d : DrainEnd) (s : State) : Host.Outcome State Fault Refusal :=
  match d with
  | .kept bytes => .next (if s.life = .run then s.keepExposure bytes else s)
  | .frame r =>
    match s.expo.pins.find? (·.1 == r) with
    | some p => .next (if s.expo.draining then { s.clearXp p.1 p.2 with expo := { s.expo with pins := listDelFirst (· == p) s.expo.pins } } else s)
    | none => .next s
  | .own ok =>
    if !s.expo.draining then .next s
    else
      let st := if ok && !s.buddySilent then eOk else eBuddy
      .next ((s.expo.pins.foldl (fun s p => s.clearXp p.1 p.2) s).exposeEnd st)

/-! ### The join (R388) -/

/-- A section of an image held as bytes: its entries of `n` bytes. -/
def imgEntries (b : List Byte) (k n : Nat) : List (List Byte) :=
  let o := le32 b (0x30 + 8 * k)
  (natRange 0 (le32 b (0x34 + 8 * k))).map fun i => (b.drop (o + n * i)).take n

/-- Restores a queue of the image, not enabled, in the step context (log entry 37). -/
def State.restoreQueue (s : State) (q : List Byte) : State :=
  let d := le64 q 0
  let die := paDie d
  let slot := (natRange 0 32).find? fun i => let w := s.homeRead (die * 2 ^ 37 + 16 * i) 8; w == d || w == 0
  match slot with
  | none => s
  | some i =>
    let a := die * 2 ^ 37 + 16 * i
    ((s.homeRaw ((natRange d (q.drop 16).length).zip (q.drop 16)) []).homePutRaw a 8 d).homePutRaw (a + 8) 8 (fld (le64 q 8) 8 3 * 256 + s.stepCtx.sctx)

/-- The positions of a bitmap in an image. -/
def mapPositions (b : List Byte) (o n : Nat) : List Nat :=
  let m := ofLe ((b.drop o).take (ceilDiv n 8))
  (natRange 0 n).filter fun p => bitAt m p

/-- The instance `k` of a collective's entries; none where there is none. The contributions are sent again, as to a new root (R355). -/
def instOf (b : List Byte) (p : CollParams) (k clk : Nat) : Option Inst :=
  let a := 0x48 + 32 * k
  let w (i : Nat) : Nat := le32 b (a + 4 * i)
  let o := 0x88 + collMapLen p * k
  let n := ceilDiv p.nmem 8
  let map (i : Nat) : List Nat := mapPositions b (o + i * n) p.nmem
  let xs := ((b.drop (o + 5 * n)).take p.nblk).map (·.toNat)
  if w 1 = 0 then none
  else some { newInst (w 0) (w 1) (map 0) (w 2) with
    ndisc := w 3, npois := w 4, timed := bitAt (w 5) 0, limited := bitAt (w 5) 1, written := bitAt (w 5) 2, flags := w 5 / 256,
    published := w 6, arrived := (map 1).map fun q => { pos := q, exps := xs, mants := [] }, firstArr := if map 1 = [] then none else some clk,
    closedAt := clk, onTime := map 2, lateSet := map 3, xa := if w 1 = 1 then [] else xs, dropped := map 4 }

/-- Restores a collective of the image with its instances (log entry 37). -/
def State.restoreColl (s : State) (b : List Byte) (rank : Nat) : State :=
  let h := le32 b 0 - 1
  let x := s.stepCtx.sctx
  let r := leBytes 8 (le64 b 8) ++ (b.drop 16).take 56
  let p := collParams r
  match s.devRead x p.mva (4 * p.nmem) with
  | .error _ => s
  | .ok l =>
    let ranks := (natRange 0 p.nmem).map fun i => le32 l (4 * i)
    let w := le32 b 4
    let c : Coll := {
      ctx := x, rva := le64 b 8, step0 := le32 b 0x2C, params := p, ranks := ranks, own := (listIdx (· == rank) ranks).getD 0,
      closing := bitAt w 0, broken := bitAt w 1, disc := BitVec.ofNat 32 (le32 b 0x40), mism := BitVec.ofNat 32 (le32 b 0x44),
      next := le32 b 0x38, insts := (natRange 0 2).filterMap fun k => instOf b p k s.clk.toNat,
      newest := (match le32 b 0x3C with | 0 => none | n + 1 => some n), freed := [], held := [], closer := none }
    { s with colls := tabSet s.colls h c }

/-- Restores the collectives of `n` entries of an image, each of which takes as many as it needs. -/
def State.restoreColls (s : State) (b : List Byte) (rank : Nat) : Nat → State
  | 0 => s
  | n + 1 =>
    let p := collParams (leBytes 8 0 ++ (b.drop 16).take 56)
    let live := ((natRange 0 2).filter fun k => le32 b (0x4C + 32 * k) != 0).length
    if b.length < 512 || le32 b 0 = 0 then s
    else (s.restoreColl b rank).restoreColls (b.drop (ceilDiv (0x88 + live * collMapLen p) 512 * 512)) rank n

/-- A mantissa of an image. -/
def mantOf (x : Nat) : Option Int := if x = 2 ^ 31 then none else some (BitVec.ofNat 32 x).toInt

/-- Restores the late contributions of `n` entries of an image (R384). -/
def State.restoreLates (s : State) (b : List Byte) : Nat → State
  | 0 => s
  | n + 1 =>
    let h := le32 b 0
    match s.coll? h with
    | none => s
    | some c =>
      let len := 64 + c.params.nblk * 132
      let ks := natRange 0 c.params.nblk
      let at_ (q : Nat) : Nat := 64 + 132 * q
      let k : Contrib := {
        pos := le32 b 8, exps := ks.map fun q => le32 b (at_ q),
        mants := ks.map fun q => (natRange 0 32).map fun e => mantOf (le32 b (at_ q + 4 + 4 * e)) }
      (s.modInst h (le32 b 4) fun i => { i with late := i.late ++ [k] }).restoreLates (b.drop len) n

/-- A barrier record of an image. -/
def barRecOf (b : List Byte) : BarRec :=
  let m := ofLe (b.drop 64)
  { gen := BitVec.ofNat 32 (le32 b 0), exp := le32 b 4, arr := le32 b 8, mlo := le32 b 12, mlg := le32 b 16, mv := le32 b 20 != 0,
    amap := (natRange 0 8192).filter fun r => bitAt m r }

/-- The semaphores and the team records of an image go to the resident teams of the step context, in the order in which a capture
takes them (log entry 37). -/
def State.restoreSync (s : State) (sems recs : List (List Byte)) : State :=
  let teams := s.cores.flatMap fun c => (c.2.teams.filter fun t => t.2.ctx == s.stepCtx.sctx).map fun t => (c.1, t.1)
  (teams.foldl (fun (q : State × List (List Byte) × List (List Byte)) ct =>
    let (s, sems, recs) := q
    match s.team? ct.1 ct.2 with
    | none => q
    | some t =>
      let own := (t.sems.zip sems).map fun e => (e.1.1, BitVec.ofNat 32 (le32 e.2 4))
      (s.modTeam ct.1 ct.2 fun t => { t with
        sems := own ++ t.sems.drop own.length, recs := Vector.ofFn fun i : Fin 4 => ((recs[i.val]?).map barRecOf).getD (t.recs[i]) },
        sems.drop t.sems.length, recs.drop 4)) (s, sems, recs)).1

/-- PEER's entries after the newest entry of the image, by key; none when PEER no longer holds the first needed one. -/
def logAfter (imgLog : List (List Byte)) (d : JoinData) : Option (List (Nat × Nat × Nat × Nat × Nat × Nat)) :=
  match imgLog.getLast? with
  | none => if d.logFrom = 0 then some d.log else none
  | some e =>
    let key := (le64 e 8 % 256, le32 e 0xC, le32 e 0x10)
    match listIdx (fun q : Nat × Nat × Nat × Nat × Nat × Nat => (q.2.1, q.2.2.1, q.2.2.2.1) == key) d.log with
    | none => none
    | some i => some (d.log.drop (i + 1))

/-- An instance of a restored collective is over on the live members: it is LATE until the pass of the next step closes. -/
def Coll.pass (c : Coll) (step : Nat) : Coll :=
  let i := (c.inst step).getD (newInst step 4 [] 0)
  { c with next := max c.next (step + 1), newest := some (max step (c.newest.getD step)),
           insts := { i with st := 4 } :: c.insts.filter fun j => decide (step < j.t) }

/-- An entry replayed from PEER's log (R388): a step close has published its step, and frees the one before; a fold takes the late
contributions of the step before with it. -/
def State.replay (s : State) (e : Nat × Nat × Nat × Nat × Nat × Nat) : State :=
  let (_, kind, cid, step, a, h) := e
  let s := s.addLog kind cid step a h
  if kind = 1 then
    { s with colls := List.map (fun c => (c.1, if c.2.params.cid = cid ∧ c.2.ctx = s.stepCtx.sctx then c.2.pass step else c.2)) s.colls }
  else s

/-- The pulled frames of a region: they are written to W and published with their stamp. -/
def State.pullRegion (s : State) (r : Nat) (stamp : Nat) (bs : List (Nat × Byte)) : State :=
  match s.frameBytes r (s.vrec r).wix (bs.map (·.1)) with
  | .error _ => s
  | .ok pas => (((s.homeWrite (pas.zip (bs.map (·.2))) []).postLines (linesOf pas)).homePutRaw (r + 0x30) 4 stamp).publish r stamp

/-- A rank returns to the job at the next epoch (R379, R388). -/
def State.rejoin (s : State) (rank : Nat) (step : Word) : State :=
  let e := s.stepCtx.epoch + 1
  let s := s.mark { join := true, pod := false, rank := rank, step := step }
  ({ s with stepCtx := { s.stepCtx with epoch := e, changed := tabSet s.stepCtx.changed (rank % 1024) s.clk.toNat } }).membership rank e 1

/-- JOIN_COMPLETION (R388): the pulls are over. Of another member's join, only the membership change is seen here. -/
def execJoinCompletion (d : JoinData) (s : State) : Host.Outcome State Fault Refusal :=
  let e := s.expo
  if !s.stepCtx.bound then .next s
  else if !e.joining then .next (s.rejoin d.rank d.step)
  else if !d.found || e.isz < d.image.length then .next (s.exposeEnd eDesc)
  else match s.xlateBytes e.ctx .write (vaRange (e.img % 2 ^ 50) d.image.length) with
    | .error _ => .next (s.exposeEnd eFault)
    | .ok (pas, _, _) =>
      if !s.canWrite (linesOf pas) none then .next s
      else
      let s := (s.homeWrite (pas.zip d.image) []).postLines (linesOf pas)
      match logAfter (imgEntries d.image 8 32) d with
      | none => .next (s.exposeEnd eLog)
      | some log =>
        let x := s.stepCtx.sctx
        let s := (imgEntries d.image 0 144).foldl State.restoreQueue s
        let ranges := (imgEntries d.image 1 32).filterMap fun q =>
          let g := le64 q 0
          if (s.grid? g).any (·.ctx == x) then some ({ grid := g, lo := le64 q 8, hi := le64 q 16 + 1, prio := le64 q 24 } : Range) else none
        let s := { s with dieRanges := tabSet s.dieRanges 0 (s.dieR 0 ++ ranges) }
        let s := s.restoreSync (imgEntries d.image 2 8) (imgEntries d.image 3 1088)
        let s := s.restoreColls (d.image.drop (le32 d.image 0x58)) e.rank (le32 d.image 0x5C)
        let s := s.restoreLates (d.image.drop (le32 d.image 0x60)) (le32 d.image 0x64)
        let s := (e.regions.zip d.regions).foldl (fun s q => s.pullRegion q.1 q.2.1 q.2.2) s
        let s := log.foldl State.replay s
        let stamp := (listMin? ((e.regions.zip d.regions).map (·.2.1))).getD 0
        let step : Word := BitVec.ofNat 32 (max stamp (s.lmin 0))
        let s := s.modCtx x fun k => { k with step := step, rkey := BitVec.ofNat 64 (le64 d.image 0x10) }
        let s := { s with stepCtx := { s.stepCtx with rank := e.rank }, outbox := .advance step.toNat :: s.outbox }
        .next ((s.rejoin e.rank step).exposeEnd eOk)

end Sys2Proof.Machine
end

