-- ==== Sys2Proof/Machine/Link.lean ====
section
/-!
DEFINITION. Sys2Proof/Machine/Link.lean: the host's view and pod-peer requests (R209, R210, R344 to R349), the link
register file (R347), and the ports (R350, R351).
-/
namespace Sys2Proof.Machine

/-! ### Ports (R350, R351) -/

/-- Nothing reaches the module from the host: it has no power, or the PCIe port carries no request (R350). -/
def State.hostGone (s : State) : Bool := s.life == .off || !s.link.usable pciePort

/-- PSTAT_WRITE (R350), by the host. -/
def execPstatWrite (p : Nat) (x : DWord) (s : State) : Host.Outcome State Fault Refusal :=
  if s.hostGone || 45 ≤ p then .next s else .next (s.pstat p x.toNat)

/-- PORT_SIGNAL_DETECT (R350): an enabled port that is DOWN starts to train. -/
def execPortSignalDetect (p : Nat) (s : State) : Host.Outcome State Fault Refusal :=
  let q := s.link.port p
  if s.life = .off || 45 ≤ p || !q.en || q.st != 0 then .next s else .next (s.portTo p { q with st := 1, fails := 0 })

/-- PORT_TRAINING_DONE (R350): training ends with `lanes` active lanes, or fails with none; the third failure in a row is
FAILED. -/
def execPortTrainingDone (p lanes : Nat) (s : State) : Host.Outcome State Fault Refusal :=
  let q := s.link.port p
  if s.life = .off || 45 ≤ p || q.st != 1 then .next s
  else if lanes = 0 then
    .next (s.portTo p { q with fails := q.fails + 1, st := if 3 ≤ q.fails + 1 then 4 else 1, lanes := 0 })
  else .next (s.portTo p { q with st := if fullWidth p ≤ lanes then 2 else 3, lanes := min lanes (fullWidth p), fails := 0, retrain := false })

/-- PORT_LANE_LOST (R350). -/
def execPortLaneLost (p : Nat) (s : State) : Host.Outcome State Fault Refusal :=
  let q := s.link.port p
  if s.life = .off || 45 ≤ p || q.st < 2 then .next s else .next (s.portTo p { q with st := 1, lanes := 0, fails := 0 })

/-- FEC_CODEWORD_EVENT (R351): counters, and the clocks of the latest uncorrectable codewords. -/
def execFecCodewordEvent (p : Nat) (e : FecEvent) (s : State) : Host.Outcome State Fault Refusal :=
  if s.life = .off || 45 ≤ p then .next s
  else .next { s with link := s.link.modPort p fun q => match e with
    | .corrected => { q with corr := q.corr + 1 }
    | .retransmitted => { q with replay := q.replay + 1 }
    | .uncorrected => { q with uncorr := q.uncorr + 1, errs := (s.clk.toNat :: q.errs).take 17 } }

/-- Uncorrectable errors have passed 16 in 1 ms, which is 2,400,000 clocks (R350). -/
def Port.overLimit (q : Port) : Bool :=
  match q.errs, q.errs.drop 16 with
  | newest :: _, oldest :: _ => decide (newest < oldest + 2400000)
  | _, _ => false

/-- PORT_ERROR_LIMIT (R350): more than 16 uncorrectable errors in 1 ms. -/
def execPortErrorLimit (p : Nat) (s : State) : Host.Outcome State Fault Refusal :=
  let q := s.link.port p
  if s.life = .off || 45 ≤ p || q.st < 1 || 3 < q.st || !q.overLimit then .next s
  else .next (s.portTo p { q with st := 4, lanes := 0, errs := [] })

/-! ### The link register file (R347) -/

/-- LINK_REGISTER_WRITE (R347): the oldest store of a core on its way to a register, or a write of the host through BAR0,
takes effect. -/
def execLinkRegisterWrite (w : LinkWrite) (s : State) : Host.Outcome State Fault Refusal :=
  match w with
  | .flight c id =>
    match tabGet? (s.core c).flights id with
    | none => .next s
    | some f =>
      if !inLinkRegs (f.line * 64) || (s.core c).flights.any fun q => q.1 < id && q.2.line == f.line then .next s
      else
        let s := s.modCore c fun k => { k with flights := tabDel k.flights id }
        match f.bytes with
        | [] => .next s
        | b :: bs => .next (s.linkStore (f.line * 64 + b.1 - 0x1000) (bs.length + 1) (ofLe ((b :: bs).map (·.2))))
  | .host o x w64 =>
    if s.hostGone || 0x1000 ≤ o then .next s else .next (s.linkStore o (if w64 then 8 else 4) x.toNat)

/-- WINDOW_ANNOUNCEMENT (R347): member `m` announces its EXPLOG. -/
def execWindowAnnouncement (m : Nat) (explog : Fin 16) (s : State) : Host.Outcome State Fault Refusal :=
  if s.life = .off || 1024 ≤ m then .next s
  else .next { s with link := { s.link with peerlog := tabSet s.link.peerlog m explog.val } }

/-- PODIX_ASSIGNMENT (R344): firmware assigns the member index. -/
def execPodixAssignment (n : Fin 1024) (s : State) : Host.Outcome State Fault Refusal :=
  if s.life = .off then .next s else .next { s with link := { s.link with pv := true, podix := n.val } }

/-! ### The host (R209, R345) -/

/-- BAR2 reaches device memory in RUN and HALT (R402). -/
def State.barOpen (s : State) : Bool := s.life == .run || s.life == .halt

/-- A BAR2 byte that no access reaches (R345). -/
def barHole (o : Nat) : Bool := noBack o || inFirmware o || inLinkRegs o || decide (2 ^ 42 ≤ o)

/-- The signature of the host's posted writes is posted to the module boards before a non-posted request (R209). -/
def State.postHost (s : State) : State :=
  if s.link.hostSig = 0 then s
  else { s with modBoard := s.modBoard.post s.link.hostSig, link := { s.link with hostSig := 0 } }

/-- Bytes of BAR0: the register file, the MSI-X pending bits and the MSI-X table (R345). -/
def State.bar0Read (s : State) (o n : Nat) : List Byte :=
  if o < 0x1000 then leBytes n (s.link.read o n)
  else if o < 0x1100 then
    (natRange (o - 0x1000) n).map fun i => BitVec.ofNat 8 (((natRange 0 8).filter fun b => s.link.msixPend.contains (8 * i + b)).foldl (fun a b => a + 2 ^ b) 0)
  else if 0x8000 ≤ o ∧ o + n ≤ 0x10000 then s.link.msixTable.read (o - 0x8000) n
  else List.replicate n 0

/-- HOST_BAR_READ (R209, R345): the data, or Unsupported Request. -/
def execHostBarRead (bar0 : Bool) (o n : Nat) (s : State) : Host.Outcome State Fault Refusal :=
  if s.hostGone then .next s
  else if bar0 then
    let s := s.postHost
    .next { s with hostReply := some (some (s.bar0Read o n)) }
  else if !s.barOpen || (natRange o n).any barHole then .next { s with hostReply := some none }
  else
    let s := s.postHost
    .next { s with hostReply := some (some (s.softBytes (natRange o n))) }

/-- HOST_BAR_WRITE (R209, R345): a posted write through BAR2; in RECOVERY it reaches the staging window (R405). -/
def execHostBarWrite (o : Nat) (bytes : List Byte) (s : State) : Host.Outcome State Fault Refusal :=
  let pas := natRange o bytes.length
  if s.hostGone then .next s
  else if s.life = .recovery ∧ o + bytes.length ≤ 0x4000000 then
    .next { s with root := { s.root with staging := s.root.staging.putAll (pas.zip bytes) } }
  else if !s.barOpen || pas.any barHole then .next (s.countDrop pciePort)
  else if !s.canWrite (linesOf pas) none then .next s
  else
    let s := s.homeWrite (pas.zip bytes) []
    .next { s with link := { s.link with hostSig := (linesOf pas).foldl (fun m l => m ||| sigOf l) s.link.hostSig } }

/-- HOST_ATOMICOP (R209, R344): on 4 or 8 bytes it is performed in the home arithmetic unit and the old value returns; any other
size, 128-bit CAS among them, is an Unsupported Request. -/
def execHostAtomicop (op : HostOp) (n pa : Nat) (x y : DWord) (s : State) : Host.Outcome State Fault Refusal :=
  let w64 := n == 8
  let pas := natRange pa n
  if s.hostGone then .next s
  else if !(n == 4 || n == 8) || !s.barOpen || pas.any barHole || pa % n != 0 then .next { s with hostReply := some none }
  else if !s.canWrite (linesOf pas) none then .next s
  else
    let s := s.postHost
    let old := ofLe (s.softBytes pas)
    let kind : AccKind := match op with
      | .fetchAdd => .atom (.fold .add) (if w64 then .n64 else .n32) false
      | .swap => .atom .exch (if w64 then .n64 else .n32) false
      | .cas => .cas w64 false
    let s := match rmw kind (x.toNat % 2 ^ (8 * n)) (y.toNat % 2 ^ (8 * n)) old n with
      | some v => (s.homeWrite (pas.zip (leBytes n v)) []).markLost pas
      | none => s
    .next { s with hostReply := some (some (leBytes n old)) }

/-- REGISTER_WRITE (R4): a register without behaviour of its own takes a write under its access codes: PEERCTX, the counters
and the MSI-X table through BAR0; the queue descriptors and trap queues at their physical addresses. -/
def execRegisterWrite (bar0 : Bool) (a : Nat) (x : DWord) (w64 : Bool) (s : State) : Host.Outcome State Fault Refusal :=
  let n := if w64 then 8 else 4
  if s.hostGone || a % n != 0 then .next s
  else if bar0 then
    if a < 0x1000 then .next { s with link := s.link.put a n x.toNat }
    else if 0x8000 ≤ a ∧ a < 0x10000 then
      .next { s with link := { s.link with msixTable := s.link.msixTable.putAll ((natRange (a - 0x8000) n).zip (leBytes n x.toNat)) } }
    else .next s
  else if (natRange a n).any barHole || !s.canWrite [a / 64] none then .next s
  else .next (s.homePut a n x.toNat)

/-- MSIX_PENDING_SEND (R345): a pending vector is sent once the PCIe port is UP. -/
def execMsixPendingSend (vec : Nat) (s : State) : Host.Outcome State Fault Refusal :=
  if s.link.msixPend.contains vec && (s.link.port pciePort).st == 2 then
    .next ({ s with link := { s.link with msixPend := s.link.msixPend.filter (· != vec) } }.sendMsi vec)
  else .next s

/-! ### Pod peers (R210, R346 to R348) -/

/-- A message to a peer. -/
def State.tell (s : State) (kind m x : Nat) : State := { s with link := { s.link with sent := (kind, m, x) :: s.link.sent } }

/-- The bytes a request reaches, its size in bytes. -/
def peerSize : PeerOp → Nat
  | .read n => n
  | .write bs _ => bs.length
  | .atom _ ty _ => tyWidth ty / 8
  | .cas w64 _ _ => if w64 then 8 else 4

/-- POD_PEER_REQUEST (R344, R346, R347): a request of member `sender` that arrived on `port` is performed at EXPBASE + o; outside
the window it is discarded, a read returns poisoned data, and DROP adds 1. One of more than 256 bytes is refused: message 5. -/
def execPodPeerRequest (sender port ofs : Nat) (op : PeerOp) (s : State) : Host.Outcome State Fault Refusal :=
  if s.life != .run || 36 ≤ port || !s.link.usable port then .next s
  else if 256 < peerSize op then .next (s.tell 5 sender 0)
  else match s.link.export ofs (peerSize op) with
    | none =>
      let s := s.countDrop port
      .next (match op with | .write _ _ => s | _ => s.tell 3 sender 0)
    | some pas =>
      let reads := match op with | .write _ _ => false | _ => true
      let writes := match op with | .read _ => false | _ => true
      if writes && !s.canWrite (linesOf pas) none then .next s
      else
        let sig := (linesOf pas).foldl (fun m l => m ||| sigOf l) (tabGet 0 s.link.peerSigs sender)
        let note (s : State) : State := { s with link := { s.link with peerSigs := tabSet s.link.peerSigs sender sig } }
        if pas.any inLinkRegs then
          match op with
          | .write bs _ => .next ((s.linkStore (pas.headD 0x1000 - 0x1000) bs.length (ofLe bs)).tell 4 sender 0)
          | .read _ => .next (s.tell 2 sender (ofLe (s.softBytes pas)))
          | _ => .next (s.tell 2 sender 0)
        else if reads && s.homePoisoned pas then .next (s.tell 3 sender 0)
        else
          let old := ofLe (s.softBytes pas)
          let amo (k : AccKind) (x y : Nat) : State :=
            (match rmw k x y old pas.length with
              | some v => note ((s.homeWrite (pas.zip (leBytes pas.length v)) []).markLost pas)
              | none => s).tell 2 sender old
          match op with
          | .read _ => .next (s.tell 2 sender old)
          | .write bs bad => .next ((note (s.homeWrite (pas.zip bs) (pick bad pas))).tell 4 sender 0)
          | .atom o ty x => .next (amo (.atom o ty false) x.toNat 0)
          | .cas w64 x y => .next (amo (.cas w64 false) x.toNat y.toNat)

/-- POD_FLUSH (R210): the sender's signature is posted to the module boards before the flush is acknowledged. -/
def execPodFlush (sender : Nat) (s : State) : Host.Outcome State Fault Refusal :=
  if s.life != .run then .next s
  else
    let sig := tabGet 0 s.link.peerSigs sender
    let s := if sig = 0 then s
      else { s with modBoard := s.modBoard.post sig, link := { s.link with peerSigs := tabDel s.link.peerSigs sender } }
    .next (s.tell 4 sender 0)

/-- The clocks of 16 µs. -/
def peerLimit : Nat := 38400

/-- POD_PEER_TIMEOUT (R348): a request to a member was not answered for 16 µs: reads and atomics receive poisoned data, writes
are lost, a flush completes, and DROP of the port that carried it adds 1; of one that no port took, DROP of the port that the event
names. -/
def execPodPeerTimeout (c id pos port : Nat) (s : State) : Host.Outcome State Fault Refusal :=
  match tabGet? (s.core c).pend id with
  | none => .next s
  | some p => match p.accs.find? fun a => a.pos == pos && a.st == 0 with
    | some a => match a.tgt with
      | some (.peer m o) =>
        if s.isStaged c p (.peer m o) || s.clk.toNat < a.clk + peerLimit then .next s
        else
          let s := s.countDrop (a.port.getD (port % 36))
          match p.kind with
          | .load _ _ | .lds _ | .atom _ _ _ | .cas _ _ | .engine _ true => .next (s.peerReturn c id p a [] true regsAll)
          | _ => .next (({ s with link := if a.port.isSome then s.link.arrive m o else s.link }).finishAcc c id a)
      | _ => .next s
    | none => .next s

end Sys2Proof.Machine
end

