-- ==== Sys2Proof/Machine/Life.lean ====
section
/-!
DEFINITION. Sys2Proof/Machine/Life.lean: the life of the module (R402 to R407), the power arbiter (R408, R409), heat and
ageing (R410, R411), and the module halt (R22).
-/
namespace Sys2Proof.Machine

/-! ### Starts and stops (R402) -/

/-- The module before compute reset is released: every part of it is as at reset, but what flash and fuses keep, the MCTP
endpoint while the module stays powered, and the links on the way to RECOVERY (R4, R402). -/
def State.restart (s : State) (l : Life) (powered : Bool) : State :=
  let r := State.reset
  let spdm := if powered then s.root.spdm else 0
  let replies := if powered then s.root.replies else []
  { r with
    life := l
    link := if l = .recovery then s.link else r.link
    hostReply := if powered then s.hostReply else none
    agenda := s.agenda
    root := { s.root with pwrgd := powered, staging := [], spdm := spdm, replies := replies, recover := false } }

/-- PWRGD_ASSERT (R402, R412): power is good and RESET_N released. -/
def execPwrgdAssert (s : State) : Host.Outcome State Fault Refusal :=
  if s.life = .off then .next (s.restart .selftest true) else .next s

/-- PWRGD_DEASSERT (R402). -/
def execPwrgdDeassert (s : State) : Host.Outcome State Fault Refusal :=
  if s.life = .off then .next s else .next (s.restart .off false)

/-- RESET_N_ASSERT (R402). -/
def execResetNAssert (s : State) : Host.Outcome State Fault Refusal := .next (s.restart .selftest true)

/-! ### Self-test (R403, R404, R406, R411) -/

/-- The result of the image check: 0, or 2 refused, 3 rolled back (R403, R404). -/
def Root.check (r : Root) (img : List Byte) : Nat :=
  if !Config.imageValid img then 2 else if (Config.imageSvn img).toNat < r.fusedSvn then 3 else 0

/-- The boot record of slot 0 (R406). -/
def bootCtx : Ctx :=
  { emptyCtx with state := .loaded, hlim := 0x1E00000000, tqbase := 0x10000, svbase := 0x1000000, ctxcfg := 1, ftvd := 4, dln := 100 }

/-- What firmware writes before it releases compute reset (R102, R406): queue descriptor 0, entry 0 of die 0's table, GEN. -/
def bootMemory : Memory :=
  let put (m : Memory) (a n x : Nat) : Memory := Memory.write m a (leBytes n x)
  let m := put (put (put (put [] 0x2000 8 (0x0F * 2 ^ 56)) 0x2040 8 0x2000) 0x2048 8 0x2000) 0x205C 4 1
  put (put (put m 0 8 0x2000) 8 8 (2 ^ 31 + 7 * 2 ^ 8)) 0x200 8 1

/-- Slot 0 is loaded, queue 0 of die 0 prepared, compute reset released and CLK set to zero (R18, R89, R406). -/
def State.boot (s : State) : State :=
  { s with
    life := .run
    clk := 0
    ctxs := s.ctxs.setIfInBounds 0 bootCtx
    mem := bootMemory
    cores := s.root.retired.foldl (fun t c => tabSet t c { tabGet emptyCore t c with retired := true }) s.cores }

/-- Cores whose margin is below the guard band, by index. -/
def weakCores (margins : List Nat) : List Nat := (natRange 0 576).filter fun c => listGet Config.guardBand margins c < Config.guardBand

/-- The ageing sensors as read in self-test (R411): cores marked at their maximum voltage are retired now; elsewhere the
voltage starts again from none, and is raised by one step where the margin asks for it. -/
def Root.age (r : Root) (margins : List Nat) : Root :=
  let weak := weakCores margins
  let worst := weak.filter fun c => Config.maxVoltSteps ≤ tabGet 0 r.volts c
  { r with
    retired := worst.foldl (fun t c => insSorted c t) (r.retireNext.foldl (fun t c => insSorted c t) r.retired)
    retireNext := []
    volts := weak.map fun c => (c, min Config.maxVoltSteps (tabGet 0 r.volts c + 1)) }

/-- SELFTEST_COMPLETION (R402 to R404, R406): self-test and the image check end. -/
def execSelftestCompletion (t : SelfTest) (s : State) : Host.Outcome State Fault Refusal :=
  if s.life != .selftest then .next s
  else
    let pass := t.stage == 0 && t.dieMap == BitVec.allOnes 24 && t.mdMap == BitVec.allOnes 4
    let img := s.root.check s.root.flash
    let result := if !pass then 1 else img
    let svn := (Config.imageSvn s.root.flash).toNat
    let r := s.root.age t.margins
    let r := { r with
      dieMap := t.dieMap, mdMap := t.mdMap, failUnit := if pass then 0xFF else t.unit % 256,
      stage := if r.tripped then 7 else if !pass then t.stage else if img = 0 then 0 else 6,
      result := result, svn := svn, tripped := false, fusedSvn := if result = 0 then max r.fusedSvn svn else r.fusedSvn }
    let s := { s with root := r }
    .next (if result = 0 then s.boot else { s with life := .safe })

/-! ### Recovery (R402, R405) -/

/-- An answer of the MCTP endpoint. -/
def State.answer (s : State) (b : List Byte) : State := { s with root := { s.root with replies := b :: s.root.replies } }

/-- Every context is HALTED or EMPTY. -/
def State.allHalted (s : State) : Bool := s.ctxs.toList.all fun k => k.state == .halted || k.state == .empty

/-- A RECOVER that has come in RUN takes effect as time passes, once every context is HALTED or EMPTY (R402). -/
def State.takeRecover (s : State) : State :=
  if s.root.recover && (s.life == .run || s.life == .halt) && s.allHalted then s.restart .recovery true else s

/-- MCTP_RECOVER (R402): from SAFE or HALT, and from RUN once every context is HALTED or EMPTY; the compute dies go into reset. -/
def execMctpRecover (s : State) : Host.Outcome State Fault Refusal :=
  match s.life with
  | .safe | .halt => .next (s.restart .recovery true)
  | .run => .next ({ s with root := { s.root with recover := true } } : State).takeRecover
  | _ => .next s

/-- MCTP_COMMIT: a staged image that verifies is written to flash and started; otherwise the RESULT code is the answer. -/
def execMctpCommit (len : Nat) (s : State) : Host.Outcome State Fault Refusal :=
  if s.life != .recovery then .next s
  else
    let img := s.root.staging.read 0 (min len 0x4000000)
    let result := s.root.check img
    if result = 0 then
      .next ({ s with root := { s.root with flash := img } }.restart .selftest true |>.answer [BitVec.ofNat 8 0])
    else .next (s.answer [BitVec.ofNat 8 result])

/-! ### The MCTP endpoint (R403, R407) -/

/-- The self-test record (R403). -/
def Root.record (r : Root) : List Byte :=
  leBytes 8 (r.dieMap.toNat * 2 ^ 40 + r.mdMap.toNat * 2 ^ 36 + r.failUnit % 256 * 2 ^ 16 + r.stage % 256 * 2 ^ 8 + r.result % 256) ++
    leBytes 4 (r.retired.length % 2 ^ 16 * 2 ^ 16 + r.svn % 2 ^ 16)

/-- GET_SELFTEST (R403). -/
def execGetSelftest (s : State) : Host.Outcome State Fault Refusal :=
  if s.life = .off then .next s else .next (s.answer s.root.record)

/-- An SPDM 1.2 response: version, response code, two parameters and the payload (log entry 40). -/
def spdmReply (code p1 p2 : Nat) (payload : List Byte) : List Byte :=
  [BitVec.ofNat 8 0x12, BitVec.ofNat 8 code, BitVec.ofNat 8 p1, BitVec.ofNat 8 p2] ++ payload

/-- An SPDM ERROR response: 1 an invalid request, 4 an unexpected one. -/
def spdmError (code : Nat) : List Byte := spdmReply 0x7F code 0 []

/-- An SPDM answer of the endpoint, which needs the exchanges up to `need` to be over. -/
def State.spdmAnswer (s : State) (need : Nat) (b : List Byte) : State :=
  s.answer (if s.root.spdm < need then spdmError 4 else b)

/-- GET_VERSION (R407): version 1.2 only; negotiation starts again. -/
def execGetVersion (s : State) : Host.Outcome State Fault Refusal :=
  if s.life = .off then .next s
  else .next ({ s with root := { s.root with spdm := 1 } }.answer
    ([BitVec.ofNat 8 0x10, BitVec.ofNat 8 4, 0, 0] ++ leBytes 2 0x0100 ++ leBytes 2 0x1200))

/-- GET_CAPABILITIES (R407): certificates, challenge and signed measurements. -/
def execGetCapabilities (s : State) : Host.Outcome State Fault Refusal :=
  if s.life = .off then .next s
  else .next ({ s with root := { s.root with spdm := if s.root.spdm = 0 then 0 else max 2 s.root.spdm } }.spdmAnswer 1
    (spdmReply 0x61 0 0 (leBytes 4 0 ++ leBytes 4 0x16)))

/-- The algorithms that the endpoint offers: 0 names ECDSA P-256, 1 SHA-256 (R407). -/
def offered (a : Nat) : Bool := a == 0 || a == 1

/-- NEGOTIATE_ALGORITHMS (R407): of the algorithms the requester names, those offered are selected. -/
def execNegotiateAlgorithms (algos : List Nat) (s : State) : Host.Outcome State Fault Refusal :=
  let both := algos.contains 0 && algos.contains 1
  if s.life = .off then .next s
  else
    let ready := 2 ≤ s.root.spdm
    let t := if ready && both then { s with root := { s.root with spdm := 3 } } else s
    .next (t.spdmAnswer 2 (if both then spdmReply 0x63 0 0 ((algos.filter offered).map (BitVec.ofNat 8 ·)) else spdmError 1))

/-- GET_DIGESTS (R407): slot 0. -/
def execGetDigests (s : State) : Host.Outcome State Fault Refusal :=
  if s.life = .off then .next s else .next (s.spdmAnswer 3 (spdmReply 1 0 1 (Config.sha256 Config.certChain)))

/-- GET_CERTIFICATE (R407): a portion of the chain of slot 0. -/
def execGetCertificate (slot ofs len : Nat) (s : State) : Host.Outcome State Fault Refusal :=
  let part := (Config.certChain.drop ofs).take len
  if s.life = .off then .next s
  else .next (s.spdmAnswer 3 (if slot = 0 then
      spdmReply 2 0 0 (leBytes 2 part.length ++ leBytes 2 (Config.certChain.length - ofs - part.length) ++ part)
    else spdmError 1))

/-- CHALLENGE (R407): the digest of the chain and a signature over the nonce and it. -/
def execChallenge (slot : Nat) (nonce : List Byte) (s : State) : Host.Outcome State Fault Refusal :=
  let d := Config.sha256 Config.certChain
  if s.life = .off then .next s
  else .next (s.spdmAnswer 3 (if slot = 0 then spdmReply 3 0 1 (d ++ Config.signature (nonce ++ d)) else spdmError 1))

/-- The content of a measurement index (R407). -/
def Root.measure (r : Root) (i : Nat) : Option (List Byte) :=
  match i with
  | 1 => some (Config.sha256 r.flash)
  | 2 => some r.record
  | 3 => some (Config.fusedConfig ++ leBytes 4 r.fusedSvn)
  | 4 => some ((natRange 0 576).map fun c => BitVec.ofNat 8 (tabGet 0 r.volts c))
  | _ => none

/-- GET_MEASUREMENTS (R407): index 0 asks for the number of measurements. -/
def execGetMeasurements (i : Nat) (s : State) : Host.Outcome State Fault Refusal :=
  if s.life = .off then .next s
  else .next (s.spdmAnswer 3 (if i = 0 then spdmReply 0x60 4 0 []
    else match s.root.measure i with
      | some b => spdmReply 0x60 0 0 (BitVec.ofNat 8 i :: b)
      | none => spdmError 1))

/-! ### The module halt (R22, R386) -/

/-- The record of KIND 6 of a slot. When the fault has made the memory of its place unreachable it is lost, and FLOST counts it
where the control block can still be written. -/
def State.haltRecord (s : State) (x : Nat) (lost : Nat → Bool) : State :=
  let tq := (s.ctx x).tqbase.toNat
  let cb := tq + 0x4000
  let gone (a : Nat) : Bool := lost (homeSlice a)
  if gone cb then s
  else
    let pi := s.homeRead cb 4
    let ci := s.homeRead (cb + 4) 4
    let place := if (pi + 2 ^ 32 - ci) % 2 ^ 32 ≤ 255 then some (pi % 256) else s.recordVictim tq ci
    if place.any fun n => gone (tq + 64 * n) then s.homePutRaw (cb + 0xC) 4 (s.homeRead (cb + 0xC) 4 + 1)
    else (s.writeRecord x { kind := 6 }).1

/-- Every context is HALTED, each slot that is not EMPTY gets a record of KIND 6, and a drain is abandoned. -/
def State.haltModule (s : State) (lost : Nat → Bool) : State :=
  let s := (natRange 0 64).foldl (fun s x =>
    if (s.ctx x).state = .empty then s else ((s.modCtx x fun k => { k with state := .halted }).haltGroups x)) s
  let s := (natRange 0 64).foldl (fun s x => if (s.ctx x).state = .empty then s else s.haltRecord x lost) s
  { s with life := .halt, expo := { s.expo with stopped := false, draining := false, joining := false, owner := none, pins := [] } }

/-- MODULE_HALT (R22, R402). Which home slices the fault has made unreachable is a free value (log entry 65). -/
def execModuleHalt (s : State) : Host.Outcome State Fault Refusal :=
  if s.life = .run then .next (s.haltModule (Config.unreachable s.clk.toNat)) else .next s

/-! ### Power, heat and ageing (R408 to R411) -/

/-- The demand of a die: its cores that hold a grant or wait for one. -/
def State.demand (s : State) (d : Nat) : Nat := (s.grants d).length + ((natRange (d * 24) 24).filter s.wantsGrant).length

/-- The shares by water-filling (R408): the highest level that the budget allows, then single units to the lower die indices. -/
def waterFill (budget : Nat) (ds : List Nat) : List Nat :=
  let sum (f : Nat) : Nat := ds.foldl (fun n r => n + min r f) 0
  let f := (natRange 0 25).foldl (fun b f => if sum f ≤ budget then f else b) 0
  (ds.foldl (fun (a : List Nat × Nat) r => if f < r && 0 < a.2 then (a.1 ++ [f + 1], a.2 - 1) else (a.1 ++ [min r f], a.2))
    ([], budget - sum f)).1

/-- POWER_PERIOD (R408, R409): at a period boundary each die has its share from here on. -/
def execPowerPeriod (s : State) : Host.Outcome State Fault Refusal :=
  if s.life != .run || s.period ≤ s.power.shared then .next s
  else
    let sh := waterFill s.power.gbud ((natRange 0 24).map s.demand)
    .next { s with power := { s.power with shared := s.period, shares := Vector.ofFn fun i => listGet 0 sh i.val } }

/-- THERMAL_SENSE (R410): `temps` are the junction temperatures in °C, read once in a period, of the compute dies and of the Meridian dies. -/
def execThermalSense (temps : List Nat) (s : State) : Host.Outcome State Fault Refusal :=
  if s.life != .run || s.period ≤ s.power.sensed then .next s
  else if temps.any (110 < ·) then .next { s.haltModule (fun _ => false) with root := { s.root with tripped := true } }
  else
    let p := s.power
    let cooling := if temps.any (95 < ·) then true else p.cooling && temps.any (90 < ·)
    let gbud := if cooling then (if p.gbud ≤ 144 then p.gbud else max 144 (p.gbud - 24)) else min 576 (p.gbud + 24)
    .next { s with power := { p with sensed := s.period, gbud := gbud, cooling := cooling } }

/-- AGEING_SENSE (R411): a weak core has its voltage raised, or at the maximum is retired at the next start. -/
def execAgeingSense (margins : List Nat) (s : State) : Host.Outcome State Fault Refusal :=
  if s.life != .run then .next s
  else
    let r := s.root
    let weak := weakCores margins
    let worst := weak.filter fun c => Config.maxVoltSteps ≤ tabGet 0 r.volts c
    let raised := weak.filter fun c => tabGet 0 r.volts c < Config.maxVoltSteps
    let volts := raised.foldl (fun t c => tabSet t c (tabGet 0 t c + 1)) r.volts
    .next { s with root := { r with volts := volts, retireNext := worst.foldl (fun t c => insSorted c t) r.retireNext } }

end Sys2Proof.Machine
end

