-- ==== Sys2Proof/Machine/Boot.lean ====
section
/-!
DEFINITION. Sys2Proof/Machine/Boot.lean: a state in which a group of one team is issuing a clause whose next word is given:
what a launch, an admission and a clause issue would have left (R113, R122, R123, R138).
-/
namespace Sys2Proof.Machine

/-- The clause classes and roles under which an instruction may issue, the vector class first. -/
def homeClasses (i : Instr) : List (EClass × Role) :=
  (engOf i).reverse.flatMap fun e => (([.vector, .feeder, .matrix] : List Role).filter fun r => roleOk r e i).map fun r => (e, r)

/-- The code of a clause class in a header (R25). -/
def classCode : EClass → Nat
  | .scalar => 0 | .vector => 1 | .memory => 2 | .matrix => 3 | .copy => 4 | .sync => 5 | .control => 6

/-- The header of a clause of one word with no condition (R24). -/
def plainHeader (e : EClass) : Nat := 15 * 2 ^ 60 + classCode e * 2 ^ 57

/-- Where the clause stands in device memory. -/
def bootCode : Nat := 0x200000

/-- A grid of one team of one group of eight lanes with 64 vector registers, in slot 0. -/
def bootGrid (r : Role) : Grid :=
  { ctx := 0, kimg := BitVec.ofNat 64 bootCode, entry := 0, vregs := 64, wcode := 0, groups := 1, scratch := 0x1000,
    roles := match r with | .vector => 0 | .feeder => 1 | .matrix => 2
    gx := 1, gy := 1, gz := 1, cw := 1, ch := 1, gbar := false, args := 0, compl := 0, prio := 0, lo := 1, gone := [],
    placed := true, node := none, rec_ := none, crecs := [], epoch := 0, closed := [], step := 0, cfLine := none, cfTouched := false,
    cfDropped := false }

/-- Slot 0 holds the boot record and is ACTIVE; its one team stands at place 0 of core 0, its group is group context 0 on lane
positions 0 to 7, and issues the clause of class `k.1` at `bootCode` whose one word is `w`. -/
def State.placeAs (s : State) (w : Nat) (k : EClass × Role) : State :=
  let hdr := plainHeader k.1
  let s := { s with
    life := .run
    ctxs := s.ctxs.setIfInBounds 0 { bootCtx with state := .active }
    mem := (s.mem.write bootCode (leBytes 8 hdr)).write (bootCode + 8) (leBytes 8 w)
    grids := tabSet s.grids 0 (bootGrid k.2) }
  let s := s.admitTeam 0 0 0 0 { place := 0, gctx := [0], bases := [0], scr := 0 }
  let cu : Cursor := { base := bootCode, ecl := k.1, words := [w], k := 0, issuing := natRange 0 8, live := natRange 0 8,
                       gx := Vector.replicate 16 0, step := 0 }
  { s.modGroup 0 0 (fun x => { x with cur := some cu }) with agenda := [.word 0 0], focus := none }

/-- The word `w` under the first class and role in which no rule refuses it. -/
def State.placeWord (s : State) (w : Nat) : State :=
  match decodeNat w 0 with
  | .error _ => s.placeAs w (.vector, .vector)
  | .ok i =>
    let fits (k : EClass × Role) : Bool :=
      let t := s.placeAs w k
      (t.group? 0 0).any fun x => x.cur.any fun cu => (wordFault t 0 x cu i).isNone
    s.placeAs w (((homeClasses i).find? fits).getD ((homeClasses i).headD (.vector, .vector)))

end Sys2Proof.Machine
end

