-- ==== Sys2Proof/Machine/Copy.lean ====
section
/-!
DEFINITION. Sys2Proof/Machine/Copy.lean: the copy engine (R276 to R281) and the batches (R282 to R284).
-/
namespace Sys2Proof.Machine

def cOk : Nat := 0
def cRecord : Nat := 1
def cPath : Nat := 2
def cAlign : Nat := 3
def cPage : Nat := 4
def cPoison : Nat := 5

/-! ### Shape records (R276) -/

/-- The words of a shape record that the engine keeps: ESZ, planes, rows, columns, and the six strides. -/
def shapeOf (b : List Byte) : List Nat :=
  let w (i : Nat) : Nat := ofLe ((b.drop (4 * i)).take 4)
  [fld (w 0) 0 3, fld (w 0) 16 8 + 1, fld (w 1) 16 16 + 1, fld (w 1) 0 16 + 1, w 2, w 3, w 4, w 5, w 6, w 7]

/-- A shape record is invalid (R276). -/
def shapeBad (b : List Byte) : Bool :=
  let w0 := ofLe (b.take 4)
  let sh := shapeOf b
  fld w0 24 8 != 0 || fld w0 3 13 != 0 || 4 < listGet 0 sh 0 ||
    2 ^ 32 < listGet 0 sh 1 * listGet 0 sh 2 * listGet 0 sh 3 * 2 ^ listGet 0 sh 0

/-- The number of elements. -/
def shapeCount (sh : List Nat) : Nat := listGet 0 sh 1 * listGet 0 sh 2 * listGet 0 sh 3

/-- Plane, row and column of element `k`. -/
def shapeIx (sh : List Nat) (k : Nat) : Nat × Nat × Nat :=
  let nc := listGet 0 sh 3
  let nr := listGet 0 sh 2
  (k / nc / nr, k / nc % nr, k % nc)

/-- SA or DA: base and the strides from index `at_` on (column, row, plane). -/
def shapeAddr (sh : List Nat) (base at_ k : Nat) : Nat :=
  let (p, i, j) := shapeIx sh k
  let st (q : Nat) : Int := sext (listGet 0 sh (at_ + q)) 32
  wrap ((base : Int) + p * st 2 + i * st 1 + j * st 0) 64

/-! ### The copy -/

/-- `tcpz` writes masked elements as zero. -/
def isTcpz (i : Instr) : Bool := match i with | .tcpz _ => true | _ => false

/-- A copy. -/
def isCopy (i : Instr) : Bool := match i with | .tcp _ | .tcpz _ => true | _ => false

/-- `tcp` and `tcpz` (R277, R278): one copy, owned by the lowest lane of C, joins that lane's open set. -/
def Env.copy (e : Env) (s : State) (t : TW) : Res :=
  let held := ((s.core e.c).cmds.filter fun m => isCopy m.2.i).length
  if e.slotFull t.sb || 128 ≤ held then .wait s .instr
  else
    let (id, s) := e.newCmd s 8 none []
    .done (s.modLane e.c e.low fun l => { l with open_ := l.open_ ++ [id] })

/-- `tcp` (R277). -/
def execTcp (t : TW) (s : State) : Host.Outcome State Fault Refusal := execWord (.tcp t) (fun e s => e.copy s t) s
/-- `tcpz` (R277). -/
def execTcpz (t : TW) (s : State) : Host.Outcome State Fault Refusal := execWord (.tcpz t) (fun e s => e.copy s t) s

/-- The copy goes on to finish with a status. -/
def State.copyEnd (s : State) (c id st : Nat) : State :=
  s.modCmd c id fun m => { m.goOn .draining with status := st }

/-- A fault on the shape record or an element: fatal ones end the copy, others stall it (R279). -/
def State.copyFault (s : State) (c id : Nat) (m : Cmd) (va : Nat) (f : PFault) (acc : Nat) : State :=
  if f.replayable then s.cmdStall c id m f va acc else (s.cmdFault c m f va acc).1.copyEnd c id cPage

/-- Reads the shape record (R278): the copy runs, stalls or ends. -/
def State.copyRecord (s : State) (c id : Nat) (m : Cmd) : State :=
  let sa := blk64 m.block 4
  if !s.elemPath c m sa 32 false then s.copyEnd c id cPath
  else if sa % 32 ≠ 0 then s.copyEnd c id cRecord
  else match s.elemRead c id m sa 32 with
    | .path => s.copyEnd c id cPath
    | .again s => s
    | .fault va f => s.copyFault c id m va f 0
    | .ok s bs bad =>
      let s := if bad.isEmpty then s else s.modCmd c id fun m => { m with poisoned := true }
      if shapeBad bs then s.copyEnd c id cRecord
      else s.modCmd c id fun m => { m.goOn .running with shape := shapeOf bs }

/-- COPY_START (R278, R281): the WEN wait holds and the shape record is read. -/
def execCopyStart (c id : Nat) (s : State) : Host.Outcome State Fault Refusal :=
  match s.cmd? c id with
  | none => .next s
  | some m =>
    if isCopy m.i && m.state == .waiting && !s.expo.stopped && s.cmdAlive c m && s.wenHolds c m then
      let s := s.wenBind c m
      -- a restored copy that had its shape record does not read it again (R281)
      .next (if m.shape.isEmpty then s.copyRecord c id m else s.modCmd c id fun m => { m with state := .running })
    else .next s

/-- One element of a running copy (R278, R279). DESIGN CHOICE (log entry 63): with ROWS or COLS 0 a `tcpz` writes every element
as zero, as R277 says of a masked element; R44 says that such a command touches none. -/
def State.copyStep (s : State) (c id : Nat) (m : Cmd) : State :=
  let sh := m.shape
  let k := m.prog
  if shapeCount sh ≤ k then s.copyEnd c id m.status
  else
    let n := 2 ^ listGet 0 sh 0
    let (_, i, j) := shapeIx sh k
    let masked := fld (blk32 m.block 6) 16 16 ≤ i || fld (blk32 m.block 6) 0 16 ≤ j
    let sa := shapeAddr sh (blk64 m.block 0) 4 k
    let da := shapeAddr sh (blk64 m.block 2) 7 k
    let next (s : State) : State := s.modCmd c id fun m =>
      { m.goOn (if shapeCount sh ≤ k + 1 then .draining else .running) with prog := k + 1 }
    if masked && !isTcpz m.i then next s
    else
      let badPath := !s.elemPath c m da n true || (!masked && !s.elemPath c m sa n false)
      let badAlign := da % n != 0 || (!masked && sa % n != 0)
      if badPath then s.copyEnd c id cPath
      else if badAlign then s.copyEnd c id cAlign
      else
        let rd := if masked then Elem.ok s (List.replicate n 0) [] else s.elemRead c id m sa n
        match rd with
        | .path => s.copyEnd c id cPath
        | .again s => s
        | .fault va f => s.copyFault c id m va f 0
        | .ok s' bs bad =>
          -- the write is checked before anything of the element is performed
          match s'.elemWrite c id m da bs bad with
          | .path => s.copyEnd c id cPath
          | .again s => s.modCmd c id fun q => { q with aux := m.aux }
          | .fault va f => s.copyFault c id m va f 1
          | .ok s _ _ => next (if bad.isEmpty then s else s.modCmd c id fun m => { m with poisoned := true })

/-- COPY_ELEMENT_RETRY (R279, R281): a stalled copy tries its element, or its shape record, again. -/
def execCopyElementRetry (c id : Nat) (s : State) : Host.Outcome State Fault Refusal :=
  match s.cmd? c id with
  | none => .next s
  | some m =>
    if isCopy m.i && s.retryDue m && s.cmdAlive c m then
      .next (if m.shape.isEmpty then s.copyRecord c id m else s.copyStep c id m)
    else .next s

/-- A copy is done: it leaves the batch that holds it (R282). -/
def State.batchDone (s : State) (c id : Nat) : State :=
  let drop (b : BatchState × List Nat) : BatchState × List Nat :=
    if b.2.contains id then
      let rest := b.2.filter (· != id)
      (if rest.isEmpty && b.1 == .sealed then .complete else b.1, rest)
    else b
  s.modCore c fun k => { k with lanes := k.lanes.map fun l => (l.1, { l.2 with batch := l.2.batch.map drop }) }

/-- COPY_COMPLETION (R278, R281): every write is performed; the increase, the status, the end of the slot. -/
def execCopyCompletion (c id : Nat) (s : State) : Host.Outcome State Fault Refusal :=
  match s.cmd? c id with
  | none => .next s
  | some m =>
    if isCopy m.i && m.state == .draining && !(s.core c).engineBusy id false && s.canInc c m then
      let st := if m.status = cOk && m.poisoned then cPoison else m.status
      .next ((s.batchDone c id).cmdFinish c id m [(7, st)])
    else .next s

/-! ### Batches (R282, R283) -/

/-- A copy that has not reached DONE. -/
def Core.copyLive (k : Core) (id : Nat) : Bool := (tabGet? k.cmds id).isSome

/-- The batch of a lane is COMPLETE or EMPTY. -/
def Lane.batchIdle (l : Lane) (b : Nat) : Bool := (l.batch[b]?).all fun q => q.1 != .sealed

/-- Moves a lane's open set into a batch. -/
def Lane.seal (l : Lane) (b : Nat) (live : Nat → Bool) : Lane :=
  let inc := l.open_.filter live
  let old := (l.batch[b]?).getD (.empty, [])
  let st : BatchState := match old.1 with
    | .empty => if !inc.isEmpty then .sealed else if !l.open_.isEmpty then .complete else .empty
    | .sealed => .sealed
    | .complete => if !inc.isEmpty then .sealed else .complete
  { l with open_ := [], batch := l.batch.setIfInBounds b (st, old.2 ++ inc) }

/-- `cseal` (R283). -/
def execCseal (t : TW) (s : State) : Host.Outcome State Fault Refusal :=
  execWord (.cseal t) (fun e s =>
    if e.slotFull t.sb then .wait s .instr
    else
      let live := (s.core e.c).copyLive
      let s := eachLane e.lanes (fun p s => s.modLane e.c p fun l => l.seal t.batch.val live) s
      .done (e.newCmd s 0 none []).2) s

/-- `cwait` (R283). -/
def execCwait (t : TW) (s : State) : Host.Outcome State Fault Refusal :=
  execWord (.cwait t) (fun e s => if e.slotFull t.sb then .wait s .instr else .done (e.newCmd s 0 none []).2) s

/-- `cseal` and `cwait` finish when the batch of every lane of C is COMPLETE or EMPTY. -/
def State.batchStep (s : State) (c id : Nat) (m : Cmd) (wait : Bool) : State :=
  let b := (twOf m.i).batch.val
  if !m.lanes.all (fun p => (s.lane c p).batchIdle b) || !s.canInc c m then s
  else
    let s := if wait then eachLane m.lanes (fun p s => s.modLane c p fun l => { l with batch := l.batch.setIfInBounds b (.empty, []) }) s
      else s
    s.cmdFinish c id m []

end Sys2Proof.Machine
end

