-- ==== Sys2Proof/Machine/CrossLane.lean ====
section
/-!
DEFINITION. Sys2Proof/Machine/CrossLane.lean: the cross-lane instructions (R187 to R196).
-/
namespace Sys2Proof.Machine

/-- XRead(f, j, n) (R188): operand f in source lane GBASE + j. -/
def Env.xread (e : Env) (s : State) (o : Operand) (j n : Nat) : Nat :=
  let p := e.x.gbase + j
  match o with
  | .lat _ => if e.cu.issuing.contains p then e.opnd s o p n else 0
  | _ => e.opnd s o p n

/-- XVal(f, j) (R188). -/
def Env.xval (e : Env) (s : State) (t : IntTy) (o : Operand) (j : Nat) : Int := tyVal t (e.xread s o j (tyOpWidth t))

/-- A shuffle (R190): the source index from the lane index, the count and W. -/
def shuffle (o : I2) (j : Nat → Nat → Nat → Nat) (e : Env) (s : State) : Res :=
  .done (e.lanesOut o.dst (tyOpWidth o.ty) (fun p =>
    tyRes o.ty (e.xval s o.ty o.a (j (p - e.x.gbase) (e.opnd s o.b p 32) e.x.gwid))) s)

/-- `xidx` (R190). -/
def execXidx (o : I2) (s : State) : Host.Outcome State Fault Refusal := execWord (.xidx o) (shuffle o fun _ k w => k % w) s
/-- `xup` (R190). -/
def execXup (o : I2) (s : State) : Host.Outcome State Fault Refusal :=
  execWord (.xup o) (shuffle o fun i k w => (i + (w - k % w)) % w) s
/-- `xdn` (R190). -/
def execXdn (o : I2) (s : State) : Host.Outcome State Fault Refusal :=
  execWord (.xdn o) (shuffle o fun i k w => (i + k) % w) s
/-- `xxor` (R190). -/
def execXxor (o : I2) (s : State) : Host.Outcome State Fault Refusal :=
  execWord (.xxor o) (shuffle o fun i k w => i ^^^ (k % w)) s

/-- `xbcast` (R191): a scalar destination is written once, and every latch of C holds the value. -/
def execXbcast (o : I2) (s : State) : Host.Outcome State Fault Refusal :=
  execWord (.xbcast o) (fun e s =>
    let w := tyOpWidth o.ty
    let x := tyRes o.ty (e.xval s o.ty o.a (e.opnd s o.b e.low 32 % e.x.gwid))
    match o.dst with
    | some (.s d) => .done (eachLane e.lanes (fun p t => e.setLatch t p x) (s.setS e.c e.g d.val (w / 32) x))
    | _ => .done (e.lanesOut o.dst w (fun _ => x) s)) s

/-- a(m) of R192: the source in a lane of C. -/
def Env.voteSrc (e : Env) (s : State) (a : PSrc) (p : Nat) : Nat := e.psrc s a p

/-- The mask of `ballot` (R192). -/
def Env.ballotMask (e : Env) (s : State) (a : PSrc) : Nat :=
  e.lanes.foldl (fun m p => if e.voteSrc s a p ≠ 0 then m + 2 ^ (p - e.x.gbase) else m) 0

/-- `ballot` (R192). -/
def execBallot (p : Pfx) (dst : Option Operand) (a : PSrc) (s : State) : Host.Outcome State Fault Refusal :=
  execWord (.ballot p dst a) (fun e s =>
    let m := e.ballotMask s a
    let s := match dst with
      | some (.s d) => s.setS e.c e.g d.val (max 1 (e.x.gwid / 32)) m
      | _ => s
    .done (eachLane e.lanes (fun l t => e.setLatch t l (fld m (32 * ((l - e.x.gbase) / 32)) 32)) s)) s

/-- The value of a vote (R193). -/
def voteVal (k : Vote) (xs : List Nat) : Bool :=
  match k with
  | .any => xs.any (· != 0)
  | .all => xs.all (· != 0)
  | .eq => xs.all (· == xs.headD 0)

/-- `vote.any`, `vote.all`, `vote.eq` (R193). -/
def execVote (p : Pfx) (k : Vote) (dst : Option (Fin 8)) (a : PSrc) (s : State) : Host.Outcome State Fault Refusal :=
  execWord (.vote p k dst a) (fun e s =>
    let b := voteVal k (e.lanes.map (e.voteSrc s a))
    .done (e.predOut dst (fun _ => b) s)) s

/-- `popm` (R194). -/
def execPopm (p : Pfx) (dst : Option Operand) (a : PSrc) (s : State) : Host.Outcome State Fault Refusal :=
  execWord (.popm p dst a) (fun e s =>
    let hit := e.lanes.filter fun l => e.voteSrc s a l != 0
    match dst with
    | some (.s d) => .done (eachLane e.lanes (fun l t => e.setLatch t l hit.length) (s.setS e.c e.g d.val 1 hit.length))
    | _ => .done (e.lanesOut dst 32 (fun l => (hit.filter (· < l)).length) s)) s

/-- A fold result in flight (R195): raises the slot and records the writes for the time of R189. -/
def foldIssue (sb : Fin 8) (ty : IntTy) (d : Operand) (once : Bool) (x : Nat → Int) (e : Env) (s : State) : Res :=
  if 63 ≤ e.x.sbCount sb.val then .wait s .instr
  else
    let k := tyOpWidth ty / 32
    let (id, s) := s.fresh e.c
    let r : Result := {
      ctx := e.g, slot := sb.val, divide := false, gst := 0,
      left := match d with
        | .v i => e.lanes.flatMap fun p => (regWords k (tyRes ty (x p))).map fun w => .vec p (i.val + w.1) w.2
        | .s i => if once then (regWords k (tyRes ty (x e.low))).map fun w => .sca (i.val + w.1) w.2 else []
        | _ => [] }
    .done ((s.modCore e.c fun q => { q with results := tabSet q.results id r }).sbIssue e.c e.g sb.val)

/-- ⊕ over the source values of lanes (R195). -/
def Env.foldOver (e : Env) (s : State) (op : FoldOp) (ty : IntTy) (a : Operand) (ps : List Nat) : Int :=
  ps.foldl (fun acc p => foldInt op ty acc (e.xval s ty a (p - e.x.gbase))) (foldUnit op ty)

/-- `xred` (R195). -/
def execXred (p : Pfx) (op : FoldOp) (ty : IntTy) (d a : Operand) (sb : Fin 8) (s : State) : Host.Outcome State Fault Refusal :=
  execWord (.xred p op ty d a sb) (fun e s =>
    let r := e.foldOver s op ty a e.lanes
    foldIssue sb ty d true (fun _ => r) e s) s

/-- `xscan` (R195). -/
def execXscan (p : Pfx) (inclusive : Bool) (op : FoldOp) (ty : IntTy) (d a : Operand) (sb : Fin 8) (s : State) :
    Host.Outcome State Fault Refusal :=
  execWord (.xscan p inclusive op ty d a sb) (fun e s =>
    foldIssue sb ty d false (fun l =>
      e.foldOver s op ty a (e.lanes.filter fun m => if inclusive then m ≤ l else m < l)) e s) s

end Sys2Proof.Machine
end

