-- ==== Sys2Proof/Machine/Float.lean ====
section
/-!
DEFINITION. Sys2Proof/Machine/Float.lean: the float instructions (R166 to R181), `rng` (R184), and the completion of the
divide units (R175).
-/
namespace Sys2Proof.Machine

/-- A value operand of format F (fv of R166). -/
def Env.fv (e : Env) (s : State) (f : Fmt) (o : Operand) (p : Nat) : FVal := fval f (e.fopnd s f o p)

/-- A float form of one source. -/
def flt1 (o : F1) (f : FVal → Nat → Nat × Flags) (e : Env) (s : State) : Res :=
  .done (e.floatOut o.dst (fW o.f) o.m (fun p u => f (e.fv s o.f o.a p) u) s)

/-- A float form of two sources. -/
def flt2 (o : F2) (f : FVal → FVal → Nat → Nat × Flags) (e : Env) (s : State) : Res :=
  .done (e.floatOut o.dst (fW o.f) o.m (fun p u => f (e.fv s o.f o.a p) (e.fv s o.f o.b p) u) s)

/-- `fmin` and `fmax`: the codes themselves (R170). -/
def fltMinMax (o : F2) (isMax : Bool) (e : Env) (s : State) : Res :=
  .done (e.floatOut o.dst (fW o.f) .rne (fun p _ => minMaxVal o.f isMax (e.fopnd s o.f o.a p) (e.fopnd s o.f o.b p)) s)

/-- A function of R176 at the group's FTV (R84). -/
def fltFn (o : F1) (k : FnKind) (e : Env) (s : State) : Res :=
  flt1 o (fnVal e.x.ftv.toNat k o.f o.m) e s

/-- A scoreboarded form (R174): results, flags and draws are fixed at issue, and written at completion (R175). -/
def fltDivide (o : FS1) (f : Nat → Nat → Nat × Flags) (e : Env) (s : State) : Res :=
  if 63 ≤ e.x.sbCount o.sb.val then .wait s .instr
  else
    let (s, rs) := e.runLanes.foldl (fun (a : State × List (Nat × Nat × Flags)) p =>
      let (u, t) := e.stoch o.m p a.1
      let (c, fl) := f p u
      (t, a.2 ++ [(p, c, fl)])) (s, [])
    let k := fW o.f / 32
    let (id, s) := s.fresh e.c
    let r : Result := {
      ctx := e.g, slot := o.sb.val, divide := true, gst := (flagsAll (rs.map (·.2.2))).gst,
      left := match o.dst with
        | .v i => rs.flatMap fun q => (regWords k q.2.1).map fun w => .vec q.1 (i.val + w.1) w.2
        | .s i => rs.flatMap fun q => (regWords k q.2.1).map fun w => .sca (i.val + w.1) w.2
        | _ => [] }
    .done ((s.modCore e.c fun q => { q with results := tabSet q.results id r }).sbIssue e.c e.g o.sb.val)

/-- The register writes of a scoreboarded result that the mask `regs` names take place; with the last one its flags are set and
its slot is lowered (R41, R42, R75). -/
def State.completeResult (s : State) (c id : Nat) (r : Result) (regs : Nat) : State :=
  let s := (maskPick regs true r.left).foldl (fun s w => s.putReg c r.ctx w) s
  let rest := maskPick regs false r.left
  if rest.isEmpty then
    ((s.modCore c fun q => { q with results := tabDel q.results id }).orGst c r.ctx r.gst).sbDone c r.ctx r.slot
  else s.modCore c fun q => { q with results := tabSet q.results id { r with left := rest } }

/-- DIVIDE_UNIT_COMPLETION (R175). -/
def execDivideUnitCompletion (core : Nat) (p : Portion) (s : State) : Host.Outcome State Fault Refusal :=
  match tabGet? (s.core core).results p.id with
  | some r => if r.divide then .next (s.completeResult core p.id r p.mask) else .next s
  | none => .next s

/-- REDUCTION_COMPLETION (R189). -/
def execReductionCompletion (core : Nat) (p : Portion) (s : State) : Host.Outcome State Fault Refusal :=
  match tabGet? (s.core core).results p.id with
  | some r => if r.divide then .next s else .next (s.completeResult core p.id r p.mask)
  | none => .next s

/-- `fadd` (R168). -/
def execFadd (o : F2) (s : State) : Host.Outcome State Fault Refusal := execWord (.fadd o) (flt2 o (addVal o.f o.m)) s
/-- `fsub` (R168). -/
def execFsub (o : F2) (s : State) : Host.Outcome State Fault Refusal := execWord (.fsub o) (flt2 o (fun a b u => addVal o.f o.m a b.neg u)) s
/-- `fmul` (R168). -/
def execFmul (o : F2) (s : State) : Host.Outcome State Fault Refusal := execWord (.fmul o) (flt2 o (mulVal o.f o.m)) s
/-- `ffma` (R168): one rounding. -/
def execFfma (o : F3) (s : State) : Host.Outcome State Fault Refusal :=
  execWord (.ffma o) (fun e s =>
    .done (e.floatOut o.dst (fW o.f) o.m (fun p u => fmaVal o.f o.m (e.fv s o.f o.a p) (e.fv s o.f o.b p) (e.fv s o.f o.c p) u) s)) s
/-- `fmin` (R170). -/
def execFmin (o : F2) (s : State) : Host.Outcome State Fault Refusal := execWord (.fmin o) (fltMinMax o false) s
/-- `fmax` (R170). -/
def execFmax (o : F2) (s : State) : Host.Outcome State Fault Refusal := execWord (.fmax o) (fltMinMax o true) s
/-- `fclass` (R172): one 32-bit register, no flag. -/
def execFclass (o : F1) (s : State) : Host.Outcome State Fault Refusal :=
  execWord (.fclass o) (fun e s => .done (e.lanesOut o.dst 32 (fun p => fclassVal o.f (e.fopnd s o.f o.a p)) s)) s
/-- `fround` (R171). -/
def execFround (o : F1) (s : State) : Host.Outcome State Fault Refusal :=
  execWord (.fround o) (flt1 o (froundVal o.f o.m)) s
/-- `fscale` (R171): the count is an integer operand. -/
def execFscale (o : F2) (s : State) : Host.Outcome State Fault Refusal :=
  execWord (.fscale o) (fun e s =>
    .done (e.floatOut o.dst (fW o.f) o.m (fun p u => fscaleVal o.f o.m (e.fv s o.f o.a p) (sext (e.opnd s o.b p 32) 32) u) s)) s
/-- `frcp` (R174). -/
def execFrcp (o : FS1) (s : State) : Host.Outcome State Fault Refusal :=
  execWord (.frcp o) (fun e s => fltDivide o (fun p u => rcpVal o.f o.m (e.fv s o.f o.a p) u) e s) s
/-- `frsq` (R174). -/
def execFrsq (o : FS1) (s : State) : Host.Outcome State Fault Refusal :=
  execWord (.frsq o) (fun e s => fltDivide o (fun p u => rsqVal o.f o.m (e.fv s o.f o.a p) u) e s) s
/-- `fsqrt` (R174). -/
def execFsqrt (o : FS1) (s : State) : Host.Outcome State Fault Refusal :=
  execWord (.fsqrt o) (fun e s => fltDivide o (fun p u => sqrtVal o.f o.m (e.fv s o.f o.a p) u) e s) s
/-- `fdiv` (R174). -/
def execFdiv (o : FS1) (b : Operand) (s : State) : Host.Outcome State Fault Refusal :=
  execWord (.fdiv o b) (fun e s => fltDivide o (fun p u => divVal o.f o.m (e.fv s o.f o.a p) (e.fv s o.f b p) u) e s) s
/-- `fexp2` (R176). -/
def execFexp2 (o : F1) (s : State) : Host.Outcome State Fault Refusal := execWord (.fexp2 o) (fltFn o .exp2) s
/-- `flog2` (R176). -/
def execFlog2 (o : F1) (s : State) : Host.Outcome State Fault Refusal := execWord (.flog2 o) (fltFn o .log2) s
/-- `fsin` (R176). -/
def execFsin (o : F1) (s : State) : Host.Outcome State Fault Refusal := execWord (.fsin o) (fltFn o .sin) s
/-- `fcos` (R176). -/
def execFcos (o : F1) (s : State) : Host.Outcome State Fault Refusal := execWord (.fcos o) (fltFn o .cos) s
/-- `ftanh` (R176). -/
def execFtanh (o : F1) (s : State) : Host.Outcome State Fault Refusal := execWord (.ftanh o) (fltFn o .tanh) s
/-- `ferf` (R176). -/
def execFerf (o : F1) (s : State) : Host.Outcome State Fault Refusal := execWord (.ferf o) (fltFn o .erf) s
/-- `fsig` (R176). -/
def execFsig (o : F1) (s : State) : Host.Outcome State Fault Refusal := execWord (.fsig o) (fltFn o .sig) s

/-- Element `i` of width `w` of a packed register. -/
def packed (x w i : Nat) : Nat := fld x (w * i) w

/-- A packed dot product (R181); literals in a and b are raw bits, c is an .f32 value (R32). -/
def fltDot (o : F3) (w n : Nat) (e : Env) (s : State) : Res :=
  .done (e.floatOut o.dst 32 .rne (fun p _ =>
    let a := e.opnd s o.a p 32
    let b := e.opnd s o.b p 32
    groupedDot o.f (e.fopnd s .f32 o.c p) ((natRange 0 n).map (packed a w)) ((natRange 0 n).map (packed b w))) s)

/-- `fdot2` (R181). -/
def execFdot2 (o : F3) (s : State) : Host.Outcome State Fault Refusal := execWord (.fdot2 o) (fltDot o 16 2) s
/-- `fdot4` (R181). -/
def execFdot4 (o : F3) (s : State) : Host.Outcome State Fault Refusal := execWord (.fdot4 o) (fltDot o 8 4) s

/-- The element format and width of a narrow pack format (R179). -/
def packFmt : PackFmt → Fmt × Nat
  | .f16 => (.f16, 16)
  | .bf16 => (.bf16, 16)
  | .e4m3 => (.e4m3, 8)
  | .e5m2 => (.e5m2, 8)
  | .mk8 => (.mk8, 8)
  | .bx16 => (.f32, 16)
  | .bx24 => (.f32, 24)

/-- `fpack` of two values (R179): the draw of a comes before that of b. -/
def packNarrow (f : PackFmt) (m : Rnd) (dst : Option Operand) (a : Operand) (b c : Option Operand) (e : Env) (s : State) : Res :=
  let (g, w) := packFmt f
  let (t, fl) := e.runLanes.foldl (fun (acc : State × Flags) p =>
    let (u1, t) := e.stoch m p acc.1
    let (u2, t) := e.stoch m p t
    let (ca, fa) := cvtFF g m (e.fv s .f32 a p) u1
    let (cb, fb) := cvtFF g m (e.fv s .f32 (b.getD (.lit 0)) p) u2
    let hi := match c with | some x => e.opnd s x p 32 % 2 ^ 16 | none => 0
    (e.write dst p 32 (ca + cb * 2 ^ w + hi * 2 ^ 16) t, flagsOr acc.2 (flagsOr fa fb))) (s, noFlags)
  .done (t.orGst e.c e.g fl.gst)

/-- `fpack` into a block (R180): the lanes of each block set share an exponent. -/
def packBlock (w : Nat) (m : Rnd) (dst : Option Operand) (a : Operand) (e : Env) (s : State) : Res :=
  let sets := (natRange 0 8).map fun q => e.lanes.filter fun p => (p - e.x.gbase) / 32 == q
  let (t, fl) := sets.foldl (fun (acc : State × Flags) ps =>
    if ps.isEmpty then acc
    else
      let (us, t) := ps.foldl (fun (b : List Nat × State) p => let (u, t) := e.stoch m p b.2; (b.1 ++ [u], t)) ([], acc.1)
      let (x, ms, fl) := blockPack w m (ps.map fun p => e.fv s .f32 a p) us
      let t := (ps.zip ms).foldl (fun t q => e.write dst q.1 64 (wrap q.2 32 + x * 2 ^ 32) t) t
      (t, flagsOr acc.2 fl)) (s, noFlags)
  .done (t.orGst e.c e.g fl.gst)

/-- `fpack` (R179, R180). -/
def execFpack (p : Pfx) (f : PackFmt) (m : Rnd) (dst : Option Operand) (a : Operand) (b c : Option Operand) (s : State) :
    Host.Outcome State Fault Refusal :=
  execWord (.fpack p f m dst a b c) (fun e s =>
    match f with
    | .bx16 => packBlock 16 m dst a e s
    | .bx24 => packBlock 24 m dst a e s
    | _ => packNarrow f m dst a b c e s) s

/-- `funpack` of one register (R179, R180). -/
def unpackVal (f : PackFmt) (a b : Nat) : Nat × Flags :=
  match f with
  | .bx16 => (blockF32 (b % 256) (sext a 16) 16, noFlags)
  | .bx24 => (blockF32 (b % 256) (sext a 24) 24, noFlags)
  | _ =>
    let (g, w) := packFmt f
    cvtFF .f32 .rne (fval g (packed a w (if w = 16 then b % 2 else b % 4))) 0

/-- `funpack` (R179, R180). -/
def execFunpack (p : Pfx) (f : PackFmt) (dst : Option Operand) (a b : Operand) (s : State) :
    Host.Outcome State Fault Refusal :=
  execWord (.funpack p f dst a b) (fun e s =>
    .done (e.floatOut dst 32 .rne (fun l _ => unpackVal f (e.opnd s a l 32) (e.opnd s b l 32)) s)) s

/-- `fcmp` (R173). -/
def execFcmp (p : Pfx) (c : Cmp) (f : Fmt) (dst : Option (Fin 8)) (a b : Operand) (s : State) :
    Host.Outcome State Fault Refusal :=
  execWord (.fcmp p c f dst a b) (fun e s =>
    let r (l : Nat) := fcmpVal c (e.fv s f a l) (e.fv s f b l)
    let fl := flagsAll (e.runLanes.map fun l => (r l).2)
    .done ((e.predOut dst (fun l => (r l).1) s).orGst e.c e.g fl.gst)) s

/-- `fcvt.<d>.<s>` (R177). -/
def execFcvt (src : Fmt) (o : F1) (s : State) : Host.Outcome State Fault Refusal :=
  execWord (.fcvt src o) (fun e s =>
    .done (e.floatOut o.dst (fW o.f) o.m (fun p u => cvtFF o.f o.m (e.fv s src o.a p) u) s)) s

/-- `ftoi` (R178). -/
def execFtoi (ty : IntTy) (o : F1) (s : State) : Host.Outcome State Fault Refusal :=
  execWord (.ftoi ty o) (fun e s =>
    .done (e.floatOut o.dst (tyOpWidth ty) o.m (fun p u =>
      let (n, fl) := cvtFI ty o.m (e.fv s o.f o.a p) u
      (tyRes ty n, fl)) s)) s

/-- `itof` (R178): the source is an integer operand. -/
def execItof (ty : IntTy) (o : F1) (s : State) : Host.Outcome State Fault Refusal :=
  execWord (.itof ty o) (fun e s =>
    .done (e.floatOut o.dst (fW o.f) o.m (fun p u => cvtIF o.f o.m (tyVal ty (e.opnd s o.a p (tyOpWidth ty))) u) s)) s

/-- `rng` (R184). -/
def execRng (p : Pfx) (f32 : Bool) (dst : Option Operand) (a : Operand) (s : State) : Host.Outcome State Fault Refusal :=
  execWord (.rng p f32 dst a) (fun e s =>
    .done (e.lanes.foldl (fun t l =>
      let (u, t) := e.nextDraw l (e.opnd s a l 32) t
      let x := if f32 then (roundFmt .f32 false ⟨u / 2 ^ 8, -24, false⟩ .rne 0).1 else u
      e.write dst l 32 x t) s)) s

end Sys2Proof.Machine
end

