-- ==== Sys2Proof/Machine/Integer.lean ====
section
/-!
DEFINITION. Sys2Proof/Machine/Integer.lean: the integer and predicate instructions (R150 to R164).
-/
namespace Sys2Proof.Machine

/-- A result of one source at max(w, 32) bits. -/
def int1 (o : I1) (f : IntTy → Nat → Nat) (e : Env) (s : State) : Res :=
  .done (e.lanesOut o.dst (tyOpWidth o.ty) (fun p => f o.ty (e.opnd s o.a p (tyOpWidth o.ty))) s)

/-- A result of two sources of the type's width. -/
def int2 (o : I2) (f : IntTy → Nat → Nat → Nat) (e : Env) (s : State) : Res :=
  let w := tyOpWidth o.ty
  .done (e.lanesOut o.dst w (fun p => f o.ty (e.opnd s o.a p w) (e.opnd s o.b p w)) s)

/-- A result of a value and a 32-bit count or control (cnt of R150). -/
def intCnt (o : I2) (f : IntTy → Nat → Nat → Nat) (e : Env) (s : State) : Res :=
  let w := tyOpWidth o.ty
  .done (e.lanesOut o.dst w (fun p => f o.ty (e.opnd s o.a p w) (e.opnd s o.b p 32)) s)

/-- A result of two values and a 32-bit third source (`bfi`, `sel`). -/
def int3Cnt (o : I3) (f : IntTy → Nat → Nat → Nat → Nat) (e : Env) (s : State) : Res :=
  let w := tyOpWidth o.ty
  .done (e.lanesOut o.dst w (fun p => f o.ty (e.opnd s o.a p w) (e.opnd s o.b p w) (e.opnd s o.c p 32)) s)

/-- `addc` and `subb` (R154): a pair or a quad. -/
def intCarry (o : I3) (f : IntTy → Nat → Nat → Nat → Nat) (e : Env) (s : State) : Res :=
  let w := tyOpWidth o.ty
  .done (e.lanesOut o.dst (2 * w) (fun p => f o.ty (e.opnd s o.a p w) (e.opnd s o.b p w) (e.opnd s o.c p 32)) s)

/-- A count: always one 32-bit register (R158). -/
def intCount (o : I1) (f : IntTy → Nat → Nat) (e : Env) (s : State) : Res :=
  .done (e.lanesOut o.dst 32 (fun p => f o.ty (e.opnd s o.a p (tyOpWidth o.ty))) s)

/-- The predicate family of two sources (R164); a clause that runs once reads the lowest lane (R151). -/
def pred2 (o : P2) (f : Bool → Bool → Bool) (e : Env) (s : State) : Res :=
  .done (e.predOut o.dst (fun p => f (predGet (s.lane e.c p) o.a.val) (predGet (s.lane e.c p) o.b.val)) s)

/-- `mov` (R159). -/
def execMov (o : I1) (s : State) : Host.Outcome State Fault Refusal := execWord (.mov o) (int1 o fnMov) s
/-- `neg` (R153). -/
def execNeg (o : I1) (s : State) : Host.Outcome State Fault Refusal := execWord (.neg o) (int1 o fnNeg) s
/-- `abs` (R153). -/
def execAbs (o : I1) (s : State) : Host.Outcome State Fault Refusal := execWord (.abs o) (int1 o fnAbs) s
/-- `not` (R155). -/
def execNot (o : I1) (s : State) : Host.Outcome State Fault Refusal := execWord (.not o) (int1 o fnNot) s
/-- `brev` (R158). -/
def execBrev (o : I1) (s : State) : Host.Outcome State Fault Refusal := execWord (.brev o) (int1 o fnBrev) s
/-- `add` (R153). -/
def execAdd (o : I2) (s : State) : Host.Outcome State Fault Refusal := execWord (.add o) (int2 o fnAdd) s
/-- `sub` (R153). -/
def execSub (o : I2) (s : State) : Host.Outcome State Fault Refusal := execWord (.sub o) (int2 o fnSub) s
/-- `min` (R153). -/
def execMin (o : I2) (s : State) : Host.Outcome State Fault Refusal := execWord (.min o) (int2 o fnMin) s
/-- `max` (R153). -/
def execMax (o : I2) (s : State) : Host.Outcome State Fault Refusal := execWord (.max o) (int2 o fnMax) s
/-- `mul` (R153). -/
def execMul (o : I2) (s : State) : Host.Outcome State Fault Refusal := execWord (.mul o) (int2 o fnMul) s
/-- `mulh` (R153). -/
def execMulh (o : I2) (s : State) : Host.Outcome State Fault Refusal := execWord (.mulh o) (int2 o fnMulh) s
/-- `and` (R155). -/
def execAnd (o : I2) (s : State) : Host.Outcome State Fault Refusal := execWord (.and o) (int2 o fnAnd) s
/-- `or` (R155). -/
def execOr (o : I2) (s : State) : Host.Outcome State Fault Refusal := execWord (.or o) (int2 o fnOr) s
/-- `xor` (R155). -/
def execXor (o : I2) (s : State) : Host.Outcome State Fault Refusal := execWord (.xor o) (int2 o fnXor) s
/-- `andn` (R155). -/
def execAndn (o : I2) (s : State) : Host.Outcome State Fault Refusal := execWord (.andn o) (int2 o fnAndn) s
/-- `shl` (R156). -/
def execShl (o : I2) (s : State) : Host.Outcome State Fault Refusal := execWord (.shl o) (intCnt o fnShl) s
/-- `shr` (R156). -/
def execShr (o : I2) (s : State) : Host.Outcome State Fault Refusal := execWord (.shr o) (intCnt o fnShr) s
/-- `sar` (R156). -/
def execSar (o : I2) (s : State) : Host.Outcome State Fault Refusal := execWord (.sar o) (intCnt o fnSar) s
/-- `rol` (R156). -/
def execRol (o : I2) (s : State) : Host.Outcome State Fault Refusal := execWord (.rol o) (intCnt o fnRol) s
/-- `bfx` (R157). -/
def execBfx (o : I2) (s : State) : Host.Outcome State Fault Refusal := execWord (.bfx o) (intCnt o fnBfx) s
/-- `addc` (R154). -/
def execAddc (o : I3) (s : State) : Host.Outcome State Fault Refusal := execWord (.addc o) (intCarry o fnAddc) s
/-- `subb` (R154). -/
def execSubb (o : I3) (s : State) : Host.Outcome State Fault Refusal := execWord (.subb o) (intCarry o fnSubb) s
/-- `bfi` (R157). -/
def execBfi (o : I3) (s : State) : Host.Outcome State Fault Refusal := execWord (.bfi o) (int3Cnt o fnBfi) s
/-- `sel` (R159). -/
def execSel (o : I3) (s : State) : Host.Outcome State Fault Refusal := execWord (.sel o) (int3Cnt o fnSel) s
/-- `popc` (R158). -/
def execPopc (o : I1) (s : State) : Host.Outcome State Fault Refusal := execWord (.popc o) (intCount o fnPopc) s
/-- `clz` (R158). -/
def execClz (o : I1) (s : State) : Host.Outcome State Fault Refusal := execWord (.clz o) (intCount o fnClz) s
/-- `ctz` (R158). -/
def execCtz (o : I1) (s : State) : Host.Outcome State Fault Refusal := execWord (.ctz o) (intCount o fnCtz) s
/-- `mad` (R153): one wrap. -/
def execMad (o : I3) (s : State) : Host.Outcome State Fault Refusal :=
  execWord (.mad o) (fun e s =>
    let w := tyOpWidth o.ty
    .done (e.lanesOut o.dst w (fun p => fnMad o.ty (e.opnd s o.a p w) (e.opnd s o.b p w) (e.opnd s o.c p w)) s)) s
/-- `cvt.<d>.<s>` (R161). -/
def execCvt (src : IntTy) (o : I1) (s : State) : Host.Outcome State Fault Refusal :=
  execWord (.cvt src o) (fun e s =>
    .done (e.lanesOut o.dst (tyOpWidth o.ty) (fun p => fnCvt o.ty src (e.opnd s o.a p (tyOpWidth src))) s)) s
/-- `dp4` (R162). -/
def execDp4 (p : Pfx) (natural : Bool) (dst : Option Operand) (a b c : Operand) (s : State) : Host.Outcome State Fault Refusal :=
  execWord (.dp4 p natural dst a b c) (fun e s =>
    .done (e.lanesOut dst 32 (fun l => fnDp4 natural (e.opnd s a l 32) (e.opnd s b l 32) (e.opnd s c l 32)) s)) s
/-- The value of `movi` (R160). -/
def moviVal (k : MoviKind) (imm : BitVec 32) : Nat :=
  match k with
  | .b32 | .n64 => imm.toNat
  | .i64 => wrap (sext imm.toNat 32) 64
/-- `movi` (R160). -/
def execMovi (p : Pfx) (k : MoviKind) (dst : Option Operand) (imm : BitVec 32) (s : State) : Host.Outcome State Fault Refusal :=
  execWord (.movi p k dst imm) (fun e s =>
    .done (e.lanesOut dst (if k = .b32 then 32 else 64) (fun _ => moviVal k imm) s)) s
/-- `cmp` (R163). -/
def execCmp (p : Pfx) (c : Cmp) (ty : IntTy) (dst : Option (Fin 8)) (a b : Operand) (s : State) :
    Host.Outcome State Fault Refusal :=
  execWord (.cmp p c ty dst a b) (fun e s =>
    let w := tyOpWidth ty
    .done (e.predOut dst (fun l => cmpInt c (tyVal ty (e.opnd s a l w)) (tyVal ty (e.opnd s b l w))) s)) s
/-- `pand` (R164). -/
def execPand (o : P2) (s : State) : Host.Outcome State Fault Refusal := execWord (.pand o) (pred2 o (fun a b => a && b)) s
/-- `por` (R164). -/
def execPor (o : P2) (s : State) : Host.Outcome State Fault Refusal := execWord (.por o) (pred2 o (fun a b => a || b)) s
/-- `pxor` (R164). -/
def execPxor (o : P2) (s : State) : Host.Outcome State Fault Refusal := execWord (.pxor o) (pred2 o (fun a b => a != b)) s
/-- `pnot` (R164). -/
def execPnot (p : Pfx) (dst : Option (Fin 8)) (a : Fin 8) (s : State) : Host.Outcome State Fault Refusal :=
  execWord (.pnot p dst a) (fun e s => .done (e.predOut dst (fun l => !predGet (s.lane e.c l) a.val) s)) s

end Sys2Proof.Machine
end

