-- ==== Sys2Proof/Machine/Park.lean ====
section
/-!
DEFINITION. Sys2Proof/Machine/Park.lean: parking and unparking of teams (R28, R125, R126, R271, R395), and the admission of
new teams (R119, R122).
-/
namespace Sys2Proof.Machine

/-! ### Moving groups -/

/-- One group that moves: old and new context, old and new base, width. -/
structure Move where
  from_ : Nat
  dest : Nat
  old : Nat
  new : Nat
  wid : Nat
  deriving DecidableEq, Repr

/-- The context of a group after a move. -/
def moveCtx (ms : List Move) (g : Nat) : Nat := (ms.find? (·.from_ == g)).elim g (·.dest)
/-- A lane position after a move. -/
def movePos (ms : List Move) (p : Nat) : Nat := (ms.find? fun m => m.old ≤ p && p < m.old + m.wid).elim p fun m => m.new + (p - m.old)

/-- Moves a deferred trap. -/
def Deferred.move (d : Deferred) (ms : List Move) : Deferred :=
  { d with lanes := d.lanes.map (movePos ms), info := List.map (fun q => (movePos ms q.1, q.2)) d.info,
           lats := List.map (fun q => (movePos ms q.1, q.2)) d.lats }

/-- Moves a group: its base, and the lane positions it names. -/
def Group.move (x : Group) (ms : List Move) : Group :=
  { x with gbase := movePos ms x.gbase, deferred := x.deferred.map fun d => d.move ms,
           cur := x.cur.map fun u => { u with issuing := u.issuing.map (movePos ms), live := u.live.map (movePos ms) } }

/-- Moves an outstanding request. -/
def Pend.move (p : Pend) (ms : List Move) : Pend :=
  { p with ctx := moveCtx ms p.ctx, lanes := p.lanes.map (movePos ms),
           accs := p.accs.map fun a => { a with pos := movePos ms a.pos },
           lats := List.map (fun q => (movePos ms q.1, q.2)) p.lats }

/-- Moves groups of one team of a core, with everything that names their contexts or lane positions. -/
def State.moveGroups (s : State) (c j : Nat) (ms : List Move) : State :=
  let mine (g : Nat) : Bool := ms.any (·.from_ == g)
  let inside (p : Nat) : Bool := ms.any fun m => m.old ≤ p && p < m.old + m.wid
  let s := s.modCore c fun k =>
    let gs := k.groups.filter fun g => mine g.1
    let ls := k.lanes.filter fun l => inside l.1
    { k with
      groups := gs.foldl (fun t g => tabSet t (moveCtx ms g.1) (g.2.move ms)) (k.groups.filter fun g => !mine g.1),
      lanes := ls.foldl (fun t l => tabSet t (movePos ms l.1) l.2) (k.lanes.filter fun l => !inside l.1),
      pend := List.map (fun p => (p.1, if p.2.place = j then p.2.move ms else p.2)) k.pend,
      teams := List.map (fun t => (t.1, if t.1 = j then { t.2 with
        banks := List.map (fun b => (b.1, { b.2 with holder := movePos ms b.2.holder })) t.2.banks } else t.2)) k.teams }
  { s with
    mons := s.mons.map fun m => if m.core = c then { m with pos := movePos ms m.pos } else m,
    transit := s.transit.map fun t => if t.core = c ∧ mine t.ctx then
      { t with ctx := moveCtx ms t.ctx, acc := { t.acc with pos := movePos ms t.acc.pos } } else t }

/-- Where the groups of a parked team of place `j` stand: contexts from 512 and positions from 2 ^ 20, which no admission
takes. Under DETM a group keeps its offset in the team's aligned range (R122). -/
def parkMoves (j : Nat) (detm : Bool) (gs : List (Nat × Group)) : List Move :=
  ((natRange 0 gs.length).zip gs).map fun q =>
    { from_ := q.2.1, dest := 512 + 1024 * j + q.1, old := q.2.2.gbase, wid := q.2.2.gwid,
      new := if detm then 2 ^ 20 + 2 ^ 18 * j + q.2.2.gbase % 8192 else 2 ^ 20 + 2 ^ 18 * j + 256 * q.1 }

/-! ### Candidates (R28, R125, R271, R395) -/

/-- A request that only condition monitors or staged atomics hold, or a retired one of which nothing goes to the scratchpad. -/
def State.pendParks (s : State) (c : Nat) (p : Nat × Pend) : Bool :=
  if p.2.slot.isNone then !p.2.accs.any fun a => match a.tgt with | some (.scr _ _) => true | _ => false
  else !p.2.accs.isEmpty && (match p.2.kind with
    | .waitc _ _ => p.2.accs.all (·.st == 4)
    | _ => p.2.accs.all fun a => s.transit.any fun t => t.core == c && t.pend == some p.1 && t.acc.pos == a.pos)

/-- The group waits in a way that lets its team park. -/
def State.parkWaits (s : State) (c g : Nat) (x : Group) : Bool :=
  if x.state != .wait then false
  else match x.cur, x.blk with
    | some _, some .smwait | some _, some .stepadv | some _, some .bind => true
    | some _, _ => false
    | none, _ =>
      let live := s.liveLanes c x
      if (s.issuing c x).isNone then live.all fun p => (s.lane c p).hk != .none
      else match s.issuing c x with
        | none => false
        | some (base, _, ps) => match s.fetchClause (s.ctxOf c x) base with
          | .clause h _ =>
            let slots := (natRange 0 8).filter fun k => bitAt h (45 + k) && x.sbCount k != 0
            let held := !slots.isEmpty && slots.all fun k =>
              ((s.core c).pend.filter fun p => p.2.ctx == g && p.2.slot == some k).all fun p => s.pendParks c p
            !s.headerHolds c x h ps && (headerYield h || held)
          | _ => false

/-- A team that the core may park. -/
def State.parkable (s : State) (c j : Nat) (t : Team) : Bool :=
  let k := s.core c
  let gs := s.teamGroups c j
  t.state == .active && t.banks.isEmpty && !gs.isEmpty && !(k.cmds.any fun m => m.2.place == j) &&
    !(k.results.any fun r => gs.any (·.1 == r.2.ctx)) && !(k.log.any fun e => (tabGet? k.pend e.2.pend).any (·.place == j)) &&
    ((s.grid? t.grid).any fun g => g.cs == 1 && !g.gbar) &&
    (k.pend.all fun p => p.2.place != j || s.pendParks c p) && gs.all fun g => s.parkWaits c g.1 g.2

/-- A slot of a group is held by something other than a `waitc`. -/
def Core.stagedSlot (k : Core) (g : Nat) : Bool :=
  k.pend.any fun p => p.2.ctx == g && p.2.slot.isSome && (match p.2.kind with | .waitc _ _ => false | _ => true)

/-- The clock from which every group of the team has waited. -/
def State.waitedFrom (s : State) (c j : Nat) : Nat := (s.teamGroups c j).foldl (fun n g => max n g.2.since) 0

/-! ### Readiness to unpark (R125) -/

/-- A group of a parked team could issue now. -/
def State.couldIssue (s : State) (c : Nat) (x : Group) : Bool :=
  let free := s.liveLanes c x |>.any fun p => match tabGet? (s.core c).teams x.place with
    | some t => s.passes t (s.lane c p)
    | none => false
  free || match x.cur, x.blk with
    | some cu, some .smwait => match decodeNat (listGet 0 cu.words cu.k) 0 with
      | .ok (.smwait o) =>
        let e : Env := { c := c, g := 0, x := x, cu := cu, i := .smwait o, lanes := cu.live }
        (s.team? c x.place).any fun t => semHolds (t.semCount (e.opnd s o.k e.low 32)) (BitVec.ofNat 32 (e.opnd s o.a e.low 32))
      | _ => true
    | some _, some .stepadv => s.stepadvReady c x
    | some _, _ => true
    | none, _ => (s.dueTrap c x).isSome || match s.issuing c x with
      | none => false
      | some (base, _, ps) => match s.fetchClause (s.ctxOf c x) base with
        | .clause h _ => s.headerHolds c x h ps
        | _ => true

/-- Marks the parked teams of a core that have become ready (R125); those of a context that is not ACTIVE cannot return. -/
def State.refreshParked (s : State) (c : Nat) : State :=
  (s.core c).teams.foldl (fun s q =>
    if q.2.state != .parked then s
    else if (s.ctx q.2.ctx).state != .active then s.modTeam c q.1 fun t => { t with ready := none }
    else if q.2.ready.isNone && (s.teamGroups c q.1).any fun g => s.couldIssue c g.2 then
      s.modTeam c q.1 fun t => { t with ready := some s.clk.toNat }
    else s) s

/-- The room for a parked team to return to. -/
def State.parkRoom (s : State) (c j : Nat) (t : Team) : Option Room :=
  let gs := s.teamGroups c j
  let span := if (s.ctx t.ctx).detm then
      let al := (s.grid? t.grid).elim 1 fun g => pow2Up (g.groups * g.width)
      some (al, gs.map fun g => g.2.gbase % al)
    else none
  (s.core c).room (gs.map fun g => g.2.gwid) span t.size

/-- The ready parked team that returns next: the highest priority, then the longest ready. -/
def Core.nextReady (k : Core) : Option (Nat × Team) :=
  (k.teams.filter fun t => t.2.state == .parked && t.2.ready.isSome).foldl (fun m t => match m with
    | none => some t
    | some q => if q.2.prio < t.2.prio || (q.2.prio == t.2.prio && t.2.ready.getD 0 < q.2.ready.getD 0) then some t else m) none

/-- An admission or an unpark on the core lacks resources (R125). -/
def State.lacksRoom (s : State) (c : Nat) : Bool :=
  let ck := c / 24 * 4 + (c % 24 % 6 / 3 + 2 * (c % 24 / 6 / 2))
  let new := (s.bestRange (s.cluR ck)).any fun r => (s.grid? r.grid).any fun g => (s.roomFor c g).isNone
  let big := (s.bestRange ((s.dieR (c / 24)).filter fun r => (s.grid? r.grid).any fun g => g.cs != 1)).any fun r =>
    (s.grid? r.grid).any fun g => (s.roomFor c g).isNone
  let back := (s.core c).nextReady.any fun t => (s.parkRoom c t.1 t.2).isNone
  new || big || back

/-! ### Parking and unparking (R125, R126) -/

/-- Writes a team to its park slot (R126). -/
def State.writePark (s : State) (c j : Nat) (t : Team) (vregs : Nat) : State :=
  let b := parkSlot c j
  let gs := s.teamGroups c j
  let put (s : State) (a : Nat) (bs : List Byte) : State := { s with mem := s.mem.write a bs }
  let s := put s (b + 0x200000) ((s.core c).scratch.read t.base t.size)
  let s := ((natRange 0 gs.length).zip gs).foldl (fun s q => put s (b + 0xA00000 + 1152 * q.1) (s.groupBytes c q.2.2)) s
  gs.foldl (fun s g => g.2.positions.foldl (fun s p => match tabGet? (s.core c).lanes p with
    | none => s
    | some l =>
      let s := put s (b + 0x600000 + 128 * l.rln) l.bytes
      put s (b + 256 * l.rln) (((natRange 0 vregs).map fun i => leBytes 4 (regGet l.v i).toNat).flatten)) s) s

/-- TEAM_PARK (R125): the candidate whose groups have all waited longest is parked. -/
def execTeamPark (c : Nat) (s : State) : Host.Outcome State Fault Refusal :=
  let s := s.refreshParked c
  if !s.lacksRoom c || s.expo.stopped then .next s
  else
    let cand := ((s.core c).teams.filter fun t => s.parkable c t.1 t.2).foldl (fun (m : Option (Nat × Team)) t => match m with
      | none => some t
      | some q => if s.waitedFrom c t.1 < s.waitedFrom c q.1 then some t else m) none
    match cand with
    | none => .next s
    | some (j, t) =>
      let s := s.writePark c j t ((s.grid? t.grid).elim 64 (·.vregs))
      let s := s.modCore c fun k => k.clearScratch t.base t.size
      let s := (s.core c).groups.foldl (fun s g => if g.2.place = j then s.modGroup c g.1 fun r =>
          -- a slot that staged atomics hold is no wait for the watch before the team is parked (R273)
          { r with state := .parked, since := if (s.core c).stagedSlot g.1 then s.clk.toNat else r.since } else s) s
      let s := s.moveGroups c j (parkMoves j (s.ctx t.ctx).detm (s.teamGroups c j))
      .next ((s.modTeam c j fun t => { t with state := .parked, ready := none }).fuseRecheck c)

/-- TEAM_UNPARK (R125): a ready parked team returns to its core when its resources are free, unless another ready team
goes first; it takes nothing of the capacity that a placed grid was counted (R121). -/
def execTeamUnpark (c j : Nat) (s : State) : Host.Outcome State Fault Refusal :=
  let s := s.refreshParked c
  match s.team? c j with
  | none => .next s
  | some t =>
    if t.state != .parked || s.expo.stopped || (s.core c).nextReady.all (·.1 != j) ||
        (s.ctx t.ctx).state != .active || s.reserved t.grid then .next s
    else match s.parkRoom c j t with
      | none => .next s
      | some r =>
        let gs := s.teamGroups c j
        let ms := (gs.zip (r.gctx.zip r.bases)).map fun q =>
          ({ from_ := q.1.1, dest := q.2.1, old := q.1.2.gbase, new := q.2.2, wid := q.1.2.gwid } : Move)
        let scr := s.mem.read (parkSlot c j + 0x200000) t.size
        let s := s.moveGroups c j ms
        let s := s.scrWrite c ((natRange r.scr t.size).zip scr)
        let s := (s.core c).groups.foldl (fun s g => if g.2.place = j then s.modGroup c g.1 fun r => { r with state := .wait } else s) s
        .next (((s.modTeam c j fun t => { t with state := .active, ready := none, base := r.scr }).finishWaits c (·.place == j)).fuseRecheck c)

/-! ### Admission (R122) -/

/-- TEAM_ADMISSION (R119, R122): the core admits the next team of its cluster distributor, or its die places the next
cluster with this core as its corner. DESIGN CHOICE (log entry 64): the cluster distributor comes first, whatever the priority of
the die's next cluster; the rules give no order between the two. A placed GBAR grid takes the capacity it was counted, so no
ready PARKED team goes ahead of its teams. -/
def execTeamAdmission (c : Nat) (s : State) : Host.Outcome State Fault Refusal :=
  let die := c / 24
  let ck := die * 4 + (c % 24 % 6 / 3 + 2 * (c % 24 / 6 / 2))
  if 576 ≤ c || s.expo.stopped || s.life != .run then .next s
  else
    let s := s.refreshParked c
    let ahead (r : Range) (g : Grid) (cs : List Nat) : Bool := s.reserved r.grid || (!g.gbar && cs.any fun q => (s.core q).readyAhead r.prio)
    let single : Option State := (s.bestRange (s.cluR ck)).bind fun r => (s.grid? r.grid).bind fun g =>
      if ahead r g [c] then none
      else (s.roomFor c g).map fun room =>
        ({ s with cluRanges := tabSet s.cluRanges ck (takeLow (s.cluR ck) r 1) } : State).admitTeam c r.grid r.lo r.prio room
    let cluster : Option State :=
      (s.bestRange ((s.dieR die).filter fun r => (s.grid? r.grid).any fun g => g.cs != 1)).bind fun r => (s.grid? r.grid).bind fun g =>
        (rectangle g c).bind fun cs =>
          let s := cs.foldl State.refreshParked s
          if ahead r g cs then none
          else ((s.rooms g cs).map fun rooms =>
            let s := { s with dieRanges := tabSet s.dieRanges die (takeLow (s.dieR die) r g.cs) }
            ((natRange 0 g.cs).zip rooms).foldl (fun s q => s.admitTeam q.2.1 r.grid (r.lo + q.1) r.prio q.2.2) s).filter (·.keepsRoom r.grid)
    .next ((single.orElse fun _ => cluster).getD s)

end Sys2Proof.Machine
end

