-- ==== Sys2Proof/Machine/Queue.lean ====
section
/-!
DEFINITION. Sys2Proof/Machine/Queue.lean: the queue cores (R99 to R112): the queue table, links, nodes, faults and queue
states.
-/
namespace Sys2Proof.Machine

/-! ### Queues as the walker holds them -/

def emptyQueue : Queue :=
  { desc := 0, ctx := 0, newDesc := 0, newCtx := 0, en := false, prio := 0, st := 0, cur := 0, busy := none, nowait := [],
    sig := 0 }
def emptyWalker : Walker :=
  { gen := 0, queues := Vector.replicate 32 emptyQueue, last := Vector.replicate 8 31, seenDie := 0 }

def State.walker (s : State) (d : Nat) : Walker := tabGet emptyWalker s.walkers d
def State.modWalker (s : State) (d : Nat) (f : Walker → Walker) : State := { s with walkers := tabSet s.walkers d (f (s.walker d)) }
def State.queue (s : State) (d q : Nat) : Queue := ((s.walker d).queues[q]?).getD emptyQueue
def State.modQueue (s : State) (d q : Nat) (f : Queue → Queue) : State :=
  s.modWalker d fun w => { w with queues := w.queues.setIfInBounds q (f ((w.queues[q]?).getD emptyQueue)) }

/-- The queue states (R111). -/
def qFree : Nat := 0
def qStopped : Nat := 1
def qIdle : Nat := 2
def qReady : Nat := 3
def qBusy : Nat := 4
def qFaulted : Nat := 5

/-- The fault codes (R110). -/
def qNode : Nat := 1
def qXlate : Nat := 2
def qTimeout : Nat := 3
def qLaunch : Nat := 4
def qPriv : Nat := 5
def qColl : Nat := 6
def qCtx : Nat := 7
def qExpose : Nat := 8

/-- The physical address of a die's queue table (R100). -/
def queueTable (d : Nat) : Nat := d * 2 ^ 37

/-- The walker writes a field of a queue's descriptor; a queue without one has none (R102, R111). -/
def State.descPut (s : State) (d q o n x : Nat) : State :=
  if (s.queue d q).desc = 0 then s else s.homePutRaw ((s.queue d q).desc + o) n x

/-- The walker writes CUR (R102). -/
def State.setCur (s : State) (d q a : Nat) : State :=
  (s.modQueue d q fun k => { k with cur := a }).descPut d q 0x48 8 a

/-- A queue changes its state: QSTAT shows it, and in STOPPED or FAULTED a held DESC or CTXID is taken (R101, R111). -/
def State.qTo (s : State) (d q st : Nat) : State :=
  let s := s.descPut d q 0x5C 4 st
  if st = qStopped ∨ st = qFaulted then
    let k := s.queue d q
    let s := s.modQueue d q fun k => { k with st := if k.newDesc = 0 then qFree else st, desc := k.newDesc, ctx := k.newCtx }
    if k.newDesc = k.desc then s else s.descPut d q 0x5C 4 st
  else s.modQueue d q fun k => { k with st := st }

/-- READY at CUR, which is read from the descriptor (R111). -/
def State.resume (s : State) (d q : Nat) : State :=
  let a := s.homeRead ((s.queue d q).desc + 0x48) 8
  (s.modQueue d q fun k => { k with cur := a }).qTo d q qReady

/-- A BUSY queue with no node in progress is READY, or STOPPED once its NOWAIT nodes are complete (R111). -/
def State.settle (s : State) (d q : Nat) : State :=
  let k := s.queue d q
  if k.st != qBusy || k.busy.isSome then s
  else if k.en then s.qTo d q qReady
  else if k.nowait.isEmpty then s.qTo d q qStopped
  else s

/-! ### GEN_WAKE (R101, R111, R112) -/

/-- A field of an entry that disables it: a reserved bit (R101), or a DESC that is no multiple of 128 or is not backed. -/
def tableBad (desc w : Nat) : Bool :=
  fld w 32 32 != 0 || fld w 11 20 != 0 || fld w 6 2 != 0 || desc % 128 != 0 || noBack desc || 2 ^ 42 ≤ desc

/-- The walker reads one entry. -/
def State.readEntry (s : State) (d q : Nat) : State :=
  let desc := s.homeRead (queueTable d + 16 * q) 8
  let w := s.homeRead (queueTable d + 16 * q + 8) 8
  let en := bitAt w 31 && !tableBad desc w
  let s := s.modQueue d q fun k => { k with en := en, prio := fld w 8 3, newDesc := desc, newCtx := fld w 0 6 }
  let k := s.queue d q
  let take (s : State) : State := s.modQueue d q fun k => { k with desc := desc, ctx := fld w 0 6 }
  let free (s : State) : State := s.modQueue d q fun k => { k with desc := 0, ctx := fld w 0 6, st := qFree }
  if k.st = qFree then (if desc = 0 then s else if en then (take s).resume d q else (take s).qTo d q qStopped)
  else if k.st = qStopped then (if desc = 0 then free s else if en then (take s).resume d q else take s)
  else if k.st = qFaulted then
    if desc = 0 then free s
    else if !en then (take s).qTo d q qStopped
    else if s.homeRead (desc + 0x58) 1 = 0 then (take s).resume d q
    else take s
  else if en then s.settle d q
  else if k.st = qBusy then
    -- a pending WAIT is abandoned, and performed again after the queue is enabled
    (if k.busy.any (·.typ == 5) then s.modQueue d q fun k => { k with busy := none } else s).settle d q
  else s.qTo d q qStopped

/-- GEN_WAKE (R101): GEN differs from the value last read, and the walker rereads every entry. -/
def execGenWake (die : Nat) (s : State) : Host.Outcome State Fault Refusal :=
  let gen := s.homeRead (queueTable die + 0x200) 8
  if s.life != .run || 24 ≤ die || gen == (s.walker die).gen then .next s
  else .next ((natRange 0 32).foldl (fun s q => s.readEntry die q) (s.modWalker die fun w => { w with gen := gen }))

/-! ### Nodes (R105, R106) -/

/-- The eight words of a node. -/
def State.nodeWords (s : State) (a : Nat) : List Nat := (natRange 0 8).map fun i => s.homeRead (a + 8 * i) 8

/-- A node address that can be read. The spec names no fault for a node in a die from 24 up, in a firmware range or in the link
registers; the model reports it as `Q.NODE` (DESIGN CHOICE, log entry 55). -/
def nodeAddr (a : Nat) : Bool := a % 64 == 0 && decide (a < 2 ^ 42) && !noBack a && !inFirmware a && !inLinkRegs a

def nodeType (w : List Nat) : Nat := fld (listGet 0 w 0) 56 8
def nodeJoin (w : List Nat) : Bool := bitAt (listGet 0 w 0) 49
def nodeNowait (w : List Nat) : Bool := bitAt (listGet 0 w 0) 48
def nodeNext (w : List Nat) : Nat := fld (listGet 0 w 0) 0 42
def typeOk (t : Nat) : Bool := (1 ≤ t && t ≤ 8) || t == 15

/-- A link field that breaks R105. -/
def linkBad (x : Nat) : Bool := x == 0 || decide (2 ^ 42 ≤ x) || x % 64 != 0

/-- The address of a COND, WAIT or SIGNAL is on another path or misaligned (R109). -/
def addrBad (x : Nat) (w64 : Bool) : Bool := !flatOk x false || x % (if w64 then 8 else 4) != 0

/-- The body of a node breaks R105, R106 or R109. -/
def bodyBad (w : List Nat) : Bool :=
  let a := listGet 0 w 1
  let b := listGet 0 w 2
  let c := listGet 0 w 3
  let lo (x : Nat) : Bool := decide (2 ^ 32 ≤ x)
  match nodeType w with
  | 1 => linkBad a || b != 0 || c != 0
  | 2 => decide (2 ^ 40 ≤ c) || !flatOk a true || !flatOk b false ||
      decide (2 ^ 50 < a % 2 ^ 50 + c) || decide (2 ^ 50 < b % 2 ^ 50 + c) ||
      (c != 0 && decide (a % 2 ^ 50 < b % 2 ^ 50 + c) && decide (b % 2 ^ 50 < a % 2 ^ 50 + c))
  | 3 => addrBad a false || linkBad b || decide (2 ^ 34 ≤ c)
  | 4 => linkBad a || lo b || lo c
  | 5 => addrBad a (bitAt c 2) || (!bitAt c 2 && lo b) || fld c 3 29 != 0
  | 6 => addrBad a (bitAt c 2) || (!bitAt c 2 && lo b) || 2 ≤ fld c 0 2 || fld c 4 12 != 0 || fld c 27 37 != 0
  | 7 => fld a 6 2 != 0 || fld a 9 55 != 0 || lo b || c != 0
  | 8 => lo a || lo b || lo c
  | _ => a != 0 || b != 0 || c != 0

/-- Everything that yields `Q.NODE` (R110). -/
def nodeBad (w : List Nat) : Bool :=
  let h := listGet 0 w 0
  let t := nodeType w
  !typeOk t || fld h 50 6 != 0 || fld h 42 6 != 0 || nodeNext w % 64 != 0 || (nodeNext w == 0 && t != 15) ||
    (nodeNowait w && t != 1 && t != 2) || (nodeJoin w && t == 15) || (w.drop 4).any (· != 0) || bodyBad w

/-- A COND, WAIT comparison of natural values (R106). -/
def nodeTest (t x v : Nat) : Bool :=
  match t % 4 with
  | 0 => x == v
  | 1 => x != v
  | 2 => decide (v ≤ x)
  | _ => decide (x < v)

/-! ### Taking a node (R99, R108, R110, R111) -/

/-- A KERNEL node of a DETM context is performed as with NOWAIT = 0 (R400). -/
def State.runsOn (s : State) (k : Queue) (w : List Nat) : Bool := nodeNowait w && !(nodeType w == 1 && (s.ctx k.ctx).detm)

/-- A queue whose next node may start: it is READY, and the node waits for no NOWAIT node (R105, R108). -/
def State.nodeReady (s : State) (k : Queue) : Bool :=
  k.st == qReady && k.en &&
    (let w := if nodeAddr k.cur then s.nodeWords k.cur else []
     !((nodeJoin w || nodeType w == 15) && !k.nowait.isEmpty) && !(s.runsOn k w && 16 ≤ k.nowait.length))

/-- The queue that the walker serves next: the highest priority, in round-robin order among equals (R99). -/
def State.nextQueue (s : State) (d : Nat) : Option Nat :=
  let w := s.walker d
  let ready := (natRange 0 32).filter fun q => s.nodeReady (s.queue d q)
  let best := ready.foldl (fun m q => max m (s.queue d q).prio) 0
  let top := ready.filter fun q => best == (s.queue d q).prio
  let after (q : Nat) : Nat := (q + 31 - (w.last[best]?).getD 31) % 32
  (listMin? (top.map after)).bind fun m => top.find? fun q => after q == m

/-- A node that cannot be performed (R110). -/
def State.queueFault (s : State) (d q code : Nat) : State :=
  ((s.descPut d q 0x58 1 code).modQueue d q fun k => { k with busy := none }).qTo d q qFaulted

/-- What a node comes to when it starts: it is over and the walker goes on at an address, it runs, it fails, or it has not
started yet. -/
inductive NodeRes where
  | go (s : State) (next : Nat)
  | run (s : State) (r : NodeRun)
  | fail (code : Nat)
  | wait

/-- The node types that need the context (R110). -/
def needsCtx (t : Nat) : Bool := t != 4 && t != 15

/-- The context of a queue holds no work: `Q.CTX` (R110). -/
def State.ctxGone (s : State) (x : Nat) : Bool := (s.ctx x).state == .empty || (s.ctx x).state == .halted

/-- The run of the node at CUR of a queue, as it starts. -/
def State.newRun (s : State) (k : Queue) (w : List Nat) (typ prog : Nat) (done : Bool) : NodeRun :=
  { node := k.cur, typ := typ, words := w, desc := k.desc, grid := none, prog := prog, done := done, since := s.clk.toNat }

/-- A node has started: a NOWAIT node lets the walker go on (R105, R108). -/
def State.nodeRuns (s : State) (d q : Nat) (r : NodeRun) : State :=
  if s.runsOn (s.queue d q) r.words && !(r.typ == 1 && r.grid.isNone) then
    ((s.modQueue d q fun k => { k with busy := none, nowait := k.nowait ++ [r] }).setCur d q (nodeNext r.words)).settle d q
  else s.modQueue d q fun k => { k with busy := some r }

/-- A BUSY queue goes on at an address. -/
def State.nodeGoes (s : State) (d q a : Nat) : State :=
  ((s.modQueue d q fun k => { k with busy := none }).setCur d q a).settle d q

/-- What the node in progress comes to. -/
def State.nodeStep (s : State) (d q : Nat) (wait : NodeRun) : NodeRes → State
  | .go s a => s.nodeGoes d q a
  | .run s r => s.nodeRuns d q r
  | .fail c => s.queueFault d q c
  | .wait => s.modQueue d q fun k => { k with busy := some wait }

/-- The walker has given a queue its turn, and the queue is BUSY with the node at its CUR (R99, R111). -/
def State.beginNode (s : State) (d q : Nat) : State :=
  (s.modWalker d fun v => { v with last := v.last.setIfInBounds (s.queue d q).prio q }).qTo d q qBusy

/-- The walker of die `d` takes the node at CUR of queue `q`, when that is its choice and the node is of type `t`; a node of no
valid type faults under any type. The queue is BUSY from then on (R111); a node that cannot be performed yet stays in
progress. -/
def State.takeNode (s : State) (d q t : Nat) (f : State → Queue → List Nat → NodeRes) : State :=
  if s.life != .run || s.expo.stopped || s.nextQueue d != some q then s
  else
    let k := s.queue d q
    let w := if nodeAddr k.cur then s.nodeWords k.cur else []
    if typeOk (nodeType w) && nodeType w != t then s
    else
      let s := s.beginNode d q
      if nodeBad w then s.queueFault d q qNode
      else if needsCtx t && s.ctxGone k.ctx then s.queueFault d q qCtx
      else s.nodeStep d q (s.newRun k w t 0 false) (f s k w)

/-- The word at ADDR of a node, with its physical addresses. -/
def State.nodeXlate (s : State) (x va n : Nat) (u : Use2) : Option (List Nat) :=
  match s.xlateBytes x u (vaRange va n) with
  | .ok (pas, _, _) => some pas
  | .error _ => none

/-! ### KERNEL (R107, R116) -/

/-- The hand-over of a launch record: a full table is tried again, the walker staying BUSY (R116). -/
def State.nodeLaunch (s : State) (d q : Nat) (k : Queue) (w : List Nat) : NodeRes :=
  let (s, st, g) := s.launch k.ctx (listGet 0 w 1) k.prio true false (some (d, q, k.cur))
  if st = lOk then .run s { s.newRun k w 1 0 false with grid := some g }
  else if st = lBusy then .wait
  else .fail (if st = lCtx then qCtx else qLaunch)

/-- NODE_KERNEL. -/
def execNodeKernel (die q : Nat) (s : State) : Host.Outcome State Fault Refusal :=
  let k := s.queue die q
  match k.busy with
  | some r =>
    if s.expo.stopped || s.life != .run || r.typ != 1 || r.grid.isSome then .next s
    else .next (s.nodeStep die q r (s.nodeLaunch die q k r.words))
  | none => .next (s.takeNode die q 1 fun s k w => s.nodeLaunch die q k w)

/-! ### COPY (R107) -/

/-- One chunk of a COPY, up to the end of a destination line: the progress after it, or the fault. Poison goes with its
bytes. -/
def State.copyChunk (s : State) (x : Nat) (w : List Nat) (p : Nat) : Option (State × List Nat × Nat) :=
  let n := min (listGet 0 w 3 - p) (64 - (listGet 0 w 2 + p) % 64)
  match s.nodeXlate x (listGet 0 w 1 % 2 ^ 50 + p) n .read, s.nodeXlate x (listGet 0 w 2 % 2 ^ 50 + p) n .write with
  | some src, some dst =>
    if !s.canWrite (linesOf dst) none then some (s, [], p)
    else if dst.any inLinkRegs then
      some (s.linkStore (dst.headD 0x1000 - 0x1000) n (ofLe (s.softBytes src)), [], p + n)
    else
      let bad := ((src.zip dst).filter fun q => s.poison.contains q.1).map (·.2)
      some (s.homeWrite (dst.zip (s.softBytes src)) bad, linesOf dst, p + n)
  | _, _ => none

/-- Lines that a queue's nodes have written join the signature it posts (R108). -/
def State.queueWrote (s : State) (d q : Nat) (lines : List Nat) : State :=
  s.modQueue d q fun k => { k with sig := lines.foldl (fun m l => m ||| sigOf l) k.sig }

/-- The release of a queue: what its nodes have written is posted to the module boards (R108). -/
def State.queueRelease (s : State) (d q : Nat) : State :=
  ({ s with modBoard := s.modBoard.post (s.queue d q).sig }).modQueue d q fun k => { k with sig := 0 }

/-- What the walker's die board has taken since the walker last looked is passed on to the module boards: a write ordered
before the condition of a WAIT or COLL is ordered as by a release at module scope (R108). -/
def State.walkerRelease (s : State) (d : Nat) : State :=
  let (posts, all) := (s.dieBoard d).since (s.walker d).seenDie
  let m := if all then sigAll else posts.foldl (· ||| ·) 0
  ({ s with modBoard := s.modBoard.post m }).modWalker d fun w => { w with seenDie := (s.dieBoard d).seq }

/-- A COPY that runs goes on. A fault of one with NOWAIT puts CUR back to it (R110); the spec is silent on the node then in
progress, which goes on as a NOWAIT node (DESIGN CHOICE, log entry 55). A fault of a node whose queue has another
descriptor by now, or none, is reported nowhere. -/
def State.copyOn (s : State) (d q : Nat) (r : NodeRun) (busy : Bool) : State :=
  let k := s.queue d q
  let put (s : State) (r' : NodeRun) : State := s.modQueue d q fun k =>
    if busy then { k with busy := some r' } else { k with nowait := k.nowait.map fun o => if o = r then r' else o }
  let fail (s : State) (code : Nat) : State :=
    if busy then s.queueFault d q code
    else if k.desc != r.desc then s.modQueue d q fun k => { k with nowait := listDelFirst (· == r) k.nowait }
    else
      let s := s.modQueue d q fun k =>
        { k with nowait := listDelFirst (· == r) k.nowait ++ k.busy.toList, busy := none }
      (s.setCur d q r.node).queueFault d q code
  if s.ctxGone k.ctx then fail s qCtx
  else match s.copyChunk k.ctx r.words r.prog with
    | none => fail s qXlate
    | some (s, ls, p) => put (s.queueWrote d q ls) { r with prog := p, done := listGet 0 r.words 3 ≤ p }

/-- NODE_COPY: the node at CUR starts when the walker takes it; otherwise a COPY of the queue that is under way copies its next
chunk. -/
def execNodeCopy (die q : Nat) (s : State) : Host.Outcome State Fault Refusal :=
  let k := s.queue die q
  let open_ (r : NodeRun) : Bool := r.typ == 2 && !r.done
  let t := s.takeNode die q 2 fun s k w => .run s (s.newRun k w 2 0 (listGet 0 w 3 == 0))
  if s.life != .run then .next s
  else if k.st == qReady && (t.queue die q) != k then .next t
  else match k.nowait.find? open_ with
    | some r => .next (s.copyOn die q r false)
    | none => match k.busy with
      | some r => if open_ r then .next (s.copyOn die q r true) else .next s
      | none => .next s

/-! ### COND, LOOP, END -/

/-- NODE_COND (R107, R109). R329 names no queue node: a word that holds poison is read as its bytes stand (DESIGN CHOICE, log
entry 55). -/
def execNodeCond (die q : Nat) (s : State) : Host.Outcome State Fault Refusal :=
  .next (s.takeNode die q 3 fun s k w =>
    match s.nodeXlate k.ctx (listGet 0 w 1) 4 .read with
    | none => .fail qXlate
    | some pas =>
      let c := listGet 0 w 3
      .go s (if nodeTest (fld c 32 2) (ofLe (s.homeBytes pas)) (fld c 0 32) then nodeNext w else listGet 0 w 2))

/-- NODE_LOOP (R107). -/
def execNodeLoop (die q : Nat) (s : State) : Host.Outcome State Fault Refusal :=
  .next (s.takeNode die q 4 fun s k w =>
    let count := listGet 0 w 2
    let iter := listGet 0 w 3
    if count = 2 ^ 32 - 1 ∨ iter < count then .go (s.homePutRaw (k.cur + 24) 4 (iter + 1)) (listGet 0 w 1)
    else .go (s.homePutRaw (k.cur + 24) 4 0) (nodeNext w))

/-- NODE_END (R104, R107): DONE rises but at the stub; with NEXT = 0 the queue is IDLE. -/
def execNodeEnd (die q : Nat) (s : State) : Host.Outcome State Fault Refusal :=
  let k := s.queue die q
  let w := if nodeAddr k.cur then s.nodeWords k.cur else []
  let t := s.takeNode die q 15 fun s k w =>
    .go (if k.cur = k.desc then s else s.homePutRaw (k.desc + 0x50) 8 (s.homeRead (k.desc + 0x50) 8 + 1))
      (if nodeNext w = 0 then k.cur else nodeNext w)
  let ended := s.life == .run && !s.expo.stopped && s.nextQueue die == some q && nodeType w == 15 && !nodeBad w && nodeNext w == 0
  .next (if ended then t.qTo die q qIdle else t)

/-- QUEUE_LINK_ARRIVAL (R104): TAIL differs from CUR and the END's NEXT is not zero: the walker follows it. -/
def execQueueLinkArrival (die q : Nat) (s : State) : Host.Outcome State Fault Refusal :=
  let k := s.queue die q
  let w := s.nodeWords k.cur
  if s.life != .run || s.expo.stopped || k.st != qIdle || s.homeRead (k.desc + 0x40) 8 == k.cur || nodeNext w == 0 then .next s
  else .next ((s.setCur die q (nodeNext w)).qTo die q qReady)

/-! ### WAIT and SIGNAL -/

/-- Whether the condition of a WAIT holds now; none when its address does not translate. -/
def State.waitMet (s : State) (x : Nat) (w : List Nat) : Option Bool :=
  let c := listGet 0 w 3
  (s.nodeXlate x (listGet 0 w 1) (if bitAt c 2 then 8 else 4) .plainRead).map fun pas =>
    nodeTest (fld c 0 2) (ofLe (s.homeBytes pas)) (listGet 0 w 2)

/-- NODE_WAIT (R107, R109): a condition that holds ends the WAIT; otherwise the walker holds a monitor from here on. -/
def execNodeWait (die q : Nat) (s : State) : Host.Outcome State Fault Refusal :=
  .next (s.takeNode die q 5 fun s k w =>
    match s.waitMet k.ctx w with
    | none => .fail qXlate
    | some b => .run s (s.newRun k w 5 0 b))

/-- NODE_WAIT_TIMEOUT (R107): TIMEOUT µs have passed and the condition has not held; 2,400 clocks make one µs. -/
def execNodeWaitTimeout (die q : Nat) (s : State) : Host.Outcome State Fault Refusal :=
  match (s.queue die q).busy with
  | some r =>
    let limit := fld (listGet 0 r.words 3) 32 32
    if r.typ = 5 ∧ r.done = false ∧ limit ≠ 0 ∧ r.since + limit * 2400 ≤ s.clk.toNat ∧
        s.waitMet (s.queue die q).ctx r.words ≠ some true then .next (s.queueFault die q qTimeout)
    else .next s
  | none => .next s

/-- The write or add of a SIGNAL and its MSI-X vector, after a release at system scope (R107 to R109). A write over poisoned
bytes, and an add that reads them, leave bytes without poison (DESIGN CHOICE, log entry 55). -/
def State.signalStep (s : State) (d q : Nat) (k : Queue) (w : List Nat) : NodeRes :=
  let c := listGet 0 w 3
  let n := if bitAt c 2 then 8 else 4
  let add := fld c 0 2 == 1
  match s.nodeXlate k.ctx (listGet 0 w 1) n (if add then .readWrite else .write) with
  | none => .fail qXlate
  | some pas =>
    if !s.canWrite (linesOf pas) none then .wait
    else
      let v := listGet 0 w 2
      let s := (s.queueRelease d q).queueWrote d q (linesOf pas)
      let s :=
        if pas.any inLinkRegs then (if add then s else s.linkStore (pas.headD 0x1000 - 0x1000) n v)
        else if add then (s.homeWrite (pas.zip (leBytes n (ofLe (s.softBytes pas) + v))) []).markLost pas
        else s.homeWrite (pas.zip (leBytes n v)) []
      .go (if bitAt c 3 then s.sendMsi (fld c 16 11) else s) (nodeNext w)

/-- NODE_SIGNAL: the node at CUR starts, or one whose write had to wait is tried again. -/
def execNodeSignal (die q : Nat) (s : State) : Host.Outcome State Fault Refusal :=
  let k := s.queue die q
  match k.busy with
  | some r =>
    if s.life != .run || s.expo.stopped || r.typ != 6 then .next s
    else if s.ctxGone k.ctx then .next (s.queueFault die q qCtx)
    else .next (s.nodeStep die q r (s.signalStep die q k r.words))
  | none => .next (s.takeNode die q 6 fun s k w => s.signalStep die q k w)

/-! ### COLL and EXPOSE -/

/-- NODE_COLL. -/
def execNodeColl (die q : Nat) (s : State) : Host.Outcome State Fault Refusal :=
  .next (s.takeNode die q 7 fun s k w =>
    let h := fld (listGet 0 w 1) 0 6
    let close := bitAt (listGet 0 w 1) 8
    let st := s.waitClose k.ctx h (listGet 0 w 2)
    let r := s.newRun k w 7 h (!close && st == 1)
    if close && !(s.ctx k.ctx).mode then .fail qPriv
    else if (s.openColl k.ctx h).isNone then .fail qColl
    else if close then .run (s.collClose h (.node die q)) r
    else if st = 2 then .fail qColl
    else .run s r)

/-- NODE_EXPOSE. -/
def execNodeExpose (die q : Nat) (s : State) : Host.Outcome State Fault Refusal :=
  .next (s.takeNode die q 8 fun s k w =>
    if !(s.ctx k.ctx).mode then .fail qPriv
    else match s.exposeBegin k.ctx [listGet 0 w 1, listGet 0 w 2, listGet 0 w 3] (.node die q) with
      | (s, some st) => if st = eOk then .go s (nodeNext w) else .fail qExpose
      | (s, none) => .run s (s.newRun k w 8 0 false))

/-! ### NODE_COMPLETION (R107, R108) -/

/-- Whether a node that runs is complete: not yet, complete, or failed with a code. -/
inductive NodeEnd where
  | no
  | yes (s : State)
  | fail (s : State) (code : Nat)

/-- The completion test of a node. -/
def State.nodeEnd (s : State) (d q : Nat) (k : Queue) (r : NodeRun) : NodeEnd :=
  let w := r.words
  match r.typ with
  | 1 => match r.grid with
    | some g => if (s.grid? g).isNone then .yes s else .no
    | none => .no
  | 5 =>
    if r.done then .yes (s.walkerRelease d)
    else if s.ctxGone k.ctx then .fail s qCtx
    else match s.waitMet k.ctx w with
      | none => .fail s qXlate
      | some b => if b then .yes (s.walkerRelease d) else .no
  | 7 =>
    if bitAt (listGet 0 w 1) 8 then
      match s.collClosed r.prog with
      | some s => .yes s
      | none => .no
    else if r.done then .yes (s.walkerRelease d)
    else match s.waitClose k.ctx r.prog (listGet 0 w 2) with
      | 0 => .no
      | 1 => .yes (s.walkerRelease d)
      | _ => .fail s qColl
  | 8 => match s.exposeDone (.node d q) none with
    | none => .no
    | some e =>
      let s := { s with expo := { s.expo with done := listDelFirst (· == e) s.expo.done } }
      if e.2.2 = eOk then .yes s else .fail s qExpose
  | 2 => if r.done then .yes (s.queueRelease d q) else .no
  | _ => .no

/-- NODE_COMPLETION: the node in progress, or a NOWAIT node, is complete. The walker goes on at NEXT as it was read when the node
started; the spec does not say when NEXT is read (DESIGN CHOICE, log entry 55). -/
def execNodeCompletion (die q node : Nat) (s : State) : Host.Outcome State Fault Refusal :=
  if s.life != .run then .next s
  else
    let k := s.queue die q
    match if k.busy.any (·.node == node) then k.busy else none with
    | some r => match s.nodeEnd die q k r with
      | .no => .next s
      | .fail s c => .next (s.queueFault die q c)
      | .yes s => .next (s.nodeGoes die q (nodeNext r.words))
    | none => match (k.nowait.filter (·.node == node)).findSome? fun r =>
        match s.nodeEnd die q k r with | .yes s => some (r, s) | _ => none with
      | none => .next s
      | some (r, s) => .next ((s.modQueue die q fun k => { k with nowait := listDelFirst (· == r) k.nowait }).settle die q)

end Sys2Proof.Machine
end

