-- ==== Sys2Proof/Machine/Zenith.lean ====
section
/-!
DEFINITION. Sys2Proof/Machine/Zenith.lean: the Zenith watch (R273) and its wait-for graph (R274).
-/
namespace Sys2Proof.Machine

/-- What a group waits for, as an entry of the graph tells it: KIND, AUX and OBJ (R274). -/
structure HangWait where
  kind : Nat
  aux : Nat
  obj : Nat
  deriving DecidableEq, Repr

/-- The wait of a group all of whose live lanes are held: the record of its lowest live lane. -/
def State.heldWait (s : State) (c : Nat) (x : Group) : Option HangWait :=
  match s.liveLanes c x with
  | [] => none
  | p :: ps =>
    let l := s.lane c p
    if (p :: ps).any fun q => (s.lane c q).hk == .none then none
    else (s.teamOf c x).bind fun t => (s.barRec t l.hr).map fun r =>
      let gen := r.gen.toNat * 2 ^ 32
      match l.hr with
      | .team b => ⟨1, b.val, gen + r.arr % 2 ^ 14 * 2 ^ 16 + r.exp % 2 ^ 14⟩
      | .cluster => ⟨2, 0, gen + wrap ((r.exp : Int) - r.arr) 32⟩
      | .grid => ⟨3, 0, gen + wrap ((r.exp : Int) - r.arr) 32⟩

/-- A semaphore wait that has not been met, or that of a group of a parked team: its count and its threshold; or a wait to be
bound. -/
def State.semWait (s : State) (c place kind k : Nat) (thr : Word) : Option HangWait :=
  if !s.canBind c place k then some ⟨9, k, 0⟩
  else (s.team? c place).bind fun t =>
    if semHolds (t.semCount k) thr && t.state != .parked then none else some ⟨kind, k, (t.semCount k).toNat * 2 ^ 32 + thr.toNat⟩

/-- The wait at the header of the next clause: its semaphore, a slot that a `waitc` holds, or a slot that a T command holds
whose WEN wait fails. -/
def State.headerWait (s : State) (c g : Nat) (x : Group) : Option HangWait :=
  (s.issuing c x).bind fun q => match s.fetchClause (s.ctxOf c x) q.1 with
    | .clause h _ =>
      let sem := if bitAt h 44 then s.semWait c x.place 4 (fld h 38 6) (regGet x.scal (fld h 30 8)) else none
      let slots := (natRange 0 8).filter fun k => bitAt h (45 + k) && x.sbCount k != 0
      let mon := (s.core c).pend.findSome? fun p =>
        if p.2.ctx != g || !(slots.any fun k => p.2.slot == some k) then none
        else match p.2.kind with
          | .waitc cmp w64 => some ⟨5, 2 * waitCode cmp + b2n w64,
              ((p.2.accs.head?.bind (·.tgt)).elim 0 fun t => t.pas.headD 0) % 2 ^ 42⟩
          | _ => none
      let cmd := (s.core c).cmds.findSome? fun m =>
        if m.2.ctx != g || m.2.state != .waiting || !slots.contains (twOf m.2.i).sb.val then none
        else (twOf m.2.i).wait.bind fun w => s.semWait c x.place 8 w.ix.val m.2.thr
      sem <|> mon <|> cmd
    | _ => none

/-- What a group that is not parked waits for in the sense of R273, if it does. -/
def State.ownWait (s : State) (c g : Nat) (x : Group) : Option HangWait :=
  if x.state != .wait && x.state != .parked then none
  else match x.cur, x.blk with
    | some cu, some .smwait | some cu, some .bind => match decodeNat (listGet 0 cu.words cu.k) 0 with
      | .ok (.smwait o) =>
        let e : Env := { c := c, g := g, x := x, cu := cu, i := .smwait o, lanes := cu.live }
        s.semWait c x.place 4 (e.opnd s o.k e.low 32) (BitVec.ofNat 32 (e.opnd s o.a e.low 32))
      | _ => none
    | some _, some .stepadv => (s.waitNeed c x).map fun n => ⟨6, 0, n⟩
    | some _, some .gfuse => some ⟨7, 0, x.buddy⟩
    | some _, some .gsplit => some ⟨10, 0, 0⟩
    | some _, _ => none
    | none, _ => s.heldWait c x <|> s.headerWait c g x

/-- What a group waits for in the sense of R273. A group of a parked team waits even when its own wait has ended, or is at a slot
that staged atomics hold: it then has the entry of that wait, or one of KIND 0 (log entry 67). -/
def State.hangWait (s : State) (c g : Nat) (x : Group) : Option HangWait :=
  if x.state = .parked then some ((s.ownWait c g x).getD ⟨0, 0, 0⟩) else s.ownWait c g x

/-- The groups of a context that exist, with their cores and group contexts. -/
def State.ctxGroups (s : State) (x : Nat) : List (Nat × Nat × Group) :=
  s.cores.flatMap fun k => k.2.groups.filterMap fun g =>
    if (tabGet? k.2.teams g.2.place).any (·.ctx == x) then some (k.1, g.1, g.2) else none

/-- An entry of the graph (R274). -/
def State.hangEntry (s : State) (c g : Nat) (x : Group) (w : HangWait) : List Byte :=
  let parked := x.state == .parked
  leBytes 8 (((s.teamOf c x).elim 0 (·.n)) % 2 ^ 32 * 2 ^ 32 + w.aux % 64 * 2 ^ 26 + w.kind * 2 ^ 22 + b2n parked * 2 ^ 21 +
    (if parked then 0 else g % 512) * 2 ^ 10 + c) ++ leBytes 8 w.obj

/-- The wait-for graph, written into the first 64 KiB of the SVBASE area (R274). -/
def State.writeGraph (s : State) (x : Nat) : State :=
  let es := (s.ctxGroups x).filterMap fun q => (s.hangWait q.1 q.2.1 q.2.2).map fun w => s.hangEntry q.1 q.2.1 q.2.2 w
  let kept := es.take 4095
  let a := (s.ctx x).svbase.toNat
  (s.homeBlock a (leBytes 8 (kept.length + b2n (4095 < es.length) * 2 ^ 32) ++ leBytes 8 s.clk.toNat ++ kept.flatten)).postLines
    (natRange (a / 64) (ceilDiv (16 + 16 * kept.length) 64))

/-- A group waited throughout the interval of 1,024 clocks that ends now. -/
def State.waitedInterval (s : State) (c g : Nat) (x : Group) : Bool :=
  (s.hangWait c g x).isSome && x.since + 1024 ≤ s.clk.toNat

/-- ZENITH_INTERVAL (R273): at the end of an interval, the count of an ACTIVE context rises when every group of it waited and
none issued; at ZWT the graph and a T.HANG record are written. -/
def execZenithInterval (slot : Nat) (s : State) : Host.Outcome State Fault Refusal :=
  let s := s.cores.foldl (fun s k => s.refresh k.1 s.clk.toNat) s
  let k := s.ctx slot
  if s.clk.toNat % 1024 != 0 || s.clk.toNat / 1024 ≤ k.zclk then .next s
  else
    let gs := s.ctxGroups slot
    let counts := k.state == .active && k.zwt != 0 && !k.zissued && !gs.isEmpty && gs.all fun q => s.waitedInterval q.1 q.2.1 q.2.2
    let n := if counts then k.zcount + 1 else 0
    let s := s.modCtx slot fun q => { q with zcount := n, zissued := false, zclk := s.clk.toNat / 1024 }
    if !counts || n < k.zwt.toNat then .next s
    else
      let s := (s.writeGraph slot).modCtx slot fun q => { q with zcount := 0 }
      .next (s.writeRecord slot { kind := 5, code := tHang, va := k.svbase.toNat }).1

end Sys2Proof.Machine
end

