-- ==== Sys2Proof/Machine/Sched.lean ====
section
/-!
DEFINITION. Sys2Proof/Machine/Sched.lean: how the commands that a core holds go on between their events, and the retry of
an operand-log entry (R236).
-/
namespace Sys2Proof.Machine

/-- A command of a core goes on by one step: an element of a copy, a matrix command's effect, a batch, a queued semaphore
operation, or a command at the module distributor or the sequencer. A command of a saved group stands still. -/
def State.cmdStep (s : State) (c id : Nat) : State :=
  match s.cmd? c id with
  | none => s
  | some m =>
    if (s.group? c m.ctx).any (·.state == .saved) then s
    else match m.i with
      | .tcp _ | .tcpz _ => if m.state == .running && s.cmdAlive c m then s.copyStep c id m else s
      | .cseal _ => s.batchStep c id m false
      | .cwait _ => s.batchStep c id m true
      | .smadd _ => s.advanceSem c id m false
      | .smset _ => s.advanceSem c id m true
      | .acalloc _ _ _ _ | .acfree _ _ _ => s.bankEvents c
      | .aczero _ | .acrd _ | .acwr _ | .acst _ | .mma _ | .zsplit _ | .mmz _ | .zfold _ => s.matrixStep c id m
      | .launch _ => if s.reachesNext c id m then s.launchStep c id m else s
      | .ctxldLoad _ | .ctxldUpdate _ | .ctxldResume _ => s.ctxStep c id m true
      | .ctxsvSnapshot _ | .ctxsvStop _ | .ctxsvEvict _ => s.ctxStep c id m false
      | .colopen _ => s.colopenStep c id m
      | .colput _ => s.colputStep c id m
      | .colwait _ => s.colwaitStep c id m
      | .colclose _ => s.colcloseStep c id m
      | .exposeExpose _ | .exposeConfig _ | .exposeJoin _ => s.exposeStep c id m
      | _ => s

/-- LOG_RETRY (R124, R236): an entry of a core's operand log is tried again, on its timer or after a write to a faulting line;
with core 576 the add at COMPL of grid `id`. -/
def execLogRetry (c id : Nat) (timed : Bool) (s : State) : Host.Outcome State Fault Refusal :=
  if c = 576 then
    match s.grid? id with
    | none => .next s
    | some g =>
      let due := g.cfTouched || (timed && g.cfClk + 65536 ≤ s.clk.toNat)
      .next (if g.gone.length = g.n && g.cfLine.isSome && due then s.finishGrid id g else s)
  else .next (s.retryEntry c id timed)

end Sys2Proof.Machine
end

