-- ==== Sys2Proof/Machine/Dispatch.lean ====
section
/-!
DEFINITION. Sys2Proof/Machine/Dispatch.lean: which meaning each instruction or event has, one arm for each constructor.
-/
namespace Sys2Proof.Machine

/-- The execution of an instruction of the group in focus, or of an event. -/
def exec (i : Instr) (s : State) : Host.Outcome State Fault Refusal :=
  match i with
  | .clauseIssue core port => Sys2Proof.Machine.execClauseIssue core port s
  | .nop p => Sys2Proof.Machine.execNop p s
  | .br p c ofs => Sys2Proof.Machine.execBr p c ofs s
  | .brc p c ofs => Sys2Proof.Machine.execBrc p c ofs s
  | .jmp p a => Sys2Proof.Machine.execJmp p a s
  | .jmpv p a => Sys2Proof.Machine.execJmpv p a s
  | .call p c ofs => Sys2Proof.Machine.execCall p c ofs s
  | .ret p a => Sys2Proof.Machine.execRet p a s
  | .exit p => Sys2Proof.Machine.execExit p s
  | .yieldpt p pbase => Sys2Proof.Machine.execYieldpt p pbase s
  | .gsplit p d a => Sys2Proof.Machine.execGsplit p d a s
  | .gfuse p d a => Sys2Proof.Machine.execGfuse p d a s
  | .gfuseLimitExpiry core ctx => Sys2Proof.Machine.execGfuseLimitExpiry core ctx s
  | .launch t => Sys2Proof.Machine.execLaunch t s
  | .mov o => Sys2Proof.Machine.execMov o s
  | .add o => Sys2Proof.Machine.execAdd o s
  | .sub o => Sys2Proof.Machine.execSub o s
  | .addc o => Sys2Proof.Machine.execAddc o s
  | .subb o => Sys2Proof.Machine.execSubb o s
  | .neg o => Sys2Proof.Machine.execNeg o s
  | .abs o => Sys2Proof.Machine.execAbs o s
  | .min o => Sys2Proof.Machine.execMin o s
  | .max o => Sys2Proof.Machine.execMax o s
  | .mad o => Sys2Proof.Machine.execMad o s
  | .mul o => Sys2Proof.Machine.execMul o s
  | .mulh o => Sys2Proof.Machine.execMulh o s
  | .and o => Sys2Proof.Machine.execAnd o s
  | .or o => Sys2Proof.Machine.execOr o s
  | .xor o => Sys2Proof.Machine.execXor o s
  | .andn o => Sys2Proof.Machine.execAndn o s
  | .not o => Sys2Proof.Machine.execNot o s
  | .shl o => Sys2Proof.Machine.execShl o s
  | .shr o => Sys2Proof.Machine.execShr o s
  | .sar o => Sys2Proof.Machine.execSar o s
  | .rol o => Sys2Proof.Machine.execRol o s
  | .bfx o => Sys2Proof.Machine.execBfx o s
  | .bfi o => Sys2Proof.Machine.execBfi o s
  | .popc o => Sys2Proof.Machine.execPopc o s
  | .clz o => Sys2Proof.Machine.execClz o s
  | .ctz o => Sys2Proof.Machine.execCtz o s
  | .brev o => Sys2Proof.Machine.execBrev o s
  | .sel o => Sys2Proof.Machine.execSel o s
  | .cvt src o => Sys2Proof.Machine.execCvt src o s
  | .dp4 p natural dst a b c => Sys2Proof.Machine.execDp4 p natural dst a b c s
  | .movi p k dst imm => Sys2Proof.Machine.execMovi p k dst imm s
  | .cmp p c ty dst a b => Sys2Proof.Machine.execCmp p c ty dst a b s
  | .pand o => Sys2Proof.Machine.execPand o s
  | .por o => Sys2Proof.Machine.execPor o s
  | .pxor o => Sys2Proof.Machine.execPxor o s
  | .pnot p dst a => Sys2Proof.Machine.execPnot p dst a s
  | .fadd o => Sys2Proof.Machine.execFadd o s
  | .fsub o => Sys2Proof.Machine.execFsub o s
  | .fmul o => Sys2Proof.Machine.execFmul o s
  | .ffma o => Sys2Proof.Machine.execFfma o s
  | .fmin o => Sys2Proof.Machine.execFmin o s
  | .fmax o => Sys2Proof.Machine.execFmax o s
  | .fclass o => Sys2Proof.Machine.execFclass o s
  | .fround o => Sys2Proof.Machine.execFround o s
  | .fscale o => Sys2Proof.Machine.execFscale o s
  | .frcp o => Sys2Proof.Machine.execFrcp o s
  | .frsq o => Sys2Proof.Machine.execFrsq o s
  | .fsqrt o => Sys2Proof.Machine.execFsqrt o s
  | .fdiv o b => Sys2Proof.Machine.execFdiv o b s
  | .divideUnitCompletion core p => Sys2Proof.Machine.execDivideUnitCompletion core p s
  | .fexp2 o => Sys2Proof.Machine.execFexp2 o s
  | .flog2 o => Sys2Proof.Machine.execFlog2 o s
  | .fsin o => Sys2Proof.Machine.execFsin o s
  | .fcos o => Sys2Proof.Machine.execFcos o s
  | .ftanh o => Sys2Proof.Machine.execFtanh o s
  | .ferf o => Sys2Proof.Machine.execFerf o s
  | .fsig o => Sys2Proof.Machine.execFsig o s
  | .fdot2 o => Sys2Proof.Machine.execFdot2 o s
  | .fdot4 o => Sys2Proof.Machine.execFdot4 o s
  | .fpack p f m dst a b c => Sys2Proof.Machine.execFpack p f m dst a b c s
  | .funpack p f dst a b => Sys2Proof.Machine.execFunpack p f dst a b s
  | .fcmp p c f dst a b => Sys2Proof.Machine.execFcmp p c f dst a b s
  | .fcvt src o => Sys2Proof.Machine.execFcvt src o s
  | .ftoi ty o => Sys2Proof.Machine.execFtoi ty o s
  | .itof ty o => Sys2Proof.Machine.execItof ty o s
  | .rng p f32 dst a => Sys2Proof.Machine.execRng p f32 dst a s
  | .xidx o => Sys2Proof.Machine.execXidx o s
  | .xup o => Sys2Proof.Machine.execXup o s
  | .xdn o => Sys2Proof.Machine.execXdn o s
  | .xxor o => Sys2Proof.Machine.execXxor o s
  | .xbcast o => Sys2Proof.Machine.execXbcast o s
  | .ballot p dst a => Sys2Proof.Machine.execBallot p dst a s
  | .vote p k dst a => Sys2Proof.Machine.execVote p k dst a s
  | .popm p dst a => Sys2Proof.Machine.execPopm p dst a s
  | .xred p op ty d a sb => Sys2Proof.Machine.execXred p op ty d a sb s
  | .xscan p inclusive op ty d a sb => Sys2Proof.Machine.execXscan p inclusive op ty d a sb s
  | .reductionCompletion core p => Sys2Proof.Machine.execReductionCompletion core p s
  | .ld o => Sys2Proof.Machine.execLd o s
  | .lds o => Sys2Proof.Machine.execLds o s
  | .ldc o => Sys2Proof.Machine.execLdc o s
  | .loadDataReturn core id pos data r => Sys2Proof.Machine.execLoadDataReturn core id pos data r s
  | .st o => Sys2Proof.Machine.execSt o s
  | .ldx o => Sys2Proof.Machine.execLdx o s
  | .pref p m => Sys2Proof.Machine.execPref p m s
  | .cwb o => Sys2Proof.Machine.execCwb o s
  | .cwbi o => Sys2Proof.Machine.execCwbi o s
  | .cinv o => Sys2Proof.Machine.execCinv o s
  | .fence p sc k => Sys2Proof.Machine.execFence p sc k s
  | .atom p op team ty d m sb => Sys2Proof.Machine.execAtom p op team ty d m sb s
  | .red p op team ty d m => Sys2Proof.Machine.execRed p op team ty d m s
  | .cas p team w64 d m sb => Sys2Proof.Machine.execCas p team w64 d m sb s
  | .bar p q => Sys2Proof.Machine.execBar p q s
  | .barArr p dst q => Sys2Proof.Machine.execBarArr p dst q s
  | .barW p q t => Sys2Proof.Machine.execBarW p q t s
  | .cbar p => Sys2Proof.Machine.execCbar p s
  | .gbar p => Sys2Proof.Machine.execGbar p s
  | .heldLaneRelease core ctx => Sys2Proof.Machine.execHeldLaneRelease core ctx s
  | .smadd o => Sys2Proof.Machine.execSmadd o s
  | .smset o => Sys2Proof.Machine.execSmset o s
  | .smwait o => Sys2Proof.Machine.execSmwait o s
  | .semaphoreBind core place k => Sys2Proof.Machine.execSemaphoreBind core place k s
  | .waitc p c w64 d m sb => Sys2Proof.Machine.execWaitc p c w64 d m sb s
  | .tcp t => Sys2Proof.Machine.execTcp t s
  | .tcpz t => Sys2Proof.Machine.execTcpz t s
  | .copyStart core id => Sys2Proof.Machine.execCopyStart core id s
  | .copyCompletion core id => Sys2Proof.Machine.execCopyCompletion core id s
  | .copyElementRetry core id => Sys2Proof.Machine.execCopyElementRetry core id s
  | .cseal t => Sys2Proof.Machine.execCseal t s
  | .cwait t => Sys2Proof.Machine.execCwait t s
  | .acalloc d a p sb => Sys2Proof.Machine.execAcalloc d a p sb s
  | .acfree p a n => Sys2Proof.Machine.execAcfree p a n s
  | .aczero t => Sys2Proof.Machine.execAczero t s
  | .acrd t => Sys2Proof.Machine.execAcrd t s
  | .acwr t => Sys2Proof.Machine.execAcwr t s
  | .mma t => Sys2Proof.Machine.execMma t s
  | .acst t => Sys2Proof.Machine.execAcst t s
  | .zsplit t => Sys2Proof.Machine.execZsplit t s
  | .mmz t => Sys2Proof.Machine.execMmz t s
  | .zfold t => Sys2Proof.Machine.execZfold t s
  | .matrixCommandStart core id => Sys2Proof.Machine.execMatrixCommandStart core id s
  | .matrixCommandCompletion core id => Sys2Proof.Machine.execMatrixCommandCompletion core id s
  | .ldv o => Sys2Proof.Machine.execLdv o s
  | .ldvNt o => Sys2Proof.Machine.execLdvNt o s
  | .ldvResolution core id region => Sys2Proof.Machine.execLdvResolution core id region s
  | .staleLimitExpiry core id region => Sys2Proof.Machine.execStaleLimitExpiry core id region s
  | .pinRelease core id region => Sys2Proof.Machine.execPinRelease core id region s
  | .stv o => Sys2Proof.Machine.execStv o s
  | .stvResolution core id => Sys2Proof.Machine.execStvResolution core id s
  | .stvWriteCompletion core id => Sys2Proof.Machine.execStvWriteCompletion core id s
  | .vpub o => Sys2Proof.Machine.execVpub o s
  | .publicationAcceptance core id => Sys2Proof.Machine.execPublicationAcceptance core id s
  | .publish rec => Sys2Proof.Machine.execPublish rec s
  | .stepadv p d a => Sys2Proof.Machine.execStepadv p d a s
  | .steprd p d a sb => Sys2Proof.Machine.execSteprd p d a sb s
  | .colopen t => Sys2Proof.Machine.execColopen t s
  | .colput t => Sys2Proof.Machine.execColput t s
  | .colwait t => Sys2Proof.Machine.execColwait t s
  | .colstat p d a sb => Sys2Proof.Machine.execColstat p d a sb s
  | .colclose t => Sys2Proof.Machine.execColclose t s
  | .trap p n => Sys2Proof.Machine.execTrap p n s
  | .tret p keep x => Sys2Proof.Machine.execTret p keep x s
  | .sget p dst r => Sys2Proof.Machine.execSget p dst r s
  | .sput p r a => Sys2Proof.Machine.execSput p r a s
  | .ctxldLoad t => Sys2Proof.Machine.execCtxldLoad t s
  | .ctxldUpdate t => Sys2Proof.Machine.execCtxldUpdate t s
  | .ctxldResume t => Sys2Proof.Machine.execCtxldResume t s
  | .ctxsvSnapshot t => Sys2Proof.Machine.execCtxsvSnapshot t s
  | .ctxsvStop t => Sys2Proof.Machine.execCtxsvStop t s
  | .ctxsvEvict t => Sys2Proof.Machine.execCtxsvEvict t s
  | .exposeExpose t => Sys2Proof.Machine.execExposeExpose t s
  | .exposeConfig t => Sys2Proof.Machine.execExposeConfig t s
  | .exposeJoin t => Sys2Proof.Machine.execExposeJoin t s
  | .exposureDrainCompletion d => Sys2Proof.Machine.execExposureDrainCompletion d s
  | .writeAtHome core p => Sys2Proof.Machine.execWriteAtHome core p s
  | .wcbDrain core line => Sys2Proof.Machine.execWcbDrain core line s
  | .wcbLineTimeout core line => Sys2Proof.Machine.execWcbLineTimeout core line s
  | .l1DirtyTimeout core line => Sys2Proof.Machine.execL1DirtyTimeout core line s
  | .cleanLineExpiry core line => Sys2Proof.Machine.execCleanLineExpiry core line s
  | .pageWalkCompletion core ctx va => Sys2Proof.Machine.execPageWalkCompletion core ctx va s
  | .logRetry core id timed => Sys2Proof.Machine.execLogRetry core id timed s
  | .deferredTrapDelivery core ctx => Sys2Proof.Machine.execDeferredTrapDelivery core ctx s
  | .dlnExpiry slot => Sys2Proof.Machine.execDlnExpiry slot s
  | .teamRestore slot entry core => Sys2Proof.Machine.execTeamRestore slot entry core s
  | .zenithInterval slot => Sys2Proof.Machine.execZenithInterval slot s
  | .genWake die => Sys2Proof.Machine.execGenWake die s
  | .queueLinkArrival die q => Sys2Proof.Machine.execQueueLinkArrival die q s
  | .nodeKernel die q => Sys2Proof.Machine.execNodeKernel die q s
  | .nodeCopy die q => Sys2Proof.Machine.execNodeCopy die q s
  | .nodeCond die q => Sys2Proof.Machine.execNodeCond die q s
  | .nodeLoop die q => Sys2Proof.Machine.execNodeLoop die q s
  | .nodeWait die q => Sys2Proof.Machine.execNodeWait die q s
  | .nodeWaitTimeout die q => Sys2Proof.Machine.execNodeWaitTimeout die q s
  | .nodeSignal die q => Sys2Proof.Machine.execNodeSignal die q s
  | .nodeColl die q => Sys2Proof.Machine.execNodeColl die q s
  | .nodeExpose die q => Sys2Proof.Machine.execNodeExpose die q s
  | .nodeEnd die q => Sys2Proof.Machine.execNodeEnd die q s
  | .nodeCompletion die q node => Sys2Proof.Machine.execNodeCompletion die q node s
  | .rangeHandDown die cluster => Sys2Proof.Machine.execRangeHandDown die cluster s
  | .rangeSteal die cluster victim => Sys2Proof.Machine.execRangeSteal die cluster victim s
  | .gbarGridPlacement grid => Sys2Proof.Machine.execGbarGridPlacement grid s
  | .teamAdmission core => Sys2Proof.Machine.execTeamAdmission core s
  | .teamPark core => Sys2Proof.Machine.execTeamPark core s
  | .teamUnpark core place => Sys2Proof.Machine.execTeamUnpark core place s
  | .teamExit core place => Sys2Proof.Machine.execTeamExit core place s
  | .groupContextFree core ctx => Sys2Proof.Machine.execGroupContextFree core ctx s
  | .hostBarRead bar0 o n => Sys2Proof.Machine.execHostBarRead bar0 o n s
  | .hostBarWrite pa bytes => Sys2Proof.Machine.execHostBarWrite pa bytes s
  | .hostAtomicop op n pa x y => Sys2Proof.Machine.execHostAtomicop op n pa x y s
  | .registerWrite bar0 a x w64 => Sys2Proof.Machine.execRegisterWrite bar0 a x w64 s
  | .linkRegisterWrite w => Sys2Proof.Machine.execLinkRegisterWrite w s
  | .pstatWrite port x => Sys2Proof.Machine.execPstatWrite port x s
  | .windowAnnouncement m explog => Sys2Proof.Machine.execWindowAnnouncement m explog s
  | .podPeerRequest sender port ofs op => Sys2Proof.Machine.execPodPeerRequest sender port ofs op s
  | .podPeerTimeout core id pos port => Sys2Proof.Machine.execPodPeerTimeout core id pos port s
  | .podFlush sender => Sys2Proof.Machine.execPodFlush sender s
  | .portSignalDetect port => Sys2Proof.Machine.execPortSignalDetect port s
  | .portTrainingDone port lanes => Sys2Proof.Machine.execPortTrainingDone port lanes s
  | .portLaneLost port => Sys2Proof.Machine.execPortLaneLost port s
  | .portErrorLimit port => Sys2Proof.Machine.execPortErrorLimit port s
  | .msixPendingSend vec => Sys2Proof.Machine.execMsixPendingSend vec s
  | .collectiveArrival handle t => Sys2Proof.Machine.execCollectiveArrival handle t s
  | .exponentTimerExpiry handle t => Sys2Proof.Machine.execExponentTimerExpiry handle t s
  | .mantissaClose handle t => Sys2Proof.Machine.execMantissaClose handle t s
  | .mantissaTimerExpiry handle t => Sys2Proof.Machine.execMantissaTimerExpiry handle t s
  | .resultPublication handle t => Sys2Proof.Machine.execResultPublication handle t s
  | .lateContribution handle t pos m => Sys2Proof.Machine.execLateContribution handle t pos m s
  | .collectiveMessage m => Sys2Proof.Machine.execCollectiveMessage m s
  | .memberAdvanceMessage replica podix step => Sys2Proof.Machine.execMemberAdvanceMessage replica podix step s
  | .podBeaconSend => Sys2Proof.Machine.execPodBeaconSend s
  | .podBeaconReceive replica pod min nlive epoch need => Sys2Proof.Machine.execPodBeaconReceive replica pod min nlive epoch need s
  | .silentMarking pod rank epoch byPeer => Sys2Proof.Machine.execSilentMarking pod rank epoch byPeer s
  | .detmCommit grid team => Sys2Proof.Machine.execDetmCommit grid team s
  | .moduleHalt => Sys2Proof.Machine.execModuleHalt s
  | .powerPeriod => Sys2Proof.Machine.execPowerPeriod s
  | .thermalSense temps => Sys2Proof.Machine.execThermalSense temps s
  | .ageingSense margins => Sys2Proof.Machine.execAgeingSense margins s
  | .pwrgdAssert => Sys2Proof.Machine.execPwrgdAssert s
  | .pwrgdDeassert => Sys2Proof.Machine.execPwrgdDeassert s
  | .resetNAssert => Sys2Proof.Machine.execResetNAssert s
  | .selftestCompletion r => Sys2Proof.Machine.execSelftestCompletion r s
  | .mctpRecover => Sys2Proof.Machine.execMctpRecover s
  | .mctpCommit len => Sys2Proof.Machine.execMctpCommit len s
  | .getSelftest => Sys2Proof.Machine.execGetSelftest s
  | .getVersion => Sys2Proof.Machine.execGetVersion s
  | .getCapabilities => Sys2Proof.Machine.execGetCapabilities s
  | .negotiateAlgorithms algos => Sys2Proof.Machine.execNegotiateAlgorithms algos s
  | .getDigests => Sys2Proof.Machine.execGetDigests s
  | .getCertificate slot ofs len => Sys2Proof.Machine.execGetCertificate slot ofs len s
  | .challenge slot nonce => Sys2Proof.Machine.execChallenge slot nonce s
  | .getMeasurements index => Sys2Proof.Machine.execGetMeasurements index s
  | .podixAssignment n => Sys2Proof.Machine.execPodixAssignment n s
  | .exposureStopEnd => Sys2Proof.Machine.execExposureStopEnd s
  | .joinCompletion d => Sys2Proof.Machine.execJoinCompletion d s
  | .engineElementRetry core id => Sys2Proof.Machine.execEngineElementRetry core id s
  | .fetchFaultReplay core ctx => Sys2Proof.Machine.execFetchFaultReplay core ctx s
  | .fecCodewordEvent port e => Sys2Proof.Machine.execFecCodewordEvent port e s
  | .stepadvNeedAnnounce own core ctx step => Sys2Proof.Machine.execStepadvNeedAnnounce own core ctx step s

end Sys2Proof.Machine
end

