-- ==== Sys2Proof/Machine/Step.lean ====
section
/-!
DEFINITION. Sys2Proof/Machine/Step.lean: one step of the module: the first entry of the schedule happens. The schedule says in
which order the units of the module act and what the outside world does; it is plain data of the state.
-/
namespace Sys2Proof.Machine

/-- The next instruction word of the clause that a group is issuing. -/
def State.nextWord (s : State) (c g : Nat) : Option (Group × Cursor × Nat) :=
  (s.group? c g).bind fun x => x.cur.bind fun cu => (cu.words[cu.k]?).map fun w => (x, cu, w)

/-- A word that waits is tried again after everything else on the schedule, and a clock later. -/
def State.again (s : State) (c g : Nat) : State :=
  if ((s.group? c g).bind (·.blk)).isSome && (s.nextWord c g).isSome then { s with agenda := s.agenda ++ [.tick 1, .word c g] } else s

/-- Applies `again` to a next state. -/
def stepWord (c g : Nat) : Host.Outcome State Fault Refusal → Host.Outcome State Fault Refusal
  | .next s => .next (s.again c g)
  | .fault f => .fault f
  | .refused r => .refused r

/-- The word at a group's cursor is decoded and executed; a word that no row encodes traps (R45). -/
def runWord (c g : Nat) (s : State) : Host.Outcome State Fault Refusal :=
  match s.nextWord c g with
  | none => .next s
  | some (x, cu, w) =>
    -- the words after a blocking instruction wait for their port (R138)
    if s.clk.toNat < cu.start then .next { s with agenda := s.agenda ++ [.tick 1, .word c g] } else
    match decodeNat w (selOf x w) with
    | .ok i => stepWord c g (exec i { s with focus := some (c, g) })
    | .error _ => .next (execBadWord c g x cu w s)

/-- The readiness of every core's groups is brought up to date (R140). -/
def State.refreshAll (s : State) (from_ : Nat) : State :=
  (s.cores.map (·.1)).foldl (fun s c => if (s.core c).groups.isEmpty then s else s.refresh c from_) s

/-- What the bounds of R200 require by now in core `c`: buffer lines drain, dirty lines are written back and clean ones dropped. -/
def State.lineBounds (s : State) (c : Nat) : State :=
  let now := s.clk.toNat
  let s := ((s.core c).wcb.filter fun w => w.2.firstClk + 1024 ≤ now).foldl (fun s w => s.drainLine c w.1) s
  let s := ((s.core c).l1.filter fun l => l.2.dirty != 0 && l.2.dirtyClk + 65536 ≤ now).foldl (fun s l => s.writeBack c l.1) s
  s.modCore c fun k => { k with l1 := k.l1.filter fun l => !(l.2.dirty == 0 && l.2.fillClk + 8192 ≤ now) }

/-- Time passes while compute reset is released (R18). -/
def State.pass (s : State) (n : Nat) : State :=
  let s := s.takeRecover
  if s.life = .run ∨ s.life = .halt then
    let s := s.refreshAll s.clk.toNat
    let old := s.clk.toNat
    let s := { s with clk := s.clk + BitVec.ofNat 64 n }
    (s.cores.map (·.1)).foldl (fun s c => s.lineBounds c) (s.refreshAll old)
  else s

/-- One step. With nothing on the schedule one clock passes. -/
def step (s : State) : Host.Outcome State Fault Refusal :=
  match s.agenda with
  | [] => .next (s.pass 1)
  | .word c g :: t => runWord c g { s with agenda := t }
  | .event i :: t => exec i { s with agenda := t }
  | .cmd c id :: t => .next (State.cmdStep { s with agenda := t } c id)
  | .tick n :: t => .next (State.pass { s with agenda := t } n)

/-- The state with an instruction word standing where the next step takes it from (`placeWord`). -/
def State.withFetchWord (s : State) (_nbits w : Nat) : State := s.placeWord w

end Sys2Proof.Machine
end

