-- ==== Sys2Proof/Laws/Map.lean ====
section
/-!
SUPPORT. Sys2Proof/Laws/Map.lean: finite maps, ranges of naturals, register files and byte order.
-/
namespace Sys2Proof.Machine

/-! ### Finite maps -/

section
variable {α : Type}

@[simp] theorem tabGet?_nil (k : Nat) : tabGet? ([] : Tab α) k = none := rfl

theorem tabGet?_tabSet (t : Tab α) (k : Nat) (x : α) (j : Nat) :
    tabGet? (tabSet t k x) j = if j = k then some x else tabGet? t j := by
  induction t with
  | nil => simp only [tabSet, tabGet?]; grind
  | cons p t ih => obtain ⟨i, y⟩ := p; simp only [tabSet]; grind [tabGet?]

@[simp] theorem tabGet?_tabSet_self (t : Tab α) (k : Nat) (x : α) : tabGet? (tabSet t k x) k = some x := by
  simp [tabGet?_tabSet]

theorem tabGet?_tabSet_ne (t : Tab α) {k j : Nat} (x : α) (h : j ≠ k) : tabGet? (tabSet t k x) j = tabGet? t j := by
  simp [tabGet?_tabSet, h]

theorem tabGet_tabSet (d : α) (t : Tab α) (k : Nat) (x : α) (j : Nat) :
    tabGet d (tabSet t k x) j = if j = k then x else tabGet d t j := by
  simp only [tabGet, tabGet?_tabSet]; split <;> simp

@[simp] theorem tabGet_tabSet_self (d : α) (t : Tab α) (k : Nat) (x : α) : tabGet d (tabSet t k x) k = x := by
  simp [tabGet_tabSet]

theorem tabGet?_tabDel (t : Tab α) (k j : Nat) : tabGet? (tabDel t k) j = if j = k then none else tabGet? t j := by
  induction t with
  | nil => simp [tabDel]
  | cons p t ih => obtain ⟨i, y⟩ := p; simp only [tabDel]; grind [tabGet?]

@[simp] theorem tabGet?_tabDel_self (t : Tab α) (k : Nat) : tabGet? (tabDel t k) k = none := by simp [tabGet?_tabDel]

/-- A map over the values. -/
theorem tabGet?_map {β : Type} (f : Nat → α → β) (t : Tab α) (k : Nat) :
    tabGet? (t.map fun p => (p.1, f p.1 p.2)) k = (tabGet? t k).map (f k) := by
  induction t with
  | nil => rfl
  | cons p t ih => obtain ⟨i, y⟩ := p; simp only [List.map, tabGet?]; split <;> simp_all

end

/-! ### Ranges -/

theorem mem_natRange {a n x : Nat} : x ∈ natRange a n ↔ a ≤ x ∧ x < a + n := by
  induction n generalizing a with
  | zero => simp [natRange]
  | succ n ih => simp only [natRange, List.mem_cons, ih]; omega

@[simp] theorem length_natRange (a n : Nat) : (natRange a n).length = n := by
  induction n generalizing a <;> simp_all [natRange]

/-! ### Bytes -/

@[simp] theorem length_leBytes (n x : Nat) : (leBytes n x).length = n := by
  induction n generalizing x <;> simp_all [leBytes]

/-- The value of the bytes of a value (R2). -/
theorem ofLe_leBytes (n x : Nat) : ofLe (leBytes n x) = x % 2 ^ (8 * n) := by
  induction n generalizing x with
  | zero => simp [leBytes, ofLe, Nat.mod_one]
  | succ n ih =>
    simp only [leBytes, ofLe, ih, BitVec.toNat_ofNat]
    have : 2 ^ (8 * (n + 1)) = 2 ^ 8 * 2 ^ (8 * n) := by rw [← Nat.pow_add]; congr 1; omega
    rw [this]
    exact (Nat.mod_mul ..).symm

theorem ofLe_lt (bs : List Byte) : ofLe bs < 2 ^ (8 * bs.length) := by
  induction bs with
  | nil => simp [ofLe]
  | cons b t ih =>
    have h1 := b.isLt
    have : 2 ^ (8 * (t.length + 1)) = 256 * 2 ^ (8 * t.length) := by
      rw [show (256 : Nat) = 2 ^ 8 from rfl, ← Nat.pow_add]; congr 1; omega
    simp only [ofLe, List.length_cons, this]; omega

/-! ### Registers -/

section
variable {n : Nat}

theorem regGet_regSet (r : Regs n) (i j : Nat) (x : Word) :
    regGet (regSet r i x) j = if i = j ∧ i < n then x else regGet r j := by
  simp only [regGet, regSet]
  by_cases h : j < n
  · simp only [Vector.getElem?_eq_getElem h, Vector.getElem_setIfInBounds]; grind
  · have h1 : ∀ v : Regs n, v[j]? = none := fun v => by simp; omega
    simp only [h1]; grind

theorem regGet_regsSet_out (r : Regs n) (i k x j : Nat) (h : j < i ∨ i + k ≤ j) : regGet (regsSet r i k x) j = regGet r j := by
  induction k generalizing r i x with
  | zero => rfl
  | succ k ih => rw [regsSet, ih _ _ _ (by omega), regGet_regSet]; grind

theorem regsGet_congr (r q : Regs n) (i k : Nat) (h : ∀ j, i ≤ j → j < i + k → regGet r j = regGet q j) :
    regsGet r i k = regsGet q i k := by
  induction k generalizing i with
  | zero => rfl
  | succ k ih => rw [regsGet, regsGet, h i (by omega) (by omega), ih (i + 1) fun j h1 h2 => h j (by omega) (by omega)]

/-- Reading back `k` registers that were written. -/
theorem regsGet_regsSet (r : Regs n) (i k x : Nat) (h : i + k ≤ n) : regsGet (regsSet r i k x) i k = x % 2 ^ (32 * k) := by
  induction k generalizing r i x with
  | zero => simp [regsGet, Nat.mod_one]
  | succ k ih =>
    have h1 : regGet (regsSet (regSet r i (BitVec.ofNat 32 x)) (i + 1) k (x / 2 ^ 32)) i = BitVec.ofNat 32 x := by
      rw [regGet_regsSet_out _ _ _ _ _ (by omega), regGet_regSet]; simp; omega
    have h2 : 2 ^ (32 * (k + 1)) = 2 ^ 32 * 2 ^ (32 * k) := by rw [← Nat.pow_add]; congr 1; omega
    rw [regsSet, regsGet, h1, ih _ _ _ (by omega), BitVec.toNat_ofNat, h2, Nat.mod_mul]

/-- Writing takes the low bits only. -/
theorem regsSet_mod (r : Regs n) (i k x : Nat) : regsSet r i k (x % 2 ^ (32 * k)) = regsSet r i k x := by
  induction k generalizing r i x with
  | zero => rfl
  | succ k ih =>
    have h2 : 2 ^ (32 * (k + 1)) = 2 ^ 32 * 2 ^ (32 * k) := by rw [← Nat.pow_add]; congr 1; omega
    have h3 : BitVec.ofNat 32 (x % 2 ^ (32 * (k + 1))) = BitVec.ofNat 32 x := by
      apply BitVec.eq_of_toNat_eq; simp only [BitVec.toNat_ofNat, h2]; rw [Nat.mod_mul_right_mod]
    rw [regsSet, regsSet, h3, h2, Nat.mod_mul_right_div_self, ih]

end

end Sys2Proof.Machine
end

