-- ==== Sys2Proof/Laws/Memory.lean ====
section
/-!
SUPPORT. Sys2Proof/Laws/Memory.lean: reading after writing, and that every memory operation keeps the canonical form.
-/
namespace Sys2Proof.Machine

theorem Memory.get_of_lt {lo a : Nat} {m : Memory} (h : Memory.wfFrom lo m = true) (ha : a < lo) : Memory.get m a = memUnlisted := by
  cases m with
  | nil => rfl
  | cons p t =>
    obtain ⟨b, y⟩ := p
    simp only [Memory.wfFrom, Bool.and_eq_true, decide_eq_true_eq] at h
    simp only [Memory.get]; grind

/-- A byte read after a write: the byte written, or the byte that stood there. -/
theorem Memory.get_set (m : Memory) (a : Nat) (x : Byte) (b : Nat) (h : Memory.wf m = true) :
    Memory.get (Memory.set m a x) b = if b = a then x else Memory.get m b := by
  have main : ∀ (m : Memory) (lo : Nat), Memory.wfFrom lo m = true →
      Memory.get (Memory.set m a x) b = if b = a then x else Memory.get m b := by
    intro m
    induction m with
    | nil => intro _ _; simp only [Memory.set, Memory.get]; grind [Memory.get]
    | cons p t ih =>
      obtain ⟨c, y⟩ := p
      intro lo hw
      simp only [Memory.wfFrom, Bool.and_eq_true, decide_eq_true_eq] at hw
      have hl : ∀ b, b ≤ c → Memory.get t b = memUnlisted := fun b hb => Memory.get_of_lt hw.2 (by omega)
      have := ih (c + 1) hw.2
      simp only [Memory.set]
      grind [Memory.get]
  exact main m 0 h

theorem Memory.wfFrom_mono {lo lo' : Nat} {m : Memory} (h : Memory.wfFrom lo m = true) (hl : lo' ≤ lo) :
    Memory.wfFrom lo' m = true := by
  cases m with
  | nil => rfl
  | cons p t => obtain ⟨b, y⟩ := p; simp only [Memory.wfFrom, Bool.and_eq_true, decide_eq_true_eq] at *; exact ⟨⟨by omega, h.1.2⟩, h.2⟩

theorem Memory.wfFrom_set {lo a : Nat} {m : Memory} (x : Byte) (h : Memory.wfFrom lo m = true) (ha : lo ≤ a) :
    Memory.wfFrom lo (Memory.set m a x) = true := by
  induction m generalizing lo with
  | nil => simp only [Memory.set]; split <;> simp_all [Memory.wfFrom]
  | cons p t ih =>
    obtain ⟨b, y⟩ := p
    simp only [Memory.wfFrom, Bool.and_eq_true, decide_eq_true_eq] at h
    have h1 : Memory.wfFrom lo t = true := Memory.wfFrom_mono h.2 (by omega)
    have h2 := ih (lo := b + 1) h.2
    simp only [Memory.set]
    grind [Memory.wfFrom]

/-- A write keeps the canonical form. -/
theorem Memory.wf_set {m : Memory} (a : Nat) (x : Byte) (h : Memory.wf m = true) : Memory.wf (Memory.set m a x) = true :=
  Memory.wfFrom_set x h (Nat.zero_le a)

theorem Memory.wf_putAll {m : Memory} (ws : List (Nat × Byte)) (h : Memory.wf m = true) : Memory.wf (Memory.putAll m ws) = true := by
  induction ws generalizing m with
  | nil => exact h
  | cons w t ih => exact ih (Memory.wf_set w.1 w.2 h)

theorem Memory.wf_write {m : Memory} (a : Nat) (bs : List Byte) (h : Memory.wf m = true) : Memory.wf (Memory.write m a bs) = true := by
  induction bs generalizing m a with
  | nil => exact h
  | cons x t ih => exact ih (a + 1) (Memory.wf_set a x h)

theorem Memory.wf_nil : Memory.wf [] = true := rfl

/-- Bytes that a list of writes does not name keep their value. -/
theorem Memory.get_putAll_out {m : Memory} (ws : List (Nat × Byte)) (b : Nat) (h : Memory.wf m = true) (hb : b ∉ ws.map (·.1)) :
    Memory.get (Memory.putAll m ws) b = Memory.get m b := by
  induction ws generalizing m with
  | nil => rfl
  | cons w t ih =>
    simp only [List.map_cons, List.mem_cons, not_or] at hb
    rw [Memory.putAll, ih (Memory.wf_set _ _ h) hb.2, Memory.get_set _ _ _ _ h, if_neg hb.1]

/-- With addresses that do not repeat, each byte written reads back. -/
theorem Memory.get_putAll_in {m : Memory} (ws : List (Nat × Byte)) (a : Nat) (x : Byte) (h : Memory.wf m = true)
    (hd : (ws.map (·.1)).Nodup) (hm : (a, x) ∈ ws) : Memory.get (Memory.putAll m ws) a = x := by
  induction ws generalizing m with
  | nil => cases hm
  | cons w t ih =>
    simp only [List.map_cons, List.nodup_cons] at hd
    rw [Memory.putAll]
    rcases List.mem_cons.mp hm with rfl | hm
    · rw [Memory.get_putAll_out _ _ (Memory.wf_set _ _ h) hd.1, Memory.get_set _ _ _ _ h, if_pos rfl]
    · exact ih (Memory.wf_set _ _ h) hd.2 hm

theorem Memory.get_write_out {m : Memory} (a : Nat) (bs : List Byte) (b : Nat) (h : Memory.wf m = true)
    (hb : b < a ∨ a + bs.length ≤ b) : Memory.get (Memory.write m a bs) b = Memory.get m b := by
  induction bs generalizing m a with
  | nil => rfl
  | cons x t ih =>
    simp only [List.length_cons] at hb
    rw [Memory.write, ih _ (Memory.wf_set _ _ h) (by omega), Memory.get_set _ _ _ _ h, if_neg (by omega)]

/-- The bytes written read back. -/
theorem Memory.read_write {m : Memory} (a : Nat) (bs : List Byte) (h : Memory.wf m = true) :
    Memory.read (Memory.write m a bs) a bs.length = bs := by
  induction bs generalizing m a with
  | nil => rfl
  | cons x t ih =>
    have := ih (a + 1) (Memory.wf_set a x h)
    simp only [Memory.read, Memory.write, List.length_cons, natRange, List.map_cons] at *
    rw [Memory.get_write_out _ _ _ (Memory.wf_set _ _ h) (by omega), Memory.get_set _ _ _ _ h, if_pos rfl, this]

end Sys2Proof.Machine
end

