-- ==== Sys2Proof/Laws/State.lean ====
section
/-!
SUPPORT. Sys2Proof/Laws/State.lean: what each update of the state leaves and changes, field by field.
-/
namespace Sys2Proof.Machine

/-! ### A core -/

@[simp] theorem modCore_life (s : State) (c : Nat) (f : Core → Core) : (s.modCore c f).life = s.life := rfl
@[simp] theorem modCore_clk (s : State) (c : Nat) (f : Core → Core) : (s.modCore c f).clk = s.clk := rfl
@[simp] theorem modCore_ctxs (s : State) (c : Nat) (f : Core → Core) : (s.modCore c f).ctxs = s.ctxs := rfl
@[simp] theorem modCore_grids (s : State) (c : Nat) (f : Core → Core) : (s.modCore c f).grids = s.grids := rfl
@[simp] theorem modCore_nextGrid (s : State) (c : Nat) (f : Core → Core) : (s.modCore c f).nextGrid = s.nextGrid := rfl
@[simp] theorem modCore_dieRanges (s : State) (c : Nat) (f : Core → Core) : (s.modCore c f).dieRanges = s.dieRanges := rfl
@[simp] theorem modCore_cluRanges (s : State) (c : Nat) (f : Core → Core) : (s.modCore c f).cluRanges = s.cluRanges := rfl
@[simp] theorem modCore_walkers (s : State) (c : Nat) (f : Core → Core) : (s.modCore c f).walkers = s.walkers := rfl
@[simp] theorem modCore_dirCache (s : State) (c : Nat) (f : Core → Core) : (s.modCore c f).dirCache = s.dirCache := rfl
@[simp] theorem modCore_mem (s : State) (c : Nat) (f : Core → Core) : (s.modCore c f).mem = s.mem := rfl
@[simp] theorem modCore_poison (s : State) (c : Nat) (f : Core → Core) : (s.modCore c f).poison = s.poison := rfl
@[simp] theorem modCore_mons (s : State) (c : Nat) (f : Core → Core) : (s.modCore c f).mons = s.mons := rfl
@[simp] theorem modCore_dieBoards (s : State) (c : Nat) (f : Core → Core) : (s.modCore c f).dieBoards = s.dieBoards := rfl
@[simp] theorem modCore_modBoard (s : State) (c : Nat) (f : Core → Core) : (s.modCore c f).modBoard = s.modBoard := rfl
@[simp] theorem modCore_link (s : State) (c : Nat) (f : Core → Core) : (s.modCore c f).link = s.link := rfl
@[simp] theorem modCore_transit (s : State) (c : Nat) (f : Core → Core) : (s.modCore c f).transit = s.transit := rfl
@[simp] theorem modCore_commits (s : State) (c : Nat) (f : Core → Core) : (s.modCore c f).commits = s.commits := rfl
@[simp] theorem modCore_conflicts (s : State) (c : Nat) (f : Core → Core) : (s.modCore c f).conflicts = s.conflicts := rfl
@[simp] theorem modCore_pubs (s : State) (c : Nat) (f : Core → Core) : (s.modCore c f).pubs = s.pubs := rfl
@[simp] theorem modCore_replicas (s : State) (c : Nat) (f : Core → Core) : (s.modCore c f).replicas = s.replicas := rfl
@[simp] theorem modCore_stepCtx (s : State) (c : Nat) (f : Core → Core) : (s.modCore c f).stepCtx = s.stepCtx := rfl
@[simp] theorem modCore_expo (s : State) (c : Nat) (f : Core → Core) : (s.modCore c f).expo = s.expo := rfl
@[simp] theorem modCore_seqLog (s : State) (c : Nat) (f : Core → Core) : (s.modCore c f).seqLog = s.seqLog := rfl
@[simp] theorem modCore_colls (s : State) (c : Nat) (f : Core → Core) : (s.modCore c f).colls = s.colls := rfl
@[simp] theorem modCore_outbox (s : State) (c : Nat) (f : Core → Core) : (s.modCore c f).outbox = s.outbox := rfl
@[simp] theorem modCore_power (s : State) (c : Nat) (f : Core → Core) : (s.modCore c f).power = s.power := rfl
@[simp] theorem modCore_root (s : State) (c : Nat) (f : Core → Core) : (s.modCore c f).root = s.root := rfl
@[simp] theorem modCore_hostReply (s : State) (c : Nat) (f : Core → Core) : (s.modCore c f).hostReply = s.hostReply := rfl
@[simp] theorem modCore_agenda (s : State) (c : Nat) (f : Core → Core) : (s.modCore c f).agenda = s.agenda := rfl
@[simp] theorem modCore_focus (s : State) (c : Nat) (f : Core → Core) : (s.modCore c f).focus = s.focus := rfl

/-! ### A lane -/

@[simp] theorem modLane_life (s : State) (c p : Nat) (f : Lane → Lane) : (s.modLane c p f).life = s.life := rfl
@[simp] theorem modLane_clk (s : State) (c p : Nat) (f : Lane → Lane) : (s.modLane c p f).clk = s.clk := rfl
@[simp] theorem modLane_ctxs (s : State) (c p : Nat) (f : Lane → Lane) : (s.modLane c p f).ctxs = s.ctxs := rfl
@[simp] theorem modLane_grids (s : State) (c p : Nat) (f : Lane → Lane) : (s.modLane c p f).grids = s.grids := rfl
@[simp] theorem modLane_nextGrid (s : State) (c p : Nat) (f : Lane → Lane) : (s.modLane c p f).nextGrid = s.nextGrid := rfl
@[simp] theorem modLane_dieRanges (s : State) (c p : Nat) (f : Lane → Lane) : (s.modLane c p f).dieRanges = s.dieRanges := rfl
@[simp] theorem modLane_cluRanges (s : State) (c p : Nat) (f : Lane → Lane) : (s.modLane c p f).cluRanges = s.cluRanges := rfl
@[simp] theorem modLane_walkers (s : State) (c p : Nat) (f : Lane → Lane) : (s.modLane c p f).walkers = s.walkers := rfl
@[simp] theorem modLane_dirCache (s : State) (c p : Nat) (f : Lane → Lane) : (s.modLane c p f).dirCache = s.dirCache := rfl
@[simp] theorem modLane_mem (s : State) (c p : Nat) (f : Lane → Lane) : (s.modLane c p f).mem = s.mem := rfl
@[simp] theorem modLane_poison (s : State) (c p : Nat) (f : Lane → Lane) : (s.modLane c p f).poison = s.poison := rfl
@[simp] theorem modLane_mons (s : State) (c p : Nat) (f : Lane → Lane) : (s.modLane c p f).mons = s.mons := rfl
@[simp] theorem modLane_dieBoards (s : State) (c p : Nat) (f : Lane → Lane) : (s.modLane c p f).dieBoards = s.dieBoards := rfl
@[simp] theorem modLane_modBoard (s : State) (c p : Nat) (f : Lane → Lane) : (s.modLane c p f).modBoard = s.modBoard := rfl
@[simp] theorem modLane_link (s : State) (c p : Nat) (f : Lane → Lane) : (s.modLane c p f).link = s.link := rfl
@[simp] theorem modLane_transit (s : State) (c p : Nat) (f : Lane → Lane) : (s.modLane c p f).transit = s.transit := rfl
@[simp] theorem modLane_commits (s : State) (c p : Nat) (f : Lane → Lane) : (s.modLane c p f).commits = s.commits := rfl
@[simp] theorem modLane_conflicts (s : State) (c p : Nat) (f : Lane → Lane) : (s.modLane c p f).conflicts = s.conflicts := rfl
@[simp] theorem modLane_pubs (s : State) (c p : Nat) (f : Lane → Lane) : (s.modLane c p f).pubs = s.pubs := rfl
@[simp] theorem modLane_replicas (s : State) (c p : Nat) (f : Lane → Lane) : (s.modLane c p f).replicas = s.replicas := rfl
@[simp] theorem modLane_stepCtx (s : State) (c p : Nat) (f : Lane → Lane) : (s.modLane c p f).stepCtx = s.stepCtx := rfl
@[simp] theorem modLane_expo (s : State) (c p : Nat) (f : Lane → Lane) : (s.modLane c p f).expo = s.expo := rfl
@[simp] theorem modLane_seqLog (s : State) (c p : Nat) (f : Lane → Lane) : (s.modLane c p f).seqLog = s.seqLog := rfl
@[simp] theorem modLane_colls (s : State) (c p : Nat) (f : Lane → Lane) : (s.modLane c p f).colls = s.colls := rfl
@[simp] theorem modLane_outbox (s : State) (c p : Nat) (f : Lane → Lane) : (s.modLane c p f).outbox = s.outbox := rfl
@[simp] theorem modLane_power (s : State) (c p : Nat) (f : Lane → Lane) : (s.modLane c p f).power = s.power := rfl
@[simp] theorem modLane_root (s : State) (c p : Nat) (f : Lane → Lane) : (s.modLane c p f).root = s.root := rfl
@[simp] theorem modLane_hostReply (s : State) (c p : Nat) (f : Lane → Lane) : (s.modLane c p f).hostReply = s.hostReply := rfl
@[simp] theorem modLane_agenda (s : State) (c p : Nat) (f : Lane → Lane) : (s.modLane c p f).agenda = s.agenda := rfl
@[simp] theorem modLane_focus (s : State) (c p : Nat) (f : Lane → Lane) : (s.modLane c p f).focus = s.focus := rfl

/-! ### A context slot -/

@[simp] theorem modCtx_life (s : State) (x : Nat) (f : Ctx → Ctx) : (s.modCtx x f).life = s.life := rfl
@[simp] theorem modCtx_clk (s : State) (x : Nat) (f : Ctx → Ctx) : (s.modCtx x f).clk = s.clk := rfl
@[simp] theorem modCtx_cores (s : State) (x : Nat) (f : Ctx → Ctx) : (s.modCtx x f).cores = s.cores := rfl
@[simp] theorem modCtx_grids (s : State) (x : Nat) (f : Ctx → Ctx) : (s.modCtx x f).grids = s.grids := rfl
@[simp] theorem modCtx_nextGrid (s : State) (x : Nat) (f : Ctx → Ctx) : (s.modCtx x f).nextGrid = s.nextGrid := rfl
@[simp] theorem modCtx_dieRanges (s : State) (x : Nat) (f : Ctx → Ctx) : (s.modCtx x f).dieRanges = s.dieRanges := rfl
@[simp] theorem modCtx_cluRanges (s : State) (x : Nat) (f : Ctx → Ctx) : (s.modCtx x f).cluRanges = s.cluRanges := rfl
@[simp] theorem modCtx_walkers (s : State) (x : Nat) (f : Ctx → Ctx) : (s.modCtx x f).walkers = s.walkers := rfl
@[simp] theorem modCtx_dirCache (s : State) (x : Nat) (f : Ctx → Ctx) : (s.modCtx x f).dirCache = s.dirCache := rfl
@[simp] theorem modCtx_mem (s : State) (x : Nat) (f : Ctx → Ctx) : (s.modCtx x f).mem = s.mem := rfl
@[simp] theorem modCtx_poison (s : State) (x : Nat) (f : Ctx → Ctx) : (s.modCtx x f).poison = s.poison := rfl
@[simp] theorem modCtx_mons (s : State) (x : Nat) (f : Ctx → Ctx) : (s.modCtx x f).mons = s.mons := rfl
@[simp] theorem modCtx_dieBoards (s : State) (x : Nat) (f : Ctx → Ctx) : (s.modCtx x f).dieBoards = s.dieBoards := rfl
@[simp] theorem modCtx_modBoard (s : State) (x : Nat) (f : Ctx → Ctx) : (s.modCtx x f).modBoard = s.modBoard := rfl
@[simp] theorem modCtx_link (s : State) (x : Nat) (f : Ctx → Ctx) : (s.modCtx x f).link = s.link := rfl
@[simp] theorem modCtx_transit (s : State) (x : Nat) (f : Ctx → Ctx) : (s.modCtx x f).transit = s.transit := rfl
@[simp] theorem modCtx_commits (s : State) (x : Nat) (f : Ctx → Ctx) : (s.modCtx x f).commits = s.commits := rfl
@[simp] theorem modCtx_conflicts (s : State) (x : Nat) (f : Ctx → Ctx) : (s.modCtx x f).conflicts = s.conflicts := rfl
@[simp] theorem modCtx_pubs (s : State) (x : Nat) (f : Ctx → Ctx) : (s.modCtx x f).pubs = s.pubs := rfl
@[simp] theorem modCtx_replicas (s : State) (x : Nat) (f : Ctx → Ctx) : (s.modCtx x f).replicas = s.replicas := rfl
@[simp] theorem modCtx_stepCtx (s : State) (x : Nat) (f : Ctx → Ctx) : (s.modCtx x f).stepCtx = s.stepCtx := rfl
@[simp] theorem modCtx_expo (s : State) (x : Nat) (f : Ctx → Ctx) : (s.modCtx x f).expo = s.expo := rfl
@[simp] theorem modCtx_seqLog (s : State) (x : Nat) (f : Ctx → Ctx) : (s.modCtx x f).seqLog = s.seqLog := rfl
@[simp] theorem modCtx_colls (s : State) (x : Nat) (f : Ctx → Ctx) : (s.modCtx x f).colls = s.colls := rfl
@[simp] theorem modCtx_outbox (s : State) (x : Nat) (f : Ctx → Ctx) : (s.modCtx x f).outbox = s.outbox := rfl
@[simp] theorem modCtx_power (s : State) (x : Nat) (f : Ctx → Ctx) : (s.modCtx x f).power = s.power := rfl
@[simp] theorem modCtx_root (s : State) (x : Nat) (f : Ctx → Ctx) : (s.modCtx x f).root = s.root := rfl
@[simp] theorem modCtx_hostReply (s : State) (x : Nat) (f : Ctx → Ctx) : (s.modCtx x f).hostReply = s.hostReply := rfl
@[simp] theorem modCtx_agenda (s : State) (x : Nat) (f : Ctx → Ctx) : (s.modCtx x f).agenda = s.agenda := rfl
@[simp] theorem modCtx_focus (s : State) (x : Nat) (f : Ctx → Ctx) : (s.modCtx x f).focus = s.focus := rfl

/-! ### A group -/

@[simp] theorem modGroup_life (s : State) (c g : Nat) (f : Group → Group) : (s.modGroup c g f).life = s.life := by unfold State.modGroup; split <;> rfl
@[simp] theorem modGroup_clk (s : State) (c g : Nat) (f : Group → Group) : (s.modGroup c g f).clk = s.clk := by unfold State.modGroup; split <;> rfl
@[simp] theorem modGroup_ctxs (s : State) (c g : Nat) (f : Group → Group) : (s.modGroup c g f).ctxs = s.ctxs := by unfold State.modGroup; split <;> rfl
@[simp] theorem modGroup_grids (s : State) (c g : Nat) (f : Group → Group) : (s.modGroup c g f).grids = s.grids := by unfold State.modGroup; split <;> rfl
@[simp] theorem modGroup_nextGrid (s : State) (c g : Nat) (f : Group → Group) : (s.modGroup c g f).nextGrid = s.nextGrid := by unfold State.modGroup; split <;> rfl
@[simp] theorem modGroup_dieRanges (s : State) (c g : Nat) (f : Group → Group) : (s.modGroup c g f).dieRanges = s.dieRanges := by unfold State.modGroup; split <;> rfl
@[simp] theorem modGroup_cluRanges (s : State) (c g : Nat) (f : Group → Group) : (s.modGroup c g f).cluRanges = s.cluRanges := by unfold State.modGroup; split <;> rfl
@[simp] theorem modGroup_walkers (s : State) (c g : Nat) (f : Group → Group) : (s.modGroup c g f).walkers = s.walkers := by unfold State.modGroup; split <;> rfl
@[simp] theorem modGroup_dirCache (s : State) (c g : Nat) (f : Group → Group) : (s.modGroup c g f).dirCache = s.dirCache := by unfold State.modGroup; split <;> rfl
@[simp] theorem modGroup_mem (s : State) (c g : Nat) (f : Group → Group) : (s.modGroup c g f).mem = s.mem := by unfold State.modGroup; split <;> rfl
@[simp] theorem modGroup_poison (s : State) (c g : Nat) (f : Group → Group) : (s.modGroup c g f).poison = s.poison := by unfold State.modGroup; split <;> rfl
@[simp] theorem modGroup_mons (s : State) (c g : Nat) (f : Group → Group) : (s.modGroup c g f).mons = s.mons := by unfold State.modGroup; split <;> rfl
@[simp] theorem modGroup_dieBoards (s : State) (c g : Nat) (f : Group → Group) : (s.modGroup c g f).dieBoards = s.dieBoards := by unfold State.modGroup; split <;> rfl
@[simp] theorem modGroup_modBoard (s : State) (c g : Nat) (f : Group → Group) : (s.modGroup c g f).modBoard = s.modBoard := by unfold State.modGroup; split <;> rfl
@[simp] theorem modGroup_link (s : State) (c g : Nat) (f : Group → Group) : (s.modGroup c g f).link = s.link := by unfold State.modGroup; split <;> rfl
@[simp] theorem modGroup_transit (s : State) (c g : Nat) (f : Group → Group) : (s.modGroup c g f).transit = s.transit := by unfold State.modGroup; split <;> rfl
@[simp] theorem modGroup_commits (s : State) (c g : Nat) (f : Group → Group) : (s.modGroup c g f).commits = s.commits := by unfold State.modGroup; split <;> rfl
@[simp] theorem modGroup_conflicts (s : State) (c g : Nat) (f : Group → Group) : (s.modGroup c g f).conflicts = s.conflicts := by unfold State.modGroup; split <;> rfl
@[simp] theorem modGroup_pubs (s : State) (c g : Nat) (f : Group → Group) : (s.modGroup c g f).pubs = s.pubs := by unfold State.modGroup; split <;> rfl
@[simp] theorem modGroup_replicas (s : State) (c g : Nat) (f : Group → Group) : (s.modGroup c g f).replicas = s.replicas := by unfold State.modGroup; split <;> rfl
@[simp] theorem modGroup_stepCtx (s : State) (c g : Nat) (f : Group → Group) : (s.modGroup c g f).stepCtx = s.stepCtx := by unfold State.modGroup; split <;> rfl
@[simp] theorem modGroup_expo (s : State) (c g : Nat) (f : Group → Group) : (s.modGroup c g f).expo = s.expo := by unfold State.modGroup; split <;> rfl
@[simp] theorem modGroup_seqLog (s : State) (c g : Nat) (f : Group → Group) : (s.modGroup c g f).seqLog = s.seqLog := by unfold State.modGroup; split <;> rfl
@[simp] theorem modGroup_colls (s : State) (c g : Nat) (f : Group → Group) : (s.modGroup c g f).colls = s.colls := by unfold State.modGroup; split <;> rfl
@[simp] theorem modGroup_outbox (s : State) (c g : Nat) (f : Group → Group) : (s.modGroup c g f).outbox = s.outbox := by unfold State.modGroup; split <;> rfl
@[simp] theorem modGroup_power (s : State) (c g : Nat) (f : Group → Group) : (s.modGroup c g f).power = s.power := by unfold State.modGroup; split <;> rfl
@[simp] theorem modGroup_root (s : State) (c g : Nat) (f : Group → Group) : (s.modGroup c g f).root = s.root := by unfold State.modGroup; split <;> rfl
@[simp] theorem modGroup_hostReply (s : State) (c g : Nat) (f : Group → Group) : (s.modGroup c g f).hostReply = s.hostReply := by unfold State.modGroup; split <;> rfl
@[simp] theorem modGroup_agenda (s : State) (c g : Nat) (f : Group → Group) : (s.modGroup c g f).agenda = s.agenda := by unfold State.modGroup; split <;> rfl
@[simp] theorem modGroup_focus (s : State) (c g : Nat) (f : Group → Group) : (s.modGroup c g f).focus = s.focus := by unfold State.modGroup; split <;> rfl

/-! ### A team -/

@[simp] theorem modTeam_life (s : State) (c j : Nat) (f : Team → Team) : (s.modTeam c j f).life = s.life := by unfold State.modTeam; split <;> rfl
@[simp] theorem modTeam_clk (s : State) (c j : Nat) (f : Team → Team) : (s.modTeam c j f).clk = s.clk := by unfold State.modTeam; split <;> rfl
@[simp] theorem modTeam_ctxs (s : State) (c j : Nat) (f : Team → Team) : (s.modTeam c j f).ctxs = s.ctxs := by unfold State.modTeam; split <;> rfl
@[simp] theorem modTeam_grids (s : State) (c j : Nat) (f : Team → Team) : (s.modTeam c j f).grids = s.grids := by unfold State.modTeam; split <;> rfl
@[simp] theorem modTeam_nextGrid (s : State) (c j : Nat) (f : Team → Team) : (s.modTeam c j f).nextGrid = s.nextGrid := by unfold State.modTeam; split <;> rfl
@[simp] theorem modTeam_dieRanges (s : State) (c j : Nat) (f : Team → Team) : (s.modTeam c j f).dieRanges = s.dieRanges := by unfold State.modTeam; split <;> rfl
@[simp] theorem modTeam_cluRanges (s : State) (c j : Nat) (f : Team → Team) : (s.modTeam c j f).cluRanges = s.cluRanges := by unfold State.modTeam; split <;> rfl
@[simp] theorem modTeam_walkers (s : State) (c j : Nat) (f : Team → Team) : (s.modTeam c j f).walkers = s.walkers := by unfold State.modTeam; split <;> rfl
@[simp] theorem modTeam_dirCache (s : State) (c j : Nat) (f : Team → Team) : (s.modTeam c j f).dirCache = s.dirCache := by unfold State.modTeam; split <;> rfl
@[simp] theorem modTeam_mem (s : State) (c j : Nat) (f : Team → Team) : (s.modTeam c j f).mem = s.mem := by unfold State.modTeam; split <;> rfl
@[simp] theorem modTeam_poison (s : State) (c j : Nat) (f : Team → Team) : (s.modTeam c j f).poison = s.poison := by unfold State.modTeam; split <;> rfl
@[simp] theorem modTeam_mons (s : State) (c j : Nat) (f : Team → Team) : (s.modTeam c j f).mons = s.mons := by unfold State.modTeam; split <;> rfl
@[simp] theorem modTeam_dieBoards (s : State) (c j : Nat) (f : Team → Team) : (s.modTeam c j f).dieBoards = s.dieBoards := by unfold State.modTeam; split <;> rfl
@[simp] theorem modTeam_modBoard (s : State) (c j : Nat) (f : Team → Team) : (s.modTeam c j f).modBoard = s.modBoard := by unfold State.modTeam; split <;> rfl
@[simp] theorem modTeam_link (s : State) (c j : Nat) (f : Team → Team) : (s.modTeam c j f).link = s.link := by unfold State.modTeam; split <;> rfl
@[simp] theorem modTeam_transit (s : State) (c j : Nat) (f : Team → Team) : (s.modTeam c j f).transit = s.transit := by unfold State.modTeam; split <;> rfl
@[simp] theorem modTeam_commits (s : State) (c j : Nat) (f : Team → Team) : (s.modTeam c j f).commits = s.commits := by unfold State.modTeam; split <;> rfl
@[simp] theorem modTeam_conflicts (s : State) (c j : Nat) (f : Team → Team) : (s.modTeam c j f).conflicts = s.conflicts := by unfold State.modTeam; split <;> rfl
@[simp] theorem modTeam_pubs (s : State) (c j : Nat) (f : Team → Team) : (s.modTeam c j f).pubs = s.pubs := by unfold State.modTeam; split <;> rfl
@[simp] theorem modTeam_replicas (s : State) (c j : Nat) (f : Team → Team) : (s.modTeam c j f).replicas = s.replicas := by unfold State.modTeam; split <;> rfl
@[simp] theorem modTeam_stepCtx (s : State) (c j : Nat) (f : Team → Team) : (s.modTeam c j f).stepCtx = s.stepCtx := by unfold State.modTeam; split <;> rfl
@[simp] theorem modTeam_expo (s : State) (c j : Nat) (f : Team → Team) : (s.modTeam c j f).expo = s.expo := by unfold State.modTeam; split <;> rfl
@[simp] theorem modTeam_seqLog (s : State) (c j : Nat) (f : Team → Team) : (s.modTeam c j f).seqLog = s.seqLog := by unfold State.modTeam; split <;> rfl
@[simp] theorem modTeam_colls (s : State) (c j : Nat) (f : Team → Team) : (s.modTeam c j f).colls = s.colls := by unfold State.modTeam; split <;> rfl
@[simp] theorem modTeam_outbox (s : State) (c j : Nat) (f : Team → Team) : (s.modTeam c j f).outbox = s.outbox := by unfold State.modTeam; split <;> rfl
@[simp] theorem modTeam_power (s : State) (c j : Nat) (f : Team → Team) : (s.modTeam c j f).power = s.power := by unfold State.modTeam; split <;> rfl
@[simp] theorem modTeam_root (s : State) (c j : Nat) (f : Team → Team) : (s.modTeam c j f).root = s.root := by unfold State.modTeam; split <;> rfl
@[simp] theorem modTeam_hostReply (s : State) (c j : Nat) (f : Team → Team) : (s.modTeam c j f).hostReply = s.hostReply := by unfold State.modTeam; split <;> rfl
@[simp] theorem modTeam_agenda (s : State) (c j : Nat) (f : Team → Team) : (s.modTeam c j f).agenda = s.agenda := by unfold State.modTeam; split <;> rfl
@[simp] theorem modTeam_focus (s : State) (c j : Nat) (f : Team → Team) : (s.modTeam c j f).focus = s.focus := by unfold State.modTeam; split <;> rfl

/-! ### A grid -/

@[simp] theorem modGrid_life (s : State) (g : Nat) (f : Grid → Grid) : (s.modGrid g f).life = s.life := by unfold State.modGrid; split <;> rfl
@[simp] theorem modGrid_clk (s : State) (g : Nat) (f : Grid → Grid) : (s.modGrid g f).clk = s.clk := by unfold State.modGrid; split <;> rfl
@[simp] theorem modGrid_ctxs (s : State) (g : Nat) (f : Grid → Grid) : (s.modGrid g f).ctxs = s.ctxs := by unfold State.modGrid; split <;> rfl
@[simp] theorem modGrid_cores (s : State) (g : Nat) (f : Grid → Grid) : (s.modGrid g f).cores = s.cores := by unfold State.modGrid; split <;> rfl
@[simp] theorem modGrid_nextGrid (s : State) (g : Nat) (f : Grid → Grid) : (s.modGrid g f).nextGrid = s.nextGrid := by unfold State.modGrid; split <;> rfl
@[simp] theorem modGrid_dieRanges (s : State) (g : Nat) (f : Grid → Grid) : (s.modGrid g f).dieRanges = s.dieRanges := by unfold State.modGrid; split <;> rfl
@[simp] theorem modGrid_cluRanges (s : State) (g : Nat) (f : Grid → Grid) : (s.modGrid g f).cluRanges = s.cluRanges := by unfold State.modGrid; split <;> rfl
@[simp] theorem modGrid_walkers (s : State) (g : Nat) (f : Grid → Grid) : (s.modGrid g f).walkers = s.walkers := by unfold State.modGrid; split <;> rfl
@[simp] theorem modGrid_dirCache (s : State) (g : Nat) (f : Grid → Grid) : (s.modGrid g f).dirCache = s.dirCache := by unfold State.modGrid; split <;> rfl
@[simp] theorem modGrid_mem (s : State) (g : Nat) (f : Grid → Grid) : (s.modGrid g f).mem = s.mem := by unfold State.modGrid; split <;> rfl
@[simp] theorem modGrid_poison (s : State) (g : Nat) (f : Grid → Grid) : (s.modGrid g f).poison = s.poison := by unfold State.modGrid; split <;> rfl
@[simp] theorem modGrid_mons (s : State) (g : Nat) (f : Grid → Grid) : (s.modGrid g f).mons = s.mons := by unfold State.modGrid; split <;> rfl
@[simp] theorem modGrid_dieBoards (s : State) (g : Nat) (f : Grid → Grid) : (s.modGrid g f).dieBoards = s.dieBoards := by unfold State.modGrid; split <;> rfl
@[simp] theorem modGrid_modBoard (s : State) (g : Nat) (f : Grid → Grid) : (s.modGrid g f).modBoard = s.modBoard := by unfold State.modGrid; split <;> rfl
@[simp] theorem modGrid_link (s : State) (g : Nat) (f : Grid → Grid) : (s.modGrid g f).link = s.link := by unfold State.modGrid; split <;> rfl
@[simp] theorem modGrid_transit (s : State) (g : Nat) (f : Grid → Grid) : (s.modGrid g f).transit = s.transit := by unfold State.modGrid; split <;> rfl
@[simp] theorem modGrid_commits (s : State) (g : Nat) (f : Grid → Grid) : (s.modGrid g f).commits = s.commits := by unfold State.modGrid; split <;> rfl
@[simp] theorem modGrid_conflicts (s : State) (g : Nat) (f : Grid → Grid) : (s.modGrid g f).conflicts = s.conflicts := by unfold State.modGrid; split <;> rfl
@[simp] theorem modGrid_pubs (s : State) (g : Nat) (f : Grid → Grid) : (s.modGrid g f).pubs = s.pubs := by unfold State.modGrid; split <;> rfl
@[simp] theorem modGrid_replicas (s : State) (g : Nat) (f : Grid → Grid) : (s.modGrid g f).replicas = s.replicas := by unfold State.modGrid; split <;> rfl
@[simp] theorem modGrid_stepCtx (s : State) (g : Nat) (f : Grid → Grid) : (s.modGrid g f).stepCtx = s.stepCtx := by unfold State.modGrid; split <;> rfl
@[simp] theorem modGrid_expo (s : State) (g : Nat) (f : Grid → Grid) : (s.modGrid g f).expo = s.expo := by unfold State.modGrid; split <;> rfl
@[simp] theorem modGrid_seqLog (s : State) (g : Nat) (f : Grid → Grid) : (s.modGrid g f).seqLog = s.seqLog := by unfold State.modGrid; split <;> rfl
@[simp] theorem modGrid_colls (s : State) (g : Nat) (f : Grid → Grid) : (s.modGrid g f).colls = s.colls := by unfold State.modGrid; split <;> rfl
@[simp] theorem modGrid_outbox (s : State) (g : Nat) (f : Grid → Grid) : (s.modGrid g f).outbox = s.outbox := by unfold State.modGrid; split <;> rfl
@[simp] theorem modGrid_power (s : State) (g : Nat) (f : Grid → Grid) : (s.modGrid g f).power = s.power := by unfold State.modGrid; split <;> rfl
@[simp] theorem modGrid_root (s : State) (g : Nat) (f : Grid → Grid) : (s.modGrid g f).root = s.root := by unfold State.modGrid; split <;> rfl
@[simp] theorem modGrid_hostReply (s : State) (g : Nat) (f : Grid → Grid) : (s.modGrid g f).hostReply = s.hostReply := by unfold State.modGrid; split <;> rfl
@[simp] theorem modGrid_agenda (s : State) (g : Nat) (f : Grid → Grid) : (s.modGrid g f).agenda = s.agenda := by unfold State.modGrid; split <;> rfl
@[simp] theorem modGrid_focus (s : State) (g : Nat) (f : Grid → Grid) : (s.modGrid g f).focus = s.focus := by unfold State.modGrid; split <;> rfl

/-! ### Reading a core back -/

theorem core_modCore (s : State) (c : Nat) (f : Core → Core) (k : Nat) :
    (s.modCore c f).core k = if k = c then f (s.core c) else s.core k := by
  simp only [State.core, State.modCore, tabGet_tabSet]

@[simp] theorem core_modCore_self (s : State) (c : Nat) (f : Core → Core) : (s.modCore c f).core c = f (s.core c) := by
  simp [core_modCore]

@[simp] theorem core_modCtx (s : State) (x : Nat) (f : Ctx → Ctx) (k : Nat) : (s.modCtx x f).core k = s.core k := rfl

@[simp] theorem core_modGrid (s : State) (g : Nat) (f : Grid → Grid) (k : Nat) : (s.modGrid g f).core k = s.core k := by
  simp [State.core]

theorem core_modLane (s : State) (c p : Nat) (f : Lane → Lane) (k : Nat) :
    (s.modLane c p f).core k =
      if k = c then { s.core c with lanes := tabSet (s.core c).lanes p (f (s.lane c p)) } else s.core k := by
  simp only [State.modLane, core_modCore]; rfl

theorem core_modGroup (s : State) (c g : Nat) (f : Group → Group) (k : Nat) :
    (s.modGroup c g f).core k = if k = c then
      (match s.group? c g with
        | none => s.core c
        | some x => { s.core c with groups := tabSet (s.core c).groups g (f x) }) else s.core k := by
  unfold State.modGroup
  cases h : s.group? c g with
  | none => simp; intro hk; rw [hk]
  | some x => simp only [core_modCore]

theorem core_modTeam (s : State) (c j : Nat) (f : Team → Team) (k : Nat) :
    (s.modTeam c j f).core k = if k = c then
      (match s.team? c j with
        | none => s.core c
        | some x => { s.core c with teams := tabSet (s.core c).teams j (f x) }) else s.core k := by
  unfold State.modTeam
  cases h : s.team? c j with
  | none => simp; intro hk; rw [hk]
  | some x => simp only [core_modCore]

/-! ### Fields of a core after `modLane` -/

@[simp] theorem core_modLane_groups (s : State) (c p : Nat) (f : Lane → Lane) (k : Nat) : ((s.modLane c p f).core k).groups = (s.core k).groups := by
  rw [core_modLane]; grind
@[simp] theorem core_modLane_teams (s : State) (c p : Nat) (f : Lane → Lane) (k : Nat) : ((s.modLane c p f).core k).teams = (s.core k).teams := by
  rw [core_modLane]; grind
@[simp] theorem core_modLane_scratch (s : State) (c p : Nat) (f : Lane → Lane) (k : Nat) : ((s.modLane c p f).core k).scratch = (s.core k).scratch := by
  rw [core_modLane]; grind
@[simp] theorem core_modLane_scratchPoison (s : State) (c p : Nat) (f : Lane → Lane) (k : Nat) : ((s.modLane c p f).core k).scratchPoison = (s.core k).scratchPoison := by
  rw [core_modLane]; grind
@[simp] theorem core_modLane_l1 (s : State) (c p : Nat) (f : Lane → Lane) (k : Nat) : ((s.modLane c p f).core k).l1 = (s.core k).l1 := by
  rw [core_modLane]; grind
@[simp] theorem core_modLane_wcb (s : State) (c p : Nat) (f : Lane → Lane) (k : Nat) : ((s.modLane c p f).core k).wcb = (s.core k).wcb := by
  rw [core_modLane]; grind
@[simp] theorem core_modLane_flights (s : State) (c p : Nat) (f : Lane → Lane) (k : Nat) : ((s.modLane c p f).core k).flights = (s.core k).flights := by
  rw [core_modLane]; grind
@[simp] theorem core_modLane_seenDie (s : State) (c p : Nat) (f : Lane → Lane) (k : Nat) : ((s.modLane c p f).core k).seenDie = (s.core k).seenDie := by
  rw [core_modLane]; grind
@[simp] theorem core_modLane_seenMod (s : State) (c p : Nat) (f : Lane → Lane) (k : Nat) : ((s.modLane c p f).core k).seenMod = (s.core k).seenMod := by
  rw [core_modLane]; grind
@[simp] theorem core_modLane_sigDie (s : State) (c p : Nat) (f : Lane → Lane) (k : Nat) : ((s.modLane c p f).core k).sigDie = (s.core k).sigDie := by
  rw [core_modLane]; grind
@[simp] theorem core_modLane_sigMod (s : State) (c p : Nat) (f : Lane → Lane) (k : Nat) : ((s.modLane c p f).core k).sigMod = (s.core k).sigMod := by
  rw [core_modLane]; grind
@[simp] theorem core_modLane_peersWritten (s : State) (c p : Nat) (f : Lane → Lane) (k : Nat) : ((s.modLane c p f).core k).peersWritten = (s.core k).peersWritten := by
  rw [core_modLane]; grind
@[simp] theorem core_modLane_tlb (s : State) (c p : Nat) (f : Lane → Lane) (k : Nat) : ((s.modLane c p f).core k).tlb = (s.core k).tlb := by
  rw [core_modLane]; grind
@[simp] theorem core_modLane_log (s : State) (c p : Nat) (f : Lane → Lane) (k : Nat) : ((s.modLane c p f).core k).log = (s.core k).log := by
  rw [core_modLane]; grind
@[simp] theorem core_modLane_pend (s : State) (c p : Nat) (f : Lane → Lane) (k : Nat) : ((s.modLane c p f).core k).pend = (s.core k).pend := by
  rw [core_modLane]; grind
@[simp] theorem core_modLane_results (s : State) (c p : Nat) (f : Lane → Lane) (k : Nat) : ((s.modLane c p f).core k).results = (s.core k).results := by
  rw [core_modLane]; grind
@[simp] theorem core_modLane_cmds (s : State) (c p : Nat) (f : Lane → Lane) (k : Nat) : ((s.modLane c p f).core k).cmds = (s.core k).cmds := by
  rw [core_modLane]; grind
@[simp] theorem core_modLane_accm (s : State) (c p : Nat) (f : Lane → Lane) (k : Nat) : ((s.modLane c p f).core k).accm = (s.core k).accm := by
  rw [core_modLane]; grind
@[simp] theorem core_modLane_ptr (s : State) (c p : Nat) (f : Lane → Lane) (k : Nat) : ((s.modLane c p f).core k).ptr = (s.core k).ptr := by
  rw [core_modLane]; grind
@[simp] theorem core_modLane_portFree (s : State) (c p : Nat) (f : Lane → Lane) (k : Nat) : ((s.modLane c p f).core k).portFree = (s.core k).portFree := by
  rw [core_modLane]; grind
@[simp] theorem core_modLane_pipeTurn (s : State) (c p : Nat) (f : Lane → Lane) (k : Nat) : ((s.modLane c p f).core k).pipeTurn = (s.core k).pipeTurn := by
  rw [core_modLane]; grind
@[simp] theorem core_modLane_nextOrder (s : State) (c p : Nat) (f : Lane → Lane) (k : Nat) : ((s.modLane c p f).core k).nextOrder = (s.core k).nextOrder := by
  rw [core_modLane]; grind
@[simp] theorem core_modLane_nextId (s : State) (c p : Nat) (f : Lane → Lane) (k : Nat) : ((s.modLane c p f).core k).nextId = (s.core k).nextId := by
  rw [core_modLane]; grind
@[simp] theorem core_modLane_retired (s : State) (c p : Nat) (f : Lane → Lane) (k : Nat) : ((s.modLane c p f).core k).retired = (s.core k).retired := by
  rw [core_modLane]; grind

/-! ### Fields of a core after `modGroup` -/

@[simp] theorem core_modGroup_lanes (s : State) (c g : Nat) (f : Group → Group) (k : Nat) : ((s.modGroup c g f).core k).lanes = (s.core k).lanes := by
  rw [core_modGroup]; grind
@[simp] theorem core_modGroup_teams (s : State) (c g : Nat) (f : Group → Group) (k : Nat) : ((s.modGroup c g f).core k).teams = (s.core k).teams := by
  rw [core_modGroup]; grind
@[simp] theorem core_modGroup_scratch (s : State) (c g : Nat) (f : Group → Group) (k : Nat) : ((s.modGroup c g f).core k).scratch = (s.core k).scratch := by
  rw [core_modGroup]; grind
@[simp] theorem core_modGroup_scratchPoison (s : State) (c g : Nat) (f : Group → Group) (k : Nat) : ((s.modGroup c g f).core k).scratchPoison = (s.core k).scratchPoison := by
  rw [core_modGroup]; grind
@[simp] theorem core_modGroup_l1 (s : State) (c g : Nat) (f : Group → Group) (k : Nat) : ((s.modGroup c g f).core k).l1 = (s.core k).l1 := by
  rw [core_modGroup]; grind
@[simp] theorem core_modGroup_wcb (s : State) (c g : Nat) (f : Group → Group) (k : Nat) : ((s.modGroup c g f).core k).wcb = (s.core k).wcb := by
  rw [core_modGroup]; grind
@[simp] theorem core_modGroup_flights (s : State) (c g : Nat) (f : Group → Group) (k : Nat) : ((s.modGroup c g f).core k).flights = (s.core k).flights := by
  rw [core_modGroup]; grind
@[simp] theorem core_modGroup_seenDie (s : State) (c g : Nat) (f : Group → Group) (k : Nat) : ((s.modGroup c g f).core k).seenDie = (s.core k).seenDie := by
  rw [core_modGroup]; grind
@[simp] theorem core_modGroup_seenMod (s : State) (c g : Nat) (f : Group → Group) (k : Nat) : ((s.modGroup c g f).core k).seenMod = (s.core k).seenMod := by
  rw [core_modGroup]; grind
@[simp] theorem core_modGroup_sigDie (s : State) (c g : Nat) (f : Group → Group) (k : Nat) : ((s.modGroup c g f).core k).sigDie = (s.core k).sigDie := by
  rw [core_modGroup]; grind
@[simp] theorem core_modGroup_sigMod (s : State) (c g : Nat) (f : Group → Group) (k : Nat) : ((s.modGroup c g f).core k).sigMod = (s.core k).sigMod := by
  rw [core_modGroup]; grind
@[simp] theorem core_modGroup_peersWritten (s : State) (c g : Nat) (f : Group → Group) (k : Nat) : ((s.modGroup c g f).core k).peersWritten = (s.core k).peersWritten := by
  rw [core_modGroup]; grind
@[simp] theorem core_modGroup_tlb (s : State) (c g : Nat) (f : Group → Group) (k : Nat) : ((s.modGroup c g f).core k).tlb = (s.core k).tlb := by
  rw [core_modGroup]; grind
@[simp] theorem core_modGroup_log (s : State) (c g : Nat) (f : Group → Group) (k : Nat) : ((s.modGroup c g f).core k).log = (s.core k).log := by
  rw [core_modGroup]; grind
@[simp] theorem core_modGroup_pend (s : State) (c g : Nat) (f : Group → Group) (k : Nat) : ((s.modGroup c g f).core k).pend = (s.core k).pend := by
  rw [core_modGroup]; grind
@[simp] theorem core_modGroup_results (s : State) (c g : Nat) (f : Group → Group) (k : Nat) : ((s.modGroup c g f).core k).results = (s.core k).results := by
  rw [core_modGroup]; grind
@[simp] theorem core_modGroup_cmds (s : State) (c g : Nat) (f : Group → Group) (k : Nat) : ((s.modGroup c g f).core k).cmds = (s.core k).cmds := by
  rw [core_modGroup]; grind
@[simp] theorem core_modGroup_accm (s : State) (c g : Nat) (f : Group → Group) (k : Nat) : ((s.modGroup c g f).core k).accm = (s.core k).accm := by
  rw [core_modGroup]; grind
@[simp] theorem core_modGroup_ptr (s : State) (c g : Nat) (f : Group → Group) (k : Nat) : ((s.modGroup c g f).core k).ptr = (s.core k).ptr := by
  rw [core_modGroup]; grind
@[simp] theorem core_modGroup_portFree (s : State) (c g : Nat) (f : Group → Group) (k : Nat) : ((s.modGroup c g f).core k).portFree = (s.core k).portFree := by
  rw [core_modGroup]; grind
@[simp] theorem core_modGroup_pipeTurn (s : State) (c g : Nat) (f : Group → Group) (k : Nat) : ((s.modGroup c g f).core k).pipeTurn = (s.core k).pipeTurn := by
  rw [core_modGroup]; grind
@[simp] theorem core_modGroup_nextOrder (s : State) (c g : Nat) (f : Group → Group) (k : Nat) : ((s.modGroup c g f).core k).nextOrder = (s.core k).nextOrder := by
  rw [core_modGroup]; grind
@[simp] theorem core_modGroup_nextId (s : State) (c g : Nat) (f : Group → Group) (k : Nat) : ((s.modGroup c g f).core k).nextId = (s.core k).nextId := by
  rw [core_modGroup]; grind
@[simp] theorem core_modGroup_retired (s : State) (c g : Nat) (f : Group → Group) (k : Nat) : ((s.modGroup c g f).core k).retired = (s.core k).retired := by
  rw [core_modGroup]; grind

/-! ### Fields of a core after `modTeam` -/

@[simp] theorem core_modTeam_lanes (s : State) (c j : Nat) (f : Team → Team) (k : Nat) : ((s.modTeam c j f).core k).lanes = (s.core k).lanes := by
  rw [core_modTeam]; grind
@[simp] theorem core_modTeam_groups (s : State) (c j : Nat) (f : Team → Team) (k : Nat) : ((s.modTeam c j f).core k).groups = (s.core k).groups := by
  rw [core_modTeam]; grind
@[simp] theorem core_modTeam_scratch (s : State) (c j : Nat) (f : Team → Team) (k : Nat) : ((s.modTeam c j f).core k).scratch = (s.core k).scratch := by
  rw [core_modTeam]; grind
@[simp] theorem core_modTeam_scratchPoison (s : State) (c j : Nat) (f : Team → Team) (k : Nat) : ((s.modTeam c j f).core k).scratchPoison = (s.core k).scratchPoison := by
  rw [core_modTeam]; grind
@[simp] theorem core_modTeam_l1 (s : State) (c j : Nat) (f : Team → Team) (k : Nat) : ((s.modTeam c j f).core k).l1 = (s.core k).l1 := by
  rw [core_modTeam]; grind
@[simp] theorem core_modTeam_wcb (s : State) (c j : Nat) (f : Team → Team) (k : Nat) : ((s.modTeam c j f).core k).wcb = (s.core k).wcb := by
  rw [core_modTeam]; grind
@[simp] theorem core_modTeam_flights (s : State) (c j : Nat) (f : Team → Team) (k : Nat) : ((s.modTeam c j f).core k).flights = (s.core k).flights := by
  rw [core_modTeam]; grind
@[simp] theorem core_modTeam_seenDie (s : State) (c j : Nat) (f : Team → Team) (k : Nat) : ((s.modTeam c j f).core k).seenDie = (s.core k).seenDie := by
  rw [core_modTeam]; grind
@[simp] theorem core_modTeam_seenMod (s : State) (c j : Nat) (f : Team → Team) (k : Nat) : ((s.modTeam c j f).core k).seenMod = (s.core k).seenMod := by
  rw [core_modTeam]; grind
@[simp] theorem core_modTeam_sigDie (s : State) (c j : Nat) (f : Team → Team) (k : Nat) : ((s.modTeam c j f).core k).sigDie = (s.core k).sigDie := by
  rw [core_modTeam]; grind
@[simp] theorem core_modTeam_sigMod (s : State) (c j : Nat) (f : Team → Team) (k : Nat) : ((s.modTeam c j f).core k).sigMod = (s.core k).sigMod := by
  rw [core_modTeam]; grind
@[simp] theorem core_modTeam_peersWritten (s : State) (c j : Nat) (f : Team → Team) (k : Nat) : ((s.modTeam c j f).core k).peersWritten = (s.core k).peersWritten := by
  rw [core_modTeam]; grind
@[simp] theorem core_modTeam_tlb (s : State) (c j : Nat) (f : Team → Team) (k : Nat) : ((s.modTeam c j f).core k).tlb = (s.core k).tlb := by
  rw [core_modTeam]; grind
@[simp] theorem core_modTeam_log (s : State) (c j : Nat) (f : Team → Team) (k : Nat) : ((s.modTeam c j f).core k).log = (s.core k).log := by
  rw [core_modTeam]; grind
@[simp] theorem core_modTeam_pend (s : State) (c j : Nat) (f : Team → Team) (k : Nat) : ((s.modTeam c j f).core k).pend = (s.core k).pend := by
  rw [core_modTeam]; grind
@[simp] theorem core_modTeam_results (s : State) (c j : Nat) (f : Team → Team) (k : Nat) : ((s.modTeam c j f).core k).results = (s.core k).results := by
  rw [core_modTeam]; grind
@[simp] theorem core_modTeam_cmds (s : State) (c j : Nat) (f : Team → Team) (k : Nat) : ((s.modTeam c j f).core k).cmds = (s.core k).cmds := by
  rw [core_modTeam]; grind
@[simp] theorem core_modTeam_accm (s : State) (c j : Nat) (f : Team → Team) (k : Nat) : ((s.modTeam c j f).core k).accm = (s.core k).accm := by
  rw [core_modTeam]; grind
@[simp] theorem core_modTeam_ptr (s : State) (c j : Nat) (f : Team → Team) (k : Nat) : ((s.modTeam c j f).core k).ptr = (s.core k).ptr := by
  rw [core_modTeam]; grind
@[simp] theorem core_modTeam_portFree (s : State) (c j : Nat) (f : Team → Team) (k : Nat) : ((s.modTeam c j f).core k).portFree = (s.core k).portFree := by
  rw [core_modTeam]; grind
@[simp] theorem core_modTeam_pipeTurn (s : State) (c j : Nat) (f : Team → Team) (k : Nat) : ((s.modTeam c j f).core k).pipeTurn = (s.core k).pipeTurn := by
  rw [core_modTeam]; grind
@[simp] theorem core_modTeam_nextOrder (s : State) (c j : Nat) (f : Team → Team) (k : Nat) : ((s.modTeam c j f).core k).nextOrder = (s.core k).nextOrder := by
  rw [core_modTeam]; grind
@[simp] theorem core_modTeam_nextId (s : State) (c j : Nat) (f : Team → Team) (k : Nat) : ((s.modTeam c j f).core k).nextId = (s.core k).nextId := by
  rw [core_modTeam]; grind
@[simp] theorem core_modTeam_retired (s : State) (c j : Nat) (f : Team → Team) (k : Nat) : ((s.modTeam c j f).core k).retired = (s.core k).retired := by
  rw [core_modTeam]; grind

/-! ### Lanes, groups, teams -/

theorem lane_modLane (s : State) (c p : Nat) (f : Lane → Lane) (k q : Nat) :
    (s.modLane c p f).lane k q = if k = c ∧ q = p then f (s.lane c p) else s.lane k q := by
  simp only [State.lane, core_modLane]
  by_cases h : k = c
  · subst h; simp only [if_true, tabGet_tabSet]; grind [State.lane]
  · simp [h]

@[simp] theorem lane_modLane_self (s : State) (c p : Nat) (f : Lane → Lane) : (s.modLane c p f).lane c p = f (s.lane c p) := by
  simp [lane_modLane]

@[simp] theorem lane_modGroup (s : State) (c g : Nat) (f : Group → Group) (k q : Nat) :
    (s.modGroup c g f).lane k q = s.lane k q := by simp [State.lane]

@[simp] theorem lane_modTeam (s : State) (c j : Nat) (f : Team → Team) (k q : Nat) :
    (s.modTeam c j f).lane k q = s.lane k q := by simp [State.lane]

@[simp] theorem lane_modCtx (s : State) (x : Nat) (f : Ctx → Ctx) (k q : Nat) : (s.modCtx x f).lane k q = s.lane k q := rfl

@[simp] theorem lane_modGrid (s : State) (g : Nat) (f : Grid → Grid) (k q : Nat) : (s.modGrid g f).lane k q = s.lane k q := by
  simp [State.lane]

@[simp] theorem group?_modLane (s : State) (c p : Nat) (f : Lane → Lane) (k h : Nat) :
    (s.modLane c p f).group? k h = s.group? k h := by simp [State.group?]

theorem group?_modGroup (s : State) (c g : Nat) (f : Group → Group) (k h : Nat) :
    (s.modGroup c g f).group? k h = if k = c ∧ h = g then (s.group? c g).map f else s.group? k h := by
  simp only [State.group?, core_modGroup]
  by_cases hk : k = c
  · subst hk
    cases hx : tabGet? (s.core k).groups g with
    | none => simp only [if_true, true_and, Option.map_none]; split <;> simp_all
    | some x => simp only [if_true, true_and, tabGet?_tabSet, Option.map_some]
  · simp [hk]

@[simp] theorem group?_modGroup_self (s : State) (c g : Nat) (f : Group → Group) :
    (s.modGroup c g f).group? c g = (s.group? c g).map f := by simp [group?_modGroup]

@[simp] theorem group?_modTeam (s : State) (c j : Nat) (f : Team → Team) (k h : Nat) :
    (s.modTeam c j f).group? k h = s.group? k h := by simp [State.group?]

@[simp] theorem group?_modCtx (s : State) (x : Nat) (f : Ctx → Ctx) (k h : Nat) : (s.modCtx x f).group? k h = s.group? k h := rfl

@[simp] theorem group?_modGrid (s : State) (g : Nat) (f : Grid → Grid) (k h : Nat) :
    (s.modGrid g f).group? k h = s.group? k h := by simp [State.group?]

@[simp] theorem team?_modLane (s : State) (c p : Nat) (f : Lane → Lane) (k h : Nat) :
    (s.modLane c p f).team? k h = s.team? k h := by simp [State.team?]

@[simp] theorem team?_modGroup (s : State) (c g : Nat) (f : Group → Group) (k h : Nat) :
    (s.modGroup c g f).team? k h = s.team? k h := by simp [State.team?]

theorem team?_modTeam (s : State) (c j : Nat) (f : Team → Team) (k h : Nat) :
    (s.modTeam c j f).team? k h = if k = c ∧ h = j then (s.team? c j).map f else s.team? k h := by
  simp only [State.team?, core_modTeam]
  by_cases hk : k = c
  · subst hk
    cases hx : tabGet? (s.core k).teams j with
    | none => simp only [if_true, true_and, Option.map_none]; split <;> simp_all
    | some x => simp only [if_true, true_and, tabGet?_tabSet, Option.map_some]
  · simp [hk]

@[simp] theorem team?_modTeam_self (s : State) (c j : Nat) (f : Team → Team) :
    (s.modTeam c j f).team? c j = (s.team? c j).map f := by simp [team?_modTeam]

@[simp] theorem team?_modCtx (s : State) (x : Nat) (f : Ctx → Ctx) (k h : Nat) : (s.modCtx x f).team? k h = s.team? k h := rfl

@[simp] theorem ctx_modCore (s : State) (c : Nat) (f : Core → Core) (x : Nat) : (s.modCore c f).ctx x = s.ctx x := rfl
@[simp] theorem ctx_modLane (s : State) (c p : Nat) (f : Lane → Lane) (x : Nat) : (s.modLane c p f).ctx x = s.ctx x := rfl
@[simp] theorem ctx_modGroup (s : State) (c g : Nat) (f : Group → Group) (x : Nat) : (s.modGroup c g f).ctx x = s.ctx x := by
  simp [State.ctx]
@[simp] theorem ctx_modTeam (s : State) (c j : Nat) (f : Team → Team) (x : Nat) : (s.modTeam c j f).ctx x = s.ctx x := by
  simp [State.ctx]
@[simp] theorem ctx_modGrid (s : State) (g : Nat) (f : Grid → Grid) (x : Nat) : (s.modGrid g f).ctx x = s.ctx x := by
  simp [State.ctx]

theorem ctx_modCtx (s : State) (x : Nat) (f : Ctx → Ctx) (y : Nat) (h : x < 64) :
    (s.modCtx x f).ctx y = if y = x then f (s.ctx x) else s.ctx y := by
  simp only [State.ctx, State.modCtx]
  by_cases hy : y < 64
  · simp only [Vector.getElem?_eq_getElem hy, Vector.getElem?_eq_getElem h, Vector.getElem_setIfInBounds]; grind
  · rw [if_neg (by omega)]
    have : ∀ v : Vector Ctx 64, v[y]? = none := fun v => by simp; omega
    simp [this]

theorem grid?_modGrid (s : State) (g : Nat) (f : Grid → Grid) (h : Nat) :
    (s.modGrid g f).grid? h = if h = g then (s.grid? g).map f else s.grid? h := by
  unfold State.modGrid
  cases hx : s.grid? g with
  | none => simp; intro hh; rw [hh, hx]
  | some x => simp only [State.grid?, tabGet?_tabSet, Option.map_some]

end Sys2Proof.Machine
end

