-- ==== Sys2Proof/Safety.lean ====
section
/-!
DEFINITION. Sys2Proof/Safety.lean: what the claims call a state in good order, a word that is executed, a step that
completes, and what a word of the register instructions leaves as it was.
-/
namespace Sys2Proof

open Machine in
/-- Every memory of the module is in canonical form: device memory, the scratchpads, the staging window and the MSI-X table. -/
def memoryOk (s : Machine.State) : Bool :=
  Memory.wf s.mem && (s.cores.all fun c => Memory.wf c.2.scratch) && Memory.wf s.root.staging && Memory.wf s.link.msixTable

/-- A step or a meaning that answers a next state. -/
def Completes (o : Host.Outcome Machine.State Machine.Fault Machine.Refusal) : Prop := ∃ t, o = .next t

namespace Machine

/-- The instruction word `i` is executed by the group in focus, no decode fault of R45 refuses it, and C is not empty
(R43). `e` holds the core, the group context, the group, its cursor, the word and C. -/
structure Runs (i : Instr) (e : Env) (s : State) : Prop where
  focus : s.focus = some (e.c, e.g)
  group : s.group? e.c e.g = some e.x
  cursor : e.x.cur = some e.cu
  word : e.i = i
  form : i.wellFormed = true
  lanes : e.lanes = effectLanes s e.c e.cu ((pfxOf i).getD pfx0)
  active : e.lanes ≠ []
  fine : wordFault s e.c e.x e.cu i = none

/-- What may change when a word of a register instruction is executed by group `g` of core `c`. Lanes of `L` may change
their latches and where they stand; of the rest, vector register `r` of lane `q` may change only where `V q r`, predicates
where `P q r`, a stream position where `D q`, scalar `r` where `S r`, and GST where `G`. Nothing else of the module changes
but the group's place in its clause, and the time at which the issue port of this core is free (R140). -/
structure Frame (c g : Nat) (L : Nat → Prop) (V P : Nat → Nat → Prop) (D S : Nat → Prop) (G : Prop) (s t : State) : Prop where
  rest : { t with cores := s.cores, focus := s.focus } = s
  cores : ∀ k, { t.core k with lanes := (s.core k).lanes, groups := (s.core k).groups, portFree := (s.core k).portFree } = s.core k
  ports : ∀ k, k ≠ c → (t.core k).portFree = (s.core k).portFree
  others : ∀ k h, ¬ (k = c ∧ h = g) → t.group? k h = s.group? k h
  group : ∀ x, s.group? c g = some x → ∃ y, t.group? c g = some y ∧
    { y with cur := x.cur, blk := x.blk, phase := x.phase, state := x.state, nextClk := x.nextClk, scal := x.scal, gst := x.gst } = x ∧
    (∀ r, ¬ S r → regGet y.scal r = regGet x.scal r) ∧ (¬ G → y.gst = x.gst) ∧
    ∀ b, y.cur = some b → ∃ a, x.cur = some a ∧ { b with k := a.k, gx := a.gx, start := a.start } = a
  away : ∀ k q, ¬ (k = c ∧ L q) → t.lane k q = s.lane k q
  lanes : ∀ q, { t.lane c q with
    v := (s.lane c q).v, p := (s.lane c q).p, lat := (s.lane c q).lat, lpc := (s.lane c q).lpc, resw := (s.lane c q).resw,
    rstep := (s.lane c q).rstep, ridx := (s.lane c q).ridx } = s.lane c q
  vregs : ∀ q r, ¬ V q r → regGet (t.lane c q).v r = regGet (s.lane c q).v r
  preds : ∀ q r, ¬ P q r → predGet (t.lane c q) r = predGet (s.lane c q) r
  draws : ∀ q, ¬ D q → (t.lane c q).rstep = (s.lane c q).rstep ∧ (t.lane c q).ridx = (s.lane c q).ridx

/-- A register result of width `w`: `f p` in destination `d` of every lane `p` of C, or once in the scalar set, and in the
latch of the word (R39, R50, R151). -/
structure RegResult (e : Env) (d : Option Operand) (w : Nat) (f : Nat → Nat) (t : State) : Prop where
  vreg : ∀ i, d = some (.v i) → ∀ p ∈ e.lanes, regsGet (t.lane e.c p).v i.val (w / 32) = f p
  sreg : ∀ i, d = some (.s i) → ∃ y, t.group? e.c e.g = some y ∧ regsGet y.scal i.val (w / 32) = f e.low
  latch : e.once = false → e.cu.k < 16 → ∀ p ∈ e.lanes, (t.lane e.c p).lat[e.cu.k]? = some (BitVec.ofNat 128 (f p))
  groupLatch : e.once = true → e.cu.k < 16 → ∀ y cu, t.group? e.c e.g = some y → y.cur = some cu →
    cu.gx[e.cu.k]? = some (BitVec.ofNat 128 (f e.low))

/-- A predicate result `f p` in every lane `p` of C; of a clause that runs once, `f` of the lowest lane in every lane of the
issuing set that no transfer has taken (R151). -/
def PredResult (e : Env) (d : Option (Fin 8)) (f : Nat → Bool) (t : State) : Prop :=
  ∀ i : Fin 8, d = some i → i.val ≠ 0 →
    (e.once = false → ∀ p ∈ e.lanes, predGet (t.lane e.c p) i.val = f p) ∧
    (e.once = true → ∀ p ∈ e.cu.live, predGet (t.lane e.c p) i.val = f e.low)

/-- Nothing outside the cores changes but which group is in focus: device memory, the context slots, the grids, the link and
every unit of the module stand. -/
def Untouched (s t : State) : Prop := { t with cores := s.cores, focus := s.focus } = s

/-- Vector registers, predicates and scalars of every lane and group stand, and so do the scratchpads and accumulators. -/
structure RegsStand (s t : State) : Prop where
  lanes : ∀ k q, (t.lane k q).v = (s.lane k q).v ∧ (t.lane k q).p = (s.lane k q).p
  groups : ∀ k h x, s.group? k h = some x → ∃ y, t.group? k h = some y ∧ y.scal = x.scal ∧ y.gst = x.gst ∧ y.ftv = x.ftv
  stores : ∀ k, (t.core k).scratch = (s.core k).scratch ∧ (t.core k).accm = (s.core k).accm ∧ (t.core k).teams = (s.core k).teams

/-- The count of slot `b` of a group (R41); a group that is not there has none. -/
def State.slotCount (s : State) (c g b : Nat) : Nat := (s.group? c g).elim 0 (·.sbCount b)

end Machine

end Sys2Proof
end

