-- ==== Sys2Proof/Laws/Frame.lean ====
section
/-!
SUPPORT. Sys2Proof/Laws/Frame.lean: what the shared operations of an instruction word leave as it was: writing a latch, a
register or a predicate, taking a draw, ORing flags, and going on to the next word.
-/
namespace Sys2Proof.Machine

variable {c g : Nat} {L L' : Nat → Prop} {V V' P P' : Nat → Nat → Prop} {D D' S S' : Nat → Prop} {G G' : Prop} {s t u : State}

theorem Frame.refl (s : State) : Frame c g L V P D S G s s where
  rest := rfl
  cores _ := rfl
  ports _ _ := rfl
  others _ _ _ := rfl
  group x h := ⟨x, h, rfl, fun _ _ => rfl, fun _ => rfl, fun b hb => ⟨b, hb, rfl⟩⟩
  away _ _ _ := rfl
  lanes _ := rfl
  vregs _ _ _ := rfl
  preds _ _ _ := rfl
  draws _ _ := ⟨rfl, rfl⟩

theorem Frame.trans (h : Frame c g L V P D S G s t) (k : Frame c g L V P D S G t u) : Frame c g L V P D S G s u where
  rest := by
    have h1 := h.rest; have h2 := k.rest
    rw [← h1, ← h2]
  cores n := by
    have h1 := h.cores n; have h2 := k.cores n
    rw [← h1, ← h2]
  ports n hn := (k.ports n hn).trans (h.ports n hn)
  others n m hm := (k.others n m hm).trans (h.others n m hm)
  group x hx := by
    obtain ⟨y, hy, e1, s1, g1, c1⟩ := h.group x hx
    obtain ⟨z, hz, e2, s2, g2, c2⟩ := k.group y hy
    refine ⟨z, hz, by rw [← e1, ← e2], fun r hr => (s2 r hr).trans (s1 r hr), fun hg => (g2 hg).trans (g1 hg), fun b hb => ?_⟩
    obtain ⟨a, ha, h1⟩ := c2 b hb
    obtain ⟨a', ha', h2⟩ := c1 a ha
    exact ⟨a', ha', by rw [← h2, ← h1]⟩
  away n q hq := (k.away n q hq).trans (h.away n q hq)
  lanes q := by
    have h1 := h.lanes q; have h2 := k.lanes q
    rw [← h1, ← h2]
  vregs q r hr := (k.vregs q r hr).trans (h.vregs q r hr)
  preds q r hr := (k.preds q r hr).trans (h.preds q r hr)
  draws q hq := ⟨(k.draws q hq).1.trans (h.draws q hq).1, (k.draws q hq).2.trans (h.draws q hq).2⟩

theorem Frame.mono (h : Frame c g L V P D S G s t) (hL : ∀ q, L q → L' q) (hV : ∀ q r, V q r → V' q r) (hP : ∀ q r, P q r → P' q r)
    (hD : ∀ q, D q → D' q) (hS : ∀ r, S r → S' r) (hG : G → G') : Frame c g L' V' P' D' S' G' s t where
  rest := h.rest
  cores := h.cores
  ports := h.ports
  others := h.others
  group x hx := by
    obtain ⟨y, hy, e1, s1, g1, c1⟩ := h.group x hx
    exact ⟨y, hy, e1, fun r hr => s1 r fun q => hr (hS r q), fun hg => g1 fun q => hg (hG q), c1⟩
  away n q hq := h.away n q fun a => hq ⟨a.1, hL q a.2⟩
  lanes := h.lanes
  vregs q r hr := h.vregs q r fun a => hr (hV q r a)
  preds q r hr := h.preds q r fun a => hr (hP q r a)
  draws q hq := h.draws q fun a => hq (hD q a)

/-- A fold of framed updates over a list. -/
theorem Frame.foldl {α : Type} (f : State → α → State) (l : List α)
    (h : ∀ s, ∀ a ∈ l, Frame c g L V P D S G s (f s a)) (s : State) : Frame c g L V P D S G s (l.foldl f s) := by
  induction l generalizing s with
  | nil => exact Frame.refl s
  | cons a l ih =>
    exact (h s a List.mem_cons_self).trans (ih (fun s b hb => h s b (List.mem_cons_of_mem _ hb)) (f s a))

/-- An update of one lane of the clause. -/
theorem Frame.modLane (s : State) (p : Nat) (f : Lane → Lane) (hp : L p)
    (hl : ∀ l, { f l with v := l.v, p := l.p, lat := l.lat, lpc := l.lpc, resw := l.resw, rstep := l.rstep, ridx := l.ridx } = l)
    (hv : ∀ l r, ¬ V p r → regGet (f l).v r = regGet l.v r) (hq : ∀ l r, ¬ P p r → predGet (f l) r = predGet l r)
    (hd : ¬ D p → ∀ l, (f l).rstep = l.rstep ∧ (f l).ridx = l.ridx) : Frame c g L V P D S G s (s.modLane c p f) where
  rest := rfl
  cores k := by rw [core_modLane]; split <;> simp_all
  ports k _ := by rw [core_modLane]; split <;> simp_all
  others _ _ _ := by simp
  group x h := ⟨x, by simpa using h, rfl, fun _ _ => rfl, fun _ => rfl, fun b hb => ⟨b, hb, rfl⟩⟩
  away k q h := by rw [lane_modLane]; split <;> simp_all
  lanes q := by rw [lane_modLane]; split <;> simp_all
  vregs q r h := by rw [lane_modLane]; split <;> simp_all
  preds q r h := by rw [lane_modLane]; split <;> simp_all
  draws q h := by rw [lane_modLane]; split <;> simp_all

/-- An update of the group's place, scalars or GST. -/
theorem Frame.modGroup (s : State) (f : Group → Group)
    (hf : ∀ x, { f x with cur := x.cur, blk := x.blk, phase := x.phase, state := x.state, nextClk := x.nextClk, scal := x.scal,
                          gst := x.gst } = x)
    (hs : ∀ x r, ¬ S r → regGet (f x).scal r = regGet x.scal r) (hg : ¬ G → ∀ x, (f x).gst = x.gst)
    (hc : ∀ x, s.group? c g = some x → ∀ b, (f x).cur = some b → ∃ a, x.cur = some a ∧ { b with k := a.k, gx := a.gx, start := a.start } = a) :
    Frame c g L V P D S G s (s.modGroup c g f) where
  rest := by unfold State.modGroup; split <;> rfl
  cores k := by rw [core_modGroup]; split <;> (try split) <;> simp_all
  ports k _ := by rw [core_modGroup]; split <;> (try split) <;> simp_all
  others k h hk := by rw [group?_modGroup]; simp [hk]
  group x h := ⟨f x, by simp [h], hf x, fun r hr => hs x r hr, fun h => hg h x, hc x h⟩
  away _ _ _ := by simp
  lanes _ := by simp
  vregs _ _ _ := by simp
  preds _ _ _ := by simp
  draws _ _ := by simp

theorem group?_modPorts (s : State) (c : Nat) (f : Core → Vector Nat 9) (k h : Nat) :
    (s.modCore c fun q => { q with portFree := f q }).group? k h = s.group? k h := by
  unfold State.group?
  rw [core_modCore]
  split <;> simp_all

theorem lane_modPorts (s : State) (c : Nat) (f : Core → Vector Nat 9) (k q : Nat) :
    (s.modCore c fun q => { q with portFree := f q }).lane k q = s.lane k q := by
  unfold State.lane
  rw [core_modCore]
  split <;> simp_all

/-- The words a blocking instruction held take their issue port again (R138). -/
theorem Frame.resumePort (s : State) (x : Group) (cu : Cursor) : Frame c g L V P D S G s (s.resumePort c g x cu) := by
  unfold State.resumePort
  refine Frame.trans (t := s.modCore c fun k => { k with portFree := k.portFree.setIfInBounds _ _ }) ?_
    (Frame.modGroup _ _ (fun _ => rfl) (fun _ _ _ => rfl) (fun _ _ => rfl) fun x _ b hb => ?_)
  · exact
    { rest := rfl
      cores := fun k => by rw [core_modCore]; split <;> simp_all
      ports := fun k hk => by rw [core_modCore]; simp [hk]
      others := fun k h _ => group?_modPorts s c _ k h
      group := fun x h => ⟨x, by rw [group?_modPorts]; exact h, rfl, fun _ _ => rfl, fun _ => rfl, fun b hb => ⟨b, hb, rfl⟩⟩
      away := fun k q _ => lane_modPorts s c _ k q
      lanes := fun q => by rw [lane_modPorts]
      vregs := fun q _ _ => by rw [lane_modPorts]
      preds := fun q _ _ => by rw [lane_modPorts]
      draws := fun q _ => by rw [lane_modPorts]; exact ⟨rfl, rfl⟩ }
  · obtain ⟨a, ha, rfl⟩ := Option.map_eq_some_iff.mp hb
    exact ⟨a, ha, rfl⟩

/-- Taking the focus away. -/
theorem Frame.focus (s : State) : Frame c g L V P D S G s { s with focus := none } where
  rest := rfl
  cores _ := rfl
  ports _ _ := rfl
  others _ _ _ := rfl
  group x h := ⟨x, h, rfl, fun _ _ => rfl, fun _ => rfl, fun b hb => ⟨b, hb, rfl⟩⟩
  away _ _ _ := rfl
  lanes _ := rfl
  vregs _ _ _ := rfl
  preds _ _ _ := rfl
  draws _ _ := ⟨rfl, rfl⟩

/-! ### The shared operations -/

theorem Frame.orGst (s : State) (m : Nat) (hG : G) : Frame c g L V P D S G s (s.orGst c g m) :=
  Frame.modGroup s _ (fun _ => rfl) (fun _ _ _ => rfl) (fun h => absurd hG h) (fun _ _ b hb => ⟨b, hb, rfl⟩)

theorem Frame.endClause (s : State) : Frame c g L V P D S G s (s.endClause c g) := by
  unfold State.endClause
  split
  · exact Frame.refl s
  · exact Frame.modGroup s _ (fun _ => rfl) (fun _ _ _ => rfl) (fun _ _ => rfl) (fun _ _ b hb => by simp at hb)

theorem Frame.eachLane (ps : List Nat) (f : Nat → State → State) (h : ∀ p ∈ ps, ∀ s, Frame c g L V P D S G s (f p s)) (s : State) :
    Frame c g L V P D S G s (Machine.eachLane ps f s) :=
  Frame.foldl _ ps (fun s p hp => h p hp s) s

/-- Going on to the next word, or ending the clause. -/
theorem Frame.advance (s : State) (hL : ∀ x cu, s.group? c g = some x → x.cur = some cu → ∀ p ∈ cu.live, L p) :
    Frame c g L V P D S G s (advance s c g) := by
  unfold Machine.advance
  split
  · exact Frame.refl s
  · rename_i cu hc
    split
    · have h : Frame c g L V P D S G s (s.modGroup c g fun r =>
          { r with cur := some { cu with k := cu.k + 1 }, blk := none, phase := 0, state := if r.state = .wait then .run else r.state }) := by
        refine Frame.modGroup s _ (fun _ => rfl) (fun _ _ _ => rfl) (fun _ _ => rfl) (fun x hx b hb => ?_)
        simp only [hx, Option.bind_some] at hc
        cases hb
        exact ⟨cu, hc, rfl⟩
      simp only []
      split
      · exact h.trans (Frame.resumePort _ _ _)
      · exact h
    · refine Frame.trans (Frame.eachLane _ _ (fun p hp s => ?_) s) (Frame.endClause _)
      obtain ⟨x, hx, hcu⟩ := Option.bind_eq_some_iff.mp hc
      exact Frame.modLane s p _ (hL x cu hx hcu p hp) (fun _ => rfl) (fun _ _ _ => rfl) (fun _ _ _ => rfl) (fun _ _ => ⟨rfl, rfl⟩)

theorem Frame.clearLatch (s : State) (cu : Cursor) (hL : ∀ p ∈ cu.live, L p) : Frame c g L V P D S G s (clearLatch s c g cu) := by
  unfold Machine.clearLatch
  split
  · exact Frame.modGroup s _ (fun _ => rfl) (fun _ _ _ => rfl) (fun _ _ => rfl) (fun _ _ b hb => by
      obtain ⟨a, ha, rfl⟩ := Option.map_eq_some_iff.mp hb; exact ⟨a, ha, rfl⟩)
  · refine Frame.eachLane _ _ (fun p hp s => ?_) s
    exact Frame.modLane s p _ (hL p hp) (fun _ => rfl) (fun _ _ _ => rfl) (fun _ _ _ => rfl) (fun _ _ => ⟨rfl, rfl⟩)

theorem Frame.setLatch (e : Env) (s : State) (p x : Nat) (hL : e.once = false → L p) :
    Frame e.c e.g L V P D S G s (e.setLatch s p x) := by
  unfold Env.setLatch
  split
  · exact Frame.modGroup s _ (fun _ => rfl) (fun _ _ _ => rfl) (fun _ _ => rfl) (fun _ _ b hb => by
      obtain ⟨a, ha, rfl⟩ := Option.map_eq_some_iff.mp hb; exact ⟨a, ha, rfl⟩)
  · exact Frame.modLane s p _ (hL (by simp_all)) (fun _ => rfl) (fun _ _ _ => rfl) (fun _ _ _ => rfl) (fun _ _ => ⟨rfl, rfl⟩)

/-- A register result. -/
theorem Frame.write (e : Env) (d : Option Operand) (p w x : Nat) (s : State) (hL : e.once = false → L p)
    (hv : ∀ i, d = some (.v i) → L p ∧ ∀ r, i.val ≤ r → r < i.val + w / 32 → V p r)
    (hs : ∀ i, d = some (.s i) → ∀ r, i.val ≤ r → r < i.val + w / 32 → S r) :
    Frame e.c e.g L V P D S G s (e.write d p w x s) := by
  refine Frame.trans ?_ (Frame.setLatch e _ p _ hL)
  split
  · rename_i i
    obtain ⟨hp, hv⟩ := hv i rfl
    exact Frame.modLane s p _ hp (fun _ => rfl)
      (fun l r hr => regGet_regsSet_out _ _ _ _ _ (by
        rcases Nat.lt_or_ge r i.val with h | h
        · exact Or.inl h
        · exact Or.inr (Nat.le_of_not_lt fun h2 => hr (hv r h h2))))
      (fun _ _ _ => rfl) (fun _ _ => ⟨rfl, rfl⟩)
  · rename_i i
    exact Frame.modGroup s _ (fun _ => rfl)
      (fun x r hr => regGet_regsSet_out _ _ _ _ _ (by
        rcases Nat.lt_or_ge r i.val with h | h
        · exact Or.inl h
        · exact Or.inr (Nat.le_of_not_lt fun h2 => hr (hs i rfl r h h2)))) (fun _ _ => rfl) (fun _ _ b hb => ⟨b, hb, rfl⟩)
  · exact Frame.refl s

/-- A predicate result. -/
theorem Frame.writeP (e : Env) (d : Option (Fin 8)) (p : Nat) (b : Bool) (s : State) (hL : L p)
    (hp : ∀ i : Fin 8, d = some i → i.val ≠ 0 → P p i.val) : Frame e.c e.g L V P D S G s (e.writeP d p b s) := by
  refine Frame.trans ?_ (Frame.setLatch e _ p (b2n b) fun _ => hL)
  split
  · rename_i i
    refine Frame.modLane s p _ hL (fun _ => rfl) (fun _ _ _ => rfl) (fun l r hr => ?_) (fun _ _ => ⟨rfl, rfl⟩)
    simp only [predGet]
    by_cases h0 : r = 0
    · simp [h0]
    · by_cases hr2 : r = i.val
      · subst hr2; exact absurd (hp i rfl h0) hr
      · congr 2
        by_cases h8 : r < 8
        · rw [Vector.getElem?_eq_getElem h8, Vector.getElem?_eq_getElem h8, Vector.getElem_setIfInBounds, if_neg (Ne.symm hr2)]
        · have h1 : ∀ v : Vector Bool 8, v[r]? = none := fun v => by simp; omega
          simp [h1]
  · exact Frame.refl s

/-- A draw. -/
theorem Frame.nextDraw (e : Env) (p salt : Nat) (s : State) (hL : L p) (hD : D p) :
    Frame e.c e.g L V P D S G s (e.nextDraw p salt s).2 := by
  simp only [Env.nextDraw]
  exact Frame.modLane s p _ hL (fun _ => rfl) (fun _ _ _ => rfl) (fun _ _ _ => rfl) (fun h => absurd hD h)

end Sys2Proof.Machine
end

