-- ==== Sys2Proof/Laws/Result.lean ====
section
/-!
SUPPORT. Sys2Proof/Laws/Result.lean: an instruction word that no check refuses is performed and the clause goes on; what a
register or predicate result leaves in the lanes, and that operands read what stood before the word.
-/
namespace Sys2Proof.Machine

variable {i : Instr} {e : Env} {s t u : State}

/-! ### The prologue -/

/-- The state in which an instruction word has its effect: the word's own latch reads zero (R39). -/
def Env.entry (e : Env) (s : State) : State := clearLatch { s with focus := none } e.c e.g e.cu

theorem Runs.exec_done (h : Runs i e s) {body : Env → State → Res} (hb : body e (e.entry s) = .done u) :
    execWord i body s = .next (advance u e.c e.g) := by
  obtain ⟨c, g, x, cu, j, ps⟩ := e
  have hw := h.word; have hl := h.lanes; have ha := h.active; have hf := h.focus; have hg := h.group; have hc := h.cursor
  have hz := h.fine
  simp only at hw hl ha hf hg hc hz
  subst hw
  have h1 : effectLanes { s with focus := none } c cu ((pfxOf j).getD pfx0) = ps := hl.symm
  have h2 : wordFault { s with focus := none } c x cu j = none := hz
  have h3 : ps.isEmpty = false := by cases ps <;> simp_all
  simp only [Env.entry] at hb
  simp only [execWord, hf, hg, hc, h1, h2, h3, hb, applyRes, Bool.false_eq_true, if_false]

/-- No use of the word breaks a rule of its clause. -/
theorem Runs.use (h : Runs i e s) {q : Use} (hq : q ∈ usesOf i) : useBad e.x e.cu (s.vregsOf e.c e.x) q = false := by
  have hz := h.fine
  simp only [wordFault] at hz
  split at hz
  · cases hz
  · rename_i hn
    simp only [Bool.or_eq_true, not_or, List.any_eq_true, not_exists, not_and, Bool.not_eq_true] at hn
    exact hn.1.1 q hq

/-! ### Operands -/

theorem entry_lane_v (k p : Nat) : ((e.entry s).lane k p).v = (s.lane k p).v := by
  unfold Env.entry clearLatch
  split
  · simp; rfl
  · simp only [eachLane]
    generalize hu : ({ s with focus := none } : State) = u
    have h0 : (u.lane k p).v = (s.lane k p).v := by subst hu; rfl
    rw [← h0]; clear h0 hu
    generalize e.cu.live = l
    induction l generalizing u with
    | nil => rfl
    | cons q l ih => rw [List.foldl_cons, ih, lane_modLane]; split <;> simp_all

theorem entry_lane_p (k p : Nat) : ((e.entry s).lane k p).p = (s.lane k p).p := by
  unfold Env.entry clearLatch
  split
  · simp; rfl
  · simp only [eachLane]
    generalize hu : ({ s with focus := none } : State) = u
    have h0 : (u.lane k p).p = (s.lane k p).p := by subst hu; rfl
    rw [← h0]; clear h0 hu
    generalize e.cu.live = l
    induction l generalizing u with
    | nil => rfl
    | cons q l ih => rw [List.foldl_cons, ih, lane_modLane]; split <;> simp_all

theorem entry_predGet (k p j : Nat) : predGet ((e.entry s).lane k p) j = predGet (s.lane k p) j := by
  simp only [predGet, entry_lane_p]

theorem entry_lane_lat (k p j : Nat) (hj : j ≠ e.cu.k) : ((e.entry s).lane k p).lat[j]? = (s.lane k p).lat[j]? := by
  unfold Env.entry clearLatch
  split
  · simp; rfl
  · simp only [eachLane]
    generalize hu : ({ s with focus := none } : State) = u
    have h0 : (u.lane k p).lat = (s.lane k p).lat := by subst hu; rfl
    rw [← h0]; clear h0 hu
    generalize e.cu.live = l
    induction l generalizing u with
    | nil => rfl
    | cons q l ih =>
      rw [List.foldl_cons, ih, lane_modLane]
      split
      · rename_i hq
        obtain ⟨rfl, rfl⟩ := hq
        by_cases hj16 : j < 16
        · rw [Vector.getElem?_eq_getElem hj16, Vector.getElem?_eq_getElem hj16, Vector.getElem_setIfInBounds, if_neg (Ne.symm hj)]
        · have h1 : ∀ v : Vector QWord 16, v[j]? = none := fun v => by simp; omega
          simp [h1]
      · rfl

/-- An operand of the word reads what stood before the word. -/
theorem Runs.opnd (h : Runs i e s) {o : Operand} (ho : o ∈ (usesOf i).map (·.o)) (p w : Nat) :
    e.opnd (e.entry s) o p w = e.opnd s o p w := by
  obtain ⟨q, hq, rfl⟩ := List.mem_map.mp ho
  have hu := h.use hq
  unfold Env.opnd
  split
  · rw [entry_lane_v]
  · rfl
  · rename_i j ho
    simp only [useBad, ho, Bool.not_eq_false', Bool.and_eq_true, decide_eq_true_eq] at hu
    rw [entry_lane_lat _ _ _ (by omega)]
  · rfl

/-! ### Results -/

/-- The width of a destination is whole registers. -/
def wholeRegs (w : Nat) : Prop := 32 * (w / 32) = w

theorem wholeRegs_of {w : Nat} (h : w = 32 ∨ w = 64 ∨ w = 128) : wholeRegs w := by
  rcases h with rfl | rfl | rfl <;> rfl

/-- Only the low bits of a result are written. -/
theorem write_mod (e : Env) (d : Option Operand) (p w x : Nat) (s : State) (hw : wholeRegs w) :
    e.write d p w (x % 2 ^ w) s = e.write d p w x s := by
  have h1 : ∀ {n : Nat} (r : Regs n) (i : Nat), regsSet r i (w / 32) (x % 2 ^ w) = regsSet r i (w / 32) x := by
    intro n r i; rw [← regsSet_mod r i (w / 32) x, hw]
  unfold Env.write State.setV State.setS
  simp only [h1, Nat.mod_mod]

theorem lane_write (e : Env) (ho : e.once = false) (d : Option Operand) (q w x : Nat) (s : State) (p : Nat) :
    (e.write d q w x s).lane e.c p = if p = q then
      { s.lane e.c p with
        v := (match d with | some (.v i) => regsSet (s.lane e.c p).v i.val (w / 32) x | _ => (s.lane e.c p).v)
        lat := (s.lane e.c p).lat.setIfInBounds e.cu.k (BitVec.ofNat 128 (x % 2 ^ w)) } else s.lane e.c p := by
  simp only [Env.write, Env.setLatch, ho, Bool.false_eq_true, if_false, lane_modLane, true_and]
  by_cases hq : p = q
  · subst hq
    simp only [if_true]
    split <;> simp [State.setV, State.setS]
  · simp only [if_neg hq]
    split <;> simp [State.setV, State.setS, lane_modLane, hq]

theorem group_write (e : Env) (ho : e.once = true) (d : Option Operand) (q w x : Nat) (s : State) (y : Group)
    (hy : s.group? e.c e.g = some y) :
    (e.write d q w x s).group? e.c e.g = some { y with
      scal := (match d with | some (.s i) => regsSet y.scal i.val (w / 32) x | _ => y.scal)
      cur := y.cur.map fun u => { u with gx := u.gx.setIfInBounds e.cu.k (BitVec.ofNat 128 (x % 2 ^ w)) } } := by
  simp only [Env.write, Env.setLatch, ho, if_true, group?_modGroup_self]
  split <;> simp [State.setV, State.setS, hy]

theorem fold_write_lane {f : Nat → Nat} {d : Option Operand} {w : Nat} (ho : e.once = false) (ps : List Nat) (p : Nat) (s : State)
    (hp : p ∈ ps) (hf : ∀ q ∈ ps, f q < 2 ^ w) (hw : wholeRegs w) :
    (∀ i, d = some (.v i) → i.val + w / 32 ≤ 64 →
      regsGet ((eachLane ps (fun p t => e.write d p w (f p) t) s).lane e.c p).v i.val (w / 32) = f p) ∧
    (e.cu.k < 16 → ((eachLane ps (fun p t => e.write d p w (f p) t) s).lane e.c p).lat[e.cu.k]? = some (BitVec.ofNat 128 (f p))) := by
  have keep : ∀ (qs : List Nat) (s : State), p ∉ qs →
      ((eachLane qs (fun p t => e.write d p w (f p) t) s).lane e.c p) = s.lane e.c p := by
    intro qs
    induction qs with
    | nil => intro s _; rfl
    | cons q qs ih =>
      intro s hn
      simp only [List.mem_cons, not_or] at hn
      simp only [eachLane, List.foldl_cons] at ih ⊢
      rw [ih _ hn.2, lane_write e ho, if_neg hn.1]
  induction ps generalizing s with
  | nil => cases hp
  | cons q ps ih =>
    by_cases hr : p ∈ ps
    · exact ih (e.write d q w (f q) s) hr fun r h => hf r (List.mem_cons_of_mem _ h)
    · have hq : p = q := (List.mem_cons.mp hp).resolve_right hr
      subst hq
      have h1 : (eachLane (p :: ps) (fun p t => e.write d p w (f p) t) s).lane e.c p = (e.write d p w (f p) s).lane e.c p :=
        keep ps _ hr
      have hfp := hf p List.mem_cons_self
      rw [h1, lane_write e ho, if_pos rfl]
      refine ⟨fun i hi h64 => ?_, fun hk => ?_⟩
      · subst hi; simp only
        rw [regsGet_regsSet _ _ _ _ h64, Nat.mod_eq_of_lt (by rw [hw]; exact hfp)]
      · simp only; rw [Vector.getElem?_eq_getElem (by simpa using hk)]; simp [Nat.mod_eq_of_lt hfp]

/-! ### Going on to the next word -/

theorem lane_endClause (s : State) (c g k q : Nat) : (s.endClause c g).lane k q = s.lane k q := by
  unfold State.endClause; split <;> simp

theorem group_endClause (s : State) (c g : Nat) (y : Group) (h : (s.endClause c g).group? c g = some y) :
    ∃ x, s.group? c g = some x ∧ y.scal = x.scal ∧ y.cur = none := by
  unfold State.endClause at h
  split at h
  · simp_all
  · rename_i x hx
    simp only [group?_modGroup_self, hx, Option.map_some, Option.some.injEq] at h
    exact ⟨x, hx, by subst h; exact ⟨rfl, rfl⟩⟩

theorem lane_moveLanes (ps : List Nat) (a : DWord) (s : State) (c k q : Nat) :
    (eachLane ps (fun p t => t.modLane c p fun l => { l with lpc := a, resw := 0 }) s).lane k q = s.lane k q ∨
    (eachLane ps (fun p t => t.modLane c p fun l => { l with lpc := a, resw := 0 }) s).lane k q =
      { s.lane k q with lpc := a, resw := 0 } := by
  simp only [eachLane]
  induction ps generalizing s with
  | nil => exact Or.inl rfl
  | cons p l ih =>
    rw [List.foldl_cons]
    rcases ih (s.modLane c p fun l => { l with lpc := a, resw := 0 }) with h | h <;> rw [h, lane_modLane] <;> split
    · rename_i hq; obtain ⟨rfl, rfl⟩ := hq; exact Or.inr rfl
    · exact Or.inl rfl
    · rename_i hq; obtain ⟨rfl, rfl⟩ := hq; exact Or.inr rfl
    · exact Or.inr rfl

theorem lane_resumePort (s : State) (c g : Nat) (x : Group) (cu : Cursor) (k q : Nat) :
    (s.resumePort c g x cu).lane k q = s.lane k q := by
  unfold State.resumePort
  rw [lane_modGroup, lane_modPorts]

theorem group_resumePort (s : State) (c g : Nat) (x y : Group) (cu : Cursor) (h : s.group? c g = some y) :
    ∃ z, (s.resumePort c g x cu).group? c g = some z ∧ z.scal = y.scal ∧ z.gst = y.gst ∧
      ∀ cu', z.cur = some cu' → ∃ a st, y.cur = some a ∧ cu' = { a with start := st } := by
  simp only [State.resumePort, group?_modGroup_self, group?_modPorts, h, Option.map_some]
  refine ⟨_, rfl, rfl, rfl, fun cu' h => ?_⟩
  obtain ⟨a, ha, rfl⟩ := Option.map_eq_some_iff.mp h
  exact ⟨a, _, ha, rfl⟩

/-- What a lane holds but for where it stands. -/
theorem lane_advance (s : State) (c g k q : Nat) :
    (advance s c g).lane k q = s.lane k q ∨
    ∃ a, (advance s c g).lane k q = { s.lane k q with lpc := a, resw := 0 } := by
  unfold advance
  split
  · exact Or.inl rfl
  · split
    · refine Or.inl ?_
      simp only []
      split
      · rw [lane_resumePort, lane_modGroup]
      · exact lane_modGroup ..
    · rw [lane_endClause]
      rcases lane_moveLanes _ _ s c k q with h | h
      · exact Or.inl h
      · exact Or.inr ⟨_, h⟩

theorem lane_advance_v (s : State) (c g k q : Nat) : ((advance s c g).lane k q).v = (s.lane k q).v := by
  rcases lane_advance s c g k q with h | ⟨a, h⟩ <;> rw [h]
theorem lane_advance_p (s : State) (c g k q : Nat) : ((advance s c g).lane k q).p = (s.lane k q).p := by
  rcases lane_advance s c g k q with h | ⟨a, h⟩ <;> rw [h]
theorem lane_advance_lat (s : State) (c g k q : Nat) : ((advance s c g).lane k q).lat = (s.lane k q).lat := by
  rcases lane_advance s c g k q with h | ⟨a, h⟩ <;> rw [h]

theorem eachLane_modLane_group? (ps : List Nat) (c : Nat) (f : Nat → Lane → Lane) (s : State) (k h : Nat) :
    (eachLane ps (fun p t => t.modLane c p (f p)) s).group? k h = s.group? k h := by
  simp only [eachLane]
  induction ps generalizing s with
  | nil => rfl
  | cons p ps ih => rw [List.foldl_cons, ih, group?_modLane]

/-- The group after a word: its scalars stand, and a cursor that is left is that of the clause, one word on. -/
theorem group_advance (s : State) (c g : Nat) (x : Group) (h : s.group? c g = some x) :
    ∃ y, (advance s c g).group? c g = some y ∧ y.scal = x.scal ∧ y.gst = x.gst ∧
      ∀ cu', y.cur = some cu' → ∃ cu st, x.cur = some cu ∧ cu' = { cu with k := cu.k + 1, start := st } := by
  unfold advance
  simp only [h, Option.bind_some]
  cases hc : x.cur with
  | none => exact ⟨x, h, rfl, rfl, fun cu' h => by simp [hc] at h⟩
  | some cu =>
    simp only
    split
    · rename_i hn
      split
      · rename_i y _ _
        obtain ⟨z, hz, h1, h2, h3⟩ := group_resumePort (s.modGroup c g fun r =>
          { r with cur := some { cu with k := cu.k + 1 }, blk := none, phase := 0, state := if r.state = .wait then .run else r.state })
          c g y _ { cu with k := cu.k + 1 } (by rw [group?_modGroup_self, h]; rfl)
        refine ⟨z, hz, h1, h2, fun cu' h => ?_⟩
        obtain ⟨a, st, ha, rfl⟩ := h3 cu' h
        cases ha
        exact ⟨cu, st, rfl, rfl⟩
      · simp only [group?_modGroup_self, h, Option.map_some, Option.some.injEq]
        exact ⟨_, rfl, rfl, rfl, fun cu' h => ⟨cu, cu.start, rfl, (Option.some.inj h).symm⟩⟩
    · have h2 := eachLane_modLane_group? cu.live c
        (fun _ l => { l with lpc := BitVec.ofNat 64 (cu.base + 8 * (cu.words.length + 1)), resw := 0 }) s c g
      rw [h] at h2
      unfold State.endClause
      rw [h2]
      simp only [group?_modGroup_self, h2, Option.map_some, Option.some.injEq]
      exact ⟨_, rfl, rfl, rfl, fun cu' h => by simp at h⟩

/-! ### Register and predicate results -/

/-- The registers of a destination lie in the file. -/
def dstFits (d : Option Operand) (w : Nat) : Bool :=
  match d with
  | some (.v i) => i.val + w / 32 ≤ 64
  | some (.s i) => i.val + w / 32 ≤ 256
  | _ => true

theorem entry_group? (h : Runs i e s) : ∃ x cu, (e.entry s).group? e.c e.g = some x ∧ x.scal = e.x.scal ∧ x.cur = some cu := by
  have hg : ({ s with focus := none } : State).group? e.c e.g = some e.x := h.group
  unfold Env.entry clearLatch
  split
  · rw [group?_modGroup_self, hg]
    simp only [Option.map_some, Option.some.injEq]
    exact ⟨_, { e.cu with gx := e.cu.gx.setIfInBounds e.cu.k 0 }, rfl, rfl, by simp [h.cursor]⟩
  · rw [eachLane_modLane_group?, hg]; exact ⟨_, _, rfl, rfl, h.cursor⟩

theorem regResult_lanesOut (h : Runs i e s) (d : Option Operand) (w : Nat) (f : Nat → Nat) (hd : dstFits d w = true)
    (hv : ∀ i, d = some (.v i) → e.once = false) (hs : ∀ i, d = some (.s i) → e.once = true)
    (hf : ∀ p, f p < 2 ^ w) (hw : wholeRegs w) :
    RegResult e d w f (advance (e.lanesOut d w f (e.entry s)) e.c e.g) := by
  obtain ⟨x, cu, hx, hsc, hcu⟩ := entry_group? h
  refine ⟨fun i hi p hp => ?_, fun i hi => ?_, fun ho hk p hp => ?_, fun ho hk y cu' hy hc => ?_⟩
  · have ho := hv i hi
    subst hi
    simp only [dstFits, decide_eq_true_eq] at hd
    rw [lane_advance_v]
    simp only [Env.lanesOut, ho, Bool.false_eq_true, if_false]
    exact (fold_write_lane ho e.lanes p (e.entry s) hp (fun q _ => hf q) hw).1 i rfl hd
  · have ho := hs i hi
    subst hi
    simp only [dstFits, decide_eq_true_eq] at hd
    have h1 := group_write e ho (some (.s i)) e.low w (f e.low) _ x hx
    simp only [Env.lanesOut, ho, if_true]
    obtain ⟨y, hy, hys, _, _⟩ := group_advance _ _ _ _ h1
    refine ⟨y, hy, ?_⟩
    rw [hys, regsGet_regsSet _ _ _ _ hd, Nat.mod_eq_of_lt (by rw [hw]; exact hf _)]
  · rw [lane_advance_lat]
    simp only [Env.lanesOut, ho, Bool.false_eq_true, if_false]
    exact (fold_write_lane ho e.lanes p (e.entry s) hp (fun q _ => hf q) hw).2 hk
  · have hz := group_write e ho d e.low w (f e.low) _ x hx
    simp only [Env.lanesOut, ho, if_true] at hy
    obtain ⟨y', hy', _, _, hcur⟩ := group_advance _ _ _ _ hz
    rw [hy] at hy'; cases hy'
    obtain ⟨cu2, st, h2, h3⟩ := hcur cu' hc
    simp only [hcu, Option.map_some, Option.some.injEq] at h2
    subst h2; subst h3
    simp only
    rw [Vector.getElem?_eq_getElem (by simpa using hk)]; simp [Nat.mod_eq_of_lt (hf _)]

/-! ### The frame of a word -/

section
variable {c g : Nat} {L : Nat → Prop} {V P : Nat → Nat → Prop} {D S : Nat → Prop} {G : Prop}

theorem effectLanes_sub (s : State) (c : Nat) (cu : Cursor) (q : Pfx) : ∀ p ∈ effectLanes s c cu q, p ∈ cu.live := by
  intro p hp
  unfold effectLanes at hp
  split at hp
  · exact hp
  · exact (List.mem_filter.mp hp).1

theorem Runs.lanes_live (h : Runs i e s) : ∀ p ∈ e.lanes, p ∈ e.cu.live := by
  rw [h.lanes]; exact effectLanes_sub _ _ _ _

theorem Runs.low_mem (h : Runs i e s) : e.low ∈ e.lanes := by
  have := h.active
  unfold Env.low
  cases hl : e.lanes with
  | nil => simp_all
  | cons a t => simp

/-- The effect of a word leaves what each of its parts leaves. -/
theorem Runs.frame (h : Runs i e s) (hL : ∀ p ∈ e.cu.live, L p) (hb : Frame e.c e.g L V P D S G (e.entry s) u) :
    Frame e.c e.g L V P D S G s (advance u e.c e.g) := by
  have h1 : Frame e.c e.g L V P D S G s (e.entry s) := (Frame.focus s).trans (Frame.clearLatch _ _ hL)
  have h2 := h1.trans hb
  refine h2.trans (Frame.advance u fun x cu hx hc p hp => ?_)
  obtain ⟨y, hy, _, _, _, hcur⟩ := h2.group e.x h.group
  rw [hx] at hy; cases hy
  obtain ⟨a, ha, hcu⟩ := hcur cu hc
  rw [h.cursor] at ha; cases ha
  exact hL p (by rw [← hcu]; exact hp)

theorem Frame.lanesOut (e : Env) (d : Option Operand) (w : Nat) (f : Nat → Nat) (s : State) (hL : ∀ p ∈ e.lanes, L p)
    (hlow : e.low ∈ e.lanes)
    (hv : ∀ i, d = some (.v i) → ∀ p ∈ e.lanes, ∀ r, i.val ≤ r → r < i.val + w / 32 → V p r)
    (hs : ∀ i, d = some (.s i) → ∀ r, i.val ≤ r → r < i.val + w / 32 → S r) :
    Frame e.c e.g L V P D S G s (e.lanesOut d w f s) := by
  unfold Env.lanesOut
  split
  · exact Frame.write e d _ w _ s (fun _ => hL _ hlow) (fun i hi => ⟨hL _ hlow, hv i hi _ hlow⟩) hs
  · exact Frame.eachLane _ _ (fun p hp t => Frame.write e d p w _ t (fun _ => hL p hp) (fun i hi => ⟨hL p hp, hv i hi p hp⟩) hs) s

theorem Frame.predOut (e : Env) (d : Option (Fin 8)) (f : Nat → Bool) (s : State) (hL : ∀ p ∈ e.cu.live, L p)
    (hsub : ∀ p ∈ e.lanes, p ∈ e.cu.live)
    (hp : ∀ i : Fin 8, d = some i → i.val ≠ 0 → ∀ p ∈ e.cu.live, P p i.val) :
    Frame e.c e.g L V P D S G s (e.predOut d f s) := by
  unfold Env.predOut
  split
  · exact Frame.eachLane _ _ (fun p hm t => Frame.writeP e d p _ t (hL p hm) fun i hi h0 => hp i hi h0 p hm) s
  · exact Frame.eachLane _ _ (fun p hm t => Frame.writeP e d p _ t (hL p (hsub p hm)) fun i hi h0 => hp i hi h0 p (hsub p hm)) s

end

/-! ### Predicate results -/

theorem predGet_writeP (e : Env) (i : Fin 8) (q : Nat) (b : Bool) (s : State) (p : Nat) (hi : i.val ≠ 0) :
    predGet ((e.writeP (some i) q b s).lane e.c p) i.val = if p = q then b else predGet (s.lane e.c p) i.val := by
  have h1 : ((e.writeP (some i) q b s).lane e.c p).p =
      ((s.modLane e.c q fun l => { l with p := l.p.setIfInBounds i.val b }).lane e.c p).p := by
    simp only [Env.writeP, Env.setLatch]
    split
    · rw [lane_modGroup]
    · rw [lane_modLane]; split
      · rename_i hq; obtain ⟨-, rfl⟩ := hq; rfl
      · rfl
  simp only [predGet, h1, lane_modLane, true_and]
  have h8 : i.val < 8 := i.isLt
  split
  · rw [Vector.getElem?_eq_getElem h8]; simp [hi]
  · rfl

theorem predGet_eachLane (e : Env) (i : Fin 8) (f : Nat → Bool) (hi : i.val ≠ 0) (ps : List Nat) (s : State) (p : Nat) (hp : p ∈ ps) :
    predGet ((eachLane ps (fun p t => e.writeP (some i) p (f p) t) s).lane e.c p) i.val = f p := by
  have keep : ∀ (qs : List Nat) (s : State), p ∉ qs →
      predGet ((eachLane qs (fun p t => e.writeP (some i) p (f p) t) s).lane e.c p) i.val = predGet (s.lane e.c p) i.val := by
    intro qs
    induction qs with
    | nil => intro s _; rfl
    | cons q qs ih =>
      intro s hn
      simp only [List.mem_cons, not_or] at hn
      simp only [eachLane, List.foldl_cons] at ih ⊢
      rw [ih _ hn.2, predGet_writeP _ _ _ _ _ _ hi, if_neg hn.1]
  induction ps generalizing s with
  | nil => cases hp
  | cons q ps ih =>
    by_cases hr : p ∈ ps
    · exact ih (e.writeP (some i) q (f q) s) hr
    · have hq : p = q := (List.mem_cons.mp hp).resolve_right hr
      subst hq
      have h1 : predGet ((eachLane (p :: ps) (fun p t => e.writeP (some i) p (f p) t) s).lane e.c p) i.val =
          predGet ((e.writeP (some i) p (f p) s).lane e.c p) i.val := keep ps _ hr
      rw [h1, predGet_writeP _ _ _ _ _ _ hi, if_pos rfl]

theorem predResult_predOut (d : Option (Fin 8)) (f : Nat → Bool) (s : State) :
    PredResult e d f (advance (e.predOut d f s) e.c e.g) := by
  intro i hi h0
  subst hi
  have hadv : ∀ (t : State) (p : Nat), predGet ((advance t e.c e.g).lane e.c p) i.val = predGet (t.lane e.c p) i.val := by
    intro t p; simp only [predGet, lane_advance_p]
  refine ⟨fun ho p hp => ?_, fun ho p hp => ?_⟩
  · rw [hadv]; simp only [Env.predOut, ho, Bool.false_eq_true, if_false]
    exact predGet_eachLane e i f h0 e.lanes s p hp
  · rw [hadv]; simp only [Env.predOut, ho, if_true]
    exact predGet_eachLane e i (fun _ => f e.low) h0 e.cu.live s p hp

/-! ### Destinations -/

theorem fits_of_align {j k n : Nat} (hk : k = 1 ∨ k = 2 ∨ k = 4) (hn : 4 ∣ n) (hj : j < n) (h : (j % k == 0) = true) : j + k ≤ n := by
  obtain ⟨m, rfl⟩ := hn
  rcases hk with rfl | rfl | rfl <;> simp at h <;> omega

/-- A well-formed word's operand classes and alignment (R31, R33). -/
theorem Runs.form_use (h : Runs i e s) {q : Use} (hq : q ∈ usesOf i) : useClass q = true ∧ useAlign q = true := by
  have hw := h.form
  simp only [Instr.wellFormed, Bool.and_eq_true] at hw
  have hf := hw.2
  unfold formError at hf
  split at hf
  · simp at hf
  · split at hf
    · simp at hf
    · split at hf
      · simp at hf
      · rename_i h1
        split at hf
        · simp at hf
        · rename_i h2
          simp only [Bool.not_eq_true, Bool.not_eq_false', List.all_eq_true] at h1 h2
          exact ⟨h1 q hq, h2 q hq⟩

/-- A register destination lies in its file; it is a vector register in a per-lane clause and a scalar in a clause that runs
once (R31). -/
theorem Runs.dst (h : Runs i e s) {q : Use} (hq : q ∈ usesOf i) (hd : q.dst = true) (hw : q.w = 32 ∨ q.w = 64 ∨ q.w = 128) :
    dstFits (some q.o) q.w = true ∧ (∀ j, q.o = .v j → e.once = false) ∧ (q.laneS = false → ∀ j, q.o = .s j → e.once = true) := by
  have hu := h.use hq
  have ha := (h.form_use hq).2
  have hk : q.w / 32 = 1 ∨ q.w / 32 = 2 ∨ q.w / 32 = 4 := by rcases hw with h | h | h <;> rw [h] <;> decide
  refine ⟨?_, fun j hj => ?_, fun hs j hj => ?_⟩
  · unfold dstFits
    cases ho : q.o with
    | v j => simp only [useAlign, ho] at ha; simpa using fits_of_align hk (by decide) j.isLt ha
    | s j => simp only [useAlign, ho] at ha; simpa using fits_of_align hk (by decide) j.isLt ha
    | lat j => rfl
    | lit j => rfl
  · simp only [useBad, hj, Bool.or_eq_false_iff] at hu; exact hu.1
  · simp only [useBad, hj, hd, hs, Bool.not_false, Bool.true_and, Bool.and_true] at hu
    simpa [Env.once] using hu

/-- A word with one register result: it completes, its result stands, and nothing else changes. -/
theorem Runs.lanesOut (h : Runs i e s) {body : Env → State → Res} (d : Option Operand) (w : Nat) (f : Nat → Nat)
    (hb : body e (e.entry s) = .done (e.lanesOut d w f (e.entry s))) (hu : ∀ q ∈ dstUse d w, q ∈ usesOf i)
    (hw : w = 32 ∨ w = 64 ∨ w = 128) (hf : ∀ p, f p < 2 ^ w) :
    ∃ t, execWord i body s = .next t ∧ RegResult e d w f t ∧
      Frame e.c e.g (· ∈ e.cu.live)
        (fun p r => p ∈ e.lanes ∧ ∃ k, d = some (.v k) ∧ k.val ≤ r ∧ r < k.val + w / 32) (fun _ _ => False) (fun _ => False)
        (fun r => ∃ k, d = some (.s k) ∧ k.val ≤ r ∧ r < k.val + w / 32) False s t := by
  refine ⟨_, h.exec_done hb, ?_, ?_⟩
  · cases d with
    | none => exact regResult_lanesOut h none w f rfl (fun j hj => by cases hj) (fun j hj => by cases hj) hf (wholeRegs_of hw)
    | some d =>
      have hd := h.dst (hu { o := d, w := w, cls := clsReg, dst := true, laneS := false } (by simp [dstUse])) rfl hw
      exact regResult_lanesOut h (some d) w f hd.1 (fun j hj => hd.2.1 j (by cases hj; rfl)) (fun j hj => hd.2.2 rfl j (by cases hj; rfl)) hf (wholeRegs_of hw)
  · exact h.frame (fun _ hp => hp) (Frame.lanesOut e d w f _ h.lanes_live h.low_mem
      (fun j hj _ hp r h1 h2 => ⟨hp, j, hj, h1, h2⟩) (fun j hj r h1 h2 => ⟨j, hj, h1, h2⟩))

/-- A word with a predicate result. -/
theorem Runs.predOut (h : Runs i e s) {body : Env → State → Res} (d : Option (Fin 8)) (f : Nat → Bool)
    (hb : body e (e.entry s) = .done (e.predOut d f (e.entry s))) :
    ∃ t, execWord i body s = .next t ∧ PredResult e d f t ∧
      Frame e.c e.g (· ∈ e.cu.live) (fun _ _ => False) (fun p r => p ∈ e.cu.live ∧ ∃ k : Fin 8, d = some k ∧ r = k.val ∧ r ≠ 0)
        (fun _ => False) (fun _ => False) False s t :=
  ⟨_, h.exec_done hb, predResult_predOut d f _,
    h.frame (fun _ hp => hp) (Frame.predOut e d f _ (fun _ hp => hp) h.lanes_live fun j hj h0 _ hp => ⟨hp, j, hj, rfl, h0⟩)⟩

end Sys2Proof.Machine
end

