-- ==== Sys2Proof/Laws/Float.lean ====
section
/-!
SUPPORT. Sys2Proof/Laws/Float.lean: float results: codes, flags and draws, lane by lane.
-/
namespace Sys2Proof.Machine

variable {i : Instr} {e : Env} {s t u : State}

/-- The lane whose stream an instruction of the group draws from in lane `p` (R73). -/
def Env.drawLane (e : Env) (p : Nat) : Nat := if e.once then e.x.gbase else p

/-- A draw depends on the lane's counter, the team and the context only. -/
theorem nextDraw_congr {g : Nat} {L : Nat → Prop} {V P : Nat → Nat → Prop} {D S : Nat → Prop} {G : Prop} {p : Nat} (salt : Nat)
    (h : Frame e.c g L V P D S G s t) (hp : ¬ D p) : (e.nextDraw p salt t).1 = (e.nextDraw p salt s).1 := by
  have h1 : (t.lane e.c p).rln = (s.lane e.c p).rln := by have := h.lanes p; rw [← this]
  have h2 : t.ctxs = s.ctxs := by have := h.rest; rw [← this]
  have h3 : ∀ j, t.team? e.c j = s.team? e.c j := by
    intro j; have := h.cores e.c; unfold State.team?; rw [← this]
  have h4 : t.teamOf e.c e.x = s.teamOf e.c e.x := h3 _
  have h5 : t.ctxOf e.c e.x = s.ctxOf e.c e.x := by unfold State.ctxOf; rw [h4]
  have h6 : ∀ x, t.ctx x = s.ctx x := by intro x; unfold State.ctx; rw [h2]
  simp only [Env.nextDraw, h1, (h.draws p hp).1, (h.draws p hp).2, h4, h5, h6]

/-- One lane of a float result: its draw, then its code. -/
def Env.floatLane (e : Env) (d : Option Operand) (w : Nat) (r : Rnd) (code : Nat → Nat) (p : Nat) (t : State) : State :=
  e.write d p w (code p) (e.stoch r p t).2

theorem Frame.stoch {L : Nat → Prop} {V P : Nat → Nat → Prop} {D S : Nat → Prop} {G : Prop} (e : Env) (r : Rnd) (p : Nat) (s : State)
    (hL : r = .rsr → L (e.drawLane p)) (hD : r = .rsr → D (e.drawLane p)) : Frame e.c e.g L V P D S G s (e.stoch r p s).2 := by
  unfold Env.stoch
  split
  · rename_i hr; exact Frame.nextDraw e _ 0 s (hL hr) (hD hr)
  · exact Frame.refl s

theorem stoch_congr {g : Nat} {L : Nat → Prop} {V P : Nat → Nat → Prop} {D S : Nat → Prop} {G : Prop} {p : Nat} (r : Rnd)
    (h : Frame e.c g L V P D S G s t) (hp : r = .rsr → ¬ D (e.drawLane p)) : (e.stoch r p t).1 = (e.stoch r p s).1 := by
  unfold Env.stoch
  split
  · rename_i hr; exact nextDraw_congr 0 h (hp hr)
  · rfl

theorem Frame.floatLane {L : Nat → Prop} {V P : Nat → Nat → Prop} {D S : Nat → Prop} {G : Prop} (e : Env) (d : Option Operand)
    (w : Nat) (r : Rnd) (code : Nat → Nat) (p : Nat) (s : State) (hL : r = .rsr → L (e.drawLane p)) (hp : L p)
    (hD : r = .rsr → D (e.drawLane p)) (hv : ∀ i, d = some (.v i) → ∀ r, i.val ≤ r → r < i.val + w / 32 → V p r)
    (hs : ∀ i, d = some (.s i) → ∀ r, i.val ≤ r → r < i.val + w / 32 → S r) :
    Frame e.c e.g L V P D S G s (e.floatLane d w r code p s) :=
  (Frame.stoch e r p s hL hD).trans (Frame.write e d p w _ _ (fun _ => hp) (fun i hi => ⟨hp, hv i hi⟩) hs)

/-- The fold of `floatOut`: every lane sees the draw it would have seen first, and flags are gathered (R73, R75). -/
theorem floatFold (e : Env) (d : Option Operand) (w : Nat) (r : Rnd) (f : Nat → Nat → Nat × Flags) (ps : List Nat) (s : State)
    (fl : Flags) (hd : (ps.map e.drawLane).Nodup) :
    ps.foldl (fun (a : State × Flags) p =>
      let (u, t) := e.stoch r p a.1
      let (c, fl) := f p u
      (e.write d p w c t, flagsOr a.2 fl)) (s, fl) =
    (eachLane ps (e.floatLane d w r fun p => (f p (e.stoch r p s).1).1) s,
     (ps.map fun p => (f p (e.stoch r p s).1).2).foldl flagsOr fl) := by
  -- the state after some lanes, each of them drawn from a lane of its own
  have main : ∀ (ps : List Nat) (t : State) (fl : Flags), (ps.map e.drawLane).Nodup →
      (∀ p ∈ ps, (e.stoch r p t).1 = (e.stoch r p s).1) →
      ps.foldl (fun (a : State × Flags) p =>
        let (u, t) := e.stoch r p a.1
        let (c, fl) := f p u
        (e.write d p w c t, flagsOr a.2 fl)) (t, fl) =
      (eachLane ps (e.floatLane d w r fun p => (f p (e.stoch r p s).1).1) t,
       (ps.map fun p => (f p (e.stoch r p s).1).2).foldl flagsOr fl) := by
    intro ps
    induction ps with
    | nil => intro t fl _ _; rfl
    | cons q ps ih =>
      intro t fl hn hu
      have hq := hu q List.mem_cons_self
      simp only [List.map_cons, List.nodup_cons] at hn
      simp only [List.foldl_cons, List.map_cons, eachLane] at ih ⊢
      rw [ih (e.write d q w (f q (e.stoch r q t).1).1 (e.stoch r q t).2) _ hn.2]
      · rw [hq]; rfl
      · intro p hp
        rw [← hu p (List.mem_cons_of_mem _ hp)]
        have hfr : Frame e.c e.g (fun _ => True) (fun _ _ => True) (fun _ _ => True) (· = e.drawLane q) (fun _ => True) True t
            (e.write d q w (f q (e.stoch r q t).1).1 (e.stoch r q t).2) :=
          Frame.floatLane e d w r (fun q => (f q (e.stoch r q t).1).1) q t (fun _ => trivial) trivial (fun _ => rfl)
            (fun _ _ _ _ _ => trivial) (fun _ _ _ _ _ => trivial)
        exact stoch_congr r hfr fun _ h => hn.1 (by rw [← h]; exact List.mem_map_of_mem hp)
  exact main ps s fl hd fun _ _ => rfl

/-- What lanes hold after a fold in which each lane writes for itself. -/
theorem fold_float_lane {f : Nat → Nat} {d : Option Operand} {w : Nat} {r : Rnd} (ho : e.once = false) (ps : List Nat) (p : Nat) (s : State)
    (hp : p ∈ ps) (hn : ps.Nodup) (hf : ∀ q ∈ ps, f q < 2 ^ w) (hw : wholeRegs w) :
    (∀ i, d = some (.v i) → i.val + w / 32 ≤ 64 →
      regsGet ((eachLane ps (e.floatLane d w r f) s).lane e.c p).v i.val (w / 32) = f p) ∧
    (e.cu.k < 16 → ((eachLane ps (e.floatLane d w r f) s).lane e.c p).lat[e.cu.k]? = some (BitVec.ofNat 128 (f p))) ∧
    (r = .rsr → ((eachLane ps (e.floatLane d w r f) s).lane e.c p).rstep = e.cu.step ∧
      ((eachLane ps (e.floatLane d w r f) s).lane e.c p).ridx =
        (if (s.lane e.c p).rstep = e.cu.step then (s.lane e.c p).ridx else 0) + 1) := by
  have one : ∀ (q : Nat) (s : State), p ≠ q → (e.floatLane d w r f q s).lane e.c p = s.lane e.c p := by
    intro q s hq
    rw [Env.floatLane, lane_write e ho, if_neg hq]
    unfold Env.stoch
    split
    · simp only [ho, Bool.false_eq_true, if_false, Env.nextDraw, lane_modLane, true_and, if_neg hq]
    · rfl
  have keep : ∀ (qs : List Nat) (s : State), p ∉ qs → (eachLane qs (e.floatLane d w r f) s).lane e.c p = s.lane e.c p := by
    intro qs
    induction qs with
    | nil => intro s _; rfl
    | cons q qs ih =>
      intro s hn
      simp only [List.mem_cons, not_or] at hn
      simp only [eachLane, List.foldl_cons] at ih ⊢
      rw [ih _ hn.2, one q s hn.1]
  induction ps generalizing s with
  | nil => cases hp
  | cons q ps ih =>
    simp only [List.nodup_cons] at hn
    by_cases hr : p ∈ ps
    · have hq : p ≠ q := fun h => hn.1 (h ▸ hr)
      have := ih (e.floatLane d w r f q s) hr hn.2 fun r h => hf r (List.mem_cons_of_mem _ h)
      rw [one q s hq] at this
      exact this
    · have hq : p = q := (List.mem_cons.mp hp).resolve_right hr
      subst hq
      have h1 : (eachLane (p :: ps) (e.floatLane d w r f) s).lane e.c p = (e.floatLane d w r f p s).lane e.c p := keep ps _ hr
      have hfp := hf p List.mem_cons_self
      rw [h1, Env.floatLane, lane_write e ho, if_pos rfl]
      refine ⟨fun i hi h64 => ?_, fun hk => ?_, fun hr => ?_⟩
      · subst hi; simp only
        rw [regsGet_regsSet _ _ _ _ h64, Nat.mod_eq_of_lt (by rw [hw]; exact hfp)]
      · simp only; rw [Vector.getElem?_eq_getElem (by simpa using hk)]; simp [Nat.mod_eq_of_lt hfp]
      · simp only [Env.stoch, hr, if_true, ho, Bool.false_eq_true, if_false, Env.nextDraw, lane_modLane_self, and_self]

theorem floatLane_mod (e : Env) (d : Option Operand) (w : Nat) (r : Rnd) (f : Nat → Nat) (hw : wholeRegs w) :
    e.floatLane d w r f = e.floatLane d w r fun p => f p % 2 ^ w := by
  funext p t; unfold Env.floatLane; rw [write_mod e d p w _ _ hw]

theorem runLanes_nodup (h : e.lanes.Nodup) : (e.runLanes.map e.drawLane).Nodup := by
  unfold Env.runLanes Env.drawLane
  cases e.once
  · simpa using h
  · simp

theorem drawLane_live (h : Runs i e s) {p : Nat} (hp : p ∈ e.runLanes) :
    e.drawLane p ∈ e.cu.live ∨ (e.once = true ∧ e.drawLane p = e.x.gbase) := by
  unfold Env.drawLane
  cases ho : e.once
  · simp only [Env.runLanes, ho, Bool.false_eq_true, if_false] at hp ⊢
    exact Or.inl (h.lanes_live p hp)
  · simp

theorem runLanes_live (h : Runs i e s) {p : Nat} (hp : p ∈ e.runLanes) : p ∈ e.lanes := by
  unfold Env.runLanes at hp
  split at hp
  · rw [List.mem_singleton.mp hp]; exact h.low_mem
  · exact hp

/-- A word with a float result: it completes; codes, flags and draws stand as its rule gives them; nothing else changes. -/
theorem Runs.floatOut (h : Runs i e s) {body : Env → State → Res} (d : Option Operand) (w : Nat) (r : Rnd) (f : Nat → Nat → Nat × Flags)
    (hb : body e (e.entry s) = .done (e.floatOut d w r f (e.entry s))) (hu : ∀ q ∈ dstUse d w, q ∈ usesOf i)
    (hw : w = 32 ∨ w = 64 ∨ w = 128) (hn : e.lanes.Nodup) :
    ∃ t, execWord i body s = .next t ∧
      RegResult e d w (fun p => (f p (e.stoch r p s).1).1 % 2 ^ w) t ∧
      (∃ y, t.group? e.c e.g = some y ∧
        y.gst = e.x.gst ||| BitVec.ofNat 32 (flagsAll (e.runLanes.map fun p => (f p (e.stoch r p s).1).2)).gst) ∧
      (r = .rsr → e.once = false → ∀ p ∈ e.lanes, (t.lane e.c p).rstep = e.cu.step ∧
        (t.lane e.c p).ridx = (if (s.lane e.c p).rstep = e.cu.step then (s.lane e.c p).ridx else 0) + 1) ∧
      Frame e.c e.g (fun q => q ∈ e.cu.live ∨ (r = .rsr ∧ e.once = true ∧ q = e.x.gbase))
        (fun p n => p ∈ e.lanes ∧ ∃ k, d = some (.v k) ∧ k.val ≤ n ∧ n < k.val + w / 32) (fun _ _ => False)
        (fun q => r = .rsr ∧ q ∈ e.runLanes.map e.drawLane)
        (fun n => ∃ k, d = some (.s k) ∧ k.val ≤ n ∧ n < k.val + w / 32) True s t := by
  have hwr := wholeRegs_of hw
  -- draws are those of the state before the word
  have hfr : Frame e.c e.g (fun _ => True) (fun _ _ => True) (fun _ _ => True) (fun _ => False) (fun _ => True) True s (e.entry s) :=
    (Frame.focus s).trans (Frame.clearLatch _ _ fun _ _ => trivial)
  have hst : ∀ p, (e.stoch r p (e.entry s)).1 = (e.stoch r p s).1 := fun p => stoch_congr r hfr fun _ h => h
  have hst0 : (fun p => (f p (e.stoch r p (e.entry s)).1)) = fun p => f p (e.stoch r p s).1 := by funext p; rw [hst]
  have hE : e.floatOut d w r f (e.entry s) =
      (eachLane e.runLanes (e.floatLane d w r fun p => (f p (e.stoch r p s).1).1 % 2 ^ w) (e.entry s)).orGst e.c e.g
        (flagsAll (e.runLanes.map fun p => (f p (e.stoch r p s).1).2)).gst := by
    unfold Env.floatOut
    rw [floatFold e d w r f e.runLanes (e.entry s) noFlags (runLanes_nodup hn)]
    rw [← floatLane_mod e d w r _ hwr]
    simp only [hst]
    rfl
  rw [hE] at hb
  obtain ⟨x, cu, hx, hsc, hcu⟩ := entry_group? h
  have hgst : x.gst = e.x.gst := by
    have h1 : Frame e.c e.g (fun _ => True) (fun _ _ => True) (fun _ _ => True) (fun _ => False) (fun _ => True) False s (e.entry s) :=
      (Frame.focus s).trans (Frame.clearLatch _ _ fun _ _ => trivial)
    obtain ⟨y, hy, _, _, hg, _⟩ := h1.group e.x h.group
    rw [hx] at hy; cases hy; exact hg id
  have hdst : dstFits d w = true ∧ (∀ j, d = some (.v j) → e.once = false) ∧ (∀ j, d = some (.s j) → e.once = true) := by
    cases d with
    | none => exact ⟨rfl, (fun j hj => by cases hj), (fun j hj => by cases hj)⟩
    | some d =>
      have hd := h.dst (hu { o := d, w := w, cls := clsReg, dst := true, laneS := false } (by simp [dstUse])) rfl hw
      exact ⟨hd.1, fun j hj => hd.2.1 j (by cases hj; rfl), fun j hj => hd.2.2 rfl j (by cases hj; rfl)⟩
  generalize hcode : (fun p => (f p (e.stoch r p s).1).1 % 2 ^ w) = code at *
  have hlt : ∀ p, code p < 2 ^ w := by intro p; rw [← hcode]; exact Nat.mod_lt _ (Nat.two_pow_pos w)
  -- the frame of the fold
  have hfold : ∀ G, Frame e.c e.g (fun q => q ∈ e.cu.live ∨ (r = .rsr ∧ e.once = true ∧ q = e.x.gbase))
      (fun p n => p ∈ e.lanes ∧ ∃ k, d = some (.v k) ∧ k.val ≤ n ∧ n < k.val + w / 32) (fun _ _ => False)
      (fun q => r = .rsr ∧ q ∈ e.runLanes.map e.drawLane)
      (fun n => ∃ k, d = some (.s k) ∧ k.val ≤ n ∧ n < k.val + w / 32) G (e.entry s)
      (eachLane e.runLanes (e.floatLane d w r code) (e.entry s)) := by
    intro G
    refine Frame.eachLane _ _ (fun p hp t => Frame.floatLane e d w r code p t (fun hr => ?_) ?_ (fun hr => ?_) ?_ ?_) _
    · rcases drawLane_live h hp with hl | ⟨h1, h2⟩
      · exact Or.inl hl
      · exact Or.inr ⟨hr, h1, h2⟩
    · exact Or.inl (h.lanes_live p (runLanes_live h hp))
    · exact ⟨hr, List.mem_map_of_mem hp⟩
    · exact fun j hj n h1 h2 => ⟨runLanes_live h hp, j, hj, h1, h2⟩
    · exact fun j hj n h1 h2 => ⟨j, hj, h1, h2⟩
  obtain ⟨y, hy, _, _, hyg, _⟩ := (hfold False).group x hx
  refine ⟨_, h.exec_done hb, ⟨fun j hj p hp => ?_, fun j hj => ?_, fun ho hk p hp => ?_, fun ho hk z cu' hz hc => ?_⟩, ?_, ?_, ?_⟩
  · have ho := hdst.2.1 j hj
    have hfit := hdst.1; subst hj; simp only [dstFits, decide_eq_true_eq] at hfit
    rw [lane_advance_v, State.orGst, lane_modGroup]
    simp only [Env.runLanes, ho, Bool.false_eq_true, if_false]
    exact (fold_float_lane ho e.lanes p _ hp hn (fun q _ => hlt q) hwr).1 j rfl hfit
  · have ho := hdst.2.2 j hj
    have hfit := hdst.1; subst hj; simp only [dstFits, decide_eq_true_eq] at hfit
    simp only [Env.runLanes, ho, if_true, eachLane, List.foldl_cons, List.foldl_nil]
    -- one write
    have h1 : ∃ z, ((e.floatLane (some (.s j)) w r code e.low (e.entry s)).orGst e.c e.g
        (flagsAll ([e.low].map fun p => (f p (e.stoch r p s).1).2)).gst).group? e.c e.g = some z ∧
        regsGet z.scal j.val (w / 32) = code e.low := by
      obtain ⟨x', hx', _⟩ : ∃ x', ((e.stoch r e.low (e.entry s)).2).group? e.c e.g = some x' ∧ True := by
        have hS : Frame e.c e.g (fun _ => True) (fun _ _ => True) (fun _ _ => True) (fun _ => True) (fun _ => True) True (e.entry s)
            (e.stoch r e.low (e.entry s)).2 := Frame.stoch e r _ _ (fun _ => trivial) (fun _ => trivial)
        obtain ⟨x', hx', _⟩ := hS.group x hx
        exact ⟨x', hx', trivial⟩
      rw [State.orGst, group?_modGroup_self, Env.floatLane, group_write e ho _ _ _ _ _ x' hx']
      simp only [Option.map_some, Option.some.injEq]
      refine ⟨_, rfl, ?_⟩
      simp only
      rw [regsGet_regsSet _ _ _ _ hfit, Nat.mod_eq_of_lt (by rw [hwr]; exact hlt _)]
    obtain ⟨z, hz, hzv⟩ := h1
    obtain ⟨y', hy', hys, _, _⟩ := group_advance _ _ _ _ hz
    exact ⟨y', hy', by rw [hys, hzv]⟩
  · rw [lane_advance_lat, State.orGst, lane_modGroup]
    simp only [Env.runLanes, ho, Bool.false_eq_true, if_false]
    exact (fold_float_lane ho e.lanes p _ hp hn (fun q _ => hlt q) hwr).2.1 hk
  · simp only [Env.runLanes, ho, if_true, eachLane, List.foldl_cons, List.foldl_nil] at hz
    obtain ⟨x', hx', cux, hcux⟩ : ∃ x', ((e.stoch r e.low (e.entry s)).2).group? e.c e.g = some x' ∧ ∃ b, x'.cur = some b := by
      unfold Env.stoch
      split
      · simp only [Env.nextDraw, group?_modLane]; exact ⟨x, hx, cu, hcu⟩
      · exact ⟨x, hx, cu, hcu⟩
    have h1 : ∃ z, ((e.floatLane d w r code e.low (e.entry s)).orGst e.c e.g
        (flagsAll ([e.low].map fun p => (f p (e.stoch r p s).1).2)).gst).group? e.c e.g = some z ∧
        z.cur = some { cux with gx := cux.gx.setIfInBounds e.cu.k (BitVec.ofNat 128 (code e.low % 2 ^ w)) } := by
      rw [State.orGst, group?_modGroup_self, Env.floatLane, group_write e ho _ _ _ _ _ x' hx', Option.map_some]
      exact ⟨_, rfl, by simp [hcux]⟩
    obtain ⟨z', hz', hzc⟩ := h1
    obtain ⟨y', hy', _, _, hcur⟩ := group_advance _ _ _ _ hz'
    rw [hz] at hy'; cases hy'
    obtain ⟨cu2, st, h2, h3⟩ := hcur cu' hc
    rw [hzc] at h2
    simp only [Option.some.injEq] at h2
    subst h2; subst h3
    simp only
    rw [Vector.getElem?_eq_getElem (by simpa using hk)]; simp [Nat.mod_eq_of_lt (hlt _)]
  · have h1 : ((eachLane e.runLanes (e.floatLane d w r code) (e.entry s)).orGst e.c e.g
        (flagsAll (e.runLanes.map fun p => (f p (e.stoch r p s).1).2)).gst).group? e.c e.g = some { y with
          gst := y.gst ||| BitVec.ofNat 32 (flagsAll (e.runLanes.map fun p => (f p (e.stoch r p s).1).2)).gst } := by
      rw [State.orGst, group?_modGroup_self, hy]; rfl
    obtain ⟨z, hz, _, hzg, _⟩ := group_advance _ _ _ _ h1
    exact ⟨z, hz, by rw [hzg, hyg id, hgst]⟩
  · intro hr ho p hp
    have h2 : ∀ t : State, ((advance t e.c e.g).lane e.c p).rstep = (t.lane e.c p).rstep ∧
        ((advance t e.c e.g).lane e.c p).ridx = (t.lane e.c p).ridx := by
      intro t; rcases lane_advance t e.c e.g e.c p with h | ⟨a, h⟩ <;> rw [h] <;> exact ⟨rfl, rfl⟩
    rw [(h2 _).1, (h2 _).2, State.orGst, lane_modGroup]
    simp only [Env.runLanes, ho, Bool.false_eq_true, if_false]
    have h3 := (fold_float_lane ho e.lanes p (e.entry s) hp hn (fun q _ => hlt q) hwr (d := d) (r := r)).2.2 hr
    rw [(hfr.draws p id).1, (hfr.draws p id).2] at h3
    exact h3
  · exact h.frame (fun p hp => Or.inl hp) ((hfold True).trans (Frame.orGst _ _ trivial))

end Sys2Proof.Machine
end

