-- ==== Sys2Proof/Certificates/Slice0/Obligations.lean ====
section
/-!
DEFINITION. Sys2Proof/Certificates/Slice0/Obligations.lean: the statements for the provers, and the tables of values,
written from the rules, that they compare the machine with.
-/
namespace Sys2Proof.Machine

/-! ### The integer and predicate instructions (R150 to R164) -/

/-- A register result as a rule gives it: destination, width, and the value from a reader of the operands of one lane. -/
structure RegForm where
  dst : Option Operand
  w : Nat
  val : (Operand → Nat → Nat) → Nat

/-- The rules of R153 to R162: val, cnt and res are those of R150. -/
def intForm : Instr → Option RegForm
  | .mov o => some ⟨o.dst, tyOpWidth o.ty, fun r => tyRes o.ty (tyVal o.ty (r o.a (tyOpWidth o.ty)))⟩
  | .neg o => some ⟨o.dst, tyOpWidth o.ty, fun r => tyRes o.ty (- tyVal o.ty (r o.a (tyOpWidth o.ty)))⟩
  | .abs o => some ⟨o.dst, tyOpWidth o.ty, fun r => tyRes o.ty ((tyVal o.ty (r o.a (tyOpWidth o.ty))).natAbs : Int)⟩
  | .add o => some ⟨o.dst, tyOpWidth o.ty, fun r => tyRes o.ty (tyVal o.ty (r o.a (tyOpWidth o.ty)) + tyVal o.ty (r o.b (tyOpWidth o.ty)))⟩
  | .sub o => some ⟨o.dst, tyOpWidth o.ty, fun r => tyRes o.ty (tyVal o.ty (r o.a (tyOpWidth o.ty)) - tyVal o.ty (r o.b (tyOpWidth o.ty)))⟩
  | .min o => some ⟨o.dst, tyOpWidth o.ty, fun r => tyRes o.ty (min (tyVal o.ty (r o.a (tyOpWidth o.ty))) (tyVal o.ty (r o.b (tyOpWidth o.ty))))⟩
  | .max o => some ⟨o.dst, tyOpWidth o.ty, fun r => tyRes o.ty (max (tyVal o.ty (r o.a (tyOpWidth o.ty))) (tyVal o.ty (r o.b (tyOpWidth o.ty))))⟩
  | .mad o => some ⟨o.dst, tyOpWidth o.ty, fun r =>
      tyRes o.ty (tyVal o.ty (r o.a (tyOpWidth o.ty)) * tyVal o.ty (r o.b (tyOpWidth o.ty)) + tyVal o.ty (r o.c (tyOpWidth o.ty)))⟩
  | .mul o => some ⟨o.dst, tyOpWidth o.ty, fun r => tyRes o.ty (tyVal o.ty (r o.a (tyOpWidth o.ty)) * tyVal o.ty (r o.b (tyOpWidth o.ty)))⟩
  | .mulh o => some ⟨o.dst, tyOpWidth o.ty, fun r =>
      tyRes o.ty ((tyVal o.ty (r o.a (tyOpWidth o.ty)) * tyVal o.ty (r o.b (tyOpWidth o.ty))) / 2 ^ tyWidth o.ty)⟩
  | .and o => some ⟨o.dst, tyOpWidth o.ty, fun r =>
      tyRes o.ty ((r o.a (tyOpWidth o.ty) % 2 ^ tyWidth o.ty &&& r o.b (tyOpWidth o.ty) % 2 ^ tyWidth o.ty : Nat) : Int)⟩
  | .or o => some ⟨o.dst, tyOpWidth o.ty, fun r =>
      tyRes o.ty ((r o.a (tyOpWidth o.ty) % 2 ^ tyWidth o.ty ||| r o.b (tyOpWidth o.ty) % 2 ^ tyWidth o.ty : Nat) : Int)⟩
  | .xor o => some ⟨o.dst, tyOpWidth o.ty, fun r =>
      tyRes o.ty ((r o.a (tyOpWidth o.ty) % 2 ^ tyWidth o.ty ^^^ r o.b (tyOpWidth o.ty) % 2 ^ tyWidth o.ty : Nat) : Int)⟩
  | .andn o => some ⟨o.dst, tyOpWidth o.ty, fun r =>
      tyRes o.ty ((r o.a (tyOpWidth o.ty) % 2 ^ tyWidth o.ty &&& (2 ^ tyWidth o.ty - 1 - r o.b (tyOpWidth o.ty) % 2 ^ tyWidth o.ty) : Nat) : Int)⟩
  | .not o => some ⟨o.dst, tyOpWidth o.ty, fun r => tyRes o.ty ((2 ^ tyWidth o.ty - 1 - r o.a (tyOpWidth o.ty) % 2 ^ tyWidth o.ty : Nat) : Int)⟩
  | .shl o => some ⟨o.dst, tyOpWidth o.ty, fun r =>
      if r o.b 32 < tyWidth o.ty then tyRes o.ty ((r o.a (tyOpWidth o.ty) % 2 ^ tyWidth o.ty * 2 ^ r o.b 32 : Nat) : Int) else 0⟩
  | .shr o => some ⟨o.dst, tyOpWidth o.ty, fun r =>
      if r o.b 32 < tyWidth o.ty then tyRes o.ty ((r o.a (tyOpWidth o.ty) % 2 ^ tyWidth o.ty / 2 ^ r o.b 32 : Nat) : Int) else 0⟩
  | .sar o => some ⟨o.dst, tyOpWidth o.ty, fun r =>
      let x := sext (r o.a (tyOpWidth o.ty)) (tyWidth o.ty)
      tyRes o.ty (if r o.b 32 < tyWidth o.ty then x / 2 ^ r o.b 32 else if x < 0 then -1 else 0)⟩
  | .rol o => some ⟨o.dst, tyOpWidth o.ty, fun r =>
      let x := r o.a (tyOpWidth o.ty) % 2 ^ tyWidth o.ty
      let k := r o.b 32 % tyWidth o.ty
      tyRes o.ty ((x * 2 ^ k + x / 2 ^ (tyWidth o.ty - k) : Nat) : Int)⟩
  | .bfx o => some ⟨o.dst, tyOpWidth o.ty, fun r =>
      let q := r o.b 32
      let pos := q % 256
      let len := q / 256 % 256
      let m := min len (tyWidth o.ty - pos)
      let f := r o.a (tyOpWidth o.ty) % 2 ^ tyWidth o.ty / 2 ^ pos % 2 ^ m
      if tyWidth o.ty ≤ pos ∨ len = 0 then 0 else tyRes o.ty (if tySigned o.ty then sext f m else (f : Int))⟩
  | .bfi o => some ⟨o.dst, tyOpWidth o.ty, fun r =>
      let q := r o.c 32
      let pos := q % 256
      let len := q / 256 % 256
      let m := min len (tyWidth o.ty - pos)
      let x := r o.a (tyOpWidth o.ty) % 2 ^ tyWidth o.ty
      let hole := (2 ^ m - 1) * 2 ^ pos
      if tyWidth o.ty ≤ pos ∨ len = 0 then tyRes o.ty (x : Int)
      else tyRes o.ty (((x &&& (2 ^ tyWidth o.ty - 1 - hole)) ||| r o.b (tyOpWidth o.ty) % 2 ^ tyWidth o.ty % 2 ^ m * 2 ^ pos : Nat) : Int)⟩
  | .popc o => some ⟨o.dst, 32, fun r => ((natRange 0 (tyWidth o.ty)).filter fun n => bitAt (r o.a (tyOpWidth o.ty)) n).length⟩
  | .clz o => some ⟨o.dst, 32, fun r =>
      let x := r o.a (tyOpWidth o.ty) % 2 ^ tyWidth o.ty
      if x = 0 then tyWidth o.ty else tyWidth o.ty - 1 - Nat.log2 x⟩
  | .ctz o => some ⟨o.dst, 32, fun r =>
      ((natRange 0 (tyWidth o.ty)).find? fun n => bitAt (r o.a (tyOpWidth o.ty)) n).getD (tyWidth o.ty)⟩
  | .brev o => some ⟨o.dst, tyOpWidth o.ty, fun r =>
      tyRes o.ty (((natRange 0 (tyWidth o.ty)).foldl (fun x n =>
        x + b2n (bitAt (r o.a (tyOpWidth o.ty)) n) * 2 ^ (tyWidth o.ty - 1 - n)) 0 : Nat) : Int)⟩
  | .sel o => some ⟨o.dst, tyOpWidth o.ty, fun r =>
      tyRes o.ty (if r o.c 32 ≠ 0 then tyVal o.ty (r o.a (tyOpWidth o.ty)) else tyVal o.ty (r o.b (tyOpWidth o.ty)))⟩
  | .cvt src o => some ⟨o.dst, tyOpWidth o.ty, fun r =>
      tyRes o.ty (max (tyMin o.ty) (min (tyMax o.ty) (tyVal src (r o.a (tyOpWidth src)))))⟩
  | .dp4 _ natural d a b c => some ⟨d, 32, fun r =>
      let byte (x n : Nat) : Int := if natural then (x / 2 ^ (8 * n) % 256 : Nat) else sext (x / 2 ^ (8 * n)) 8
      let x := r a 32
      let y := r b 32
      wrap ((r c 32 : Int) + byte x 0 * byte y 0 + byte x 1 * byte y 1 + byte x 2 * byte y 2 + byte x 3 * byte y 3) 32⟩
  | .movi _ k d imm => some (match k with
      | .b32 => ⟨d, 32, fun _ => imm.toNat⟩
      | .i64 => ⟨d, 64, fun _ => (imm.signExtend 64).toNat⟩
      | .n64 => ⟨d, 64, fun _ => imm.toNat⟩)
  | .addc o => some ⟨o.dst, 2 * tyOpWidth o.ty, fun r =>
      let n := r o.a (tyOpWidth o.ty) % 2 ^ tyWidth o.ty + r o.b (tyOpWidth o.ty) % 2 ^ tyWidth o.ty + r o.c 32 % 2
      tyRes o.ty (n : Int) + (if 2 ^ tyWidth o.ty ≤ n then 2 ^ tyOpWidth o.ty else 0)⟩
  | .subb o => some ⟨o.dst, 2 * tyOpWidth o.ty, fun r =>
      let n : Int := (r o.a (tyOpWidth o.ty) % 2 ^ tyWidth o.ty : Nat) - (r o.b (tyOpWidth o.ty) % 2 ^ tyWidth o.ty : Nat) - (r o.c 32 % 2 : Nat)
      tyRes o.ty n + (if n < 0 then 2 ^ tyOpWidth o.ty else 0)⟩
  | _ => none

/-- A predicate result as a rule gives it: destination, and the value in a lane (R163, R164, R193). -/
structure PredForm where
  dst : Option (Fin 8)
  val : Env → State → Nat → Bool

/-- The rules of R163, R164 and R193. -/
def predForm : Instr → Option PredForm
  | .cmp _ c ty d a b => some ⟨d, fun e s p =>
      let x := tyVal ty (e.opnd s a p (tyOpWidth ty))
      let y := tyVal ty (e.opnd s b p (tyOpWidth ty))
      match c with
      | .eq => decide (x = y) | .ne => decide (x ≠ y) | .lt => decide (x < y)
      | .le => decide (x ≤ y) | .gt => decide (x > y) | .ge => decide (x ≥ y)⟩
  | .pand o => some ⟨o.dst, fun e s p => predGet (s.lane e.c p) o.a.val && predGet (s.lane e.c p) o.b.val⟩
  | .por o => some ⟨o.dst, fun e s p => predGet (s.lane e.c p) o.a.val || predGet (s.lane e.c p) o.b.val⟩
  | .pxor o => some ⟨o.dst, fun e s p => predGet (s.lane e.c p) o.a.val != predGet (s.lane e.c p) o.b.val⟩
  | .pnot _ d a => some ⟨d, fun e s p => !predGet (s.lane e.c p) a.val⟩
  | .vote _ k d a => some ⟨d, fun e s _ =>
      let xs := e.lanes.map (e.psrc s a)
      match k with
      | .any => decide (∃ x ∈ xs, x ≠ 0)
      | .all => decide (∀ x ∈ xs, x ≠ 0)
      | .eq => decide (∀ x ∈ xs, x = e.psrc s a e.low)⟩
  | _ => none

/-! ### The float instructions (R166 to R181) -/

/-- A float result as a rule gives it: destination, width, the mode under which a draw is taken, and code and flags from the
lane and its draw. Rounding and its flags are RoundFmt (R71, R74). -/
structure FloatForm where
  dst : Option Operand
  w : Nat
  m : Rnd
  val : Env → State → Nat → Nat → Nat × Flags

/-- The rules of R168 to R178 and R181. -/
def floatForm : Instr → Option FloatForm
  | .fadd o => some ⟨o.dst, fW o.f, o.m, fun e s p u => addVal o.f o.m (e.fv s o.f o.a p) (e.fv s o.f o.b p) u⟩
  | .fsub o => some ⟨o.dst, fW o.f, o.m, fun e s p u => addVal o.f o.m (e.fv s o.f o.a p) (e.fv s o.f o.b p).neg u⟩
  | .fmul o => some ⟨o.dst, fW o.f, o.m, fun e s p u => mulVal o.f o.m (e.fv s o.f o.a p) (e.fv s o.f o.b p) u⟩
  | .ffma o => some ⟨o.dst, fW o.f, o.m, fun e s p u => fmaVal o.f o.m (e.fv s o.f o.a p) (e.fv s o.f o.b p) (e.fv s o.f o.c p) u⟩
  | .fmin o => some ⟨o.dst, fW o.f, .rne, fun e s p _ => minMaxVal o.f false (e.fopnd s o.f o.a p) (e.fopnd s o.f o.b p)⟩
  | .fmax o => some ⟨o.dst, fW o.f, .rne, fun e s p _ => minMaxVal o.f true (e.fopnd s o.f o.a p) (e.fopnd s o.f o.b p)⟩
  | .fexp2 o => some ⟨o.dst, fW o.f, o.m, fun e s p u => fnVal e.x.ftv.toNat .exp2 o.f o.m (e.fv s o.f o.a p) u⟩
  | .flog2 o => some ⟨o.dst, fW o.f, o.m, fun e s p u => fnVal e.x.ftv.toNat .log2 o.f o.m (e.fv s o.f o.a p) u⟩
  | .fsin o => some ⟨o.dst, fW o.f, o.m, fun e s p u => fnVal e.x.ftv.toNat .sin o.f o.m (e.fv s o.f o.a p) u⟩
  | .fcos o => some ⟨o.dst, fW o.f, o.m, fun e s p u => fnVal e.x.ftv.toNat .cos o.f o.m (e.fv s o.f o.a p) u⟩
  | .ftanh o => some ⟨o.dst, fW o.f, o.m, fun e s p u => fnVal e.x.ftv.toNat .tanh o.f o.m (e.fv s o.f o.a p) u⟩
  | .ferf o => some ⟨o.dst, fW o.f, o.m, fun e s p u => fnVal e.x.ftv.toNat .erf o.f o.m (e.fv s o.f o.a p) u⟩
  | .fsig o => some ⟨o.dst, fW o.f, o.m, fun e s p u => fnVal e.x.ftv.toNat .sig o.f o.m (e.fv s o.f o.a p) u⟩
  | .fclass o => some ⟨o.dst, 32, .rne, fun e s p _ => (fclassVal o.f (e.fopnd s o.f o.a p), noFlags)⟩
  | .fround o => some ⟨o.dst, fW o.f, o.m, fun e s p u => froundVal o.f o.m (e.fv s o.f o.a p) u⟩
  | .fscale o => some ⟨o.dst, fW o.f, o.m, fun e s p u => fscaleVal o.f o.m (e.fv s o.f o.a p) (sext (e.opnd s o.b p 32) 32) u⟩
  | .fcvt src o => some ⟨o.dst, fW o.f, o.m, fun e s p u => cvtFF o.f o.m (e.fv s src o.a p) u⟩
  | .ftoi ty o => some ⟨o.dst, tyOpWidth ty, o.m, fun e s p u =>
      (tyRes ty (cvtFI ty o.m (e.fv s o.f o.a p) u).1, (cvtFI ty o.m (e.fv s o.f o.a p) u).2)⟩
  | .itof ty o => some ⟨o.dst, fW o.f, o.m, fun e s p u => cvtIF o.f o.m (tyVal ty (e.opnd s o.a p (tyOpWidth ty))) u⟩
  | .fdot2 o => some ⟨o.dst, 32, .rne, fun e s p _ =>
      groupedDot o.f (e.fopnd s .f32 o.c p) [fld (e.opnd s o.a p 32) 0 16, fld (e.opnd s o.a p 32) 16 16]
        [fld (e.opnd s o.b p 32) 0 16, fld (e.opnd s o.b p 32) 16 16]⟩
  | .fdot4 o => some ⟨o.dst, 32, .rne, fun e s p _ =>
      groupedDot o.f (e.fopnd s .f32 o.c p)
        [fld (e.opnd s o.a p 32) 0 8, fld (e.opnd s o.a p 32) 8 8, fld (e.opnd s o.a p 32) 16 8, fld (e.opnd s o.a p 32) 24 8]
        [fld (e.opnd s o.b p 32) 0 8, fld (e.opnd s o.b p 32) 8 8, fld (e.opnd s o.b p 32) 16 8, fld (e.opnd s o.b p 32) 24 8]⟩
  | .funpack _ f d a b => some ⟨d, 32, .rne, fun e s p _ => unpackVal f (e.opnd s a p 32) (e.opnd s b p 32)⟩
  | _ => none

/-- A conversion between float formats, from its rule (R76). -/
def floatToFloat (d : Fmt) (m : Rnd) (v : FVal) (u : Nat) : Nat × Flags :=
  match v with
  | .nan signalling => (qnan d, if signalling then flagIV else noFlags)
  | .inf neg => if d = .e4m3 ∨ d = .mk8 then (qnan d, flagIV) else (infCode d neg, noFlags)
  | .fin neg a e => if a = 0 then (if neg = true ∧ d ≠ .mk8 then 2 ^ (fmtWidth d - 1) else 0, noFlags) else roundFmt d neg ⟨a, e, false⟩ m u

/-- A conversion from float to an integer type, from its rule (R77). -/
def floatToInt (t : IntTy) (m : Rnd) (v : FVal) (u : Nat) : Int × Flags :=
  match v with
  | .nan _ => (0, flagIV)
  | .inf neg => (if neg then tyMin t else tyMax t, flagIV)
  | .fin neg a e =>
    let r := if 0 ≤ e then (a * 2 ^ e.toNat, false) else roundInt neg ⟨a, e, false⟩ m u
    let n : Int := if neg then -(r.1 : Int) else r.1
    if n < tyMin t then (tyMin t, flagIV) else if tyMax t < n then (tyMax t, flagIV) else (n, flagIf r.2 flagNX)

/-- The scoreboarded forms (R174, R195): destination, width, slot, and the code, flags or value of each lane. -/
structure SlotForm where
  dst : Operand
  w : Nat
  m : Rnd
  sb : Fin 8
  divide : Bool
  val : Env → State → Nat → Nat → Nat × Flags

/-- The rules of R174 and R195. -/
def slotForm : Instr → Option SlotForm
  | .frcp o => some ⟨o.dst, fW o.f, o.m, o.sb, true, fun e s p u => rcpVal o.f o.m (e.fv s o.f o.a p) u⟩
  | .frsq o => some ⟨o.dst, fW o.f, o.m, o.sb, true, fun e s p u => rsqVal o.f o.m (e.fv s o.f o.a p) u⟩
  | .fsqrt o => some ⟨o.dst, fW o.f, o.m, o.sb, true, fun e s p u => sqrtVal o.f o.m (e.fv s o.f o.a p) u⟩
  | .fdiv o b => some ⟨o.dst, fW o.f, o.m, o.sb, true, fun e s p u => divVal o.f o.m (e.fv s o.f o.a p) (e.fv s o.f b p) u⟩
  | .xred _ op ty d a sb => some ⟨d, tyOpWidth ty, .rne, sb, false, fun e s _ _ => (tyRes ty (e.foldOver s op ty a e.lanes), noFlags)⟩
  | .xscan _ incl op ty d a sb => some ⟨d, tyOpWidth ty, .rne, sb, false, fun e s p _ =>
      (tyRes ty (e.foldOver s op ty a (e.lanes.filter fun q => if incl then q ≤ p else q < p)), noFlags)⟩
  | _ => none

/-- The register writes of `w` bits of a value: to vector register `r` of a lane on, or to scalar register `r` on (R42). -/
def vecWrites (p r w x : Nat) : List RegWrite := (natRange 0 (w / 32)).map fun k => .vec p (r + k) (BitVec.ofNat 32 (x / 2 ^ (32 * k)))
def scaWrites (r w x : Nat) : List RegWrite := (natRange 0 (w / 32)).map fun k => .sca (r + k) (BitVec.ofNat 32 (x / 2 ^ (32 * k)))

/-- The register that a write names: of a lane, or a scalar register. -/
def writePlace : RegWrite → Option Nat × Nat
  | .vec p r _ => (some p, r)
  | .sca r _ => (none, r)

/-- The write has taken place: its register holds its word. -/
def Written (c : Nat) (y : Group) (t : State) : RegWrite → Prop
  | .vec p r x => regGet (t.lane c p).v r = x
  | .sca r x => regGet y.scal r = x

/-- The cross-lane results that no slot holds (R190, R191, R194): destination, width and value in a lane. `xbcast` and `popm`
into a scalar write it once. -/
def crossForm (e : Env) (s : State) : Instr → Option (Option Operand × Nat × (Nat → Nat))
  | .xidx o => some (o.dst, tyOpWidth o.ty, fun p => tyRes o.ty (e.xval s o.ty o.a (e.opnd s o.b p 32 % e.x.gwid)))
  | .xup o => some (o.dst, tyOpWidth o.ty, fun p =>
      tyRes o.ty (e.xval s o.ty o.a ((p - e.x.gbase + (e.x.gwid - e.opnd s o.b p 32 % e.x.gwid)) % e.x.gwid)))
  | .xdn o => some (o.dst, tyOpWidth o.ty, fun p => tyRes o.ty (e.xval s o.ty o.a ((p - e.x.gbase + e.opnd s o.b p 32) % e.x.gwid)))
  | .xxor o => some (o.dst, tyOpWidth o.ty, fun p =>
      tyRes o.ty (e.xval s o.ty o.a (Nat.xor (p - e.x.gbase) (e.opnd s o.b p 32 % e.x.gwid))))
  | .xbcast o => some (o.dst, tyOpWidth o.ty, fun _ => tyRes o.ty (e.xval s o.ty o.a (e.opnd s o.b e.low 32 % e.x.gwid)))
  | .popm _ d a => some (d, 32, fun p =>
      match d with
      | some (.s _) => (e.lanes.filter fun q => e.psrc s a q != 0).length
      | _ => (e.lanes.filter fun q => q < p && e.psrc s a q != 0).length)
  | _ => none

/-- The code of `fpack` into two values (R179); the draw for a comes before the draw for b. -/
def packCode (e : Env) (s : State) (f : PackFmt) (m : Rnd) (a : Operand) (b c : Option Operand) (p : Nat) : Nat × Flags :=
  let ca := cvtFF (packFmt f).1 m (e.fv s .f32 a p) (e.stoch m p s).1
  let cb := cvtFF (packFmt f).1 m (e.fv s .f32 (b.getD (.lit 0)) p) (e.stoch m p (e.stoch m p s).2).1
  (ca.1 + cb.1 * 2 ^ (packFmt f).2 + (match c with | some x => e.opnd s x p 32 % 2 ^ 16 | none => 0) * 2 ^ 16, flagsOr ca.2 cb.2)

/-- The lanes of C in the block set of lane `p` (R180). -/
def blockLanes (e : Env) (p : Nat) : List Nat := e.lanes.filter fun q => decide ((q - e.x.gbase) / 32 = (p - e.x.gbase) / 32)

/-- Mantissa and exponent of lane `p` in the block of its set (R80, R180): the pair that `fpack` writes. -/
def blockCode (e : Env) (s : State) (w : Nat) (m : Rnd) (a : Operand) (p : Nat) : Nat :=
  let ps := blockLanes e p
  let b := blockPack w m (ps.map fun q => e.fv s .f32 a q) (ps.map fun q => (e.stoch m q s).1)
  wrap (((ps.zip b.2.1).find? (·.1 == p)).elim 0 (·.2)) 32 + b.1 * 2 ^ 32

/-! ### Control (R136, R144 to R149) -/

/-- The lanes that a control word transfers, with their targets (R144); `nop` and the hint `pref` transfer none. -/
def jumpsOf (e : Env) (s : State) : Instr → Option (List (Nat × Nat))
  | .nop _ | .pref _ _ => some []
  | .br _ c ofs => some (if e.cond s c e.low then e.lanes.map fun p => (p, e.target ofs) else [])
  | .brc _ c ofs | .call _ c ofs => some ((e.lanes.filter (e.cond s c)).map fun p => (p, e.target ofs))
  | .jmp _ a => some (e.lanes.map fun p => (p, e.opnd s a e.low 64))
  | .jmpv _ a | .ret _ a => some (e.lanes.map fun p => (p, e.opnd s a p 64))
  | _ => none

/-- `call` writes v62 and v63 (R144). -/
def isCall : Instr → Bool
  | .call _ _ _ => true
  | _ => false

/-- A lane that no transfer takes goes on: to the next word of the clause, or behind the last one to FallThrough (R136). -/
structure GoesOn (e : Env) (p : Nat) (s t : State) : Prop where
  mid : e.cu.k + 1 < e.cu.words.length → (t.lane e.c p).lpc = (s.lane e.c p).lpc ∧ (t.lane e.c p).resw = (s.lane e.c p).resw ∧
    ∃ y cu, t.group? e.c e.g = some y ∧ y.cur = some cu ∧ cu.k = e.cu.k + 1 ∧ p ∈ cu.live
  last : e.cu.words.length ≤ e.cu.k + 1 → (t.lane e.c p).lpc = BitVec.ofNat 64 (e.cu.base + 8 * (e.cu.words.length + 1)) ∧
    (t.lane e.c p).resw = 0

/-- What a word may change that only moves lanes of group `g` of core `c`: where the lanes of `L` stand, their latches, their
handler state and the vector registers of `V`; of the group, its place in its clause and its handler state; and when the core's
issue port is free. -/
structure Moves (c g : Nat) (L : Nat → Prop) (V : Nat → Nat → Prop) (s t : State) : Prop where
  rest : Untouched s t
  cores : ∀ k, { t.core k with lanes := (s.core k).lanes, groups := (s.core k).groups, portFree := (s.core k).portFree } = s.core k
  ports : ∀ k, k ≠ c → (t.core k).portFree = (s.core k).portFree
  others : ∀ k h, ¬ (k = c ∧ h = g) → t.group? k h = s.group? k h
  group : ∀ x, s.group? c g = some x → ∃ y, t.group? c g = some y ∧
    { y with cur := x.cur, blk := x.blk, phase := x.phase, state := x.state, nextClk := x.nextClk, hmode := x.hmode,
             hcause := x.hcause } = x
  away : ∀ k q, ¬ (k = c ∧ L q) → t.lane k q = s.lane k q
  lanes : ∀ q, { t.lane c q with
    v := (s.lane c q).v, lat := (s.lane c q).lat, lpc := (s.lane c q).lpc, resw := (s.lane c q).resw,
    inHandler := (s.lane c q).inHandler } = s.lane c q
  vregs : ∀ q r, ¬ V q r → regGet (t.lane c q).v r = regGet (s.lane c q).v r

/-- The registers of every lane and group stand: vector registers, predicates, scalars, flags and FTV. -/
structure LanesStand (s t : State) : Prop where
  lanes : ∀ k q, (t.lane k q).v = (s.lane k q).v ∧ (t.lane k q).p = (s.lane k q).p
  groups : ∀ k h x, s.group? k h = some x → ∃ y, t.group? k h = some y ∧ y.scal = x.scal ∧ y.gst = x.gst ∧ y.ftv = x.ftv

/-- The same of one core. -/
structure CoreStands (c : Nat) (s t : State) : Prop where
  lanes : ∀ q, (t.lane c q).v = (s.lane c q).v ∧ (t.lane c q).p = (s.lane c q).p
  groups : ∀ h x, s.group? c h = some x → ∃ y, t.group? c h = some y ∧ y.scal = x.scal ∧ y.gst = x.gst ∧ y.ftv = x.ftv

/-- Nothing of core `c` is on its way: no request, no write in flight or in the buffer, no dirty line, no logged access, no
command, no member to flush, and nothing is staged in the transit units (R205, R207, R394). -/
structure Quiet (s : State) (c : Nat) : Prop where
  pend : (s.core c).pend = []
  log : (s.core c).log = []
  flights : (s.core c).flights = []
  wcb : (s.core c).wcb = []
  clean : ∀ l ∈ (s.core c).l1, l.2.dirty = 0
  cmds : (s.core c).cmds = []
  peers : (s.core c).peersWritten = []
  staged : s.transit = []

/-- The bytes of the vector that the trap table holds for a cause are not in a park slot, where latches are spilled (R333). -/
def vectorApart (s : State) (slot code : Nat) : Prop :=
  ∀ a, (s.ctx slot).tqbase.toNat + 0x4040 + 8 * code ≤ a → a < (s.ctx slot).tqbase.toNat + 0x4048 + 8 * code → inFirmware a = false

/-- HVEC of a cause (R331, R335). -/
def hvecOf (s : State) (slot code : Nat) : Nat := s.homeRead ((s.ctx slot).tqbase.toNat + 0x4040 + 8 * code) 8

/-- Lane `p` has entered the handler for `code` from word `w` of the clause at `hdr` (R331): where it stands, what v60 to v63
hold, and that the rest of its registers stands. -/
structure Entered (c p code hdr w detail info hvec : Nat) (s t : State) : Prop where
  lpc : (t.lane c p).lpc = BitVec.ofNat 64 hvec
  resw : (t.lane c p).resw = 0
  inHandler : (t.lane c p).inHandler = true
  thdr : (t.lane c p).thdr = BitVec.ofNat 64 hdr
  tw : (t.lane c p).tw = w
  cause : regGet (t.lane c p).v 60 = BitVec.ofNat 32 (code + 2 ^ 8 * w + 2 ^ 16 * (detail % 2 ^ 16))
  info : regGet (t.lane c p).v 61 = BitVec.ofNat 32 info
  pair : regsGet (t.lane c p).v 62 2 = wordAddr (hdr % 2 ^ 64) w % 2 ^ 64
  saved : ∀ i, i < 4 → regGet (t.lane c p).hsave i = regGet (s.lane c p).v (60 + i)
  low : ∀ r, r < 60 → regGet (t.lane c p).v r = regGet (s.lane c p).v r
  preds : (t.lane c p).p = (s.lane c p).p

/-- The place of the word after the current one, where a lane resumes that does not perform it again (R326). -/
def nextPoint (e : Env) : Nat × Nat :=
  if e.cu.k + 1 < e.cu.words.length then (e.cu.base, e.cu.k + 1) else (e.cu.base + 8 * (e.cu.words.length + 1), 0)

/-- The group can take a trap of a cause: it is not in handler mode, its kernel has all 64 registers, and the table holds a
vector (R331, R332). -/
structure CanTrap (e : Env) (s : State) (code : Nat) : Prop where
  mode : e.x.hmode = false
  vregs : 64 ≤ s.vregsOf e.c e.x
  hvec : hvecOf s (s.ctxOf e.c e.x) code ≠ 0
  apart : vectorApart s (s.ctxOf e.c e.x) code
  place : e.x.place < 16
  rln : ∀ p ∈ e.cu.live, (s.lane e.c p).rln < 8192
  memory : memoryOk s = true

/-- The opcodes marked privileged in R59, and the reads of the registers that R94 gives to the supervisor alone. No register that
`sput` writes is the supervisor's alone (R94). -/
def supervisorOnly : Instr → Bool
  | .colopen _ | .colclose _ | .exposeExpose _ | .exposeConfig _ | .exposeJoin _ | .ctxldLoad _ | .ctxldUpdate _ | .ctxldResume _
  | .ctxsvSnapshot _ | .ctxsvStop _ | .ctxsvEvict _ => true
  | .sget _ _ r => r ∈ [.hbase, .hlim, .hofs, .ptroot, .tqbase, .svbase, .rkey, .bkey, .ctxcfg, .lead, .ftvd, .zwt, .dln]
  | _ => false

/-! ### Barriers and semaphores (R253 to R267) -/

/-- The record, operand and scope of a barrier word that holds its lanes (R261). -/
def barForm (e : Env) (s : State) : Instr → Option (HoldRec × Nat)
  | .bar _ q => some (.team (barB (e.opnd s q e.low 32)), e.opnd s q e.low 32)
  | .cbar _ => some (.cluster, 0)
  | .gbar _ => some (.grid, 0)
  | _ => none

/-- A record as the first arrival of `q` finds it: a team record other than 0 that is not armed takes its member set, and counts the
live lanes in it (R256, R257). -/
def armed (e : Env) (s : State) (r : HoldRec) (q : Nat) (x : BarRec) : Nat :=
  match r with
  | .team b => if b.val ≠ 0 ∧ x.mv = false then s.liveIn e.c e.x.place (barLo q) (2 ^ barK q) else x.exp
  | _ => x.exp

/-- The count and generation of a record after `n` lanes have arrived (R257). -/
structure Arrived (exp n : Nat) (x y : BarRec) : Prop where
  completes : x.arr + n = exp → y.gen = x.gen + 1 ∧ y.arr = 0
  waits : x.arr + n ≠ exp → y.gen = x.gen ∧ y.arr = x.arr + n ∧ y.exp = exp

/-! ### Memory instructions (R36, R198, R214 to R221, R247, R269, R286) -/

/-- A memory word as its entry gives it: kind, slot, destination or data, the accesses of its lanes, what they are to the
translation, the paths admitted and the alignment asked for. -/
structure MemForm where
  kind : AccKind
  slot : Option (Fin 8)
  dst : Operand
  reqs : List LaneReq
  u : Use2
  path : Nat → Bool
  align : Nat

/-- The requests of an atomic (R221). -/
def atomReqs (e : Env) (s : State) (m : MemRef) (d : Operand) (n w : Nat) : List LaneReq :=
  e.lanes.map fun p => { pos := p, ea := e.effAddr s m n p, eas := eaRange (e.effAddr s m n p) n, x := e.opnd s d p w }

/-- The entries of the memory and sync classes that leave a request outstanding. -/
def memForm (e : Env) (s : State) : Instr → Option MemForm
  | .ld o => some ⟨.load o.w false, some o.sb, o.d,
      e.lanes.map fun p => { pos := p, ea := e.effAddr s o.m (widthBytes o.w) p, eas := eaRange (e.effAddr s o.m (widthBytes o.w) p) (widthBytes o.w) },
      .read, anyPath, 0⟩
  | .lds o => some ⟨.lds o.w, some o.sb, o.d,
      [{ pos := e.low, ea := e.effAddr s o.m (widthBytes o.w) e.low, eas := eaRange (e.effAddr s o.m (widthBytes o.w) e.low) (widthBytes o.w) }],
      .read, anyPath, 0⟩
  | .ldc o => some ⟨.load o.w true, some o.sb, o.d,
      e.lanes.map fun p => { pos := p, ea := e.effAddr s o.m (widthBytes o.w) p, eas := eaRange (e.effAddr s o.m (widthBytes o.w) p) (widthBytes o.w) },
      .read, genericPaths, 0⟩
  | .ldx o => some ⟨.ldx (ldxBytes o.w), some o.sb, o.d,
      e.lanes.map fun p =>
        { pos := p, ea := e.effAddr s o.m (ldxBytes o.w) p,
          eas := (natRange 0 4).flatMap fun r => eaRange (eaAdd (e.effAddr s o.m (ldxBytes o.w) p) (16 * ldxBytes o.w * r)) (ldxBytes o.w) },
      .read, fun q => q == 1 || q == 2, ldxBytes o.w⟩
  | .ldv o => some ⟨.ldv o.w false, some o.sb, o.d,
      e.lanes.map fun p => { pos := p, ea := e.vAddr s o.m p, eas := eaRange (e.vAddr s o.m p) (widthBytes o.w), y := e.opnd s o.m.index p 32 },
      .vread, genericPaths, 0⟩
  | .ldvNt o => some ⟨.ldv o.w true, some o.sb, o.d,
      e.lanes.map fun p => { pos := p, ea := e.vAddr s o.m p, eas := eaRange (e.vAddr s o.m p) (widthBytes o.w), y := e.opnd s o.m.index p 32 },
      .vread, genericPaths, 0⟩
  | .stv o => some ⟨.stv (widthBytes o.w), none, o.d,
      e.lanes.map fun p =>
        { pos := p, ea := e.effAddr s o.m (widthBytes o.w) p, eas := eaRange (e.effAddr s o.m (widthBytes o.w) p) (widthBytes o.w),
          x := e.opnd s o.d p (widthReg o.w) % 2 ^ (8 * widthBytes o.w) },
      .vwrite, (· == 0), 0⟩
  | .atom _ op team ty d m sb => some ⟨.atom op ty team, some sb, d, atomReqs e s m d (atomBytes ty) (tyOpWidth ty), .readWrite,
      fun q => q != 3 && !(team && q == 10), atomBytes ty⟩
  | .red _ op team ty d m => some ⟨.red op ty team, none, d, atomReqs e s m d (atomBytes ty) (tyOpWidth ty), .write,
      fun q => q != 3 && !(team && q == 10), atomBytes ty⟩
  | .cas _ team w64 d m sb =>
    let n := if w64 then 8 else 4
    some ⟨.cas w64 team, some sb, d,
      e.lanes.map fun p => { pos := p, ea := e.effAddr s m n p, eas := eaRange (e.effAddr s m n p) n,
                             x := e.opnd s d p (16 * n) % 2 ^ (8 * n), y := e.opnd s d p (16 * n) / 2 ^ (8 * n) },
      .readWrite, fun q => q != 3 && !(team && q == 10), n⟩
  | .waitc _ c w64 d m sb =>
    let n := if w64 then 8 else 4
    some ⟨.waitc c w64, some sb, d,
      e.lanes.map fun p => { pos := p, ea := e.effAddr s m n p, eas := eaRange (e.effAddr s m n p) n, x := e.opnd s d p (16 * n) % 2 ^ (8 * n) },
      .plainRead, (· == 0), n⟩
  | .cwb o => some ⟨.range 0, some o.sb, o.d,
      e.lanes.map fun p => { pos := p, ea := e.effAddr s o.m 1 p, eas := [e.effAddr s o.m 1 p], y := e.opnd s o.d p 32 }, .read, anyPath, 0⟩
  | .cwbi o => some ⟨.range 1, some o.sb, o.d,
      e.lanes.map fun p => { pos := p, ea := e.effAddr s o.m 1 p, eas := [e.effAddr s o.m 1 p], y := e.opnd s o.d p 32 }, .read, anyPath, 0⟩
  | .cinv o => some ⟨.range 2, some o.sb, o.d,
      e.lanes.map fun p => { pos := p, ea := e.effAddr s o.m 1 p, eas := [e.effAddr s o.m 1 p], y := e.opnd s o.d p 32 }, .read, anyPath, 0⟩
  | _ => none

/-- The store words: access size in bytes, operands and data (R217). -/
def storeReqs (e : Env) (s : State) (o : MStore) : List LaneReq :=
  e.lanes.map fun p => { pos := p, ea := e.effAddr s o.m (widthBytes o.w) p, eas := eaRange (e.effAddr s o.m (widthBytes o.w) p) (widthBytes o.w),
                         x := e.opnd s o.d p (widthReg o.w) % 2 ^ (8 * widthBytes o.w) }

/-- Nothing keeps a word's accesses from being issued: every address is well formed on a path its entry admits and aligned, its
slot is not full, the core has no request outstanding, and every access translates. -/
structure Accepted (e : Env) (s : State) (t : Team) (f : MemForm) : Prop where
  team : s.teamOf e.c e.x = some t
  paths : ∀ r ∈ f.reqs, f.path (pathOf r.ea) = true ∧ ∀ a ∈ r.eas, pathOf a = pathOf r.ea ∧
    s.pathOk e.c t.ctx t a (decide (f.u = .write ∨ f.u = .readWrite)) = true ∧ (pathOf a = 10 → fld a 50 10 = fld r.ea 50 10)
  align : f.align ≠ 0 → ∀ r ∈ f.reqs, r.ea % f.align = 0
  slot : ∀ b, f.slot = some b → e.x.sbCount b.val < 63
  pend : (s.core e.c).pend = []
  log : (s.core e.c).log = []
  mons : ∀ m ∈ s.mons, m.core ≠ e.c
  found : ∀ r ∈ f.reqs, ∃ q, s.resolveKind e.c t.ctx t f.kind f.u r.eas r.y = .ok q
  pins : ∀ r ∈ f.reqs, ∀ q ∈ s.regionsOf t.ctx r.eas, (s.vrec q).pin ((s.vrec q).choose (s.ctx t.ctx).detm 0) < 65535

/-- The rules of single entries beside those of all accesses: a `waitc` of a context with DETM = 1 compares .ge (R398), `cinv` is
aligned to lines (R219), an access of `ldv` lies in one region (R246), and `red` outside DETM is not staged (R393). -/
def entryAccepts (s : State) (t : Team) (f : MemForm) : Prop :=
  match f.kind with
  | .waitc c _ => (s.ctx t.ctx).detm = true → c = .ge
  | .range op => op = 2 → ∀ r ∈ f.reqs, r.ea % 64 = 0 ∧ r.y % 64 = 0
  | .ldv _ _ => ∀ r ∈ f.reqs, spansRegions r = false ∧ fld r.ea 50 10 = 0 ∧ ∀ a ∈ r.eas, fld a 50 10 = 0
  | .stv _ => (s.ctx t.ctx).detm = false ∧ ∀ r ∈ f.reqs, spansRegions r = false ∧ fld r.ea 50 10 = 0 ∧ ∀ a ∈ r.eas, fld a 50 10 = 0
  | .red _ _ _ => (s.ctx t.ctx).detm = false
  | _ => True

/-- The byte of the newest of some lanes' stores at an address: the last lane whose bytes hold it (R202, R217). -/
def lastByte (ws : List (Nat × Byte)) (a : Nat) : Option Byte := (ws.reverse.find? (·.1 == a)).map (·.2)

/-- An access is part `u` (byte offsets) of lane `r` of a store (R211). -/
structure StorePart (r : LaneReq) (u : List Nat) (a : Acc) : Prop where
  pos : a.pos = r.pos
  va : a.va = eaAdd r.ea (u.headD 0)
  n : a.n = u.length
  x : a.x = r.x / 2 ^ (8 * u.headD 0) % 2 ^ (8 * u.length)
  st : a.st = 0

/-- The part `a`, of a retired `st`, is the one that an event performs now: no earlier lane of its instruction has one to the same bytes
outstanding (R217). -/
structure PartDue (c : Nat) (p : Portion) (s : State) (q : Pend) (a : Acc) (n : Nat) : Prop where
  pend : tabGet? (s.core c).pend p.id = some q
  free : tabGet? (s.core c).flights p.id = none
  kind : q.kind = .store n
  slot : q.slot = none
  pins : q.pins = []
  chosen : maskPick p.mask true q.accs = [a]
  state : a.st = 0
  own : a.own = none
  order : q.beforeOverlap a = false

/-- A return that is whole and sound: every byte of the access, and every register of the result (R42, R211). -/
structure Whole (r : Returned) (n k : Nat) : Prop where
  sound : r.poisoned = false
  units : ∀ i, i < n → r.units.testBit i = true
  regs : ∀ i, i < k → r.regs.testBit i = true

/-! ### Commands (R38, R277 to R283, R294, R297, R301 to R305, R315 to R319, R368 to R372) -/

/-- The T word of a command and the number of scalars of its block that it reads (R38 and its entry). -/
def cmdForm : Instr → Option (TW × Nat)
  | .launch t => some (t, 2)
  | .tcp t | .tcpz t => some (t, 8)
  | .cseal t | .cwait t => some (t, 0)
  | .aczero t => some (t, 2)
  | .acrd t | .acwr t => some (t, 4)
  | .mma t => some (t, 6)
  | .acst t => some (t, 8)
  | .zsplit t | .mmz t => some (t, 9)
  | .zfold t => some (t, 7)
  | .colopen t | .colwait t => some (t, 2)
  | .colput t => some (t, 5)
  | .colclose t => some (t, 1)
  | .ctxldLoad t | .ctxldUpdate t | .ctxldResume t | .ctxsvSnapshot t | .ctxsvStop t | .ctxsvEvict t => some (t, 4)
  | .exposeExpose t | .exposeConfig t | .exposeJoin t => some (t, 3)
  | _ => none

/-- A command as it is held right after its issue: its word, group, owner, threshold and block as the group's scalars held them. -/
structure Issued (e : Env) (i : Instr) (t : TW) (n id : Nat) (m : Cmd) : Prop where
  word : m.i = i
  ctx : m.ctx = e.g
  owner : m.owner = e.low
  place : m.place = e.x.place
  lpc : m.lpc = e.lpc
  lanes : m.lanes = e.lanes
  state : m.state = .waiting
  order : m.order = none
  block : m.block = (natRange t.pbase.val n).map fun k => (regGet e.x.scal k).toNat
  thr : ∀ w, t.wait = some w → m.thr = regGet e.x.scal w.thr.val
  seq : m.seq = id

/-- A matrix command that starts now for the first time (R294, R307, R408): its group and context go on, its condition holds, an atom
command finds the atom free and a grant, any other fewer than three beside it, and none of its group that was issued before it without a
condition waits for anything but the atom. -/
structure StartDue (c id : Nat) (s : State) (m : Cmd) (tm : Team) : Prop where
  stopped : s.expo.stopped = false
  matrix : isMatrix m.i = true
  waiting : m.state = .waiting
  fresh : m.order = none
  context : (s.ctx tm.ctx).state ≠ .halted
  group : ∀ x, s.group? c m.ctx = some x → x.state ≠ .saved
  wen : ∀ w, (twOf m.i).wait = some w → s.canBind c m.place w.ix.val = true ∧ semHolds (tm.semCount w.ix.val) m.thr = true
  atom : isAtomCmd m.i = true → (∀ q ∈ (s.core c).cmds, isAtomCmd q.2.i = true → q.2.held = false) ∧ s.granted c = true
  room : isAtomCmd m.i = false → ((s.core c).cmds.filter fun q => q.2.held && !isAtomCmd q.2.i).length < 3
  restored : ∀ q ∈ (s.core c).cmds, q.1 ≠ id → isMatrix q.2.i = true → q.2.order ≠ none → q.2.state ≠ .waiting
  earlier : (twOf m.i).wait = none → ∀ q ∈ (s.core c).cmds, q.1 < id → q.2.ctx = m.ctx → isMatrix q.2.i = true →
    (twOf q.2.i).wait = none → q.2.order = none →
    isAtomCmd q.2.i = true ∧ (s.granted c = false ∨ ∃ r ∈ (s.core c).cmds, isAtomCmd r.2.i = true ∧ r.2.held = true)

/-! ### Clauses, versioned regions, steps (R27, R138 to R140, R236 to R250, R381, R382) -/

/-- Every lane of the issuing set goes on (R136). -/
def AllGoOn (e : Env) (s t : State) : Prop := ∀ p ∈ e.cu.live, GoesOn e p s t

/-- A scalar destination of `w` bits holds a value; the other scalars of the group stand. -/
def ScalarResult (e : Env) (d : Operand) (w v : Nat) (t : State) : Prop :=
  ∀ i, d = .s i → ∃ y, t.group? e.c e.g = some y ∧ regsGet y.scal i.val (w / 32) = v ∧
    ∀ r, r < i.val ∨ i.val + w / 32 ≤ r → regGet y.scal r = regGet e.x.scal r

/-- A version record at `r` whose 64 bytes are ordinary memory: no link register, no queue descriptor or trap queue in force lies
there (R4, R241). -/
def PlainRecord (s : State) (r : Nat) : Prop := ∀ a x, r ≤ a → a < r + 64 → inLinkRegs a = false ∧ s.guardByte a x = x

/-- Bytes of memory outside a range stand. -/
def MemoryStandsBut (a n : Nat) (s t : State) : Prop := ∀ b, b < a ∨ a + n ≤ b → t.mem.get b = s.mem.get b

/-! ### The queue cores (R99 to R112) -/

/-- The walker of a die takes the node at CUR of a queue, whose words are `w`: it is the queue's turn, the node can be read, it breaks
no rule of R105 and R106, and its context can hold work (R99, R110). -/
structure NodeAt (die q typ : Nat) (s : State) (k : Queue) (w : List Nat) : Prop where
  life : s.life = .run
  going : s.expo.stopped = false
  chosen : s.nextQueue die = some q
  index : q < 32
  queue : s.queue die q = k
  words : w = s.nodeWords k.cur
  address : nodeAddr k.cur = true
  good : nodeBad w = false
  type : nodeType w = typ
  context : needsCtx typ = true → s.ctxGone k.ctx = false
  idle : k.busy = none
  held : k.desc ≠ 0
  aligned : k.desc % 64 = 0
  memory : memoryOk s = true

/-- An `n`-byte value in memory. -/
def memNat (s : State) (a n : Nat) : Nat := ofLe ((natRange a n).map s.mem.get)

/-- The queue goes on at an address (R102, R111): CUR and QSTAT say so in its descriptor. -/
structure QueueGoes (die q : Nat) (k : Queue) (a st : Nat) (t : State) : Prop where
  queue : t.queue die q = { k with cur := a, st := st, busy := none }
  cur : memNat t (k.desc + 0x48) 8 = a
  qstat : memNat t (k.desc + 0x5C) 4 = st

/-- The queue waits for the node that it runs (R108). -/
structure QueueRuns (die q : Nat) (k : Queue) (r : NodeRun) (t : State) : Prop where
  queue : t.queue die q = { k with st := qBusy, busy := some r }
  qstat : memNat t (k.desc + 0x5C) 4 = qBusy

/-- Memory outside the words of a descriptor that the walker writes stands, but for one more range; with no monitor registered, so do
all registers. -/
def QueueFrame (desc a n : Nat) (s t : State) : Prop :=
  (∀ b, (b < desc + 0x48 ∨ desc + 0x60 ≤ b) → (b < a ∨ a + n ≤ b) → t.mem.get b = s.mem.get b) ∧ (s.mons = [] → LanesStand s t)

/-! ### Distribution, admission and parking (R119 to R127, R338) -/

/-- The cluster distributor of a core (R119). -/
def clusterOf (c : Nat) : Nat := c / 24 * 4 + (c % 24 % 6 / 3 + 2 * (c % 24 / 6 / 2))

/-- No sibling of a victim holds more teams of a higher priority, or more of the same (R120). -/
def MostLoaded (s : State) (get : Nat → List Range) (v : Nat) (sibs : List Nat) : Prop :=
  ∀ d ∈ sibs, (s.topLoad (get d)).1 < (s.topLoad (get v)).1 ∨
    (s.topLoad (get d)).1 = (s.topLoad (get v)).1 ∧ (s.topLoad (get d)).2 ≤ (s.topLoad (get v)).2

/-- Half of a range, in whole clusters (R120). -/
def halfRange (s : State) (r : Range) : Nat :=
  let cs := (s.grid? r.grid).elim 1 Grid.cs
  (r.hi - r.lo) / 2 / max 1 cs * cs

/-! ### The host, the links and the pod (R209, R210, R344 to R351) -/

/-- A port changes to `q`, the other ports stand; with slot 0 EMPTY nothing else changes, and otherwise a record of KIND 8 tells of a new
STATE (R350). -/
def PortGoes (p : Nat) (q : Port) (s t : State) : Prop :=
  t.link.port p = q ∧ (∀ r, r ≠ p → t.link.port r = s.link.port r) ∧
    ((s.ctx 0).state = .empty → { t with link := s.link } = s ∧ { t.link with ports := s.link.ports } = s.link) ∧
    ((s.ctx 0).state ≠ .empty → q.st ≠ (s.link.port p).st →
      t = (({ s with link := s.link.modPort p fun _ => q } : State).writeRecord 0 { kind := 8, code := q.st, va := p }).1)

/-- Bytes at addresses of memory are written as R4 lets them; every other byte stands. -/
def BytesWritten (ws : List (Nat × Byte)) (s t : State) : Prop :=
  (∀ b ∈ ws, t.mem.get b.1 = s.guardByte b.1 b.2) ∧ ∀ a, a ∉ ws.map (·.1) → t.mem.get a = s.mem.get a

/-! ### The collective (R352 to R364) -/

/-- Instance `t` of the open collective `h` is `i` (R356). -/
def InstAt (h t : Nat) (c : Coll) (i : Inst) (s : State) : Prop := s.coll? h = some c ∧ c.inst t = some i

/-- Instance `t` of collective `h` becomes `j`; the other instances, the other collectives and the rest of the module stand, but for
what the module has sent. -/
def InstGoes (h t : Nat) (c : Coll) (j : Inst) (s u : State) : Prop :=
  { u with colls := s.colls, outbox := s.outbox } = s ∧ (∀ k, k ≠ h → u.coll? k = s.coll? k) ∧
  ∃ d, InstAt h t d j u ∧ { d with insts := c.insts } = c ∧ ∀ k, k ≠ t → d.inst k = c.inst k

/-- Collective `h` becomes `d`, and the rest of the module stands. -/
def CollGoes (h : Nat) (d : Coll) (s u : State) : Prop :=
  { u with colls := s.colls } = s ∧ (∀ k, k ≠ h → u.coll? k = s.coll? k) ∧ u.coll? h = some d

/-- A message of collective `h` is discarded (R351, R357): the collective becomes `d`, and DROP of a port counts it, while one that
carries peer traffic is UP or DEGRADED; the rest of the module stands. -/
structure CollDrops (h : Nat) (d : Coll) (s u : State) : Prop where
  rest : { u with colls := s.colls, link := { u.link with ports := s.link.ports } } = s
  others : ∀ k, k ≠ h → u.coll? k = s.coll? k
  coll : u.coll? h = some d
  down : s.link.upPorts 0 44 = [] → u.link = s.link
  port : s.link.upPorts 0 44 ≠ [] → ∃ p ∈ s.link.upPorts 0 44,
    u.link.port p = { s.link.port p with drop := (s.link.port p).drop + 1 } ∧ ∀ r, r ≠ p → u.link.port r = s.link.port r

/-- The exponent pass of instance `t` of collective `h`, which was `i` with the arrivals `arr`, is closed: the arrivals that no poison
dropped are the on-time set, the earliest late contributions of the step before are folded in, but for the poisoned ones, and the
agreed exponent of a block is the largest that any of them has (R359, R362, R363). -/
def PassCloses (h t : Nat) (c : Coll) (i : Inst) (arr : List Contrib) (timed : Bool) (s u : State) : Prop :=
  { u with colls := s.colls, outbox := s.outbox, seqLog := s.seqLog } = s ∧ (∀ k, k ≠ h → u.coll? k = s.coll? k) ∧
  ∃ d j, InstAt h t d j u ∧ j.st = 2 ∧ j.timed = timed ∧ j.closedAt = s.clk.toNat ∧ j.quorum = i.quorum ∧ j.live = i.live ∧
    (∀ p, p ∈ j.onTime ↔ p ∈ arr.map (·.pos) ∧ p ∉ i.dropped) ∧
    ((t = 0 ∨ c.inst (t - 1) = none) → j.lateSet = [] ∧ ∀ b, b < c.params.nblk →
      (∀ k ∈ arr, k.pos ∉ i.dropped → listGet 0 k.exps b ≤ listGet 0 j.xa b) ∧
      (listGet 0 j.xa b = 0 ∨ ∃ k ∈ arr, k.pos ∉ i.dropped ∧ listGet 0 k.exps b = listGet 0 j.xa b)) ∧
    (∀ q, t ≠ 0 → c.inst (t - 1) = some q →
      j.lateSet = ((q.late.take c.params.lcap).map (·.pos)).filter (!q.lateGone.contains ·) ∧ (q.st = 4 → d.inst (t - 1) = none))

/-! ### Membership, exposures and joins (R374 to R390) -/

/-- A record stands in the trap queue of context `x` at the place that PI named, and PI has moved on; its interrupt is off and the
queue has room (R334 to R336). -/
def QueueHasRoom (s : State) (x : Nat) : Prop :=
  let cb := (s.ctx x).tqbase.toNat + 0x4000
  (memNat s cb 4 + 2 ^ 32 - memNat s (cb + 4) 4) % 2 ^ 32 ≤ 254

def RecordStands (s : State) (x : Nat) (r : TqRec) (t : State) : Prop :=
  let tq := (s.ctx x).tqbase.toNat
  let pi := memNat s (tq + 0x4000) 4
  (∀ j, j < 64 → t.mem.get (tq + 64 * (pi % 256) + j) = listGet 0 (r.bytes pi x) j) ∧ memNat t (tq + 0x4000) 4 = (pi + 1) % 2 ^ 32 ∧
  ∀ a, a < tq ∨ tq + 0x8000 ≤ a → t.mem.get a = s.mem.get a

/-- The sequencer log gains one entry (R387). -/
def LogGains (kind cid step a : Nat) (s t : State) : Prop :=
  ∃ n, t.seqLog.getLast? = some { lsn := n, kind := kind, cid := cid, step := step, a := a, h := 0 } ∧
    ∀ l, s.seqLog.getLast? = some l → n = l.lsn + 1

/-- What a replica holds once it has taken the membership changes that wait for it (R375, R378). -/
def taken (s : State) (q : Nat) : Replica := (s.replica q).settle s.ownPod

/-- The exposure or join is over with a status, which its owner may collect (R390). -/
def ExposureEnds (st : Nat) (s t : State) : Prop :=
  t.expo.stopped = false ∧ t.expo.draining = false ∧ t.expo.joining = false ∧
  ∀ o, s.expo.owner = some o → t.expo.done = s.expo.done ++ [(o, s.expo.xid, st)]

/-! ### Device life (R402 to R411) -/

/-- The module starts over in a life state (R402): no context, no work and no memory is left, and flash and fuses stand. -/
def Restarted (l : Life) (s t : State) : Prop :=
  t.life = l ∧ t.mem = [] ∧ t.cores = [] ∧ t.grids = [] ∧ (∀ x, x < 64 → (t.ctx x).state = .empty) ∧ t.root.flash = s.root.flash ∧
  t.root.fusedSvn = s.root.fusedSvn ∧ t.root.retired = s.root.retired ∧ t.agenda = s.agenda

/-- Self-test passes: every die answers (R403). -/
def selfTestPass (t : SelfTest) : Bool := t.stage == 0 && t.dieMap == BitVec.allOnes 24 && t.mdMap == BitVec.allOnes 4

/-- The endpoint answers with these bytes, and the rest of the module stands, but for how far SPDM has come. -/
def Answers (b : List Byte) (s t : State) : Prop :=
  t.root.replies = b :: s.root.replies ∧ { t with root := { t.root with replies := s.root.replies, spdm := s.root.spdm } } = s

/-! ### Steps and words -/

/-- The operation code in the parameter block that tells apart the rows of one opcode (R95, R390): `ctxld`, `ctxsv` and `expose`. -/
def opSel : Instr → Nat
  | .exposeConfig _ | .ctxldUpdate _ | .ctxsvStop _ => 1
  | .exposeJoin _ | .ctxldResume _ | .ctxsvEvict _ => 2
  | _ => 0

def np : Pfx := ⟨false, 0⟩

/-- Words that the spec writes out in its examples, by family. -/
def sampleWords : List (Nat × Instr) := [
  (0x002041900000000E, .br np (.test .z (.s 6)) 14),
  (0x0030C04800000006, .brc np (.test .nz (.p 1)) 6),
  (0x020020D800000000, .gsplit np (.s 6) (.lit 0)),
  (0x021020F820000000, .gfuse np (.s 7) (.lit 4)),
  (0x0300280280000003, .launch ⟨np, 0x28, some ⟨2, 0⟩, none, 0, 3⟩),
  (0x101080000E020000, .add ⟨np, .i32, none, .v 1, .lit 1⟩),
  (0x10A0007006040000, .mul ⟨np, .i32, some (.v 3), .lat 0, .lit 2⟩),
  (0x1030014008080481, .addc ⟨np, .n32, some (.v 10), .v 1, .v 4, .v 9⟩),
  (0x1450602006300000, .cmp np .ge .i32 (some 1) (.v 0) (.lit 24)),
  (0x20C0006047600180, .ffma ⟨np, .f32, .rne, some (.v 3), .v 8, .lit 0xB0, .v 3⟩),
  (0x25A000E008058000, .fpack np .e4m3 .rne (some (.v 7)) (.v 1) (some (.v 2)) (some (.lit 0))),
  (0x2A00006040000004, .fcvt .f32 ⟨np, .e4m3, .rsr, some (.v 3), .v 8⟩),
  (0x3100211808000000, .ballot np (some (.s 8)) (.p 1)),
  (0x3201214018000048, .xred ⟨false, 1⟩ .add .i32 (.s 10) (.v 3) 1),
  (0x402000A82006040A, .ld ⟨np, .b32, .v 5, ⟨.s 4, .v 3, 0x40, true⟩, 2⟩),
  (0x422001082004200B, .ldx ⟨np, .b32, .v 8, ⟨.s 4, .v 2, 0x200, true⟩, 3⟩),
  (0x40A0004800000808, .st ⟨np, .b32, .v 2, ⟨.s 0, .v 0, 128, true⟩⟩),
  (0x4650000000000000, .fence np .module .rel),
  (0x501000C840040009, .atom np (.fold .add) false .n32 (.v 6) ⟨.s 8, .v 2, 0, true⟩ 1),
  (0x5C00001800000000, .bar np (.lit 0)),
  (0x5C8000181E020000, .smadd ⟨np, .lit 3, .lit 1⟩),
  (0x5D40008846000003, .waitc np .ge false (.v 4) ⟨.s 8, .lit 0, 0, false⟩ 3),
  (0x6010100280000001, .tcpz ⟨np, 0x10, some ⟨2, 0⟩, none, 0, 1⟩),
  (0x7000229808000048, .acalloc (.s 20) (.lit 1) np 1),
  (0x7010001806040000, .acfree np (.lit 0) (.lit 2)),
  (0x7120300000861204, .acst ⟨np, 0x30, none, some ⟨3, 9⟩, 0, 4⟩),
  (0x7200200380000002, .mma ⟨np, 0x20, some ⟨3, 0⟩, none, 0, 2⟩),
  (0x7300400000000003, .mmz ⟨np, 64, none, none, 0, 3⟩),
  (0x8020008842180402, .ldv ⟨np, .b32, .v 4, ⟨.s 8, .s 12, 0x40, false⟩, 2⟩),
  (0x820000C846000001, .vpub ⟨np, .v 6, ⟨.s 8, .lit 0, 0, false⟩, 1⟩),
  (0x8300234890000000, .stepadv np (.s 26) (.s 18)),
  (0x8410280280000003, .colput ⟨np, 0x28, some ⟨2, 0⟩, none, 0, 3⟩),
  (0x900100000000002A, .trap ⟨false, 1⟩ 0x2A),
  (0x9010001800000000, .tret np false none),
  (0x910021400000000D, .sget np (some (.s 10)) .ctxid),
  (0x9300280180000002, .exposeExpose ⟨np, 0x28, some ⟨1, 0⟩, none, 0, 2⟩)]

end Sys2Proof.Machine

open Sys2Proof Sys2Proof.Machine

/-- Every integer instruction with a register result (R153 to R162) completes: the value its rule gives stands in the
destination and in the latch, and nothing else of the module changes. -/
def Obligations.IntegerResults : Prop :=
  ∀ (i : Instr) (e : Env) (s : State) (f : RegForm), Runs i e s → intForm i = some f →
    ∃ t, exec i s = .next t ∧ RegResult e f.dst f.w (fun p => f.val fun o n => e.opnd s o p n) t ∧
      Frame e.c e.g (· ∈ e.cu.live)
        (fun p r => p ∈ e.lanes ∧ ∃ k, f.dst = some (.v k) ∧ k.val ≤ r ∧ r < k.val + f.w / 32) (fun _ _ => False) (fun _ => False)
        (fun r => ∃ k, f.dst = some (.s k) ∧ k.val ≤ r ∧ r < k.val + f.w / 32) False s t

/-- Every instruction with a predicate result (R163, R164, R193) completes: each named predicate holds the value its rule gives,
in every lane of C, or of the issuing set in a clause that runs once; nothing else changes. -/
def Claims.PredicateResults : Prop :=
  ∀ (i : Instr) (e : Env) (s : State) (f : PredForm), Runs i e s → predForm i = some f →
    ∃ t, exec i s = .next t ∧ PredResult e f.dst (fun p => f.val e s p) t ∧
      Frame e.c e.g (· ∈ e.cu.live) (fun _ _ => False) (fun p r => p ∈ e.cu.live ∧ ∃ k : Fin 8, f.dst = some k ∧ r = k.val ∧ r ≠ 0)
        (fun _ => False) (fun _ => False) False s t

/-- `fcmp` (R173) completes: the named predicate holds the comparison, and the flags are ORed into GST. -/
def Claims.FloatCompareResult : Prop :=
  ∀ (q : Pfx) (c : Cmp) (f : Fmt) (d : Option (Fin 8)) (a b : Operand) (e : Env) (s : State), Runs (.fcmp q c f d a b) e s →
    ∃ t, exec (.fcmp q c f d a b) s = .next t ∧
      PredResult e d (fun p => (fcmpVal c (e.fv s f a p) (e.fv s f b p)).1) t ∧
      (∃ y, t.group? e.c e.g = some y ∧
        y.gst = e.x.gst ||| BitVec.ofNat 32 (flagsAll (e.runLanes.map fun p => (fcmpVal c (e.fv s f a p) (e.fv s f b p)).2)).gst) ∧
      Frame e.c e.g (· ∈ e.cu.live) (fun _ _ => False) (fun p r => p ∈ e.cu.live ∧ ∃ k : Fin 8, d = some k ∧ r = k.val ∧ r ≠ 0)
        (fun _ => False) (fun _ => False) True s t

/-- The instructions with a predicate result (R163, R164, R173, R193). -/
def Obligations.PredicateResults : Prop := Claims.PredicateResults ∧ Claims.FloatCompareResult

/-- Every float instruction of fixed latency with one rounding (R168 to R178, R181) completes: the code its rule gives stands in
the destination and the latch, its flags are ORed into GST, a lane that draws under .rsr moves its stream on by one (R182), and
nothing else changes. -/
def Obligations.FloatResults : Prop :=
  ∀ (i : Instr) (e : Env) (s : State) (f : FloatForm), Runs i e s → e.lanes.Nodup → floatForm i = some f →
    ∃ t, exec i s = .next t ∧
      RegResult e f.dst f.w (fun p => (f.val e s p (e.stoch f.m p s).1).1 % 2 ^ f.w) t ∧
      (∃ y, t.group? e.c e.g = some y ∧
        y.gst = e.x.gst ||| BitVec.ofNat 32 (flagsAll (e.runLanes.map fun p => (f.val e s p (e.stoch f.m p s).1).2)).gst) ∧
      (f.m = .rsr → e.once = false → ∀ p ∈ e.lanes, (t.lane e.c p).rstep = e.cu.step ∧
        (t.lane e.c p).ridx = (if (s.lane e.c p).rstep = e.cu.step then (s.lane e.c p).ridx else 0) + 1) ∧
      Frame e.c e.g (fun q => q ∈ e.cu.live ∨ (f.m = .rsr ∧ e.once = true ∧ q = e.x.gbase))
        (fun p n => p ∈ e.lanes ∧ ∃ k, f.dst = some (.v k) ∧ k.val ≤ n ∧ n < k.val + f.w / 32) (fun _ _ => False)
        (fun q => f.m = .rsr ∧ q ∈ e.runLanes.map e.drawLane)
        (fun n => ∃ k, f.dst = some (.s k) ∧ k.val ≤ n ∧ n < k.val + f.w / 32) True s t

/-- The conversions from float (R76, R77) complete: the destination of every lane of C holds the code, or the integer in the bits of its
type, that the rule gives for the lane's value, and GST gains its flags. -/
def Obligations.FloatConversionsFollowTheirRules : Prop :=
  (∀ (src : Fmt) (o : F1) (e : Env) (s : State), Runs (.fcvt src o) e s → e.lanes.Nodup →
    ∃ t y, exec (.fcvt src o) s = .next t ∧ t.group? e.c e.g = some y ∧
      RegResult e o.dst (fW o.f) (fun p => (floatToFloat o.f o.m (e.fv s src o.a p) (e.stoch o.m p s).1).1 % 2 ^ fW o.f) t ∧
      y.gst = e.x.gst ||| BitVec.ofNat 32
        (flagsAll (e.runLanes.map fun p => (floatToFloat o.f o.m (e.fv s src o.a p) (e.stoch o.m p s).1).2)).gst) ∧
  (∀ (ty : IntTy) (o : F1) (e : Env) (s : State), Runs (.ftoi ty o) e s → e.lanes.Nodup →
    ∃ t y, exec (.ftoi ty o) s = .next t ∧ t.group? e.c e.g = some y ∧
      RegResult e o.dst (tyOpWidth ty) (fun p => tyRes ty (floatToInt ty o.m (e.fv s o.f o.a p) (e.stoch o.m p s).1).1) t ∧
      y.gst = e.x.gst ||| BitVec.ofNat 32
        (flagsAll (e.runLanes.map fun p => (floatToInt ty o.m (e.fv s o.f o.a p) (e.stoch o.m p s).1).2)).gst)

/-- The scoreboarded lane instructions (R41, R174, R195), while fewer than 63 of the slot are outstanding: the word completes, one
pending result holds what each lane will be written, the slot counts one more, and no register changes yet. -/
def Claims.SlotResultsIssue : Prop :=
  ∀ (i : Instr) (e : Env) (s : State) (f : SlotForm), Runs i e s → e.lanes.Nodup → slotForm i = some f → e.x.sbCount f.sb.val < 63 →
    ∃ t r, exec i s = .next t ∧ tabGet? (t.core e.c).results (s.core e.c).nextId = some r ∧
      r.ctx = e.g ∧ r.slot = f.sb.val ∧ r.divide = f.divide ∧
      (∀ j, f.dst = .v j → r.left = e.lanes.flatMap fun p => vecWrites p j.val f.w (f.val e s p (e.stoch f.m p s).1).1) ∧
      (∀ j, f.dst = .s j → r.left = scaWrites j.val f.w (f.val e s e.low (e.stoch f.m e.low s).1).1) ∧
      t.slotCount e.c e.g f.sb.val = s.slotCount e.c e.g f.sb.val + 1 ∧ RegsStand s t ∧ Untouched s t

/-- A divide unit or the reduction network writes a part of a result (R41, R42, R75, R175, R189): the registers that the part names
receive their words and the others stand; with the last of them its flags are ORed into GST and its slot counts one less, and until
then the rest stays to be written. -/
def Claims.SlotResultsLand : Prop :=
  ∀ (i : Instr) (c : Nat) (p : Portion) (s : State) (r : Result) (x : Group), tabGet? (s.core c).results p.id = some r →
    (i = .divideUnitCompletion c p ∧ r.divide = true ∨ i = .reductionCompletion c p ∧ r.divide = false) →
    s.group? c r.ctx = some x → (r.left.map writePlace).Nodup →
    (∀ w ∈ r.left, (writePlace w).2 < (if (writePlace w).1.isSome then 64 else 256)) →
    ∃ t y, exec i s = .next t ∧ t.group? c r.ctx = some y ∧
      (∀ k w, r.left[k]? = some w → p.mask.testBit k = true → Written c y t w) ∧
      (∀ q n, (∀ k z, p.mask.testBit k = true → r.left[k]? ≠ some (.vec q n z)) → regGet (t.lane c q).v n = regGet (s.lane c q).v n) ∧
      (∀ n, (∀ k z, p.mask.testBit k = true → r.left[k]? ≠ some (.sca n z)) → regGet y.scal n = regGet x.scal n) ∧
      ((∀ k, k < r.left.length → p.mask.testBit k = true) → tabGet? (t.core c).results p.id = none ∧
        y.gst = x.gst ||| BitVec.ofNat 32 r.gst ∧ (r.slot < 8 → y.sbCount r.slot = x.sbCount r.slot - 1)) ∧
      ((∃ k, k < r.left.length ∧ p.mask.testBit k = false) → y.gst = x.gst ∧ y.sb = x.sb ∧
        ∃ q, tabGet? (t.core c).results p.id = some q ∧ { q with left := r.left } = r ∧
          ∀ w, w ∈ q.left ↔ ∃ k, r.left[k]? = some w ∧ p.mask.testBit k = false) ∧
      Untouched s t

/-- The scoreboarded lane instructions, from their issue to their results (R41, R75, R174, R175, R189, R195). -/
def Obligations.SlotResults : Prop := Claims.SlotResultsIssue ∧ Claims.SlotResultsLand

/-- `xidx`, `xup`, `xdn`, `xxor`, `xbcast` and `popm` (R188, R190, R191, R194) complete: every lane of C holds the value taken from
the lane its rule names, and nothing else changes. -/
def Claims.CrossLaneResults : Prop :=
  ∀ (i : Instr) (e : Env) (s : State) (d : Option Operand) (w : Nat) (val : Nat → Nat), Runs i e s → crossForm e s i = some (d, w, val) →
    ∃ t, exec i s = .next t ∧
      (∀ j, d = some (.v j) → ∀ p ∈ e.lanes, regsGet (t.lane e.c p).v j.val (w / 32) = val p % 2 ^ w) ∧
      (∀ j, d = some (.s j) → ∃ y, t.group? e.c e.g = some y ∧ regsGet y.scal j.val (w / 32) = val e.low % 2 ^ w) ∧
      Frame e.c e.g (· ∈ e.cu.live)
        (fun p r => p ∈ e.lanes ∧ ∃ k, d = some (.v k) ∧ k.val ≤ r ∧ r < k.val + w / 32) (fun _ _ => False) (fun _ => False)
        (fun r => ∃ k, d = some (.s k) ∧ k.val ≤ r ∧ r < k.val + w / 32) False s t

/-- `ballot` (R192) completes: bit LANEIX of the mask is set for exactly the lanes of C whose source is not zero; the scalars hold
the mask, 32 lanes to a register, and nothing else changes. -/
def Claims.BallotResult : Prop :=
  ∀ (q : Pfx) (d : Option Operand) (a : PSrc) (e : Env) (s : State), Runs (.ballot q d a) e s → e.lanes.Nodup →
    (∀ p ∈ e.lanes, e.x.gbase ≤ p ∧ p < e.x.gbase + e.x.gwid) → e.x.gwid ≤ 256 → e.x.gwid % 8 = 0 →
    ∃ t m, exec (.ballot q d a) s = .next t ∧
      (∀ n, m.testBit n = decide (e.x.gbase + n ∈ e.lanes ∧ e.psrc s a (e.x.gbase + n) ≠ 0)) ∧
      (∀ j, d = some (.s j) → j.val + max 1 (e.x.gwid / 32) ≤ 256 → ∃ y, t.group? e.c e.g = some y ∧
        regsGet y.scal j.val (max 1 (e.x.gwid / 32)) = m) ∧
      Frame e.c e.g (· ∈ e.cu.live) (fun _ _ => False) (fun _ _ => False) (fun _ => False)
        (fun r => ∃ k, d = some (.s k) ∧ k.val ≤ r ∧ r < k.val + max 1 (e.x.gwid / 32)) False s t

/-- The words that read other lanes (R188, R190 to R192, R194). -/
def Obligations.CrossLaneResults : Prop := Claims.CrossLaneResults ∧ Claims.BallotResult

/-- `rng` (R182, R184) completes: each lane of C holds the draw for its counter, salted with its operand, as 32 bits or as a value
in [0, 1), and its stream moves on by one. -/
def Claims.RngDraws : Prop :=
  ∀ (q : Pfx) (f32 : Bool) (d : Option Operand) (a : Operand) (e : Env) (s : State), Runs (.rng q f32 d a) e s → e.lanes.Nodup →
    ∃ t, exec (.rng q f32 d a) s = .next t ∧
      RegResult e d 32 (fun p =>
        let u := draw (s.ctx (s.ctxOf e.c e.x)).rkey.toNat e.cu.step.toNat ((s.teamOf e.c e.x).elim 0 (·.n)) (s.lane e.c p).rln
          (if (s.lane e.c p).rstep = e.cu.step then (s.lane e.c p).ridx.toNat else 0) (e.opnd s a p 32)
        (if f32 then (roundFmt .f32 false ⟨u / 2 ^ 8, -24, false⟩ .rne 0).1 else u) % 2 ^ 32) t ∧
      (∀ p ∈ e.lanes, (t.lane e.c p).rstep = e.cu.step ∧
        (t.lane e.c p).ridx = (if (s.lane e.c p).rstep = e.cu.step then (s.lane e.c p).ridx else 0) + 1) ∧
      Frame e.c e.g (· ∈ e.cu.live)
        (fun p r => p ∈ e.lanes ∧ ∃ k, d = some (.v k) ∧ k.val ≤ r ∧ r < k.val + 1) (fun _ _ => False) (· ∈ e.lanes)
        (fun _ => False) False s t

/-- `fpack` (R179, R180) completes: codes of two values side by side, or mantissa and block exponent of the lane's block set. -/
def Claims.FpackResults : Prop :=
  ∀ (q : Pfx) (f : PackFmt) (m : Rnd) (d : Option Operand) (a : Operand) (b c : Option Operand) (e : Env) (s : State),
    Runs (.fpack q f m d a b c) e s → e.lanes.Nodup → (∀ p ∈ e.lanes, e.x.gbase ≤ p ∧ p < e.x.gbase + 256) →
    ∃ t, exec (.fpack q f m d a b c) s = .next t ∧
      (f = .bx16 → RegResult e d 64 (fun p => blockCode e s 16 m a p % 2 ^ 64) t) ∧
      (f = .bx24 → RegResult e d 64 (fun p => blockCode e s 24 m a p % 2 ^ 64) t) ∧
      (f ≠ .bx16 → f ≠ .bx24 → RegResult e d 32 (fun p => (packCode e s f m a b c p).1 % 2 ^ 32) t ∧
        ∃ y, t.group? e.c e.g = some y ∧
          y.gst = e.x.gst ||| BitVec.ofNat 32 (flagsAll (e.runLanes.map fun p => (packCode e s f m a b c p).2)).gst) ∧
      let n := if f = .bx16 ∨ f = .bx24 then 2 else 1
      Frame e.c e.g (fun q => q ∈ e.cu.live ∨ (m = .rsr ∧ e.once = true ∧ q = e.x.gbase))
        (fun p r => p ∈ e.lanes ∧ ∃ k, d = some (.v k) ∧ k.val ≤ r ∧ r < k.val + n) (fun _ _ => False)
        (fun q => m = .rsr ∧ q ∈ e.runLanes.map e.drawLane)
        (fun r => ∃ k, d = some (.s k) ∧ k.val ≤ r ∧ r < k.val + n) True s t

/-- Random draws and packed codes (R179, R180, R182, R184). -/
def Obligations.RngAndFpackResults : Prop := Claims.RngDraws ∧ Claims.FpackResults

/-- The control transfers and the words without effect (R136, R144, R218) complete: the lanes that their rule selects stand at
their targets, `call` leaves FallThrough in v62 and v63 of those lanes, the other lanes go on, and nothing else changes. -/
def Obligations.ControlTransfers : Prop :=
  ∀ (i : Instr) (e : Env) (s : State) (ts : List (Nat × Nat)), Runs i e s → jumpsOf e s i = some ts →
    (∀ q ∈ ts, badTarget q.2 = false) →
    ∃ t, exec i s = .next t ∧
      (∀ q ∈ ts, (t.lane e.c q.1).lpc = BitVec.ofNat 64 q.2 ∧ (t.lane e.c q.1).resw = 0) ∧
      (∀ p ∈ e.cu.live, p ∉ ts.map (·.1) → GoesOn e p s t) ∧
      (isCall i = true → ∀ q ∈ ts, regsGet (t.lane e.c q.1).v 62 2 = e.fallThrough % 2 ^ 64) ∧
      Moves e.c e.g (· ∈ e.cu.live) (fun p r => isCall i = true ∧ p ∈ ts.map (·.1) ∧ (r = 62 ∨ r = 63)) s t

/-- A transfer to a target that is no code address (R144, R326, R331): every lane that it selects enters the handler of T.ILLOP at
the word itself. -/
def Claims.BadTargetTraps : Prop :=
  ∀ (i : Instr) (e : Env) (s : State) (ts : List (Nat × Nat)), Runs i e s → jumpsOf e s i = some ts → ts ≠ [] →
    (∀ q ∈ ts, badTarget q.2 = true) → (∀ p ∈ ts.map (·.1), p ∈ e.cu.live) → (ts.map (·.1)).Nodup → CanTrap e s tIllop →
    ∃ t y, exec i s = .next t ∧ t.group? e.c e.g = some y ∧ y.hmode = true ∧ y.hcause = tIllop ∧
      (∀ q ∈ ts, Entered e.c q.1 tIllop e.cu.base e.cu.k 0 0 (hvecOf s (s.ctxOf e.c e.x) tIllop) s t) ∧
      ∀ k q, ¬ (k = e.c ∧ q ∈ ts.map (·.1)) → (t.lane k q).v = (s.lane k q).v ∧ (t.lane k q).p = (s.lane k q).p

/-- `exit` (R142, R145) completes: the lanes of C have exited, no other lane of the group has, registers and memory stand, and a
group without live lanes is EXITING. -/
def Claims.ExitLanes : Prop :=
  ∀ (p : Pfx) (e : Env) (s : State), Runs (.exit p) e s →
    ∃ t y, exec (.exit p) s = .next t ∧ t.group? e.c e.g = some y ∧
      (∀ q ∈ e.lanes, (t.lane e.c q).exited = true ∧ (t.lane e.c q).inHandler = false) ∧
      (∀ q ∈ e.cu.live, q ∉ e.lanes → GoesOn e q s t) ∧
      ((∀ q ∈ e.x.positions, q ∈ e.lanes ∨ (s.lane e.c q).exited = true) → (∀ q ∈ e.cu.live, q ∈ e.lanes) → y.state = .exiting) ∧
      LanesStand s t ∧ t.mem = s.mem ∧ t.ctxs = s.ctxs

/-- GROUP_CONTEXT_FREE (R142): an EXITING group with clear slots and nothing outstanding leaves its context, its scalar set and its
lane positions free, and nothing else changes. -/
def Claims.GroupContextIsFreed : Prop :=
  ∀ (c g : Nat) (s : State) (x : Group), s.group? c g = some x → x.state = .exiting → x.sbClear = true → x.cur = none →
    (∀ p ∈ (s.core c).pend, p.2.ctx ≠ g) → (∀ m ∈ (s.core c).cmds, m.2.ctx ≠ g) →
    ∃ t, exec (.groupContextFree c g) s = .next t ∧ t.group? c g = none ∧
      (∀ k h, ¬ (k = c ∧ h = g) → t.group? k h = s.group? k h) ∧
      (∀ k q, ¬ (k = c ∧ x.gbase ≤ q ∧ q < x.gbase + x.gwid) → t.lane k q = s.lane k q) ∧
      (∀ q, x.gbase ≤ q → q < x.gbase + x.gwid → tabGet? (t.core c).lanes q = none) ∧ Untouched s t

/-- `exit`, and the end of a group (R142, R145). -/
def Obligations.LanesExit : Prop := Claims.ExitLanes ∧ Claims.GroupContextIsFreed

/-- `gsplit` (R147) with clear slots, outside handler mode, to a narrower width, with enough free contexts: the first child keeps
the context, every child has the new width, the scalars with S.OK in the destination, and the aligned range of its live lanes. -/
def Claims.GroupSplits : Prop :=
  ∀ (p : Pfx) (d : Fin 256) (a : Operand) (e : Env) (s : State), Runs (.gsplit p (.s d) a) e s → e.x.sbClear = true → e.x.hmode = false →
    let code := e.opnd s a e.low 32
    let w := 8 * 2 ^ code
    let kids := s.splitKids e.c e.x w
    code ≤ 5 → w < e.x.gwid → kids ≠ [] → kids.length ≤ (s.core e.c).freeCtx.length + 1 → e.g < 512 →
    ∃ t, exec (.gsplit p (.s d) a) s = .next t ∧
      (∀ q ∈ kids.zip (e.g :: (s.core e.c).freeCtx), ∃ y, t.group? e.c q.2 = some y ∧ y.gbase = q.1 ∧ y.gwid = w ∧
        y.scal = regSet e.x.scal d.val 0 ∧ y.grpix = e.x.grpix ∧ y.place = e.x.place ∧ y.role = e.x.role ∧ y.gst = e.x.gst ∧
        y.ftv = BitVec.ofNat 32 (s.ctx (s.ctxOf e.c e.x)).ftvd.toNat ∧ y.sbClear = true) ∧
      (∀ h y, h ≠ e.g → s.group? e.c h = some y → ∃ z, t.group? e.c h = some z ∧ { z with fuseFail := y.fuseFail } = y) ∧
      (∀ k q, (∃ b ∈ kids, b ≤ q ∧ q < b + w) → (t.lane k q).v = (s.lane k q).v ∧ (t.lane k q).p = (s.lane k q).p) ∧ Untouched s t

/-- `gsplit` and `gfuse` that cannot be performed (R147, R148) complete with their status in the destination, which is all that
they write: of a waiting `gfuse`, the status of the first change of its buddy that failed the checks. -/
def Claims.SplitFuseStatus : Prop :=
  ∀ (i : Instr) (p : Pfx) (d : Fin 256) (a : Operand) (e : Env) (s : State) (st : Nat), Runs i e s →
    (i = .gsplit p (.s d) a ∧ e.x.sbClear = true ∧
        (e.x.hmode = true ∧ st = sHandler ∨ e.x.hmode = false ∧ st = sWidth ∧
          (5 < e.opnd s a e.low 32 ∨ e.x.gwid ≤ 8 * 2 ^ e.opnd s a e.low 32)) ∨
      i = .gfuse p (.s d) a ∧ (e.x.fuseFail = some st ∨
        e.x.fuseFail = none ∧ s.fuseLate e.c e.x = false ∧ (s.core e.c).fuseCheck e.x = .error st)) →
    ∃ t y, exec i s = .next t ∧ t.group? e.c e.g = some y ∧ regGet y.scal d.val = BitVec.ofNat 32 st ∧
      (∀ r, r ≠ d.val → regGet y.scal r = regGet e.x.scal r) ∧ y.gbase = e.x.gbase ∧ y.gwid = e.x.gwid ∧
      (∀ k h, ¬ (k = e.c ∧ h = e.g) → t.group? k h = s.group? k h) ∧
      (∀ k q, (t.lane k q).v = (s.lane k q).v ∧ (t.lane k q).p = (s.lane k q).p) ∧ Untouched s t

/-- `gfuse` whose buddy waits in its own (R148, R237), neither limit having passed, the upper group having clear slots and the lower no
logged access: one group of twice the width stands in the
context of the lower, with F.OK in its destination and the flags of both; the context of the upper is free. -/
def Claims.GroupsFuse : Prop :=
  ∀ (p : Pfx) (d : Fin 256) (a : Operand) (e : Env) (s : State) (u : Nat) (y : Group), Runs (.gfuse p (.s d) a) e s →
    (s.core e.c).fuseCheck e.x = .ok (u, y) → y.inFuse = true → s.group? e.c u = some y → u ≠ e.g → y.cur.isSome = true →
    e.x.fuseFail = none → s.fuseLate e.c e.x = false → s.fuseLate e.c y = false →
    let lo := if e.x.gbase < y.gbase then e.x else y
    let hi := if e.x.gbase < y.gbase then y else e.x
    let gl := if e.x.gbase < y.gbase then e.g else u
    let gu := if e.x.gbase < y.gbase then u else e.g
    hi.sbClear = true → (s.core e.c).loggedSlot gl = false →
    ∃ t z, exec (.gfuse p (.s d) a) s = .next t ∧ t.group? e.c gl = some z ∧ t.group? e.c gu = none ∧
      z.gbase = lo.gbase ∧ z.gwid = 2 * lo.gwid ∧ z.gst = lo.gst ||| hi.gst ∧ z.ftv = lo.ftv ∧ z.grpix = lo.grpix ∧
      regGet z.scal lo.fuseDst = BitVec.ofNat 32 fOk ∧ (∀ r, r ≠ lo.fuseDst → regGet z.scal r = regGet lo.scal r) ∧
      (∀ k q, (t.lane k q).v = (s.lane k q).v ∧ (t.lane k q).p = (s.lane k q).p) ∧ Untouched s t

/-- GFUSE_LIMIT_EXPIRY (R148, R149): the limit of a waiting group has passed and its buddy has not arrived: the wait ends with
F.TIMEOUT in the destination, or with the status that a change of its buddy gave before; no other register changes. -/
def Claims.FuseLimitExpires : Prop :=
  ∀ (c g : Nat) (s : State) (x : Group), s.group? c g = some x → x.inFuse = true → x.cur.isSome = true →
    x.fuseMet = false → (s.ctx (s.ctxOf c x)).detm = false → x.fuseEnd ≤ s.clk.toNat →
    ∃ t y, exec (.gfuseLimitExpiry c g) s = .next t ∧ t.group? c g = some y ∧ y.blk = none ∧
      (x.fuseDst < 256 → regGet y.scal x.fuseDst = BitVec.ofNat 32 (x.fuseFail.getD fTimeout)) ∧
      (∀ r, r ≠ x.fuseDst → regGet y.scal r = regGet x.scal r) ∧ (∀ k h, ¬ (k = c ∧ h = g) → t.group? k h = s.group? k h) ∧
      (∀ k q, (t.lane k q).v = (s.lane k q).v ∧ (t.lane k q).p = (s.lane k q).p) ∧ Untouched s t

/-- `gsplit` and `gfuse` (R147 to R149). -/
def Obligations.GroupsSplitAndFuse : Prop := Claims.GroupSplits ∧ Claims.SplitFuseStatus ∧ Claims.GroupsFuse ∧ Claims.FuseLimitExpires

/-- `trap` (R326, R331, R339) completes: every lane of C enters the handler of T.TRAP, with the place after the word as the place to
return to and the number of the word in v61; the group is in handler mode, other lanes and registers stand, and no byte of memory
changes but in park slots. -/
def Claims.TrapEntersHandler : Prop :=
  ∀ (p : Pfx) (n : BitVec 27) (e : Env) (s : State), Runs (.trap p n) e s → e.lanes.Nodup → CanTrap e s tTrap →
    ∃ t y, exec (.trap p n) s = .next t ∧ t.group? e.c e.g = some y ∧ y.hmode = true ∧ y.hcause = tTrap ∧ y.cur = none ∧
      y.scal = e.x.scal ∧
      (∀ q ∈ e.lanes, Entered e.c q tTrap (nextPoint e).1 (nextPoint e).2 0 n.toNat (hvecOf s (s.ctxOf e.c e.x) tTrap) s t) ∧
      (∀ q ∈ e.cu.live, q ∉ e.lanes → (t.lane e.c q).lpc = BitVec.ofNat 64 (nextPoint e).1 ∧ (t.lane e.c q).resw = (nextPoint e).2) ∧
      (∀ k q, ¬ (k = e.c ∧ q ∈ e.lanes) → (t.lane k q).v = (s.lane k q).v ∧ (t.lane k q).p = (s.lane k q).p) ∧
      (∀ a, inFirmware a = false → t.mem.get a = s.mem.get a)

/-- A word that a rule refuses in its clause (R45, R326, R331): every lane of C enters the handler of the first fault in the order
of R45, at the word itself; registers below v60 and all other lanes stand. -/
def Claims.DecodeFaultTraps : Prop :=
  ∀ (i : Instr) (b : Env → State → Res) (e : Env) (s : State) (code : Nat), s.focus = some (e.c, e.g) → s.group? e.c e.g = some e.x →
    e.x.cur = some e.cu → e.lanes = effectLanes s e.c e.cu ((pfxOf i).getD pfx0) → e.lanes ≠ [] → e.lanes.Nodup →
    wordFault s e.c e.x e.cu i = some code → CanTrap e s code →
    ∃ t y, execWord i b s = .next t ∧ t.group? e.c e.g = some y ∧ y.hmode = true ∧ y.hcause = code ∧
      (∀ q ∈ e.lanes, Entered e.c q code e.cu.base e.cu.k 0 0 (hvecOf s (s.ctxOf e.c e.x) code) s t) ∧
      ∀ k q, ¬ (k = e.c ∧ q ∈ e.lanes) → (t.lane k q).v = (s.lane k q).v ∧ (t.lane k q).p = (s.lane k q).p

/-- A privileged opcode, or a read of a supervisor's register, in user mode (R61): where the word breaks no rule that R45 puts before it,
every lane of C enters the handler of T.PRIV at the word; every other lane keeps its registers, and nothing of the word takes effect. -/
def Obligations.PrivilegedWordsTrapInUserMode : Prop :=
  ∀ (i : Instr) (e : Env) (s : State), s.focus = some (e.c, e.g) → s.group? e.c e.g = some e.x → e.x.cur = some e.cu →
    e.lanes = effectLanes s e.c e.cu ((pfxOf i).getD pfx0) → e.lanes ≠ [] → e.lanes.Nodup → supervisorOnly i = true →
    (s.ctx (s.ctxOf e.c e.x)).mode = false → wordFault s e.c e.x e.cu i ≠ some tIllop → wordFault s e.c e.x e.cu i ≠ some tClass →
    CanTrap e s tPriv →
    ∃ t y, exec i s = .next t ∧ t.group? e.c e.g = some y ∧ y.hmode = true ∧ y.hcause = tPriv ∧ y.scal = e.x.scal ∧
      (∀ q ∈ e.lanes, Entered e.c q tPriv e.cu.base e.cu.k 0 0 (hvecOf s (s.ctxOf e.c e.x) tPriv) s t) ∧
      (t.core e.c).cmds = (s.core e.c).cmds ∧
      ∀ k q, ¬ (k = e.c ∧ q ∈ e.lanes) → (t.lane k q).v = (s.lane k q).v ∧ (t.lane k q).p = (s.lane k q).p

/-- A trap in handler mode (R90, R332) is a double fault: the context is HALTED, and no lane enters a handler. -/
def Claims.DoubleFaultHalts : Prop :=
  ∀ (c g code lpc : Nat) (hs : List TrapLane) (s : State) (x : Group), s.group? c g = some x → x.hmode = true → s.ctxOf c x < 64 →
    (s.ctx (s.ctxOf c x)).state = .active →
    ((s.enterHandler c g code hs lpc).ctx (s.ctxOf c x)).state = .halted ∧
      ∀ k q, ((s.enterHandler c g code hs lpc).lane k q).inHandler = (s.lane k q).inHandler ∧
        ((s.enterHandler c g code hs lpc).lane k q).lpc = (s.lane k q).lpc

/-- Taking a trap, and a trap in handler mode (R90, R326, R331, R332, R339). -/
def Obligations.TrapEntersHandler : Prop := Claims.TrapEntersHandler ∧ Claims.DoubleFaultHalts

/-- `tret` (R340) completes: every lane of C stands at the place it trapped from, or at the clause its register pair names, has left
the handler set, and has v60 to v63 as they were saved, unless `keep`; handler mode ends with the last lane; nothing else changes. -/
def Obligations.TretReturns : Prop :=
  ∀ (p : Pfx) (keep : Bool) (x : Option (Fin 64)) (e : Env) (s : State), Runs (.tret p keep x) e s → e.lanes.Nodup →
    let dest (q : Nat) : Nat × Nat := match x with
      | none => ((s.lane e.c q).thdr.toNat, (s.lane e.c q).tw)
      | some i => (e.opnd s (.v i) q 64, 0)
    (∀ q ∈ e.lanes, badTarget (dest q).1 = false) →
    ∃ t y, exec (.tret p keep x) s = .next t ∧ t.group? e.c e.g = some y ∧
      (∀ q ∈ e.lanes, (t.lane e.c q).lpc = BitVec.ofNat 64 (dest q).1 ∧ (t.lane e.c q).resw = (dest q).2 ∧
        (t.lane e.c q).inHandler = false ∧
        ∀ r, regGet (t.lane e.c q).v r = if keep = false ∧ 60 ≤ r ∧ r < 64 then regGet (s.lane e.c q).hsave (r - 60)
          else regGet (s.lane e.c q).v r) ∧
      ((∀ q ∈ e.x.positions, q ∈ e.lanes ∨ (s.lane e.c q).inHandler = false) → y.hmode = false) ∧
      ((∃ q ∈ e.x.positions, q ∉ e.lanes ∧ (s.lane e.c q).inHandler = true) → y.hmode = e.x.hmode) ∧
      (∀ q ∈ e.cu.live, q ∉ e.lanes → GoesOn e q s t) ∧
      Moves e.c e.g (· ∈ e.cu.live) (fun q r => keep = false ∧ q ∈ e.lanes ∧ 60 ≤ r) s t

/-- DEFERRED_TRAP_DELIVERY (R330): at a clause boundary every lane that is eligible and that a due trap of the lowest code names enters
the handler of that cause, by the first trap that names it, at its resume point or where it stands; other lanes stand, a lane that is
held keeps its trap, and so do the traps of other causes. -/
def Obligations.DeferredTrapIsTaken : Prop :=
  ∀ (c g code : Nat) (s : State) (x : Group), s.group? c g = some x → s.dueTraps c x ≠ [] → x.cur = none →
    (x.state = .run ∨ x.state = .wait) → x.hmode = false → 64 ≤ s.vregsOf c x →
    (∀ d ∈ s.dueTraps c x, d.code = code ∧ d.lats = [] ∧ d.lanes.Nodup) → hvecOf s (s.ctxOf c x) code ≠ 0 →
    ∃ t y, exec (.deferredTrapDelivery c g) s = .next t ∧ t.group? c g = some y ∧ y.hmode = true ∧ y.hcause = code ∧
      (∀ p d, (s.dueTraps c x).find? (·.lanes.contains p) = some d → (s.lane c p).exited = false → (s.lane c p).hk = .none →
        let at_ := d.resume.getD ((s.lane c p).lpc.toNat, (s.lane c p).resw)
        Entered c p code at_.1 at_.2 d.detail ((d.info.find? (·.1 == p)).elim 0 (·.2)) (hvecOf s (s.ctxOf c x) code) s t) ∧
      (∀ k q, ¬ (k = c ∧ (s.lane c q).exited = false ∧ (s.lane c q).hk = .none ∧ ∃ d ∈ s.dueTraps c x, q ∈ d.lanes) →
        t.lane k q = s.lane k q) ∧
      (∀ d ∈ s.dueTraps c x, ∀ p ∈ d.lanes, (s.lane c p).exited = false → (s.lane c p).hk ≠ .none →
        ∃ f ∈ y.deferred, { f with lanes := d.lanes } = d ∧ p ∈ f.lanes) ∧
      (∀ d ∈ x.deferred, d ∉ s.dueTraps c x → d ∈ y.deferred) ∧ Untouched s t

/-- `sget` (R94, R95) completes: the destination and the latch hold the special register, and nothing else changes. -/
def Claims.SgetReads : Prop :=
  ∀ (p : Pfx) (d : Option Operand) (r : SReg) (e : Env) (s : State), Runs (.sget p d r) e s →
    ∃ t, exec (.sget p d r) s = .next t ∧ RegResult e d (sregWidth r) (fun q => e.sreg s r q % 2 ^ sregWidth r) t ∧
      Frame e.c e.g (· ∈ e.cu.live)
        (fun q n => q ∈ e.lanes ∧ ∃ k, d = some (.v k) ∧ k.val ≤ n ∧ n < k.val + sregWidth r / 32) (fun _ _ => False) (fun _ => False)
        (fun n => ∃ k, d = some (.s k) ∧ k.val ≤ n ∧ n < k.val + sregWidth r / 32) False s t

/-- `sput` (R95, R132) completes: FTV takes 1 to 4 and else FTVD, GST takes bits 6 to 0; no other register changes. -/
def Claims.SputWrites : Prop :=
  ∀ (p : Pfx) (r : SReg) (a : Operand) (e : Env) (s : State), Runs (.sput p r a) e s →
    ∃ t y, exec (.sput p r a) s = .next t ∧ t.group? e.c e.g = some y ∧ y.scal = e.x.scal ∧
      y.ftv = (if r = .ftv then
          BitVec.ofNat 32 (if 1 ≤ e.opnd s a e.low 32 ∧ e.opnd s a e.low 32 ≤ 4 then e.opnd s a e.low 32
            else (s.ctx (s.ctxOf e.c e.x)).ftvd.toNat)
        else e.x.ftv) ∧
      y.gst = (if r = .gst then BitVec.ofNat 32 (e.opnd s a e.low 32 % 128) else e.x.gst) ∧
      (∀ k h, ¬ (k = e.c ∧ h = e.g) → t.group? k h = s.group? k h) ∧
      (∀ k q, (t.lane k q).v = (s.lane k q).v ∧ (t.lane k q).p = (s.lane k q).p) ∧ Untouched s t

/-- `sget` and `sput` (R94, R95, R132). -/
def Obligations.SpecialRegisters : Prop := Claims.SgetReads ∧ Claims.SputWrites

/-- `fence` (R205 to R207, R220) with nothing of its core on the way completes: a release posts the signature at the boards of its
scope; an acquire consumes every post there, and no line that matches one stays in L1 but read-only ones; registers and memory
stand. -/
def Obligations.FenceOrders : Prop :=
  ∀ (p : Pfx) (sc : Scope) (k : FenceKind) (e : Env) (s : State), Runs (.fence p sc k) e s → Quiet s e.c → e.x.phase = 0 →
    ∃ t, exec (.fence p sc k) s = .next t ∧ LanesStand s t ∧ t.mem = s.mem ∧
      (k ≠ .acq → 3 ≤ scopeRank sc → t.dieBoard (e.c / 24) = (s.dieBoard (e.c / 24)).post (s.core e.c).sigDie) ∧
      (k ≠ .acq → 5 ≤ scopeRank sc → t.modBoard = s.modBoard.post (s.core e.c).sigMod) ∧
      ((k = .acq ∨ scopeRank sc < 3) → t.dieBoards = s.dieBoards ∧ t.modBoard = s.modBoard) ∧
      (k ≠ .rel → 3 ≤ scopeRank sc → (t.core e.c).seenDie = (t.dieBoard (e.c / 24)).seq ∧
        ∀ q ∈ (t.core e.c).l1, q.2.ro = false → ∀ m ∈ ((t.dieBoard (e.c / 24)).since (s.core e.c).seenDie).1, sigHas m q.1 = false) ∧
      (k ≠ .rel → 5 ≤ scopeRank sc → (t.core e.c).seenMod = t.modBoard.seq ∧
        ∀ q ∈ (t.core e.c).l1, q.2.ro = false → ∀ m ∈ (t.modBoard.since (s.core e.c).seenMod).1, sigHas m q.1 = false)

/-- `bar`, `cbar` and `gbar` (R257 to R261), with nothing of the core on the way and no lane that breaks R262: the lanes of C have
arrived. When they are the last, the generation rises and no lane of C is held; else every lane of C is held at the generation it
arrived in. Every lane of C stands at FallThrough, whatever words of the clause are left. -/
def Claims.BarrierArrives : Prop :=
  ∀ (i : Instr) (e : Env) (s : State) (r : HoldRec) (q : Nat) (tm : Team) (gr : Grid) (x : BarRec), Runs i e s →
    barForm e s i = some (r, q) → Quiet s e.c → e.lanes.Nodup → e.x.hmode = false → s.teamOf e.c e.x = some tm →
    s.grid? tm.grid = some gr → s.barRec tm r = some x →
    (∀ b, r = .team b → ∀ p ∈ e.lanes, tm.arriveBad gr.teamLanes q (s.lane e.c p).rln = false) → (r = .grid → gr.gbar = true) →
    e.cu.base % 8 = 0 → (∀ p ∈ e.lanes, (s.lane e.c p).exited = false) →
    ∃ t um y, exec i s = .next t ∧ t.team? e.c e.x.place = some um ∧ t.barRec um r = some y ∧
      Arrived (armed e s r q x) e.lanes.length x y ∧
      (∀ p ∈ e.lanes, (x.arr + e.lanes.length = armed e s r q x → (t.lane e.c p).hk = .none) ∧
        (x.arr + e.lanes.length ≠ armed e s r q x →
          (t.lane e.c p).hk = .arrive ∧ (t.lane e.c p).hr = r ∧ (t.lane e.c p).hg = x.gen) ∧
        (t.lane e.c p).lpc = BitVec.ofNat 64 e.fallThrough ∧ (t.lane e.c p).resw = 0) ∧
      (∀ k p, ¬ (k = e.c ∧ p ∈ e.lanes) → (t.lane k p).hk = (s.lane k p).hk) ∧ LanesStand s t ∧ t.mem = s.mem

/-- `bar.arr` (R257, R261) under the same conditions: the lanes have arrived, none is held, and each holds the generation it arrived
in as its token. -/
def Claims.BarrierToken : Prop :=
  ∀ (p : Pfx) (d : Option Operand) (o : Operand) (e : Env) (s : State) (tm : Team) (gr : Grid) (x : BarRec),
    Runs (.barArr p d o) e s → Quiet s e.c → e.lanes.Nodup → e.x.hmode = false → s.teamOf e.c e.x = some tm →
    s.grid? tm.grid = some gr →
    let q := e.opnd s o e.low 32
    s.barRec tm (.team (barB q)) = some x → (∀ l ∈ e.lanes, tm.arriveBad gr.teamLanes q (s.lane e.c l).rln = false) →
    ∃ t um y, exec (.barArr p d o) s = .next t ∧ t.team? e.c e.x.place = some um ∧ t.barRec um (.team (barB q)) = some y ∧
      Arrived (armed e s (.team (barB q)) q x) e.lanes.length x y ∧ RegResult e d 32 (fun _ => x.gen.toNat) t ∧
      (∀ k l, (t.lane k l).hk = (s.lane k l).hk) ∧ Untouched s t ∧
      ∀ l r, ¬ (l ∈ e.lanes ∧ ∃ j, d = some (.v j) ∧ r = j.val) → regGet (t.lane e.c l).v r = regGet (s.lane e.c l).v r

/-- Arrivals at barriers (R257 to R262). -/
def Obligations.BarriersArrive : Prop := Claims.BarrierArrives ∧ Claims.BarrierToken

/-- `bar.w` (R258, R261) with nothing of the core on the way: a lane whose token's generation has completed passes, every other lane
of C is held for it, and all stand at FallThrough; registers, records and memory stand. -/
def Claims.BarrierWaits : Prop :=
  ∀ (p : Pfx) (o w : Operand) (e : Env) (s : State) (tm : Team) (x : BarRec), Runs (.barW p o w) e s → Quiet s e.c →
    e.x.hmode = false → s.teamOf e.c e.x = some tm → s.barRec tm (.team (barB (e.opnd s o e.low 32))) = some x →
    ∃ t, exec (.barW p o w) s = .next t ∧
      (∀ l ∈ e.lanes,
        let ahead := (x.gen - BitVec.ofNat 32 (e.opnd s w l 32)).toNat
        ((ahead ≠ 0 ∧ ahead < 2 ^ 31) → (t.lane e.c l).hk = .none) ∧
        (¬ (ahead ≠ 0 ∧ ahead < 2 ^ 31) → (t.lane e.c l).hk = .token ∧ (t.lane e.c l).hr = .team (barB (e.opnd s o e.low 32)) ∧
          (t.lane e.c l).hg = BitVec.ofNat 32 (e.opnd s w l 32)) ∧
        (t.lane e.c l).lpc = BitVec.ofNat 64 e.fallThrough ∧ (t.lane e.c l).resw = 0) ∧ RegsStand s t ∧ Untouched s t

/-- HELD_LANE_RELEASE (R258, R259), with nothing of the core on the way: every held lane of the group whose generation has completed
is released, every other lane stays as it is; registers and memory stand. -/
def Claims.HeldLanesAreReleased : Prop :=
  ∀ (c g : Nat) (s : State) (x : Group) (tm : Team), s.group? c g = some x → s.teamOf c x = some tm → Quiet s c →
    ∃ t, exec (.heldLaneRelease c g) s = .next t ∧
      (∀ p ∈ x.positions, (t.lane c p).hk = if s.passes tm (s.lane c p) then .none else (s.lane c p).hk) ∧
      (∀ k p, ¬ (k = c ∧ p ∈ x.positions) → t.lane k p = s.lane k p) ∧ RegsStand s t ∧ t.mem = s.mem

/-- Waits at barriers and their end (R258, R259, R261). -/
def Obligations.BarriersRelease : Prop := Claims.BarrierWaits ∧ Claims.HeldLanesAreReleased

/-- `smadd` and `smset` (R265, R267), with nothing of the core on the way, an index below 64 that is bound or can be: the semaphore
of the team rises by the amount, or holds it; other semaphores, registers and memory stand. -/
def Claims.SemaphoreWrites : Prop :=
  ∀ (i : Instr) (o : Sem2) (e : Env) (s : State) (tm : Team), Runs i e s → (i = .smadd o ∨ i = .smset o) → Quiet s e.c →
    s.team? e.c e.x.place = some tm →
    let k := e.opnd s o.k e.low 32
    let a := e.opnd s o.a e.low 32
    k ≤ 63 → s.canBind e.c e.x.place k = true →
    ∃ t um, exec i s = .next t ∧ t.team? e.c e.x.place = some um ∧
      um.semCount k = (if i = .smset o then BitVec.ofNat 32 a else tm.semCount k + BitVec.ofNat 32 a) ∧
      (∀ j, j ≠ k → um.semCount j = tm.semCount j) ∧ LanesStand s t ∧ Untouched s t

/-- `smwait` (R27, R267), with nothing of the core on the way, completes once the count less the operand is not negative; the count,
registers and memory stand. -/
def Claims.SemaphoreWaitPasses : Prop :=
  ∀ (o : Sem2) (e : Env) (s : State) (tm : Team), Runs (.smwait o) e s → Quiet s e.c → s.team? e.c e.x.place = some tm →
    e.opnd s o.k e.low 32 ≤ 63 → s.canBind e.c e.x.place (e.opnd s o.k e.low 32) = true →
    semHolds (tm.semCount (e.opnd s o.k e.low 32)) (BitVec.ofNat 32 (e.opnd s o.a e.low 32)) = true →
    ∃ t um, exec (.smwait o) s = .next t ∧ t.team? e.c e.x.place = some um ∧ (∀ j, um.semCount j = tm.semCount j) ∧
      (∀ p ∈ e.cu.live, GoesOn e p s t) ∧ LanesStand s t ∧ Untouched s t

/-- SEMAPHORE_BIND (R265): an index below 64 that can be bound is bound, with the count it has or 0; nothing else changes. -/
def Claims.SemaphoreIsBound : Prop :=
  ∀ (c j k : Nat) (s : State) (tm : Team), s.team? c j = some tm → k ≤ 63 → s.canBind c j k = true →
    ∃ t um, exec (.semaphoreBind c j k) s = .next t ∧ t.team? c j = some um ∧ tabGet? um.sems k = some (tm.semCount k) ∧
      (∀ n, um.semCount n = tm.semCount n) ∧ (∀ m h, ¬ (m = c ∧ h = j) → t.team? m h = s.team? m h) ∧
      LanesStand s t ∧ Untouched s t

/-- The semaphores of a team (R27, R265, R267). -/
def Obligations.Semaphores : Prop := Claims.SemaphoreWrites ∧ Claims.SemaphoreWaitPasses ∧ Claims.SemaphoreIsBound

/-- Every word of the memory and sync classes that leaves a request outstanding (R36, R41, R214 to R221, R247, R269, R286), when
nothing keeps it from being issued, completes: its request holds one access for each lane, with the lane's address, operands and
target; its slot counts one more; no register changes. -/
def Obligations.MemoryWordsIssue : Prop :=
  ∀ (i : Instr) (e : Env) (s : State) (tm : Team) (f : MemForm), Runs i e s → memForm e s i = some f → Accepted e s tm f →
    entryAccepts s tm f →
    ∃ t q, exec i s = .next t ∧ tabGet? (t.core e.c).pend (s.core e.c).nextId = some q ∧ q.ctx = e.g ∧ q.kind = f.kind ∧
      q.dst = f.dst ∧ q.slot = f.slot.map (·.val) ∧ q.lanes = e.lanes ∧ q.accs.length = f.reqs.length ∧
      (∀ r ∈ f.reqs, ∃ a ∈ q.accs, a.pos = r.pos ∧ a.va = r.ea ∧ a.n = r.eas.length ∧ a.x = r.x ∧ a.y = r.y ∧
        ∃ w, s.resolveKind e.c tm.ctx tm f.kind f.u r.eas r.y = .ok w ∧ a.tgt = w.tgt ∧ a.reg = w.reg ∧ a.deps = w.deps) ∧
      (∀ b, f.slot = some b → t.slotCount e.c e.g b.val = s.slotCount e.c e.g b.val + 1) ∧ CoreStands e.c s t ∧
      (∀ k a, (t.core k).scratch.get a = (s.core k).scratch.get a)

/-- `st` (R36, R211, R217) to a scratchpad or to device memory outside deterministic operation completes: its request holds, for each
lane and each part of the access that is written at once, the address and the bytes of that part, and no others; no byte of memory or of
a scratchpad, and no register, has changed yet. -/
def Claims.StoresIssue : Prop :=
  ∀ (o : MStore) (e : Env) (s : State) (tm : Team), Runs (.st o) e s → e.lanes.Nodup →
    Accepted e s tm ⟨.store (widthBytes o.w), none, o.d, storeReqs e s o, .write, anyPath, 0⟩ →
    (∀ r ∈ storeReqs e s o, pathOf r.ea ≠ 10 ∧ ((s.ctx tm.ctx).detm = true → pathOf r.ea ≠ 0)) →
    ∃ t q, exec (.st o) s = .next t ∧ tabGet? (t.core e.c).pend (s.core e.c).nextId = some q ∧ q.ctx = e.g ∧
      q.kind = .store (widthBytes o.w) ∧ q.slot = none ∧ q.pins = [] ∧
      (∀ r ∈ storeReqs e s o, ∀ u ∈ unitsOf r.ea (widthBytes o.w), ∃ a ∈ q.accs, StorePart r u a) ∧
      (∀ a ∈ q.accs, ∃ r ∈ storeReqs e s o, ∃ u ∈ unitsOf r.ea (widthBytes o.w), StorePart r u a) ∧ LanesStand s t ∧ Untouched s t ∧
      (∀ k, (t.core k).scratch = (s.core k).scratch)

/-- A part of an `st` to a scratchpad is performed (R92, R201, R217) once no earlier access to its bytes is outstanding: the bytes stand
there; every other byte of every scratchpad and of device memory, and every register, stands. -/
def Claims.ScratchpadStores : Prop :=
  ∀ (c k : Nat) (p : Portion) (s : State) (q : Pend) (a : Acc) (n : Nat) (as_ : List Nat), PartDue c p s q a n →
    a.tgt = some (.scr k as_) → s.earlierOverlap c a.pos (.scr k as_) p.id = false → as_.length = a.n → memoryOk s = true →
    ∃ t, exec (.writeAtHome c p) s = .next t ∧
      (∀ b, (t.core k).scratch.get b = (lastByte (as_.zip (leBytes a.n a.x)) b).getD ((s.core k).scratch.get b)) ∧
      (∀ m, m ≠ k → (t.core m).scratch = (s.core m).scratch) ∧ (q.accs = [a] → tabGet? (t.core c).pend p.id = none) ∧
      LanesStand s t ∧ Untouched s t

/-- A part of an `st` to device memory is performed outside deterministic operation (R200, R201, R217): its bytes are in the core, in an
L1 line, in the buffer or on their way, and no byte of device memory or of a scratchpad, and no register, has changed yet. -/
def Claims.DeviceStores : Prop :=
  ∀ (c : Nat) (p : Portion) (s : State) (q : Pend) (a : Acc) (n : Nat) (pas deps : List Nat) (attr : Nat), PartDue c p s q a n →
    a.tgt = some (.home pas attr deps) → s.earlierOverlap c a.pos (.home pas attr deps) p.id = false → pas.length = a.n →
    (∀ m, s.team? c q.place = some m → (s.ctx m.ctx).detm = false) →
    (∀ b ∈ pas, inLinkRegs b = false) → (∀ l ∈ (s.core c).l1, l.2.data.length = 64) → pas.Nodup →
    ∃ t, exec (.writeAtHome c p) s = .next t ∧ (q.accs = [a] → tabGet? (t.core c).pend p.id = none) ∧ LanesStand s t ∧ Untouched s t ∧
      (∀ m, (t.core m).scratch = (s.core m).scratch) ∧ (∀ m, m ≠ c → t.core m = s.core m) ∧
      ∀ w ∈ pas.zip (leBytes a.n a.x),
        ((tabGet? (t.core c).wcb (w.1 / 64)).bind fun l => tabGet? l.bytes (w.1 % 64)) = some w.2 ∨
        (∃ l, tabGet? (t.core c).l1 (w.1 / 64) = some l ∧ bitAt l.dirty (w.1 % 64) = true ∧ listGet 0 l.data (w.1 % 64) = w.2) ∨
        ∃ fl ∈ (t.core c).flights, fl.2.line = w.1 / 64 ∧ tabGet? fl.2.bytes (w.1 % 64) = some w.2

/-- `st` to the scratchpad and to device memory, from its issue to the writes (R36, R92, R200, R201, R211, R217). -/
def Obligations.PlainStores : Prop := Claims.StoresIssue ∧ Claims.ScratchpadStores ∧ Claims.DeviceStores

/-- An address on a path that its entry does not admit, or one that is ill formed (R45, R215, R326): every lane with such an address
enters the handler of T.PATH at the word, with the address in v61; no request is made. -/
def Claims.BadPathTraps : Prop :=
  ∀ (o : MLoad) (e : Env) (s : State) (tm : Team), Runs (.ld o) e s → s.teamOf e.c e.x = some tm → e.lanes.Nodup → CanTrap e s tPath →
    (∀ p ∈ e.lanes, s.pathOk e.c tm.ctx tm (e.effAddr s o.m (widthBytes o.w) p) false = false) →
    ∃ t y, exec (.ld o) s = .next t ∧ t.group? e.c e.g = some y ∧ y.hmode = true ∧ y.hcause = tPath ∧
      (∀ p ∈ e.lanes, Entered e.c p tPath e.cu.base e.cu.k 0 (e.effAddr s o.m (widthBytes o.w) p)
        (hvecOf s (s.ctxOf e.c e.x) tPath) s t) ∧
      (t.core e.c).pend = (s.core e.c).pend

/-- A word that a rule refuses, in its fields, its target or its addresses, makes the lanes trap at the word (R45, R144, R215, R326, R331). -/
def Obligations.FaultyWordsTrap : Prop := Claims.BadTargetTraps ∧ Claims.DecodeFaultTraps ∧ Claims.BadPathTraps

/-- LOAD_DATA_RETURN of a load (R203, R211, R216), whole: once no earlier access of the lane to its bytes is outstanding, the bytes at its
target stand in the destination, a signed narrow one extended by its sign; the lane's access is over, and with the last lane the slot
counts one less. For device memory: while the core holds none of its own lines or writes. -/
def Claims.LoadReturns : Prop :=
  ∀ (c id pos : Nat) (data : List Byte) (r : Returned) (s : State) (q : Pend) (a : Acc) (tm : Team) (w : Width) (ro : Bool) (d : Fin 64)
    (bs : List Byte), tabGet? (s.core c).pend id = some q →
    (q.accs.find? fun a => a.pos == pos && (a.st == 0 || a.st == 6)) = some a → a.st = 0 → a.got = [] → a.bad = false → a.own = none →
    s.team? c q.place = some tm → q.kind = .load w ro → q.dst = .v d → q.pins = [] → (s.ctx tm.ctx).detm = false →
    d.val + widthReg w / 32 ≤ 64 → a.n = widthBytes w → Whole r a.n (widthReg w / 32) → q.beforeOverlap a = false →
    (∃ as_, a.tgt = some (.scr c as_) ∧ bs = as_.map (s.core c).scratch.get ∧ as_.length = a.n ∧
        (∀ b ∈ as_, b ∉ (s.core c).scratchPoison) ∨
      ∃ pas attr deps, a.tgt = some (.home pas attr deps) ∧ bs = pas.map s.softByte ∧ pas.length = a.n ∧
        (∀ b ∈ pas, inLinkRegs b = false) ∧ (∀ b ∈ pas, b ∉ s.poison) ∧ (s.core c).l1 = [] ∧ (s.core c).wcb = [] ∧
        (s.core c).flights = []) →
    (∀ g, a.tgt = some g → s.earlierOverlap c pos g id = false) →
    ∃ t, exec (.loadDataReturn c id pos data r) s = .next t ∧
      regsGet (t.lane c pos).v d.val (widthReg w / 32) = loadExt w (ofLe bs) ∧
      (∀ n, n < d.val ∨ d.val + widthReg w / 32 ≤ n → regGet (t.lane c pos).v n = regGet (s.lane c pos).v n) ∧
      (∀ k p, ¬ (k = c ∧ p = pos) → t.lane k p = s.lane k p) ∧
      (∀ b, q.accs = [a] → q.slot = some b → b < 8 → tabGet? (t.core c).pend id = none ∧
        ∀ x, s.group? c q.ctx = some x → ∃ y, t.group? c q.ctx = some y ∧ y.sbCount b = x.sbCount b - 1) ∧
      t.mem = s.mem ∧ (∀ k, (t.core k).scratch = (s.core k).scratch)

/-- A load whose data is known writes its registers one by one (R42): those that the return names hold their words, every other register
stands, and the access is over with the last. -/
def Claims.ResultsLandByRegister : Prop :=
  ∀ (c id pos : Nat) (data : List Byte) (r : Returned) (s : State) (q : Pend) (a : Acc), tabGet? (s.core c).pend id = some q →
    (q.accs.find? fun a => a.pos == pos && (a.st == 0 || a.st == 6)) = some a → a.st = 6 → a.left.Nodup → q.pins = [] →
    (∀ w ∈ a.left, ∃ p n x, w = .vec p n x ∧ n < 64) → (a.left.map writePlace).Nodup →
    ∃ t, exec (.loadDataReturn c id pos data r) s = .next t ∧
      (∀ k p n x, a.left[k]? = some (.vec p n x) → r.regs.testBit k = true → regGet (t.lane c p).v n = x) ∧
      (∀ p n, (∀ k x, r.regs.testBit k = true → a.left[k]? ≠ some (.vec p n x)) → regGet (t.lane c p).v n = regGet (s.lane c p).v n) ∧
      ((∀ k, k < a.left.length → r.regs.testBit k = true) → q.accs = [a] → tabGet? (t.core c).pend id = none) ∧
      (∀ k, (t.core k).scratch = (s.core k).scratch) ∧ Untouched s t

/-- LOAD_DATA_RETURN of an atomic at the team's scratchpad (R211, R221), whole: the lane holds the old value, the bytes hold what the
operation makes of it, and every other byte and register stands. -/
def Claims.AtomicReturns : Prop :=
  ∀ (c id pos : Nat) (data : List Byte) (r : Returned) (s : State) (q : Pend) (a : Acc) (tm : Team) (op : AtomOp) (ty : IntTy) (team : Bool)
    (d : Fin 64) (as_ : List Nat), tabGet? (s.core c).pend id = some q → q.accs = [a] → a.pos = pos → a.st = 0 → a.own = none →
    s.team? c q.place = some tm → q.kind = .atom op ty team → q.dst = .v d → q.pins = [] → d.val + tyOpWidth ty / 32 ≤ 64 →
    Whole r (atomBytes ty) (tyOpWidth ty / 32) →
    a.tgt = some (.scr c as_) → as_.Nodup → as_.length = atomBytes ty → (∀ b ∈ as_, b ∉ (s.core c).scratchPoison) →
    s.earlierOverlap c pos (.scr c as_) id = false → memoryOk s = true →
    let old := ofLe (as_.map (s.core c).scratch.get)
    let new := match op with
      | .fold f => wrap (foldInt f ty (tyVal ty old) (tyVal ty a.x)) (8 * atomBytes ty)
      | .exch => a.x % 2 ^ (8 * atomBytes ty)
    ∃ t, exec (.loadDataReturn c id pos data r) s = .next t ∧ regsGet (t.lane c pos).v d.val (tyOpWidth ty / 32) = old ∧
      ofLe (as_.map (t.core c).scratch.get) = new ∧ (∀ b, b ∉ as_ → (t.core c).scratch.get b = (s.core c).scratch.get b) ∧
      (∀ r, r < d.val ∨ d.val + tyOpWidth ty / 32 ≤ r → regGet (t.lane c pos).v r = regGet (s.lane c pos).v r) ∧
      (∀ k p, ¬ (k = c ∧ p = pos) → t.lane k p = s.lane k p) ∧ t.mem = s.mem

/-- The return of loads and atomics (R42, R203, R211, R216, R221). -/
def Obligations.RequestsReturn : Prop := Claims.LoadReturns ∧ Claims.ResultsLandByRegister ∧ Claims.AtomicReturns

/-- WRITE_AT_HOME (R4, R201, R211, R232): of the oldest write in flight of its line, through which nothing outstanding was translated, the
parts that the event names are performed: their bytes stand in memory, as the access codes of the register maps let them; every other
byte of device memory and every scratchpad stands, and with the last part the write is no longer in flight. -/
def Claims.WritesArriveHome : Prop :=
  ∀ (c : Nat) (p : Portion) (s : State) (f : Flight), tabGet? (s.core c).flights p.id = some f →
    (∀ q ∈ (s.core c).flights, q.1 < p.id → q.2.line ≠ f.line) → s.canWrite [f.line] (some (c, p.id)) = true →
    inLinkRegs (f.line * 64) = false → (f.bytes.map (·.1)).Nodup → memoryOk s = true →
    let goes (o : Nat) : Prop := ∃ u ∈ f.units, u &&& p.mask = u ∧ u.testBit o = true
    ∃ t, exec (.writeAtHome c p) s = .next t ∧
      (∀ b ∈ f.bytes, goes b.1 → t.mem.get (f.line * 64 + b.1) = s.guardByte (f.line * 64 + b.1) b.2) ∧
      (∀ a, (∀ b ∈ f.bytes, goes b.1 → f.line * 64 + b.1 ≠ a) → t.mem.get a = s.mem.get a) ∧
      (∀ k, (t.core k).scratch = (s.core k).scratch) ∧
      ((∀ u ∈ f.units, u &&& p.mask = u) → tabGet? (t.core c).flights p.id = none)

/-- The drains and time-outs of the buffer and of L1 (R200): a buffer line, or the dirty bytes of an L1 line, leave for their home;
an L1 line stays valid and clean, and a clean one may be dropped. Registers and device memory stand. -/
def Claims.LinesLeaveTheCore : Prop :=
  ∀ (i : Instr) (c line : Nat) (s : State),
    (∀ w, (i = .wcbDrain c line ∨ i = .wcbLineTimeout c line ∧ w.firstClk + 1024 ≤ s.clk.toNat) → tabGet? (s.core c).wcb line = some w →
      w.bytes ≠ [] →
      ∃ t f, exec i s = .next t ∧ tabGet? (t.core c).wcb line = none ∧ tabGet? (t.core c).flights (s.core c).nextId = some f ∧
        f.line = line ∧ f.bytes = w.bytes ∧ (t.core c).l1 = (s.core c).l1 ∧ RegsStand s t ∧ Untouched s t) ∧
    (∀ l, i = .l1DirtyTimeout c line → tabGet? (s.core c).l1 line = some l → l.teamMask = 0 →
      (∃ o, o < 64 ∧ bitAt l.dirty o = true) →
      ∃ t f m, exec i s = .next t ∧ tabGet? (t.core c).l1 line = some m ∧ m.dirty = 0 ∧ m.data = l.data ∧
        tabGet? (t.core c).flights (s.core c).nextId = some f ∧ f.line = line ∧
        (∀ o, o < 64 → tabGet? f.bytes o = if bitAt l.dirty o then some (listGet 0 l.data o) else none) ∧ RegsStand s t ∧ Untouched s t) ∧
    (∀ l, i = .cleanLineExpiry c line → tabGet? (s.core c).l1 line = some l → l.dirty = 0 →
      ∃ t, exec i s = .next t ∧ tabGet? (t.core c).l1 line = none ∧ (t.core c).flights = (s.core c).flights ∧ RegsStand s t ∧ Untouched s t)

/-- Writes on their way from the core to their home (R4, R200, R201, R232). -/
def Obligations.WritesReachMemory : Prop := Claims.WritesArriveHome ∧ Claims.LinesLeaveTheCore

/-- Every command word (R38, R128, R277, R283, R294, R368 to R372, R390), with nothing of its core on the way and a free place in its
slot, completes: the core holds one more command, with the block and the threshold that the scalars held, its slot counts one more,
and vector registers, predicates, scalars and device memory stand. -/
def Claims.CommandsAreIssued : Prop :=
  ∀ (i : Instr) (e : Env) (s : State) (t : TW) (n : Nat), Runs i e s → cmdForm i = some (t, n) → Quiet s e.c → e.x.sbCount t.sb.val < 63 →
    ∃ u m, exec i s = .next u ∧ tabGet? (u.core e.c).cmds (s.core e.c).nextId = some m ∧
      Issued e i t n (s.core e.c).nextId m ∧ u.slotCount e.c e.g t.sb.val = s.slotCount e.c e.g t.sb.val + 1 ∧
      LanesStand s u ∧ u.mem = s.mem ∧ (∀ k, (u.core k).scratch = (s.core k).scratch ∧ (u.core k).accm = (s.core k).accm)

/-- A copy joins the open set of the lowest lane of C (R277, R282); `cseal` moves the open set of every lane of C into its batch,
which is then SEALED while a copy of it lives (R283). -/
def Claims.BatchesAreSealed : Prop :=
  ∀ (t : TW) (e : Env) (s : State), e.x.sbCount t.sb.val < 63 → e.lanes.Nodup →
    (∀ i, (i = .tcp t ∨ i = .tcpz t) → Runs i e s → ((s.core e.c).cmds.filter fun m => isCopy m.2.i).length < 128 →
      ∃ u, exec i s = .next u ∧ (u.lane e.c e.low).open_ = (s.lane e.c e.low).open_ ++ [(s.core e.c).nextId] ∧
        ∀ k p, ¬ (k = e.c ∧ p = e.low) → (u.lane k p).open_ = (s.lane k p).open_) ∧
    (Runs (.cseal t) e s →
      ∃ u, exec (.cseal t) s = .next u ∧ ∀ p ∈ e.lanes, (u.lane e.c p).open_ = [] ∧
        ∃ b, (u.lane e.c p).batch[t.batch.val]? = some b ∧
          (∀ id ∈ (s.lane e.c p).open_, (tabGet? (s.core e.c).cmds id).isSome = true → id ∈ b.2 ∧ b.1 = .sealed))

/-- Commands and batches at issue (R38, R128, R277, R282, R283, R294, R368 to R372, R390). -/
def Obligations.CommandsAreIssued : Prop := Claims.CommandsAreIssued ∧ Claims.BatchesAreSealed

/-- COPY_START (R276, R278, R281): a waiting copy whose condition holds and whose shape record stands, valid, in the team's
scratchpad, runs, with the shape that the record gives. -/
def Claims.CopiesStart : Prop :=
  ∀ (c id : Nat) (s : State) (m : Cmd) (tm : Team) (bs : List Byte), s.cmd? c id = some m → isCopy m.i = true → m.state = .waiting →
    m.shape = [] → s.expo.stopped = false → s.cmdAlive c m = true → (twOf m.i).wait = none → s.team? c m.place = some tm →
    pathOf (blk64 m.block 4) = 1 → fld (blk64 m.block 4) 22 38 = 0 → blk64 m.block 4 % 32 = 0 →
    blk64 m.block 4 % 2 ^ 22 + 32 ≤ tm.size → tm.size ≤ 2 ^ 22 → (s.core c).pend = [] →
    bs = (natRange (tm.base + blk64 m.block 4 % 2 ^ 22) 32).map (s.core c).scratch.get →
    (∀ a ∈ natRange (tm.base + blk64 m.block 4 % 2 ^ 22) 32, a ∉ (s.core c).scratchPoison) → shapeBad bs = false →
    ∃ t n, exec (.copyStart c id) s = .next t ∧ t.cmd? c id = some n ∧ n.state = .running ∧ n.shape = shapeOf bs ∧
      n.prog = m.prog ∧ n.block = m.block ∧ n.poisoned = m.poisoned ∧ LanesStand s t ∧ Untouched s t

/-- COPY_COMPLETION (R38, R278, R281): a copy whose elements are done writes its status, C.POISON where it met poison, into the last
scalar of its block; its slot counts one less, its semaphore rises, and it is gone; other scalars stand. -/
def Claims.CopiesComplete : Prop :=
  ∀ (c id : Nat) (s : State) (m : Cmd) (x : Group) (t : TW), s.cmd? c id = some m → (m.i = .tcp t ∨ m.i = .tcpz t) → m.state = .draining →
    (s.core c).engineBusy id false = false → s.canInc c m = true → s.group? c m.ctx = some x → t.pbase.val ≤ 248 →
    ∃ u y, exec (.copyCompletion c id) s = .next u ∧ u.cmd? c id = none ∧ u.group? c m.ctx = some y ∧
      regGet y.scal (t.pbase.val + 7) = BitVec.ofNat 32 (if m.status = cOk ∧ m.poisoned = true then cPoison else m.status) ∧
      (∀ r, r ≠ t.pbase.val + 7 → regGet y.scal r = regGet x.scal r) ∧ y.sbCount t.sb.val = x.sbCount t.sb.val - 1 ∧
      (∀ w, t.inc = some w → ∀ tm, s.team? c m.place = some tm → ∃ um, u.team? c m.place = some um ∧
        um.semCount w.ix.val = tm.semCount w.ix.val + BitVec.ofNat 32 (w.amt.val + 1)) ∧
      (∀ k p, (u.lane k p).v = (s.lane k p).v ∧ (u.lane k p).p = (s.lane k p).p) ∧ Untouched s u

/-- COPY_ELEMENT_RETRY (R236, R278, R279, R281): once the line of the faulting entry was written, or 65,536 clocks have passed, a stalled copy between scratchpad addresses of its team, with nothing outstanding in the
core, performs its element: the bytes at the source stand at the destination, every other byte stands, and it goes on with the next
element. -/
def Claims.CopyElementsAreRetried : Prop :=
  ∀ (c id : Nat) (s : State) (m : Cmd) (tm : Team), s.cmd? c id = some m → isCopy m.i = true → m.state = .stalled → m.shape ≠ [] →
    (m.touched = true ∨ m.faultClk + 65536 ≤ s.clk.toNat) →
    s.cmdAlive c m = true → s.team? c m.place = some tm → (s.core c).pend = [] → tm.size ≤ 2 ^ 22 → memoryOk s = true →
    let n := 2 ^ listGet 0 m.shape 0
    let sa := shapeAddr m.shape (blk64 m.block 0) 4 m.prog
    let da := shapeAddr m.shape (blk64 m.block 2) 7 m.prog
    listGet 0 m.shape 0 ≤ 4 → m.prog < shapeCount m.shape →
    (shapeIx m.shape m.prog).2.1 < fld (blk32 m.block 6) 16 16 → (shapeIx m.shape m.prog).2.2 < fld (blk32 m.block 6) 0 16 →
    pathOf sa = 1 → pathOf da = 1 → fld sa 22 38 = 0 → fld da 22 38 = 0 → sa % n = 0 → da % n = 0 → sa % 2 ^ 22 + n ≤ tm.size →
    da % 2 ^ 22 + n ≤ tm.size → (∀ a ∈ natRange (tm.base + sa % 2 ^ 22) n, a ∉ (s.core c).scratchPoison) →
    ∃ t q, exec (.copyElementRetry c id) s = .next t ∧ t.cmd? c id = some q ∧ q.prog = m.prog + 1 ∧
      q.state = (if m.prog + 1 < shapeCount m.shape then .running else .draining) ∧
      (∀ i, i < n → (t.core c).scratch.get (tm.base + da % 2 ^ 22 + i) = (s.core c).scratch.get (tm.base + sa % 2 ^ 22 + i)) ∧
      (∀ a, ¬ (tm.base + da % 2 ^ 22 ≤ a ∧ a < tm.base + da % 2 ^ 22 + n) → (t.core c).scratch.get a = (s.core c).scratch.get a) ∧
      LanesStand s t ∧ Untouched s t

/-- A copy from its start to its completion (R38, R276, R278, R279, R281). -/
def Obligations.CopiesRun : Prop := Claims.CopiesStart ∧ Claims.CopiesComplete ∧ Claims.CopyElementsAreRetried

/-- `acalloc` (R41, R290, R299), when no earlier bank event or command of its group waits: `n` team bank numbers in one run, the
lowest that are unmapped, are mapped to free banks of the group, all of their rows LIVE; the result awaits its completion. -/
def Claims.BanksAreAllocated : Prop :=
  ∀ (p : Pfx) (d : Fin 256) (a : Operand) (sb : Fin 8) (e : Env) (s : State) (tm : Team) (b : Nat), Runs (.acalloc (.s d) a p sb) e s →
    e.x.sbCount sb.val < 63 → (s.core e.c).cmds = [] → s.team? e.c e.x.place = some tm →
    let n := e.opnd s a e.low 32
    0 < n → n ≤ 128 → tm.bankRun n = some b → n ≤ (s.core e.c).freePhys.length →
    ∃ t um m, exec (.acalloc (.s d) a p sb) s = .next t ∧ t.team? e.c e.x.place = some um ∧
      (∀ i, i < n → ∃ k, tabGet? um.banks (b + i) = some k ∧ k.phys ∈ (s.core e.c).freePhys ∧ k.holder = e.x.gbase ∧
        k.bands = [true, true, true, true] ∧ k.freeAt = none) ∧
      (∀ i, i < b ∨ b + n ≤ i → tabGet? um.banks i = tabGet? tm.banks i) ∧
      tabGet? (t.core e.c).cmds (s.core e.c).nextId = some m ∧ m.state = .draining ∧ m.prog = b ∧ m.status = aOk ∧
      t.slotCount e.c e.g sb.val = s.slotCount e.c e.g sb.val + 1 ∧ LanesStand s t ∧ Untouched s t

/-- `acfree` (R290, R300), with no command in the core: the numbers it names become unmapped, other numbers stand, and no register
changes. -/
def Claims.BanksAreFreed : Prop :=
  ∀ (p : Pfx) (a n : Operand) (e : Env) (s : State) (tm : Team), Runs (.acfree p a n) e s → (s.core e.c).cmds = [] →
    s.team? e.c e.x.place = some tm → (∀ b ∈ tm.banks, b.2.freeAt = none) →
    ∃ t um, exec (.acfree p a n) s = .next t ∧ t.team? e.c e.x.place = some um ∧
      (∀ i, tabGet? um.banks i = if e.opnd s a e.low 32 ≤ i ∧ i < min (e.opnd s a e.low 32 + e.opnd s n e.low 32) 128 then none
        else tabGet? tm.banks i) ∧ (t.core e.c).cmds = [] ∧ LanesStand s t ∧ Untouched s t

/-- Accumulator banks (R41, R290, R299, R300). -/
def Obligations.BanksAreHeld : Prop := Claims.BanksAreAllocated ∧ Claims.BanksAreFreed

/-- MATRIX_COMMAND_START (R294, R297) completes for every command that may start: the command takes the next place in start order; it
runs where its checks find nothing, or is done at once with the status of the first check that fails. -/
def Claims.MatrixCommandsStart : Prop :=
  ∀ (c id : Nat) (s : State) (m : Cmd) (tm : Team), s.cmd? c id = some m → s.team? c m.place = some tm → StartDue c id s m tm →
    ((s.core c).cmds.map (·.1)).Nodup →
    ∃ t n, exec (.matrixCommandStart c id) s = .next t ∧ t.cmd? c id = some n ∧ n.order = some (s.core c).nextOrder ∧
      n.status = m.check tm ∧ n.state = (if m.check tm = aOk then .running else .draining) ∧ n.block = m.block ∧
      ((∀ q ∈ (s.core c).cmds, isMatrix q.2.i = true) → (t.core c).nextOrder = (s.core c).nextOrder + 1) ∧ LanesStand s t ∧ t.mem = s.mem

/-- MATRIX_COMMAND_COMPLETION (R38, R295, R297, R299) completes for every command that is done: the command writes its status into its
block, raises its semaphore, ORs its flags into GST and lowers its slot, a finished `mmz` leaves its place after the last pass (R316), and
`acalloc` writes the first number and its status into its pair. -/
def Claims.MatrixCommandsComplete : Prop :=
  ∀ (c id : Nat) (s : State) (m : Cmd) (x : Group), s.cmd? c id = some m → m.state = .draining → s.group? c m.ctx = some x →
    (∀ (d : Fin 256) (a : Operand) (p : Pfx) (sb : Fin 8), m.i = .acalloc (.s d) a p sb → d.val + 1 < 256 →
      ∃ t y, exec (.matrixCommandCompletion c id) s = .next t ∧ t.cmd? c id = none ∧ t.group? c m.ctx = some y ∧
        regGet y.scal d.val = BitVec.ofNat 32 m.prog ∧ regGet y.scal (d.val + 1) = BitVec.ofNat 32 m.status ∧
        (∀ r, r ≠ d.val → r ≠ d.val + 1 → regGet y.scal r = regGet x.scal r) ∧ y.sbCount sb.val = x.sbCount sb.val - 1 ∧
        y.gst = x.gst ∧ Untouched s t) ∧
    (isMatrix m.i = true → (s.core c).engineBusy id false = false → s.canInc c m = true → (twOf m.i).pbase.val + statusIx m.i < 256 →
      let finished := (∃ t, m.i = .mmz t) ∧ (m.status = aOk ∨ m.status = aUnalloc)
      ∃ t y, exec (.matrixCommandCompletion c id) s = .next t ∧ t.cmd? c id = none ∧ t.group? c m.ctx = some y ∧
        regGet y.scal ((twOf m.i).pbase.val + statusIx m.i) = BitVec.ofNat 32 m.status ∧
        (finished → regGet y.scal ((twOf m.i).pbase.val + 8) = BitVec.ofNat 32 (m.slices * (m.slices + 1) / 2 * 256)) ∧
        (∀ r, r ≠ (twOf m.i).pbase.val + statusIx m.i → (r = (twOf m.i).pbase.val + 8 → ¬ finished) →
          regGet y.scal r = regGet x.scal r) ∧
        (∀ w, (twOf m.i).inc = some w → ∀ tm, s.team? c m.place = some tm → ∃ um, t.team? c m.place = some um ∧
          um.semCount w.ix.val = tm.semCount w.ix.val + BitVec.ofNat 32 (w.amt.val + 1)) ∧
        y.gst = x.gst ||| BitVec.ofNat 32 m.gst ∧ y.sbCount (twOf m.i).sb.val = x.sbCount (twOf m.i).sb.val - 1 ∧ Untouched s t)

/-- ENGINE_ELEMENT_RETRY (R236, R305, R369) completes once the line of the faulting entry was written, or 65,536 clocks have passed: a
stalled `acst` with f32 output, no bias and no activation, whose destination lies in the team's scratchpad, writes the scaled word of its
element there, and a stalled `colput` takes the values of its block from there; each goes on with the next. -/
def Claims.EngineElementsAreRetried : Prop :=
  ∀ (c id : Nat) (s : State) (m : Cmd) (tm : Team), s.cmd? c id = some m → m.state = .stalled → s.cmdAlive c m = true →
    (m.touched = true ∨ m.faultClk + 65536 ≤ s.clk.toNat) →
    s.team? c m.place = some tm → (s.core c).pend = [] → tm.size ≤ 2 ^ 22 → memoryOk s = true →
    (∀ t, m.i = .acst t → m.prog + 1 < m.win.rows * m.win.cols → listGet 0 m.block 4 = 2 ^ 32 - 1 →
      fld (listGet 0 m.block 5) 0 3 = 0 → fld (listGet 0 m.block 5) 6 4 = 0 →
      let ea := wrap ((blk64 m.block 0 : Int) + (m.prog / m.win.cols : Nat) * sext (listGet 0 m.block 2) 32 + (4 * (m.prog % m.win.cols) : Nat)) 64
      let word := (rowAt tm (m.order.getD 0) m.win (m.prog / m.win.cols)).elim 0 fun q =>
        ((s.core c).accGet q.1 q.2 (m.win.col0 + m.prog % m.win.cols)).toNat
      let x := if bitAt (listGet 0 m.block 5) 11 then FVal.fin (decide (sext word 32 < 0)) (sext word 32).natAbs 0 else fval .f32 word
      pathOf ea = 1 → fld ea 22 38 = 0 → ea % 4 = 0 → ea % 2 ^ 22 + 4 ≤ tm.size →
      ∃ u n, exec (.engineElementRetry c id) s = .next u ∧ u.cmd? c id = some n ∧ n.prog = m.prog + 1 ∧ n.state = .running ∧
        ofLe ((natRange (tm.base + ea % 2 ^ 22) 4).map (u.core c).scratch.get) =
          (fmaVal .f32 .rne x (fval .f32 (listGet 0 m.block 3)) (fval .f32 0) 0).1 % 2 ^ 32 ∧
        (∀ a, ¬ (tm.base + ea % 2 ^ 22 ≤ a ∧ a < tm.base + ea % 2 ^ 22 + 4) → (u.core c).scratch.get a = (s.core c).scratch.get a) ∧
        (u.core c).accm = (s.core c).accm ∧ LanesStand s u ∧ Untouched s u) ∧
    (∀ t col, m.i = .colput t → s.coll? (putH m.block) = some col →
      let k := putFirst m.block * col.params.chb + m.prog
      let ea := blk64 m.block 0 + 128 * m.prog
      k < min col.params.nblk ((putFirst m.block + putCount m.block) * col.params.chb) → pathOf ea = 1 → fld ea 22 38 = 0 →
      ea % 2 ^ 22 + 128 ≤ tm.size →
      ∃ u n d, exec (.engineElementRetry c id) s = .next u ∧ u.cmd? c id = some n ∧ n.prog = m.prog + 1 ∧ n.state = .running ∧
        u.coll? (putH m.block) = some d ∧
        (∀ i, d.inst (putT m.block) = some i → tabGet? i.values k = some ((natRange 0 32).map fun q =>
          ofLe ((natRange (tm.base + ea % 2 ^ 22 + 4 * q) 4).map (s.core c).scratch.get))) ∧
        LanesStand s u ∧ u.mem = s.mem)

/-- The matrix engine: start, completion and stalled elements (R38, R294, R295, R297, R299, R305, R369). -/
def Obligations.MatrixCommandsRun : Prop := Claims.MatrixCommandsStart ∧ Claims.MatrixCommandsComplete ∧ Claims.EngineElementsAreRetried

/-- CLAUSE_ISSUE (R27, R136, R138, R139, R327) completes: where one group of a core is at a boundary and ready for the port, the vector
pipes before this one have chosen (R140), and a memory or sync clause's requests fit (R198), the group issues: its issuing set stands at the clause with its words, the words from RESW on come next, the port and the group are busy for the clocks of
R138 and R139, and registers and memory stand. -/
def Obligations.ClausesIssue : Prop :=
  ∀ (c port g base resw h : Nat) (ps ws : List Nat) (s : State) (x : Group), s.group? c g = some x →
    ((s.core c).groups.map (·.1)).Nodup → (∀ q ∈ (s.core c).groups, q.1 ≠ g → s.atBoundary q.2 = false) →
    s.readyClass c x = some (headerClass h) → s.issuing c x = some (base, resw, ps) →
    s.fetchClause (s.ctxOf c x) base = .clause h ws → port ∈ portsOf (headerClass h) → s.expo.stopped = false →
    ((s.core c).portFree[port]?).getD 0 ≤ s.clk.toNat → resw < ws.length →
    (port < 4 → (s.core c).pipeTurn.1 = s.clk.toNat → (s.core c).pipeTurn.2 ≤ port) →
    (headerClass h = .memory ∨ headerClass h = .sync → ∀ z, ((s.headerFaults c).refresh c s.clk.toNat).group? c g = some z →
      let u := ((s.headerFaults c).refresh c s.clk.toNat).enterClause c z h resw ps
      u.clauseFits c g z (u.clauseCursor c z base h resw ws ps) = true) →
    let cost := (ws.length - resw) * wordClocks (headerClass h) x ps
    ∃ t y cu, exec (.clauseIssue c port) s = .next t ∧ t.group? c g = some y ∧ y.cur = some cu ∧ y.state = .run ∧
      cu.base = base ∧ cu.ecl = headerClass h ∧ cu.words = ws ∧ cu.k = resw ∧ cu.issuing = ps ∧ cu.live = ps ∧
      y.nextClk = s.clk.toNat + cost + 3 ∧ (t.core c).portFree[port]? = some (s.clk.toNat + max 1 cost) ∧
      t.agenda = List.replicate (ws.length - resw) (.word c g) ++ s.agenda ∧
      (resw = 0 → ∀ p ∈ ps, (t.lane c p).lat = Vector.replicate 16 0) ∧ LanesStand s t ∧ t.mem = s.mem

/-- PAGE_WALK_COMPLETION (R228, R231) completes: a walk that ends at a page leaves in the TLB of the core its translation, the physical
page with its home policy and permissions under the tag of 14 or 20 bits, and the table lines that it read; a walk that ends at a
versioned region leaves the record's address under the tag of 23 bits. The cache of table entries of the core's die may change too, and
nothing else. -/
def Claims.WalksFillTheTlb : Prop :=
  ∀ (c x va : Nat) (s : State), inWindow (s.ctx x) va = false →
    (∀ pa attr deps, (∀ r a ro d, s.walk x va .vread ≠ .region r a ro d) → s.walk x va .fetch = .page pa attr deps →
      ∃ t n, exec (.pageWalkCompletion c x va) s = .next t ∧ n ∈ (t.core c).tlb ∧ n.ctx = x ∧ (n.bits = 14 ∨ n.bits = 20) ∧
        n.page = va / 2 ^ n.bits ∧ n.pa = pa / 2 ^ n.bits * 2 ^ n.bits ∧ n.home = attr ∧ n.deps = deps ∧
        { t.core c with tlb := (s.core c).tlb } = s.core c ∧ (∀ k, k ≠ c → t.core k = s.core k) ∧
        { t with cores := s.cores, dirCache := s.dirCache } = s) ∧
    (∀ r attr ro deps, s.walk x va .vread = .region r attr ro deps →
      ∃ t n, exec (.pageWalkCompletion c x va) s = .next t ∧ n ∈ (t.core c).tlb ∧ n.ctx = x ∧ n.bits = 23 ∧
        n.page = va / 2 ^ 23 ∧ n.pa = r ∧ n.home = attr ∧ n.ro = ro ∧ n.deps = deps ∧
        { t.core c with tlb := (s.core c).tlb } = s.core c ∧ (∀ k, k ≠ c → t.core k = s.core k) ∧
        { t with cores := s.cores, dirCache := s.dirCache } = s)

/-- FETCH_FAULT_REPLAY (R235, R236) completes, once the line of the faulting entry was written or 65,536 clocks have passed: a group that
waits for the fetch of its clause leaves the wait if the clause can be fetched now; nothing else changes. -/
def Claims.FetchesReplay : Prop :=
  ∀ (c g base resw va line : Nat) (ps : List Nat) (tch dr : Bool) (s : State) (x : Group), s.group? c g = some x →
    x.blk = some (.fetch va line tch dr) → (tch = true ∨ x.since + 65536 ≤ s.clk.toNat) → s.issuing c x = some (base, resw, ps) →
    (∀ va f, s.fetchClause (s.ctxOf c x) base ≠ .fault va f) →
    ∃ t, exec (.fetchFaultReplay c g) s = .next t ∧ t.group? c g = some { x with blk := none, state := .run } ∧
      (∀ k h, ¬ (k = c ∧ h = g) → t.group? k h = s.group? k h) ∧ (∀ k q, t.lane k q = s.lane k q) ∧ Untouched s t

/-- `yieldpt` (R146): while no context of the core is STOPPING the lanes go on and nothing else changes. In a STOPPING context, as the
last word of its clause, with every live lane of the group issuing and everything outstanding fit to be saved, the group is SAVED with
the live map and ranges of its block; while another group of the only team is not saved, no image is written. -/
def Obligations.YieldPoints : Prop :=
  ∀ (p : Pfx) (pb : Fin 256) (e : Env) (s : State), Runs (.yieldpt p pb) e s →
    ((s.ctx (s.ctxOf e.c e.x)).state ≠ .stopping → (∀ q ∈ (s.core e.c).teams, (s.ctx q.2.ctx).state ≠ .stopping) →
      ∃ t, exec (.yieldpt p pb) s = .next t ∧ AllGoOn e s t ∧ Moves e.c e.g (· ∈ e.cu.live) (fun _ _ => False) s t) ∧
    (∀ tm h z, (s.ctx (s.ctxOf e.c e.x)).state = .stopping → e.x.hmode = false → (∀ q ∈ s.liveLanes e.c e.x, q ∈ e.cu.issuing) →
      s.saveReady e.c e.g = true → (∀ q ∈ (s.core e.c).pend, q.2.ctx = e.g → ∀ a ∈ q.2.accs, a.st ≠ 5) → e.cu.words.length ≤ e.cu.k + 1 → (s.core e.c).teams = [(e.x.place, tm)] →
      s.group? e.c h = some z → h ≠ e.g → z.place = e.x.place → z.state ≠ .saved → (s.core e.c).cmds = [] →
      (((s.core e.c).groups.filter fun q => q.2.place == e.x.place).map (·.2.gbase)).Nodup →
      ∃ t y, exec (.yieldpt p pb) s = .next t ∧ t.group? e.c e.g = some y ∧ y.state = .saved ∧
        (y.live, y.ranges, y.full) = yieldBlock ((natRange pb.val 11).map fun k => (regGet e.x.scal k).toNat) (s.vregsOf e.c e.x) tm.size ∧
        AllGoOn e s t ∧ LanesStand s t ∧ Untouched s t)

/-- LDV_RESOLUTION, STALE_LIMIT_EXPIRY and PIN_RELEASE (R242, R245, R247, R248), where no monitor of the core is registered: the lanes
that wait at a region resolve to the version that R248 chooses, which gains one pin; past the limit `ldv` lanes take a deferred T.STALE
and `ldv.nt` lanes the version P, with GST.STALE_WAIT; a pin that no lane reads through any more is given back. -/
def Claims.VersionedReadsResolve : Prop :=
  ∀ (c id r f : Nat) (s : State) (p : Pend) (tm : Team), tabGet? (s.core c).pend id = some p → s.team? c p.place = some tm →
    memoryOk s = true → PlainRecord s r → s.vrecBad r = false → (∀ m ∈ s.mons, m.core ≠ c) → (p.accs.map (·.pos)).Nodup →
    (∀ w nt, p.kind = .ldv w nt → p.waiting r ≠ [] → (s.vrec r).pin f < 65535 → s.logFree c tm.ctx = true →
      (∀ a ∈ p.waiting r, ∃ pas, (s.setPin r f ((s.vrec r).pin f + 1)).frameBytes r f ((eaRange a.va a.n).map (· % 2 ^ 50)) = .ok pas) →
      ∀ i, (i = .ldvResolution c id r ∧ f = (s.vrec r).choose (s.ctx tm.ctx).detm (minStep (p.waiting r)) ∧
            minStep (p.waiting r) ≤ (s.vrec r).pstamp ∨
          i = .staleLimitExpiry c id r ∧ nt = true ∧ f = (s.vrec r).pix ∧ (s.ctx tm.ctx).detm = false ∧ (s.ctx tm.ctx).zwt ≠ 0 ∧
            (s.vrec r).pstamp < minStep (p.waiting r) ∧
            ∃ t0, tabGet? p.refused r = some t0 ∧ t0 + (s.ctx tm.ctx).zwt.toNat * 512 ≤ s.clk.toNat) →
      ∃ t q, exec i s = .next t ∧ tabGet? (t.core c).pend id = some q ∧ q.pins = p.pins ++ [(r, f)] ∧
        (t.vrec r).pin f = (s.vrec r).pin f + 1 ∧
        (∀ a ∈ p.waiting r, ∃ b ∈ q.accs, b.pos = a.pos ∧ b.fs = f + 1 ∧ ∃ pas, b.tgt = some (.home pas 1 []) ∧
          (s.setPin r f ((s.vrec r).pin f + 1)).frameBytes r f ((eaRange a.va a.n).map (· % 2 ^ 50)) = .ok pas) ∧
        (∀ x, s.group? c p.ctx = some x → ∃ y, t.group? c p.ctx = some y ∧
          y.gst = if i = .staleLimitExpiry c id r then x.gst ||| 32 else x.gst) ∧
        MemoryStandsBut (r + 0x28 + 2 * f) 2 s t ∧ ∀ q, (t.lane c q).v = (s.lane c q).v) ∧
    (∀ w x t0, p.kind = .ldv w false → s.group? c p.ctx = some x → p.waiting r ≠ [] → p.pins = [] → tabGet? p.refused r = some t0 →
      (s.ctx tm.ctx).detm = false → (s.ctx tm.ctx).zwt ≠ 0 → t0 + (s.ctx tm.ctx).zwt.toNat * 512 ≤ s.clk.toNat →
      (s.vrec r).pstamp < minStep (p.waiting r) →
      ∃ t y d, exec (.staleLimitExpiry c id r) s = .next t ∧ t.group? c p.ctx = some y ∧ y.deferred = x.deferred ++ [d] ∧
        d.code = tStale ∧ d.lanes = (p.waiting r).map (·.pos) ∧ d.resume = some (p.hdr, p.k) ∧
        (∀ q, tabGet? (t.core c).pend id = some q → ∀ a ∈ p.waiting r, ∀ b ∈ q.accs, b.pos ≠ a.pos) ∧ LanesStand s t ∧ Untouched s t) ∧
    (∀ w nt, p.kind = .ldv w nt → p.pins = [(r, f)] → p.accs = [] → f < 3 →
      ∃ t, exec (.pinRelease c id r) s = .next t ∧ tabGet? (t.core c).pend id = none ∧
        (t.vrec r).pin f = (s.vrec r).pin f - 1 ∧
        ((s.vrec r).drn = true → (s.vrec r).wix = f → (s.vrec r).pin f ≤ 1 → (s.vrec r).xp f = false → (t.vrec r).drn = false) ∧
        (∀ b x, p.slot = some b → s.group? c p.ctx = some x → b < 8 → ∃ y, t.group? c p.ctx = some y ∧ y.sbCount b = x.sbCount b - 1) ∧
        MemoryStandsBut r 64 s t ∧ ∀ q, (t.lane c q).v = (s.lane c q).v)

/-- STV_RESOLUTION and STV_WRITE_COMPLETION (R243), where no monitor of the core is registered: outside deterministic operation the lowest
lane of an `stv` that no earlier `stv` to a common byte holds back (R202, R249) resolves into W, whose count of pending writes rises; then its bytes stand at their home, as R4 lets them, and the count falls. -/
def Claims.VersionedWritesLand : Prop :=
  ∀ (c id r : Nat) (s : State) (p : Pend) (a : Acc) (tm : Team) (n : Nat) (pas : List Nat), tabGet? (s.core c).pend id = some p →
    s.team? c p.place = some tm → p.kind = .stv n → a.reg = some r → memoryOk s = true → PlainRecord s r →
    (∀ m ∈ s.mons, m.core ≠ c) →
    ((p.accs.find? fun a => a.st == 0 && a.tgt.isNone && !s.stvBehind c id p a) = some a → (s.ctx tm.ctx).detm = false →
      s.vrecBad r = false → s.stvHeld r = false →
      s.frameBytes r (s.vrec r).wix ((eaRange a.va a.n).map (· % 2 ^ 50)) = .ok pas →
      ∃ t q, exec (.stvResolution c id) s = .next t ∧ tabGet? (t.core c).pend id = some q ∧
        (∃ b ∈ q.accs, b.pos = a.pos ∧ b.st = 1 ∧ b.tgt = some (.home pas 1 [])) ∧
        (t.vrec r).wpend = ((s.vrec r).wpend + 1) % 2 ^ 32 ∧ MemoryStandsBut (r + 0x24) 4 s t ∧ CoreStands c s t) ∧
    (∀ attr deps, (p.accs.find? (·.st == 1)) = some a → a.tgt = some (.home pas attr deps) → pas.length = n → pas.Nodup →
      (∀ b ∈ pas, (b < r ∨ r + 64 ≤ b) ∧ inLinkRegs b = false) → s.earlierOverlap c a.pos (.home pas attr deps) id = false →
      s.canWrite (linesOf pas) (some (c, id)) = true →
      ∃ t, exec (.stvWriteCompletion c id) s = .next t ∧ (t.vrec r).wpend = (s.vrec r).wpend - 1 ∧
        (∀ b ∈ pas.zip (leBytes n a.x), t.mem.get b.1 = s.guardByte b.1 b.2) ∧
        (∀ b, b ∉ pas → (b < r + 0x24 ∨ r + 0x28 ≤ b) → t.mem.get b = s.mem.get b) ∧
        (p.accs = [a] → p.pins = [] → tabGet? (t.core c).pend id = none) ∧ CoreStands c s t)

/-- Versioned reads and writes at a region home (R242, R243, R245, R247, R248). -/
def Obligations.VersionedAccesses : Prop := Claims.VersionedReadsResolve ∧ Claims.VersionedWritesLand

/-- `vpub`, PUBLICATION_ACCEPTANCE and PUBLISH (R244, R250): with nothing of the core on the way its release at module scope is performed
at once, and the word sends its requests and waits, and goes on once every lane's
request is accepted; a region home accepts a stamp above its latest and refuses any other; the oldest accepted publication, with no
write pending and no drain, makes W the version P and P the version Q, and gives the lane the stamp that it replaced. -/
def Obligations.PublicationsAreMade : Prop :=
  (∀ (o : MRange) (e : Env) (s : State) (tm : Team), Runs (.vpub o) e s → e.x.phase = 0 → Quiet s e.c →
    Accepted e s tm ⟨.vpub, some o.sb, o.d,
      e.lanes.map fun p => { pos := p, ea := e.effAddr s o.m 1 p, eas := eaRange (e.effAddr s o.m 1 p) 1, x := e.opnd s o.d p 32 },
      .vwrite, (· == 0), 0⟩ → (∀ p ∈ e.lanes, fld (e.effAddr s o.m 1 p) 50 10 = 0) →
    ∃ t q y, exec (.vpub o) s = .next t ∧ tabGet? (t.core e.c).pend (s.core e.c).nextId = some q ∧ q.kind = .vpub ∧ q.lanes = e.lanes ∧
      (∀ p ∈ e.lanes, ∃ a ∈ q.accs, a.pos = p ∧ a.x = e.opnd s o.d p 32 ∧ a.st = 0 ∧
        ∃ w, s.resolveKind e.c tm.ctx tm .vpub .vwrite (eaRange (e.effAddr s o.m 1 p) 1) 0 = .ok w ∧ a.reg = w.reg ∧ a.deps = w.deps) ∧
      q.sent = true ∧ q.slot = some o.sb.val ∧
      t.group? e.c e.g = some y ∧ y.phase = 2 * (s.core e.c).nextId + 1 ∧ y.blk = some .instr ∧ y.cur.map (·.k) = some e.cu.k ∧
      t.slotCount e.c e.g o.sb.val = s.slotCount e.c e.g o.sb.val + 1 ∧ LanesStand s t ∧ t.mem = s.mem) ∧
  (∀ (o : MRange) (e : Env) (s : State) (id : Nat) (q : Pend), Runs (.vpub o) e s → e.x.phase = 2 * id + 1 →
    tabGet? (s.core e.c).pend id = some q → (∀ a ∈ q.accs, a.st = 1) →
    ∃ t, exec (.vpub o) s = .next t ∧ AllGoOn e s t ∧ (t.core e.c).pend = (s.core e.c).pend ∧
      Moves e.c e.g (· ∈ e.cu.live) (fun _ _ => False) s t) ∧
  (∀ (c id r : Nat) (s : State) (p : Pend) (a : Acc) (tm : Team), tabGet? (s.core c).pend id = some p → s.team? c p.place = some tm →
    p.kind = .vpub → p.sent = true → (p.accs.find? (·.st == 0)) = some a → a.reg = some r → (s.ctx tm.ctx).detm = false → memoryOk s = true →
    PlainRecord s r → (∀ m ∈ s.mons, m.core ≠ c) →
    ∃ t q b, exec (.publicationAcceptance c id) s = .next t ∧ tabGet? (t.core c).pend id = some q ∧ b ∈ q.accs ∧ b.pos = a.pos ∧
      ((s.vrec r).lstamp < a.x → b.st = 1 ∧ (t.vrec r).lstamp = a.x % 2 ^ 32 ∧
        t.pubs = s.pubs ++ [{ record := r, stamp := a.x, core := c, pend := id, pos := a.pos, source := 0 }]) ∧
      (a.x ≤ (s.vrec r).lstamp → b.st = 2 ∧ t.pubs = s.pubs ∧ t.mem = s.mem) ∧ MemoryStandsBut (r + 0x30) 4 s t ∧ CoreStands c s t) ∧
  (∀ (r : Nat) (s : State) (b : Publication) (p : Pend) (d : Fin 64), (s.pubs.find? (·.record == r)) = some b → (s.vrec r).ready = true →
    s.expo.stopped = false → b.source = 0 → tabGet? (s.core b.core).pend b.pend = some p → p.kind = .vpub → p.dst = .v d →
    (∃ a ∈ p.accs, a.pos = b.pos) →
    memoryOk s = true → PlainRecord s r → s.vrecBad r = false → (∀ m ∈ s.mons, m.core ≠ b.core) →
    ∃ t, exec (.publish r) s = .next t ∧ t.pubs = listDelFirst (· == b) s.pubs ∧
      (t.vrec r).pstamp = b.stamp % 2 ^ 32 ∧ (t.vrec r).qstamp = (s.vrec r).pstamp ∧ (t.vrec r).pix = (s.vrec r).wix ∧
      (t.vrec r).qix = (s.vrec r).pix ∧ (t.vrec r).wix = (s.vrec r).qix ∧ (t.vrec r).qv = true ∧
      (t.vrec r).drn = ((s.vrec r).pin (s.vrec r).qix != 0 || (s.vrec r).xp (s.vrec r).qix) ∧
      (regGet (t.lane b.core b.pos).v d.val).toNat = (s.vrec r).pstamp ∧
      (∀ k q, (t.lane b.core q).p = (s.lane b.core q).p ∧ (¬ (q = b.pos ∧ k = d.val) →
        regGet (t.lane b.core q).v k = regGet (s.lane b.core q).v k)) ∧ MemoryStandsBut (r + 0x18) 12 s t)

/-- LOG_RETRY (R230, R236, R245) completes, after a write to the faulting line or 65,536 clocks after the last try: the one logged lane of
a load whose bytes translate now, through the frame sets that its instruction has pinned and those that it pins now, leaves the log, and
its access goes to those bytes; where no version record is pinned, registers and memory stand. -/
def Claims.LoggedAccessesReplay : Prop :=
  ∀ (c id : Nat) (timed : Bool) (s : State) (le : LogEntry) (l : LogLane) (p : Pend) (a : Acc) (tm : Team) (w : Width) (ro : Bool)
    (pas : List Nat) (attr : Nat) (deps : List Nat), c ≠ 576 → tabGet? (s.core c).log id = some le → le.lanes = [l] →
    (l.touched = true ∨ (timed = true ∧ le.since + 65536 ≤ s.clk.toNat)) →
    tabGet? (s.core c).pend id = some p → (p.accs.find? fun a => a.pos == l.pos && a.st == 3) = some a →
    s.team? c p.place = some tm → p.kind = .load w ro →
    let eas := eaRange a.va (max a.n 1)
    let new := ((s.regionsOf tm.ctx eas).filter fun r => !(p.pins.any (·.1 == r))).map fun r =>
      (r, (s.vrec r).choose (s.ctx tm.ctx).detm 0)
    (∀ q ∈ new, (s.vrec q.1).pin q.2 < 65535) → (new ≠ [] → ∀ m ∈ s.mons, m.core ≠ c) →
    s.pinnedBytes tm.ctx (p.pins ++ new) (eas.map (· % 2 ^ 50)) = .ok (pas, attr, deps) →
    ∃ t q b, exec (.logRetry c id timed) s = .next t ∧ tabGet? (t.core c).log id = none ∧ tabGet? (t.core c).pend id = some q ∧
      b ∈ q.accs ∧ b.pos = l.pos ∧ b.st = 0 ∧ b.tgt = some (.home pas attr deps) ∧ q.pins = p.pins ++ new ∧
      (new = [] → LanesStand s t ∧ Untouched s t)

/-- Page walks, and replay after a page fault (R228, R231, R235, R236). -/
def Obligations.WalksAndReplays : Prop := Claims.WalksFillTheTlb ∧ Claims.FetchesReplay ∧ Claims.LoggedAccessesReplay

/-- `stepadv` (R374, R377, R381) completes, with nothing of the core on the way: a step that the context has passed answers 1; a step that no live
member holds back becomes STEP and answers 0, and of the step context it becomes the module's own step in the quadrant's replica and
goes out to the pod. -/
def Claims.StepAdvances : Prop :=
  ∀ (p : Pfx) (d a : Operand) (e : Env) (s : State), Runs (.stepadv p d a) e s → Quiet s e.c → e.c < 576 → e.x.phase = 0 →
    let x := s.ctxOf e.c e.x
    let n := e.opnd s a e.low 32
    (n ≤ (s.ctx x).step.toNat →
      ∃ t, exec (.stepadv p d a) s = .next t ∧ ScalarResult e d 32 1 t ∧ AllGoOn e s t ∧ t.ctxs = s.ctxs ∧ t.replicas = s.replicas ∧
        t.outbox = s.outbox ∧ t.mem = s.mem ∧ ∀ k q, (t.lane k q).v = (s.lane k q).v ∧ (t.lane k q).p = (s.lane k q).p) ∧
    ((s.ctx x).step.toNat < n → x < 64 →
      (s.isStepCtx x = true → s.ownLive (quadrant e.c) = true →
        ∀ v ∈ (s.replica (quadrant e.c)).steps s.ownPod, n ≤ v + 1 + (s.ctx x).lead.toNat) →
      ∃ t, exec (.stepadv p d a) s = .next t ∧ ScalarResult e d 32 0 t ∧ AllGoOn e s t ∧ (t.ctx x).step = BitVec.ofNat 32 n ∧
        (∀ k, k ≠ x → t.ctx k = s.ctx k) ∧
        (s.isStepCtx x = false → t.replicas = s.replicas ∧ t.outbox = s.outbox) ∧
        (s.isStepCtx x = true → t.outbox = .advance n :: s.outbox ∧
          ((t.replica (quadrant e.c)).member (s.stepCtx.rank % 1024)).step.toNat =
            max ((s.replica (quadrant e.c)).member (s.stepCtx.rank % 1024)).step.toNat n) ∧
        t.mem = s.mem ∧ ∀ k q, (t.lane k q).v = (s.lane k q).v ∧ (t.lane k q).p = (s.lane k q).p)

/-- The steps over which LMIN is taken in a replica: those of the live members of the own pod, and MIN of every other live pod (R374). -/
def liveSteps (r : Replica) (own : Nat) : List Nat :=
  (r.members.filter fun m => m.2.mem && !m.2.sil).map (·.2.step.toNat) ++
    (r.pods.filter fun p => p.1 != own && p.2.mem && !p.2.sil && p.2.nlive != 0).map (·.2.min.toNat)

/-- The live members of the job that a replica counts (R374). -/
def liveMembers (r : Replica) (own : Nat) : Nat :=
  (r.members.filter fun m => m.2.mem && !m.2.sil).length +
    ((r.pods.filter fun p => p.1 != own && p.2.mem && !p.2.sil && p.2.nlive != 0).map (·.2.nlive)).sum

/-- The table of R382: (lo, hi) is what `steprd` writes for the selector word `n` in context `x`, from replica `r`. The smallest step over
no live member is not stated. -/
structure StepWords (s : State) (x n : Nat) (r : Replica) (lo hi : Nat) : Prop where
  own : n = 0 → lo = (s.ctx x).step.toNat ∧ hi = (s.ctx x).lead.toNat
  other : n ≠ 0 → (n < 2 ^ 30 ∨ ¬ (s.stepCtx.bound = true ∧ s.stepCtx.sctx = x)) → lo = 0 ∧ hi = 0
  member : s.stepCtx.bound = true → s.stepCtx.sctx = x → n / 2 ^ 30 = 1 →
    (n % 2 ^ 30 < 1024 → lo = (r.member (n % 2 ^ 30)).step.toNat ∧
      hi = 2 * b2n (r.member (n % 2 ^ 30)).mem + b2n (r.member (n % 2 ^ 30)).sil) ∧ (1024 ≤ n % 2 ^ 30 → lo = 0 ∧ hi = 0)
  pod : s.stepCtx.bound = true → s.stepCtx.sctx = x → n / 2 ^ 30 = 2 →
    (n % 2 ^ 30 < 256 → n % 2 ^ 30 ≠ s.stepCtx.rank / 1024 → lo = (r.pod (n % 2 ^ 30)).min.toNat ∧
      hi = 4 * (r.pod (n % 2 ^ 30)).nlive + 2 * b2n (r.pod (n % 2 ^ 30)).mem + b2n (r.pod (n % 2 ^ 30)).sil) ∧
    (n % 2 ^ 30 < 256 → n % 2 ^ 30 = s.stepCtx.rank / 1024 →
      let live := r.members.filter fun m => m.2.mem && !m.2.sil
      hi = 4 * live.length + 2 * b2n (r.members.any (·.2.mem)) + b2n (r.pod (n % 2 ^ 30)).sil ∧
        (live ≠ [] → (∃ m ∈ live, m.2.step.toNat = lo) ∧ ∀ m ∈ live, lo ≤ m.2.step.toNat)) ∧
    (256 ≤ n % 2 ^ 30 → lo = 0 ∧ hi = 0)
  all : s.stepCtx.bound = true → s.stepCtx.sctx = x → n / 2 ^ 30 = 3 →
    (n % 2 ^ 30 = 0 → liveSteps r (s.stepCtx.rank / 1024) ≠ [] → hi = liveMembers r (s.stepCtx.rank / 1024) ∧
      lo ∈ liveSteps r (s.stepCtx.rank / 1024) ∧ ∀ v ∈ liveSteps r (s.stepCtx.rank / 1024), lo ≤ v) ∧
    (n % 2 ^ 30 ≠ 0 → lo = 0 ∧ hi = 0)

/-- `steprd` and `colstat` (R371, R382) complete: the pair that the table of R382 gives, or the four words of R371, stand in the
destination, the slot has risen and fallen, and nothing else changes. -/
def Claims.StatusReads : Prop :=
  ∀ (p : Pfx) (d a : Operand) (sb : Fin 8) (e : Env) (s : State), e.x.sbCount sb.val < 63 →
    let x := s.ctxOf e.c e.x
    let n := e.opnd s a e.low 32
    (Runs (.steprd p d a sb) e s →
      ∃ t lo hi, exec (.steprd p d a sb) s = .next t ∧ AllGoOn e s t ∧ StepWords s x n (s.replica (quadrant e.c)) lo hi ∧
        ScalarResult e d 64 ((lo + 2 ^ 32 * hi) % 2 ^ 64) t ∧ t.slotCount e.c e.g sb.val = s.slotCount e.c e.g sb.val ∧ Untouched s t ∧
        ∀ k q, (t.lane k q).v = (s.lane k q).v ∧ (t.lane k q).p = (s.lane k q).p) ∧
    (Runs (.colstat p d a sb) e s →
      ∃ t v, exec (.colstat p d a sb) s = .next t ∧ AllGoOn e s t ∧ ScalarResult e d 128 v t ∧
        t.slotCount e.c e.g sb.val = s.slotCount e.c e.g sb.val ∧ Untouched s t ∧
        ((s.coll? (n % 64)).filter (·.ctx == x) = none → v = 0) ∧
        (∀ k tlo i0 i1, (s.coll? (n % 64)).filter (·.ctx == x) = some k →
          (k.insts = [] → tlo = k.next ∧ i0 = 0 ∧ i1 = 0) →
          (∀ i rest, k.insts = i :: rest → tlo = i.t ∧ i0 = i.st ∧ i1 = (k.insts.find? (·.t == i.t + 1)).elim 0 (·.st)) →
          v = tlo % 2 ^ 32 + 2 ^ 32 * ((i0 + 16 * i1 + 256 + 512 * b2n k.closing + 1024 * b2n k.broken) % 2 ^ 32) +
            2 ^ 64 * k.disc.toNat + 2 ^ 96 * k.mism.toNat) ∧
        ∀ k q, (t.lane k q).v = (s.lane k q).v ∧ (t.lane k q).p = (s.lane k q).p)

/-- STEPADV_NEED_ANNOUNCE (R378) completes: what a wait needs reaches the leader: at once where this module leads its pod, else as a message;
registers and memory stand. -/
def Claims.NeedsAreAnnounced : Prop :=
  ∀ (c g n : Nat) (step : BitVec 32) (s : State) (x : Group), s.group? c g = some x →
    (s.isStepCtx (s.ctxOf c x) = true → s.waitNeed c x = some n →
      ∃ t, exec (.stepadvNeedAnnounce true c g step) s = .next t ∧
        (s.leads = true → t = { s with stepCtx := { s.stepCtx with need := max s.stepCtx.need n } }) ∧
        (s.leads = false → t = { s with outbox := .need n :: s.outbox })) ∧
    exec (.stepadvNeedAnnounce false c g step) s =
      .next (if s.leads = true then { s with stepCtx := { s.stepCtx with need := max s.stepCtx.need step.toNat } } else s)

/-- `stepadv`, `steprd` and `colstat` (R371, R374, R377, R378, R381, R382). -/
def Obligations.StepsAdvance : Prop := Claims.StepAdvances ∧ Claims.StatusReads ∧ Claims.NeedsAreAnnounced

/-- DETM_COMMIT (R393, R394): the first due store of a team whose turn has come, of a line that no other team has read, is performed:
its bytes stand in memory, as R4 lets them, it is no longer staged, and registers stand. -/
def Obligations.StagedStoresCommit : Prop :=
  ∀ (grid n k : Nat) (s : State) (st : Staged) (pas : List Nat) (attr : Nat) (deps : List Nat), s.detTurn grid n = true →
    s.firstDue grid n = some st → st.pend = none → st.kind = .store k → st.acc.tgt = some (.home pas attr deps) → s.conflicts = [] →
    s.canWrite (linesOf pas) none (some st.grid) = true → (∀ a ∈ pas, inLinkRegs a = false) → st.acc.own = none → st.bytes.map (·.1) = pas → pas.Nodup →
    (∀ m ∈ s.mons, m.core ≠ st.core) → memoryOk s = true →
    ∃ t, exec (.detmCommit grid n) s = .next t ∧ t.transit = listDelFirst (· == st) s.transit ∧
      (∀ b ∈ st.bytes, t.mem.get b.1 = s.guardByte b.1 b.2) ∧ (∀ a, a ∉ st.bytes.map (·.1) → t.mem.get a = s.mem.get a) ∧ CoreStands st.core s t

/-- GEN_WAKE (R100, R101, R111) completes: after GEN has changed the walker reads its table: a FREE queue whose entry is enabled takes its
descriptor and its context, and is READY at the CUR of its descriptor. Stated for a table that names no other queue. -/
def Obligations.QueuesAreEnabled : Prop :=
  ∀ (die q : Nat) (s : State), s.life = .run → die < 24 → q < 32 → memoryOk s = true →
    s.homeRead (queueTable die + 0x200) 8 ≠ (s.walker die).gen →
    let desc := s.homeRead (queueTable die + 16 * q) 8
    let w := s.homeRead (queueTable die + 16 * q + 8) 8
    (s.queue die q).st = qFree → bitAt w 31 = true → tableBad desc w = false → desc ≠ 0 →
    (desc + 0x80 ≤ queueTable die ∨ queueTable die + 0x208 ≤ desc) →
    (∀ r, r < 32 → r ≠ q → (s.queue die r).st = qFree ∧ s.homeRead (queueTable die + 16 * r) 8 = 0) →
    ∃ t, exec (.genWake die) s = .next t ∧ (t.walker die).gen = s.homeRead (queueTable die + 0x200) 8 ∧
      (t.queue die q).st = qReady ∧ (t.queue die q).desc = desc ∧ (t.queue die q).ctx = fld w 0 6 ∧ (t.queue die q).prio = fld w 8 3 ∧
      (t.queue die q).en = true ∧ (t.queue die q).cur = s.homeRead (desc + 0x48) 8 ∧ QueueFrame desc 0 0 s t

/-- NODE_COND, NODE_LOOP, NODE_SIGNAL, NODE_END and QUEUE_LINK_ARRIVAL (R104, R106 to R109) complete: a COND goes on at NEXT or at ELSE
by its comparison; a LOOP counts in its node and goes on at BODY or at NEXT; a SIGNAL posts what its queue has written, writes its value
or adds it, sends its vector, and goes on; an END counts in DONE, but at the stub, and goes on at NEXT or is IDLE there; an IDLE queue
follows an END that has been linked. -/
def Obligations.NodesGoOn : Prop :=
  ∀ (die q : Nat) (s : State) (k : Queue) (w : List Nat),
    let u := s.beginNode die q
    (∀ pas, NodeAt die q 3 s k w → u.nodeXlate k.ctx (listGet 0 w 1) 4 .read = some pas →
      ∃ t, exec (.nodeCond die q) s = .next t ∧
        QueueGoes die q k (if nodeTest (fld (listGet 0 w 3) 32 2) (ofLe (u.homeBytes pas)) (fld (listGet 0 w 3) 0 32) = true
          then nodeNext w else listGet 0 w 2) qReady t ∧ QueueFrame k.desc 0 0 s t) ∧
    (NodeAt die q 4 s k w →
      ∃ t, exec (.nodeLoop die q) s = .next t ∧
        (listGet 0 w 2 = 2 ^ 32 - 1 ∨ listGet 0 w 3 < listGet 0 w 2 → QueueGoes die q k (listGet 0 w 1) qReady t ∧
          memNat t (k.cur + 24) 4 = (listGet 0 w 3 + 1) % 2 ^ 32) ∧
        (¬ (listGet 0 w 2 = 2 ^ 32 - 1 ∨ listGet 0 w 3 < listGet 0 w 2) → QueueGoes die q k (nodeNext w) qReady t ∧
          memNat t (k.cur + 24) 4 = 0) ∧ QueueFrame k.desc (k.cur + 24) 4 s t) ∧
    (∀ pas, NodeAt die q 6 s k w →
      let c := listGet 0 w 3
      let n := if bitAt c 2 then 8 else 4
      u.nodeXlate k.ctx (listGet 0 w 1) n (if fld c 0 2 = 1 then .readWrite else .write) = some pas → pas.Nodup →
      u.canWrite (linesOf pas) none = true → (∀ a ∈ pas, inLinkRegs a = false ∧ (a < k.desc + 0x48 ∨ k.desc + 0x60 ≤ a)) →
      ∃ t, exec (.nodeSignal die q) s = .next t ∧
        QueueGoes die q { k with sig := (linesOf pas).foldl (fun m l => m ||| sigOf l) 0 } (nodeNext w) qReady t ∧
        (∀ b ∈ pas.zip (leBytes n (listGet 0 w 2 + if fld c 0 2 = 1 then ofLe (pas.map u.softByte) else 0)),
          t.mem.get b.1 = u.guardByte b.1 b.2) ∧
        t.modBoard = s.modBoard.post k.sig ∧
        t.link = (if bitAt c 3 then (s.sendMsi (fld c 16 11)).link else s.link) ∧
        (∀ b, b ∉ pas → (b < k.desc + 0x48 ∨ k.desc + 0x60 ≤ b) → t.mem.get b = s.mem.get b)) ∧
    (NodeAt die q 15 s k w → inLinkRegs (k.desc + 0x50) = false →
      ∃ t, exec (.nodeEnd die q) s = .next t ∧
        (nodeNext w = 0 → QueueGoes die q k k.cur qIdle t) ∧ (nodeNext w ≠ 0 → QueueGoes die q k (nodeNext w) qReady t) ∧
        memNat t (k.desc + 0x50) 8 = (if k.cur = k.desc then memNat s (k.desc + 0x50) 8 else (memNat s (k.desc + 0x50) 8 + 1) % 2 ^ 64) ∧
        QueueFrame k.desc 0 0 s t) ∧
    (s.life = .run → s.expo.stopped = false → q < 32 → s.queue die q = k → k.st = qIdle → k.busy = none → k.desc ≠ 0 → memoryOk s = true →
      s.homeRead (k.desc + 0x40) 8 ≠ k.cur → nodeNext (s.nodeWords k.cur) ≠ 0 →
      ∃ t, exec (.queueLinkArrival die q) s = .next t ∧ QueueGoes die q k (nodeNext (s.nodeWords k.cur)) qReady t ∧ QueueFrame k.desc 0 0 s t)

/-- NODE_KERNEL, NODE_COPY, NODE_WAIT, NODE_COLL and NODE_EXPOSE (R105, R107, R108, R116) complete: the node starts; the queue is BUSY
with it, or goes on at NEXT where the node has NOWAIT; a KERNEL has launched its grid, a WAIT has ended if its condition holds, a COLL
close has begun, an EXPOSE has begun, or has done a CONFIG and goes on. -/
def Obligations.NodesStart : Prop :=
  ∀ (die q : Nat) (s : State) (k : Queue) (w : List Nat),
    let u := s.beginNode die q
    let run (typ : Nat) (g : Option Nat) (prog : Nat) (done : Bool) : NodeRun :=
      { node := k.cur, typ := typ, words := w, desc := k.desc, grid := g, prog := prog, done := done, since := s.clk.toNat }
    (∀ v g, NodeAt die q 1 s k w → u.launch k.ctx (listGet 0 w 1) k.prio true false (some (die, q, k.cur)) = (v, lOk, g) →
      ∃ t, exec (.nodeKernel die q) s = .next t ∧ t.grids = v.grids ∧ t.ctxs = v.ctxs ∧ (t.grid? g).isSome = true ∧
        (nodeNowait w = false ∨ (s.ctx k.ctx).detm = true → QueueRuns die q k (run 1 (some g) 0 false) t) ∧
        (nodeNowait w = true → (s.ctx k.ctx).detm = false →
          QueueGoes die q { k with nowait := k.nowait ++ [run 1 (some g) 0 false] } (nodeNext w) qReady t) ∧
        QueueFrame k.desc 0 0 s t) ∧
    (NodeAt die q 2 s k w → ∃ t, exec (.nodeCopy die q) s = .next t ∧
        (nodeNowait w = false → QueueRuns die q k (run 2 none 0 (listGet 0 w 3 == 0)) t) ∧
        (nodeNowait w = true → QueueGoes die q { k with nowait := k.nowait ++ [run 2 none 0 (listGet 0 w 3 == 0)] } (nodeNext w) qReady t) ∧
        QueueFrame k.desc 0 0 s t) ∧
    (∀ b, NodeAt die q 5 s k w → u.waitMet k.ctx w = some b →
      ∃ t, exec (.nodeWait die q) s = .next t ∧ QueueRuns die q k (run 5 none 0 b) t ∧ QueueFrame k.desc 0 0 s t) ∧
    (NodeAt die q 7 s k w → (u.openColl k.ctx (fld (listGet 0 w 1) 0 6)).isSome = true →
      (bitAt (listGet 0 w 1) 8 = false → u.waitClose k.ctx (fld (listGet 0 w 1) 0 6) (listGet 0 w 2) ≠ 2 →
        ∃ t, exec (.nodeColl die q) s = .next t ∧
          QueueRuns die q k (run 7 none (fld (listGet 0 w 1) 0 6) (u.waitClose k.ctx (fld (listGet 0 w 1) 0 6) (listGet 0 w 2) == 1)) t ∧
          QueueFrame k.desc 0 0 s t) ∧
      (bitAt (listGet 0 w 1) 8 = true → (s.ctx k.ctx).mode = true →
        ∃ t, exec (.nodeColl die q) s = .next t ∧ t.colls = (u.collClose (fld (listGet 0 w 1) 0 6) (.node die q)).colls ∧
          t.queue die q = { k with st := qBusy, busy := some (run 7 none (fld (listGet 0 w 1) 0 6) false) })) ∧
    (∀ v, NodeAt die q 8 s k w → (s.ctx k.ctx).mode = true →
      (u.exposeBegin k.ctx [listGet 0 w 1, listGet 0 w 2, listGet 0 w 3] (.node die q) = (v, none) →
        ∃ t, exec (.nodeExpose die q) s = .next t ∧ t.expo = v.expo ∧ QueueRuns die q k (run 8 none 0 false) t ∧ QueueFrame k.desc 0 0 s t) ∧
      (u.exposeBegin k.ctx [listGet 0 w 1, listGet 0 w 2, listGet 0 w 3] (.node die q) = (v, some eOk) →
        ∃ t, exec (.nodeExpose die q) s = .next t ∧ t.replicas = v.replicas ∧ QueueGoes die q k (nodeNext w) qReady t))

/-- NODE_COPY that goes on, NODE_WAIT_TIMEOUT and NODE_COMPLETION (R107, R108, R110) complete: a chunk of a COPY, up to the end of a line,
stands at its destination; a WAIT whose condition has not held by its limit faults its queue with Q.TIMEOUT; a KERNEL whose grid is
complete, a COPY that is done, whose writes are then posted, a WAIT whose condition holds or a COLL whose step is published lets its
queue go on at NEXT. -/
def Obligations.NodesEnd : Prop :=
  ∀ (die q : Nat) (s : State) (k : Queue) (r : NodeRun) (w : List Nat), s.life = .run → q < 32 → s.queue die q = k → k.busy = some r →
    w = r.words → k.st = qBusy → k.desc ≠ 0 → memoryOk s = true →
    (∀ src dst, r.typ = 2 → r.done = false → (∀ o ∈ k.nowait, o.typ = 2 → o.done = true) → s.ctxGone k.ctx = false →
      let n := min (listGet 0 w 3 - r.prog) (64 - (listGet 0 w 2 + r.prog) % 64)
      s.nodeXlate k.ctx (listGet 0 w 1 % 2 ^ 50 + r.prog) n .read = some src →
      s.nodeXlate k.ctx (listGet 0 w 2 % 2 ^ 50 + r.prog) n .write = some dst → dst.Nodup →
      s.canWrite (linesOf dst) none = true → (∀ a ∈ dst, inLinkRegs a = false) →
      ∃ t, exec (.nodeCopy die q) s = .next t ∧
        t.queue die q = { k with busy := some { r with prog := r.prog + n, done := decide (listGet 0 w 3 ≤ r.prog + n) }
                                 sig := (linesOf dst).foldl (fun m l => m ||| sigOf l) k.sig } ∧
        (∀ b ∈ dst.zip (s.softBytes src), t.mem.get b.1 = s.guardByte b.1 b.2) ∧ (∀ a, a ∉ dst → t.mem.get a = s.mem.get a)) ∧
    (r.typ = 5 → r.done = false → fld (listGet 0 w 3) 32 32 ≠ 0 → r.since + fld (listGet 0 w 3) 32 32 * 2400 ≤ s.clk.toNat →
      s.waitMet k.ctx w ≠ some true → (k.newDesc = 0 ∨ k.newDesc = k.desc) →
      ∃ t, exec (.nodeWaitTimeout die q) s = .next t ∧ (t.queue die q).busy = none ∧
        (t.queue die q).st = (if k.newDesc = 0 then qFree else qFaulted) ∧ memNat t (k.desc + 0x58) 1 = qTimeout ∧
        memNat t (k.desc + 0x5C) 4 = qFaulted ∧ QueueFrame k.desc 0 0 s t) ∧
    (k.en = true → (r.typ = 1 ∧ (∃ g, r.grid = some g ∧ s.grid? g = none) ∨ r.typ = 2 ∧ r.done = true ∨
        r.typ = 5 ∧ (r.done = true ∨ s.ctxGone k.ctx = false ∧ s.waitMet k.ctx w = some true) ∨
        r.typ = 7 ∧ bitAt (listGet 0 w 1) 8 = false ∧ (r.done = true ∨ s.waitClose k.ctx r.prog (listGet 0 w 2) = 1)) →
      ∃ t, exec (.nodeCompletion die q r.node) s = .next t ∧
        QueueGoes die q { k with sig := if r.typ = 2 then 0 else k.sig } (nodeNext w) qReady t ∧
        (r.typ = 2 → t.modBoard = s.modBoard.post k.sig) ∧ QueueFrame k.desc 0 0 s t)

/-- RANGE_HAND_DOWN, RANGE_STEAL and GBAR_GRID_PLACEMENT (R119 to R121, R253): the module distributor hands the lowest teams that it has
not handed down to a die distributor with room, and that one to a cluster distributor; a distributor without teams takes the upper half
of the most loaded sibling's range; a GBAR grid that waits, none of whose teams is saved, is placed, with its record, once the free
capacity holds its teams and no other placed grid waits for its own. Nothing else changes. -/
def Obligations.RangesMove : Prop :=
  (∀ (die id : Nat) (g : Grid) (s : State), die < 24 → rangeCount (s.dieR die) < 8 → s.expo.stopped = false →
    s.nextGridDown = some (id, g) → s.grid? id = some g →
    exec (.rangeHandDown die none) s = .next { s with
      grids := tabSet s.grids id { g with lo := g.lo + s.handCount g },
      dieRanges := tabSet s.dieRanges die
        (s.dieR die ++ [{ grid := id, lo := g.lo, hi := g.lo + s.handCount g, prio := s.gridPrio g }]) }) ∧
  (∀ (die k : Nat) (r : Range) (s : State), die < 24 → k < 4 → rangeCount (s.cluR (die * 4 + k)) < 2 → s.expo.stopped = false →
    let mine := (s.dieR die).filter fun r => (s.grid? r.grid).any (·.cs == 1)
    s.bestRange mine = some r →
    let n := min (r.hi - r.lo) (max 1 (ceilDiv (rangeCount (s.dieR die)) 4))
    exec (.rangeHandDown die (some k)) s = .next { s with
      dieRanges := tabSet s.dieRanges die (takeLow (s.dieR die) r n),
      cluRanges := tabSet s.cluRanges (die * 4 + k) (s.cluR (die * 4 + k) ++ [{ r with hi := r.lo + n }]) }) ∧
  (∀ (die v : Nat) (r : Range) (s : State), die < 24 → v < 24 → v ≠ die → s.dieR die = [] → s.nextGridDown = none → s.expo.stopped = false →
    MostLoaded s s.dieR v ((natRange 0 24).filter (· != die)) → s.victimRange (s.dieR v) = some r → 0 < halfRange s r →
    exec (.rangeSteal die none v) s = .next { s with
      dieRanges := tabSet (tabSet s.dieRanges v (takeHigh (s.dieR v) r (halfRange s r))) die [{ r with lo := r.hi - halfRange s r }] }) ∧
  (∀ (die k v : Nat) (r : Range) (s : State), die < 24 → k < 4 → v < 4 → v ≠ k → s.cluR (die * 4 + k) = [] → s.expo.stopped = false →
    (∀ q ∈ s.dieR die, s.rangeLive q = true → (s.grid? q.grid).any (·.cs == 1) = false) → MostLoaded s (fun j => s.cluR (die * 4 + j)) v ((natRange 0 4).filter (· != k)) →
    s.victimRange (s.cluR (die * 4 + v)) = some r → 0 < halfRange s r →
    exec (.rangeSteal die (some k) v) s = .next { s with
      cluRanges := tabSet (tabSet s.cluRanges (die * 4 + v) (takeHigh (s.cluR (die * 4 + v)) r (halfRange s r))) (die * 4 + k)
        [{ r with lo := r.hi - halfRange s r }] }) ∧
  (∀ (id : Nat) (g : Grid) (s : State), s.grid? id = some g → g.gbar = true → g.placed = false → (s.ctx g.ctx).state = .active →
    (s.grids.filter fun q => q.2.placed && q.2.rec_.isSome).length < 64 → s.unplaced id g ≤ s.freeCapacity g → s.expo.stopped = false →
    s.reserved id = false → g.rec_ = none → (∀ k, k < (s.ctx g.ctx).saved.toNat → imgGrid s (s.image g.ctx k) ≠ id) →
    exec (.gbarGridPlacement id) s = .next { s with
      grids := tabSet s.grids id { g with placed := true, rec_ := some { emptyRec with exp := g.n * g.teamLanes } } })

/-- TEAM_ADMISSION (R119, R122, R123, R182, R253): a core with room admits the next team of its cluster distributor: its scratchpad reads
zero, each of its groups has the argument address, the team number and its index in s0 to s3, every lane stands at the entry with empty
registers. -/
def Claims.TeamsAreAdmitted : Prop :=
  ∀ (c : Nat) (s : State) (r : Range) (g : Grid) (room : Room), c < 576 → s.life = .run → s.expo.stopped = false →
    (∀ q ∈ (s.core c).teams, q.2.state ≠ .parked) → s.bestRange (s.cluR (clusterOf c)) = some r → s.grid? r.grid = some g →
    s.reserved r.grid = false → s.roomFor c g = some room →
    ∃ t tm, exec (.teamAdmission c) s = .next t ∧ t.cluR (clusterOf c) = takeLow (s.cluR (clusterOf c)) r 1 ∧
      t.team? c room.place = some tm ∧ tm.grid = r.grid ∧ tm.n = r.lo ∧ tm.ctx = g.ctx ∧ tm.base = room.scr ∧ tm.size = g.scratch ∧
      tm.prio = r.prio ∧ tm.state = .active ∧ tm.sems = [] ∧ tm.banks = [] ∧
      tm.recs[0]? = some { emptyRec with exp := g.teamLanes } ∧
      (∀ a, room.scr ≤ a → a < room.scr + g.scratch → (t.core c).scratch.get a = 0) ∧
      (∀ q ∈ (natRange 0 g.groups).zip (room.bases.zip room.gctx), ∃ y, t.group? c q.2.2 = some y ∧ y.gbase = q.2.1 ∧ y.gwid = g.width ∧
        y.grpix = q.1 ∧ y.role = g.role q.1 ∧ y.place = room.place ∧ y.ftv = (s.ctx g.ctx).ftvd.setWidth 32 ∧ y.sbClear = true ∧
        regsGet y.scal 0 2 = g.args.toNat ∧ regGet y.scal 2 = BitVec.ofNat 32 r.lo ∧ regGet y.scal 3 = BitVec.ofNat 32 q.1 ∧
        (∀ i, 4 ≤ i → regGet y.scal i = 0) ∧
        ∀ l, l < g.width → t.lane c (q.2.1 + l) = newLane (g.kimg + g.entry) (q.1 * g.width + l)) ∧
      (∀ h y, s.group? c h = some y → y.inFuse = false → t.group? c h = some y) ∧ t.mem = s.mem

/-- TEAM_EXIT (R124): a team whose groups are gone, with nothing of its core on the way, leaves its place; its grid counts it, and a grid
without an address to count at ends with its last team. -/
def Claims.TeamsExit : Prop :=
  ∀ (c place : Nat) (s : State) (tm : Team) (g : Grid), s.team? c place = some tm → tm.state = .active → Quiet s c →
    (∀ q ∈ (s.core c).groups, q.2.place ≠ place) → s.grid? tm.grid = some g →
    ((insSorted tm.n g.gone).length ≠ g.n →
      ∃ t h, exec (.teamExit c place) s = .next t ∧ t.team? c place = none ∧ t.grid? tm.grid = some h ∧ h.gone = insSorted tm.n g.gone ∧
        h.compl = g.compl ∧ t.ctxs = s.ctxs ∧ t.mem = s.mem ∧ LanesStand s t) ∧
    ((insSorted tm.n g.gone).length = g.n → g.compl = 0 → (s.grids.map (·.1)).Nodup → (∀ h ∈ s.grids, h.1 ≠ tm.grid → h.2.ctx ≠ g.ctx) →
      g.ctx < 64 → (s.ctx g.ctx).state = .active → (s.ctx g.ctx).saved = 0 →
      ∃ t, exec (.teamExit c place) s = .next t ∧ t.team? c place = none ∧ t.grid? tm.grid = none ∧ (t.ctx g.ctx).state = .loaded ∧
        t.mem = s.mem ∧ LanesStand s t)

/-- Admission and the end of a team (R119, R122 to R124, R182, R253). -/
def Obligations.TeamsComeAndGo : Prop := Claims.TeamsAreAdmitted ∧ Claims.TeamsExit

/-- TEAM_PARK and TEAM_UNPARK (R125, R126): where resources lack, the one team of a core whose groups all wait is parked: its scratchpad
bytes stand in its park slot and read zero in the core, and its groups keep no context. A parked team that is ready returns when there
is room: its scratchpad bytes stand again, and its groups, with their registers, wait in the contexts they are given. -/
def Obligations.TeamsParkAndReturn : Prop :=
  ∀ (c j : Nat) (s : State) (tm : Team), (s.core c).teams = [(j, tm)] → memoryOk s = true → s.expo.stopped = false →
    ((s.core c).groups.map (·.1)).Nodup → tm.size ≤ 2 ^ 22 →
    (s.lacksRoom c = true → s.parkable c j tm = true → (∀ l ∈ (s.core c).lanes, l.2.rln < 8192) → (s.teamGroups c j).length ≤ 512 →
      (∀ g, s.grid? tm.grid = some g → g.vregs ≤ 64) →
      ∃ t um, exec (.teamPark c) s = .next t ∧ t.team? c j = some um ∧ um.state = .parked ∧ um.sems = tm.sems ∧ um.recs = tm.recs ∧
        (∀ i, i < tm.size → t.mem.get (parkSlot c j + 0x200000 + i) = (s.core c).scratch.get (tm.base + i) ∧
          (t.core c).scratch.get (tm.base + i) = 0) ∧
        (∀ q ∈ (natRange 0 (s.teamGroups c j).length).zip (s.teamGroups c j), ∃ y, t.group? c (512 + 1024 * j + q.1) = some y ∧
          y.state = .parked ∧ y.scal = q.2.2.scal ∧ y.gst = q.2.2.gst ∧ y.sb = q.2.2.sb)) ∧
    (∀ k room, tm.state = .parked → tm.ready = some k → (s.ctx tm.ctx).state = .active → s.parkRoom c j tm = some room →
      s.reserved tm.grid = false → (s.core c).pend = [] →
      ∃ t um, exec (.teamUnpark c j) s = .next t ∧ t.team? c j = some um ∧ um.state = .active ∧ um.ready = none ∧ um.base = room.scr ∧
        um.sems = tm.sems ∧ um.recs = tm.recs ∧
        (∀ i, i < tm.size → (t.core c).scratch.get (room.scr + i) = s.mem.get (parkSlot c j + 0x200000 + i)) ∧
        (∀ q ∈ (s.teamGroups c j).zip room.gctx, ∃ y, t.group? c q.2 = some y ∧ y.state = .wait ∧ y.scal = q.1.2.scal ∧
          y.gst = q.1.2.gst ∧ y.sb = q.1.2.sb) ∧ t.mem = s.mem)

/-- TEAM_RESTORE and DLN_EXPIRY (R90, R127, R337, R338): a directory entry of an ACTIVE context whose image is consistent, of a grid of
single teams, gives a core with room its team back, and is consumed; a group at a clause boundary of a STOPPING context whose deadline
has passed is saved in full. -/
def Obligations.TeamsAreSavedAndRestored : Prop :=
  (∀ (x k c : Nat) (s : State) (g : Grid) (room : Room), x < 64 → (s.ctx x).state = .active → (s.ctx x).detm = false →
    k < (s.ctx x).saved.toNat → c < 576 → s.expo.stopped = false → s.imgGridOf x (s.image x k) = some g → g.cs = 1 → g.gbar = false →
    (∀ e ∈ s.clusterEntries x (s.image x k) g, e.1 = k) → s.imgBad (s.image x k) g = false →
    s.restoreRoom c (s.image x k) g = some room → s.reserved (imgGrid s (s.image x k)) = false →
    ∃ t tm h, exec (.teamRestore x k c) s = .next t ∧ (t.ctx x).saved = (s.ctx x).saved - 1 ∧ t.team? c room.place = some tm ∧ tm.ctx = x ∧
      tm.grid = imgGrid s (s.image x k) ∧ tm.n = imgTeam s (s.image x k) ∧ tm.base = room.scr ∧ tm.size = g.scratch ∧
      t.grid? tm.grid = some h ∧ h.kimg = g.kimg) ∧
  (∀ (x c g h : Nat) (s : State) (k : Core) (tm : Team) (a b : Group), (s.ctx x).state = .stopping → s.pastDln x = true → s.cores = [(c, k)] →
    k.teams = [(a.place, tm)] → tm.ctx = x → k.groups = [(g, a), (h, b)] → g ≠ h → a.gbase ≠ b.gbase → b.place = a.place → k.cmds = [] → s.saveReady c g = true →
    (∀ q ∈ k.pend, q.2.ctx = g → ∀ e ∈ q.2.accs, e.st ≠ 5) → a.state = .run → a.cur = none → a.nextClk ≤ s.clk.toNat → b.state = .run → b.cur = none → s.clk.toNat < b.nextClk →
    ∃ t, exec (.dlnExpiry x) s = .next t ∧
      t.group? c g = some { a with state := .saved, live := 2 ^ 64 - 1, full := true, ranges := [] } ∧ t.group? c h = some b ∧
      (t.ctx x).state = .stopping ∧ LanesStand s t ∧ Untouched s t)

/-- ZENITH_INTERVAL (R273): at the end of an interval, a context of which a clause issued, or that is not ACTIVE, counts from zero
again; one whose every group waited throughout counts one more, below its limit. -/
def Obligations.ZenithCounts : Prop :=
  ∀ (x : Nat) (s : State), x < 64 → s.clk.toNat % 1024 = 0 → (s.ctx x).zclk < s.clk.toNat / 1024 →
    ((s.ctx x).zissued = true ∨ (s.ctx x).state ≠ .active →
      ∃ t, exec (.zenithInterval x) s = .next t ∧ (t.ctx x).zcount = 0 ∧ (t.ctx x).zissued = false ∧
        (t.ctx x).zclk = s.clk.toNat / 1024 ∧ (∀ y, y ≠ x → t.ctx y = s.ctx y) ∧ LanesStand s t ∧ t.mem = s.mem) ∧
    (let u := s.cores.foldl (fun s k => s.refresh k.1 s.clk.toNat) s
     (s.ctx x).zissued = false → (s.ctx x).state = .active → (s.ctx x).zcount + 1 < (s.ctx x).zwt.toNat → u.ctxGroups x ≠ [] →
      (∀ q ∈ u.ctxGroups x, u.waitedInterval q.1 q.2.1 q.2.2 = true) →
      ∃ t, exec (.zenithInterval x) s = .next t ∧ (t.ctx x).zcount = (s.ctx x).zcount + 1 ∧ (t.ctx x).zissued = false ∧
        (t.ctx x).zclk = s.clk.toNat / 1024 ∧ (∀ y, y ≠ x → t.ctx y = s.ctx y) ∧ LanesStand s t ∧ t.mem = s.mem)

/-- PSTAT_WRITE, PORT_SIGNAL_DETECT, PORT_TRAINING_DONE, PORT_LANE_LOST and PORT_ERROR_LIMIT (R350) complete: the states of a port.
The host reaches PSTAT while the PCIe port is UP or DEGRADED; EN = 0 holds the port DOWN; RETRAIN trains it again; a signal starts training; training ends UP at full width, DEGRADED below it, and FAILED at the third
failure; a lost lane trains again; 17 uncorrectable errors, the clocks of the newest first, within one millisecond (2,400,000
clocks) fail it. -/
def Claims.PortsChangeState : Prop :=
  ∀ (p : Nat) (s : State), p < 45 → s.life ≠ .off →
    let q := s.link.port p
    ((s.link.port 44).st = 2 ∨ (s.link.port 44).st = 3 → ∀ x : DWord, ∃ t, exec (.pstatWrite p x) s = .next t ∧
      (x.getLsbD 0 = false → PortGoes p { q with en := false, st := 0, lanes := 0, fails := 0, retrain := false } s t) ∧
      (x.getLsbD 0 = true → x.getLsbD 1 = true → 2 ≤ q.st →
        PortGoes p { q with en := true, st := 1, lanes := 0, fails := 0, retrain := true, errs := [] } s t) ∧
      (x.getLsbD 0 = true → (x.getLsbD 1 = false ∨ q.st < 2) → PortGoes p { q with en := true } s t)) ∧
    (q.en = true → q.st = 0 → ∃ t, exec (.portSignalDetect p) s = .next t ∧ PortGoes p { q with st := 1, fails := 0 } s t) ∧
    (∀ n, q.st = 1 → ∃ t, exec (.portTrainingDone p n) s = .next t ∧
      (n = 0 → PortGoes p { q with fails := q.fails + 1, st := if q.fails < 2 then 1 else 4, lanes := 0 } s t) ∧
      (0 < n →
        let full := if p = 44 then 16 else 4
        PortGoes p { q with st := if full ≤ n then 2 else 3, lanes := min n full, fails := 0, retrain := false } s t)) ∧
    (2 ≤ q.st → ∃ t, exec (.portLaneLost p) s = .next t ∧ PortGoes p { q with st := 1, lanes := 0, fails := 0 } s t) ∧
    (∀ newest oldest, 1 ≤ q.st → q.st ≤ 3 → q.errs.head? = some newest → q.errs[16]? = some oldest → newest < oldest + 2400000 →
      ∃ t, exec (.portErrorLimit p) s = .next t ∧ PortGoes p { q with st := 4, lanes := 0, errs := [] } s t)

/-- FEC_CODEWORD_EVENT, PODIX_ASSIGNMENT, WINDOW_ANNOUNCEMENT, MSIX_PENDING_SEND and LINK_REGISTER_WRITE (R344, R345, R347, R351): a
codeword counts in its counter; firmware's index and a member's window are taken; a pending vector is sent once PCIe is UP; a write of
PEERCTX or of the export window, by the host or by the oldest store of a core, takes effect. Nothing else changes. -/
def Claims.LinkRegistersChange : Prop :=
  ∀ (s : State), s.life ≠ .off →
    (∀ p ev, p < 45 →
      let q := s.link.port p
      ∃ t, exec (.fecCodewordEvent p ev) s = .next t ∧ (∀ r, r ≠ p → t.link.port r = s.link.port r) ∧
        { t with link := { t.link with ports := s.link.ports } } = s ∧
        (t.link.port p).corr = q.corr + (if ev = .corrected then 1 else 0) ∧
        (t.link.port p).uncorr = q.uncorr + (if ev = .uncorrected then 1 else 0) ∧
        (t.link.port p).replay = q.replay + (if ev = .retransmitted then 1 else 0) ∧
        (t.link.port p).drop = q.drop ∧ (t.link.port p).st = q.st) ∧
    (∀ n, exec (.podixAssignment n) s = .next { s with link := { s.link with pv := true, podix := n.val } }) ∧
    (∀ m lg, m < 1024 →
      exec (.windowAnnouncement m lg) s = .next { s with link := { s.link with peerlog := tabSet s.link.peerlog m lg.val } }) ∧
    (∀ v, s.link.msixPend.contains v = true → (s.link.port 44).st = 2 →
      ∃ t a d, exec (.msixPendingSend v) s = .next t ∧ t.link.msixPend = s.link.msixPend.filter (· != v) ∧
        t.link.msixSent = (v, a, d) :: s.link.msixSent ∧ a = ofLe (s.link.msixTable.read (16 * v) 8) ∧
        d = ofLe (s.link.msixTable.read (16 * v + 8) 4) ∧
        { t with link := { t.link with msixPend := s.link.msixPend, msixSent := s.link.msixSent } } = s) ∧
    (s.hostGone = false → ∀ x, exec (.linkRegisterWrite (.host 8 x true)) s = .next { s with link := { s.link with peerctx := x } }) ∧
    (s.hostGone = false → ∀ x, ∃ t, exec (.linkRegisterWrite (.host 0x10 x true)) s = .next t ∧ t.link.expbase = fld x.toNat 30 12 ∧
      t.link.explog = fld x.toNat 0 4 ∧
      { t with link := { t.link with expbase := s.link.expbase, explog := s.link.explog, sent := s.link.sent } } = s) ∧
    (∀ c id f, tabGet? (s.core c).flights id = some f → f.line = 0x1000 / 64 → f.bytes.length = 8 → (f.bytes.map (·.1)) = natRange 8 8 →
      (∀ q ∈ (s.core c).flights, q.1 < id → q.2.line ≠ f.line) →
      ∃ t, exec (.linkRegisterWrite (.flight c id)) s = .next t ∧ t.link.peerctx.toNat = ofLe (f.bytes.map (·.2)) ∧
        { t.link with peerctx := s.link.peerctx } = s.link ∧ tabGet? (t.core c).flights id = none ∧ t.mem = s.mem ∧ LanesStand s t)

/-- Ports and link registers (R344, R345, R347, R350, R351). -/
def Obligations.PortsAndLinkRegisters : Prop := Claims.PortsChangeState ∧ Claims.LinkRegistersChange

/-- HOST_BAR_READ (R209, R345) completes: a read of device memory in RUN or HALT, after the host's posted writes, answers the bytes that
software reads there (R4); one that meets a hole of BAR2 or an unopened BAR2 answers Unsupported Request; a read of BAR0 answers the
registers, PEERCTX and the MSI-X table among them. The signature of the posted writes is posted first; nothing else changes. -/
def Claims.HostReads : Prop :=
  ∀ (s : State) (o n : Nat), s.hostGone = false →
    (s.life = .run ∨ s.life = .halt → (∀ a ∈ natRange o n, barHole a = false) →
      ∃ t, exec (.hostBarRead false o n) s = .next t ∧ t.hostReply = some (some ((natRange o n).map s.softByte)) ∧ t.link.hostSig = 0 ∧
        (s.link.hostSig ≠ 0 → t.modBoard = s.modBoard.post s.link.hostSig) ∧ (s.link.hostSig = 0 → t.modBoard = s.modBoard) ∧
        { t with hostReply := s.hostReply, modBoard := s.modBoard, link := s.link } = s) ∧
    ((s.life ≠ .run ∧ s.life ≠ .halt) ∨ (∃ a ∈ natRange o n, barHole a = true) →
      exec (.hostBarRead false o n) s = .next { s with hostReply := some none }) ∧
    ∃ t bs, exec (.hostBarRead true o n) s = .next t ∧ t.hostReply = some (some bs) ∧ bs.length = n ∧ t.link.hostSig = 0 ∧
      (o = 0 → n = 8 → bs = leBytes 8 (b2n s.link.pv * 2 ^ 10 + s.link.podix % 1024)) ∧
      (o = 8 → n = 8 → bs = leBytes 8 s.link.peerctx.toNat) ∧
      (0x8000 ≤ o → o + n ≤ 0x10000 → bs = s.link.msixTable.read (o - 0x8000) n) ∧
      (s.link.hostSig ≠ 0 → t.modBoard = s.modBoard.post s.link.hostSig) ∧ (s.link.hostSig = 0 → t.modBoard = s.modBoard) ∧
      { t with hostReply := s.hostReply, modBoard := s.modBoard, link := s.link } = s

/-- HOST_BAR_WRITE (R209, R345, R405) completes: a posted write of device memory stands at its home, as R4 lets it, and in the host's
signature; in RECOVERY the staging window takes it; one that meets a hole is discarded, and DROP of the PCIe port counts it. -/
def Claims.HostWrites : Prop :=
  ∀ (s : State) (o : Nat) (bs : List Byte), memoryOk s = true → s.hostGone = false →
    (s.life = .run ∨ s.life = .halt → (∀ a ∈ natRange o bs.length, barHole a = false) →
      s.canWrite (linesOf (natRange o bs.length)) none = true →
      ∃ t, exec (.hostBarWrite o bs) s = .next t ∧ BytesWritten ((natRange o bs.length).zip bs) s t ∧
        (∀ l ∈ linesOf (natRange o bs.length), sigHas t.link.hostSig l = true) ∧ t.hostReply = s.hostReply) ∧
    (s.life = .recovery → o + bs.length ≤ 0x4000000 →
      ∃ t, exec (.hostBarWrite o bs) s = .next t ∧ t.root.staging.read o bs.length = bs ∧
        (∀ a, a < o ∨ o + bs.length ≤ a → t.root.staging.get a = s.root.staging.get a) ∧
        { t with root := { t.root with staging := s.root.staging } } = s) ∧
    (s.life = .run → (∃ a ∈ natRange o bs.length, barHole a = true) →
      ∃ t, exec (.hostBarWrite o bs) s = .next t ∧ (t.link.port 44).drop = (s.link.port 44).drop + 1 ∧ t.mem = s.mem ∧ LanesStand s t)

/-- HOST_ATOMICOP (R209, R344) completes: an AtomicOp of 4 or 8 bytes in device memory answers the old value and leaves the new one;
one of another size, 128-bit CAS among them, or at a hole, or misaligned, answers Unsupported Request and changes nothing. -/
def Claims.HostAtomics : Prop :=
  ∀ (s : State) (op : HostOp) (n pa : Nat) (x y : DWord), memoryOk s = true → s.hostGone = false →
    (n = 4 ∨ n = 8 → s.life = .run ∨ s.life = .halt → (∀ a ∈ natRange pa n, barHole a = false) → pa % n = 0 →
      s.canWrite (linesOf (natRange pa n)) none = true →
      let old := ofLe ((natRange pa n).map s.softByte)
      let new := match op with
        | .fetchAdd => some ((old + x.toNat) % 2 ^ (8 * n))
        | .swap => some (x.toNat % 2 ^ (8 * n))
        | .cas => if old = x.toNat % 2 ^ (8 * n) then some (y.toNat % 2 ^ (8 * n)) else none
      ∃ t, exec (.hostAtomicop op n pa x y) s = .next t ∧ t.hostReply = some (some (leBytes n old)) ∧
        (∀ v, new = some v → BytesWritten ((natRange pa n).zip (leBytes n v)) s t) ∧ (new = none → t.mem = s.mem)) ∧
    ((n ≠ 4 ∧ n ≠ 8) ∨ (s.life ≠ .run ∧ s.life ≠ .halt) ∨ (∃ a ∈ natRange pa n, barHole a = true) ∨ pa % n ≠ 0 →
      exec (.hostAtomicop op n pa x y) s = .next { s with hostReply := some none })

/-- REGISTER_WRITE (R4, R345, R347, R351) completes: through BAR0 the MSI-X table takes bytes, PEERCTX and the counters of a port take a
whole word, and the read-only registers discard it; at a physical address the bytes stand as the register map there lets them. -/
def Claims.RegistersAreWritten : Prop :=
  ∀ (s : State) (a : Nat) (x : DWord) (w64 : Bool), memoryOk s = true → s.hostGone = false →
    let n := if w64 then 8 else 4
    a % n = 0 →
    (0x8000 ≤ a → a + n ≤ 0x10000 → ∃ t, exec (.registerWrite true a x w64) s = .next t ∧
      t.link.msixTable.read (a - 0x8000) n = leBytes n x.toNat ∧ { t with link := { t.link with msixTable := s.link.msixTable } } = s) ∧
    (a = 8 → w64 = true → exec (.registerWrite true a x w64) s = .next { s with link := { s.link with peerctx := x } }) ∧
    (0x400 ≤ a → a < 0x400 + 32 * 45 → w64 = true → ∃ t, exec (.registerWrite true a x w64) s = .next t ∧ t.link.read a 8 = x.toNat ∧
      { t with link := { t.link with ports := s.link.ports } } = s) ∧
    (a < 8 ∨ 0xC00 ≤ a ∧ a < 0x1000 → exec (.registerWrite true a x w64) s = .next s) ∧
    ((∀ b ∈ natRange a n, barHole b = false) → s.canWrite [a / 64] none = true →
      ∃ t, exec (.registerWrite false a x w64) s = .next t ∧ BytesWritten ((natRange a n).zip (leBytes n x.toNat)) s t)

/-- The host's accesses (R4, R209, R344, R345, R347, R405). -/
def Obligations.HostAccesses : Prop := Claims.HostReads ∧ Claims.HostWrites ∧ Claims.HostAtomics ∧ Claims.RegistersAreWritten

/-- POD_PEER_REQUEST, POD_FLUSH and POD_PEER_TIMEOUT (R210, R344, R346 to R348) complete. On a port that is UP or DEGRADED a member's
read of at most 256 bytes of the window is answered with its bytes, its write stands at EXPBASE + o and is acknowledged, its atomic
answers the old value; a request outside the window counts as dropped, and a longer one is refused; a flush posts the member's writes
before it is acknowledged; a load that is not answered in 16 µs, 38,400 clocks, ends with T.POISON deferred, and DROP of the port that
carried it counts it. -/
def Obligations.PodPeersAreServed : Prop :=
  ∀ (s : State), memoryOk s = true →
    (∀ m port ofs n, s.life = .run → port < 36 → (s.link.port port).st = 2 ∨ (s.link.port port).st = 3 →
      (∀ pas, n ≤ 256 → s.link.export ofs n = some pas → (∀ a ∈ pas, inLinkRegs a = false ∧ a ∉ s.poison) →
        exec (.podPeerRequest m port ofs (.read n)) s =
          .next { s with link := { s.link with sent := (2, m, ofLe (pas.map s.softByte)) :: s.link.sent } }) ∧
      (∀ bs bad pas, bs.length ≤ 256 → s.link.export ofs bs.length = some pas → (∀ a ∈ pas, inLinkRegs a = false) →
        s.canWrite (linesOf pas) none = true →
        ∃ t, exec (.podPeerRequest m port ofs (.write bs bad)) s = .next t ∧ BytesWritten (pas.zip bs) s t ∧
          t.link.sent = (4, m, 0) :: s.link.sent ∧ (∀ l ∈ linesOf pas, sigHas (tabGet 0 t.link.peerSigs m) l = true)) ∧
      (∀ ty pas x, s.link.export ofs (tyWidth ty / 8) = some pas →
        (∀ a ∈ pas, inLinkRegs a = false ∧ a ∉ s.poison) → s.canWrite (linesOf pas) none = true →
        ∃ t, exec (.podPeerRequest m port ofs (.atom .exch ty x)) s = .next t ∧
          BytesWritten (pas.zip (leBytes (tyWidth ty / 8) x.toNat)) s t ∧ t.link.sent = (2, m, ofLe (pas.map s.softByte)) :: s.link.sent) ∧
      (n ≤ 256 → s.link.export ofs n = none →
        ∃ t, exec (.podPeerRequest m port ofs (.read n)) s = .next t ∧ t.link.sent = (3, m, 0) :: s.link.sent ∧
          (t.link.port port).drop = (s.link.port port).drop + 1 ∧ t.mem = s.mem) ∧
      (256 < n → exec (.podPeerRequest m port ofs (.read n)) s =
        .next { s with link := { s.link with sent := (5, m, 0) :: s.link.sent } })) ∧
    (∀ m, s.life = .run →
      ∃ t, exec (.podFlush m) s = .next t ∧ t.link.sent = (4, m, 0) :: s.link.sent ∧
        (tabGet 0 s.link.peerSigs m ≠ 0 → t.modBoard = s.modBoard.post (tabGet 0 s.link.peerSigs m)) ∧ t.mem = s.mem ∧ LanesStand s t) ∧
    (∀ c id pos port p a m o w ro x, (a.port.getD (port % 36)) < 45 → tabGet? (s.core c).pend id = some p →
      (p.accs.find? fun a => a.pos == pos && a.st == 0) = some a → a.tgt = some (.peer m o) → a.clk + 38400 ≤ s.clk.toNat →
      (p.accs.map (·.pos)).Nodup → p.kind = .load w ro → p.slot.isSome = true → s.group? c p.ctx = some x →
      ∃ t y d, exec (.podPeerTimeout c id pos port) s = .next t ∧ t.group? c p.ctx = some y ∧ y.deferred = x.deferred ++ [d] ∧
        d.code = tPoison ∧ d.lanes = [pos] ∧
        (t.link.port (a.port.getD (port % 36))).drop = (s.link.port (a.port.getD (port % 36))).drop + 1 ∧
        ∀ q, tabGet? (t.core c).pend id = some q → ∀ b ∈ q.accs, b.pos ≠ pos)

/-- COLLECTIVE_ARRIVAL (R359, R362, R368): when every chunk of the own contribution is in, its block exponents are sent and the member
arrives; the coordinator that then holds the quorum closes the pass, while no message is held; after the close the member is late, and its
packed blocks are on their way to the chunk roots. -/
def Claims.MembersArrive : Prop :=
  ∀ (h t : Nat) (s : State) (c : Coll) (i : Inst), InstAt h t c i s → s.expo.stopped = false → s.memberOk h = true →
    c.params.nch ≤ i.chunks.length → i.poisonedOwn = false → (∀ k ∈ i.arrived, k.pos ≠ c.own) →
    let own : Contrib := { pos := c.own, exps := i.ownExps c.params, mants := [] }
    (i.st = 1 → c.held = [] → s.coordinates h c i = false →
      ∃ u, exec (.collectiveArrival h t) s = .next u ∧
        InstGoes h t c { i with arrived := i.arrived ++ [own], firstArr := some (i.firstArr.getD s.clk.toNat) } s u ∧
        u.outbox = .coll { handle := h, params := c.params, step := t, poisoned := false, body := .exponents c.own own.exps } :: s.outbox) ∧
    (i.st = 1 → c.held = [] → s.coordinates h c i = true → i.quorum ≤ i.arrived.length + 1 →
      ∃ u, exec (.collectiveArrival h t) s = .next u ∧ PassCloses h t c i (i.arrived ++ [own]) false s u) ∧
    (i.st ≠ 1 →
      let late : Contrib := { (i.packAt c.params own.exps).1 with pos := c.own }
      ∃ u, exec (.collectiveArrival h t) s = .next u ∧
        InstGoes h t c { i with arrived := i.arrived ++ [own], ownLate := some late } s u ∧
        u.outbox = .coll { handle := h, params := c.params, step := t, poisoned := false, body := .late c.own (late.exps.zip late.mants) } ::
          .coll { handle := h, params := c.params, step := t, poisoned := false, body := .exponents c.own own.exps } :: s.outbox)

/-- EXPONENT_TIMER_EXPIRY (R359): T after the first arrival the coordinator closes the exponent pass over the members that have
arrived, and marks the close as timed. -/
def Claims.TimedPassesClose : Prop :=
  ∀ (h t : Nat) (s : State) (c : Coll) (i : Inst) (f : Nat), InstAt h t c i s → s.expo.stopped = false → i.st = 1 →
    c.held = [] → s.coordinates h c i = true → c.params.timer ≠ 0 → i.firstArr = some f → f + c.params.timer * 2400 ≤ s.clk.toNat →
    ∃ u, exec (.exponentTimerExpiry h t) s = .next u ∧ PassCloses h t c i i.arrived true s u

/-- MANTISSA_CLOSE and MANTISSA_TIMER_EXPIRY (R355, R360, R361): with the mantissas of every on-time member and the late contributions
to be folded in, a chunk root rounds those of its chunks whose result it does not have and sends them, and the instance publishes, also
where it publishes already and the root inherits the chunk; T after the exponent close the coordinator removes the members whose mantissas are not in. -/
def Claims.MantissaPassesClose : Prop :=
  ∀ (h t : Nat) (s : State) (c : Coll) (i : Inst), InstAt h t c i s → s.expo.stopped = false →
    ((i.st = 2 ∨ i.st = 3) → c.prevPublished t = true → (∃ ch ∈ s.ownChunks h c i, tabGet? i.result ch = none) →
      (∀ p ∈ i.onTime, ∃ k ∈ i.sums, k.pos = p ∧ k.exps = []) → (∀ p ∈ i.lateSet, ∃ k ∈ i.sums, k.pos = p ∧ k.exps ≠ []) →
      ∃ u j, exec (.mantissaClose h t) s = .next u ∧ InstGoes h t c j s u ∧
        { j with st := i.st, result := i.result, flags := i.flags } = i ∧ j.st = 3 ∧
        (∀ ch, ch ∉ s.ownChunks h c i ∨ (tabGet? i.result ch).isSome = true → tabGet? j.result ch = tabGet? i.result ch) ∧
        ∀ ch ∈ s.ownChunks h c i, tabGet? i.result ch = none → tabGet? j.result ch = some (i.chunkResult c.params ch).1 ∧
          OutMsg.coll { handle := h, params := c.params, step := t, poisoned := false,
                        body := .result ch (i.chunkResult c.params ch).1 (i.chunkResult c.params ch).2 } ∈ u.outbox) ∧
    (i.st = 2 → c.params.timer ≠ 0 → i.closedAt + c.params.timer * 2400 ≤ s.clk.toNat → s.coordinates h c i = true →
      (∃ p ∈ i.onTime, ∀ k ∈ i.sums, k.pos = p → k.exps ≠ []) → (∀ p ∈ i.onTime, p = c.own → ∃ k ∈ i.sums, k.pos = p ∧ k.exps = []) →
      ∃ u j, exec (.mantissaTimerExpiry h t) s = .next u ∧ InstGoes h t c j s u ∧
        (∀ p, p ∈ j.onTime ↔ p ∈ i.onTime ∧ ∃ k ∈ i.sums, k.pos = p ∧ k.exps = []) ∧
        { j with onTime := i.onTime, lateSet := i.lateSet, sums := i.sums } = i ∧
        ∃ out, u.outbox = .coll { handle := h, params := c.params, step := t, poisoned := false, body := .depart out [] } :: s.outbox ∧
          ∀ p, p ∈ out ↔ p ∈ i.onTime ∧ p ∉ j.onTime)

/-- The passes of the collective (R359 to R362, R368). -/
def Obligations.CollectivePassesClose : Prop := Claims.MembersArrive ∧ Claims.TimedPassesClose ∧ Claims.MantissaPassesClose

/-- RESULT_PUBLICATION (R364, R366): the result bytes are written to the W frame of the result region; then the region's publication at
stamp `t` is accepted, which LSTAMP shows, or refused, and the collective is broken. -/
def Obligations.ResultsArePublished : Prop :=
  ∀ (h t r : Nat) (s : State) (c : Coll) (i : Inst), InstAt h t c i s → s.expo.stopped = false → memoryOk s = true → (i.st = 2 ∨ i.st = 3) →
    c.prevPublished t = true → (∀ ch, ch < c.params.nch → (tabGet? i.result ch).isSome = true) →
    (∀ pas, i.written = false → c.params.nr = 1 → s.resultRegion c 0 = some r → s.vrecBad r = false → (s.vrec r).drn = false →
      (∀ p ∈ s.pubs, p.record ≠ r) →
      let bytes := (i.resultBytes c.params).take (2 ^ 23)
      s.frameBytes r (s.vrec r).wix (vaRange (c.rva % 2 ^ 50) bytes.length) = .ok pas → pas.Nodup → s.canWrite (linesOf pas) none = true →
      ∃ u d, exec (.resultPublication h t) s = .next u ∧ BytesWritten (pas.zip bytes) s u ∧
        InstAt h t d { i with st := 3, written := true } u ∧ (s.mons = [] → LanesStand s u)) ∧
    (i.written = true → (∀ p ∈ s.pubs, p.source ≠ h + 1) → s.resultRegion c (pubOrder c.params.nr i.published) = some r →
      (s.vrec r).lstamp < t → t < 2 ^ 32 → PlainRecord s r →
      ∃ u, exec (.resultPublication h t) s = .next u ∧ (u.vrec r).lstamp = t ∧ MemoryStandsBut (r + 0x30) 4 s u ∧
        u.pubs = s.pubs ++ [{ record := r, stamp := t, core := 0, pend := 0, pos := 0, source := h + 1 }] ∧
        u.coll? h = some c ∧ (s.mons = [] → LanesStand s u)) ∧
    (i.written = true → (∀ p ∈ s.pubs, p.source ≠ h + 1) → s.resultRegion c (pubOrder c.params.nr i.published) = some r →
      c.held = [] → t ≤ (s.vrec r).lstamp →
      ∃ u d, exec (.resultPublication h t) s = .next u ∧ { u with colls := s.colls, outbox := s.outbox } = s ∧ u.coll? h = some d ∧
        d.broken = true ∧ ∀ j, d.inst t = some j → j.st = 4)

/-- LATE_CONTRIBUTION (R358, R362, R363) completes. The late contribution of another member is held for the next step while the pass of
that is open, joins its sums where its close has named it, waits where its own pass is open, and is counted as discarded when its
instance is FREE or the next pass has closed without it; the member's own is held as that of another. -/
def Claims.LateContributionsAreTaken : Prop :=
  ∀ (h t pos : Nat) (m : LateMsg) (s : State) (c : Coll), s.coll? h = some c → c.held = [] →
    let k : Contrib := { pos := pos, exps := m.blocks.map (·.1), mants := m.blocks.map (·.2) }
    (pos ≠ c.own → m.params = c.params → m.poisoned = false →
      (∀ i, c.inst t = some i → i.st = 1 →
        ∃ u, exec (.lateContribution h t pos m) s = .next u ∧ CollGoes h { c with held := [
          { handle := h, params := m.params, step := t, poisoned := false, body := .late pos m.blocks }] } s u) ∧
      (∀ i, c.inst t = some i → i.st ≠ 1 → (∀ q, c.inst (t + 1) = some q → q.st = 1) → (∀ k ∈ i.late, k.pos ≠ pos) → pos ∉ i.lateGone →
        ∃ u, exec (.lateContribution h t pos m) s = .next u ∧ InstGoes h t c { i with late := i.late ++ [k] } s u ∧ u.outbox = s.outbox) ∧
      (∀ q, (c.inst t = none ∨ ∃ i, c.inst t = some i ∧ i.st ≠ 1) → t < c.next → c.inst (t + 1) = some q → q.st ≠ 1 → pos ∈ q.lateSet →
        (∀ k ∈ q.sums, k.pos = pos → k.exps = []) →
        ∃ u, exec (.lateContribution h t pos m) s = .next u ∧ InstGoes h (t + 1) c { q with sums := q.sums ++ [k] } s u ∧
          u.outbox = s.outbox) ∧
      (∀ q, (c.inst t = none ∨ ∃ i, c.inst t = some i ∧ i.st ≠ 1) → t < c.next → c.inst (t + 1) = some q → q.st ≠ 1 → pos ∉ q.lateSet →
        (∀ k ∈ q.sums, k.pos = pos → k.exps = []) →
        ∃ u, exec (.lateContribution h t pos m) s = .next u ∧ CollDrops h { c with disc := c.disc + 1 } s u) ∧
      (c.inst t = none → t < c.next → (∀ q, c.inst (t + 1) = some q → q.st = 1) →
        ∃ u, exec (.lateContribution h t pos m) s = .next u ∧ CollDrops h { c with disc := c.disc + 1 } s u)) ∧
    (pos ≠ c.own → m.params ≠ c.params →
      ∃ u, exec (.lateContribution h t pos m) s = .next u ∧ CollDrops h { c with mism := c.mism + 1 } s u) ∧
    (∀ i l, pos = c.own → c.inst t = some i → i.ownLate = some l → (∀ q, c.inst (t + 1) = some q → q.st = 1) →
      (∀ k ∈ i.late, k.pos ≠ l.pos) → l.pos ∉ i.lateGone →
      ∃ u, exec (.lateContribution h t pos m) s = .next u ∧ InstGoes h t c { i with ownLate := none, late := i.late ++ [l] } s u ∧
        u.outbox = s.outbox)

/-- COLLECTIVE_MESSAGE (R349, R355 to R361, R367) completes: a message of a peer reaches the instance of its step; one whose parameters
differ, or whose step is over, is counted; a report that a step is FREE is noted. -/
def Claims.PeerMessagesAreTaken : Prop :=
  ∀ (h t : Nat) (s : State) (c : Coll) (m : CollMsg), s.coll? h = some c → c.held = [] → m.handle = h → m.step = t →
    (m.params ≠ c.params → ∃ u, exec (.collectiveMessage m) s = .next u ∧ CollDrops h { c with mism := c.mism + 1 } s u) ∧
    (∀ pos, m.params = c.params → m.body = .freed pos →
      ∃ u d, exec (.collectiveMessage m) s = .next u ∧ CollGoes h d s u ∧ { d with freed := c.freed } = c ∧
        tabGet 0 d.freed pos = max (tabGet 0 c.freed pos) (t + 1)) ∧
    (m.params = c.params → (∀ pos, m.body ≠ .freed pos) → (∀ pos bs, m.body ≠ .late pos bs) → (∀ pos, m.body ≠ .lateGone pos) →
      c.inst t = none → t < c.next → ∃ u, exec (.collectiveMessage m) s = .next u ∧ CollDrops h { c with disc := c.disc + 1 } s u) ∧
    (∀ pos xs i, m.body = .exponents pos xs → m.poisoned = false → m.params = c.params → c.inst t = some i →
      s.coordinates h c i = false → (∀ k ∈ i.arrived, k.pos ≠ pos) →
      ∃ u, exec (.collectiveMessage m) s = .next u ∧ InstGoes h t c { i with
        arrived := i.arrived ++ [{ pos := pos, exps := xs, mants := [] }], firstArr := some (i.firstArr.getD s.clk.toNat) } s u) ∧
    (∀ pos ms lim i, m.body = .mantissas pos ms lim → m.poisoned = false → m.params = c.params → c.inst t = some i →
      (i.st = 2 ∨ i.st = 3) → pos ∈ i.onTime → (∀ k ∈ i.sums, k.pos = pos → k.exps ≠ []) →
      ∃ u, exec (.collectiveMessage m) s = .next u ∧ InstGoes h t c { i with
        sums := i.sums ++ [{ pos := pos, exps := [], mants := ms }], limited := i.limited || lim } s u)

/-- What other members send (R349, R355 to R363, R367). -/
def Obligations.CollectiveMessagesAreTaken : Prop := Claims.LateContributionsAreTaken ∧ Claims.PeerMessagesAreTaken

/-- MEMBER_ADVANCE_MESSAGE, POD_BEACON_SEND and POD_BEACON_RECEIVE (R375): a replica takes the changes that wait for it, then a STEP of a member only rises; the leader sends the smallest
STEP and the count of its pod's live members; a beacon changes the entry of its pod, whose SIL and MEM stand. -/
def Claims.MembersAdvance : Prop :=
  ∀ (s : State),
    (∀ q i w, q < 4 → i < 1024 →
      let r := taken s q
      ∃ t, exec (.memberAdvanceMessage q i w) s = .next t ∧ (t.replica q).due = [] ∧
        ((t.replica q).member i).step.toNat = max (r.member i).step.toNat w.toNat ∧
        { (t.replica q).member i with step := (r.member i).step } = r.member i ∧
        (∀ k, k ≠ i → (t.replica q).member k = r.member k) ∧ (t.replica q).pods = r.pods ∧
        (∀ k, k ≠ q → t.replica k = s.replica k) ∧
        { t with replicas := s.replicas, stepCtx := { t.stepCtx with changed := s.stepCtx.changed } } = s) ∧
    (s.leads = true →
      ∃ t mn, exec .podBeaconSend s = .next t ∧
        t.outbox = .beacon mn (s.replica 0).liveMembers.length s.stepCtx.epoch s.stepCtx.need :: s.outbox ∧
        (∀ m ∈ (s.replica 0).liveMembers, mn ≤ m.2.step.toNat) ∧ (∃ m ∈ (s.replica 0).liveMembers, m.2.step.toNat = mn) ∧
        t.stepCtx.sentBeacon = s.clk.toNat ∧
        { t with outbox := s.outbox, stepCtx := { t.stepCtx with sentBeacon := s.stepCtx.sentBeacon } } = s) ∧
    (∀ q pod mn n ep need, q < 4 → pod < 256 → pod ≠ s.ownPod →
      let r := taken s q
      ∃ t, exec (.podBeaconReceive q pod mn n ep need) s = .next t ∧ (t.replica q).due = [] ∧
        ((t.replica q).pod pod).min.toNat = max (r.pod pod).min.toNat mn.toNat ∧ ((t.replica q).pod pod).nlive = min n 1024 ∧
        ((t.replica q).pod pod).sil = (r.pod pod).sil ∧ ((t.replica q).pod pod).mem = (r.pod pod).mem ∧
        (∀ k, k ≠ pod → (t.replica q).pod k = r.pod k) ∧ (t.replica q).members = r.members ∧
        (∀ k, k ≠ q → t.replica k = s.replica k) ∧ t.stepCtx.farNeed = max s.stepCtx.farNeed need.toNat ∧ t.stepCtx.need = s.stepCtx.need ∧
        tabGet 0 t.stepCtx.beacons pod = s.clk.toNat)

/-- SILENT_MARKING and the JOIN_COMPLETION of another member (R378, R379): the marked member, or pod, is silent from the next epoch on in
the replica of Meridian die 0, and in every other one once it has taken the change; the member that joins is live again with its step;
either way an entry of the sequencer log and a record of KIND 9 say so. -/
def Claims.MembershipChanges : Prop :=
  ∀ (s : State), s.stepCtx.bound = true → memoryOk s = true → QueueHasRoom s s.stepCtx.sctx → (s.replica 0).due = [] →
    (∀ pod rank ep byPeer, s.colls = [] → ep.toNat = s.stepCtx.epoch + 1 → (byPeer = true ∨ s.mayMark pod rank = true) →
      let who := if pod then rank * 1024 else rank
      ∃ t, exec (.silentMarking pod rank ep byPeer) s = .next t ∧ t.stepCtx = { s.stepCtx with epoch := s.stepCtx.epoch + 1 } ∧
        (t.replica 0).due = [] ∧
        (∀ q, q < 4 →
          (pod = true → (taken t q).pod rank = { (taken s q).pod rank with sil := true } ∧
            (∀ k, k ≠ rank → (taken t q).pod k = (taken s q).pod k) ∧ (taken t q).members = (taken s q).members) ∧
          (pod = false → rank / 1024 = s.ownPod →
            (taken t q).member (rank % 1024) = { (taken s q).member (rank % 1024) with sil := true } ∧
            (∀ k, k ≠ rank % 1024 → (taken t q).member k = (taken s q).member k) ∧ (taken t q).pods = (taken s q).pods)) ∧
        LogGains 2 (s.stepCtx.epoch + 1) who 0 s t ∧
        RecordStands s s.stepCtx.sctx { kind := 9, code := 0, va := who, lpc := s.stepCtx.epoch + 1 } t ∧
        (byPeer = true → t.outbox = s.outbox) ∧
        (byPeer = false → t.outbox = .silent pod rank (s.stepCtx.epoch + 1) :: s.outbox) ∧ (s.mons = [] → LanesStand s t)) ∧
    (∀ d : JoinData, s.expo.joining = false → d.rank / 1024 = s.ownPod →
      ∃ t, exec (.joinCompletion d) s = .next t ∧ t.stepCtx.epoch = s.stepCtx.epoch + 1 ∧ (t.replica 0).due = [] ∧
        (∀ q, q < 4 → (taken t q).member (d.rank % 1024) = { mem := true, sil := false, step := d.step } ∧
          (∀ k, k ≠ d.rank % 1024 → (taken t q).member k = (taken s q).member k) ∧ (taken t q).pods = (taken s q).pods) ∧
        LogGains 2 (s.stepCtx.epoch + 1) d.rank 1 s t ∧
        RecordStands s s.stepCtx.sctx { kind := 9, code := 1, va := d.rank, lpc := s.stepCtx.epoch + 1 } t ∧
        t.expo = s.expo ∧ (s.mons = [] → LanesStand s t))

/-- The ephemeris: steps, beacons, marking and joining (R375, R378, R379). -/
def Obligations.MembershipAdvances : Prop := Claims.MembersAdvance ∧ Claims.MembershipChanges

/-- EXPOSURE_STOP_END and EXPOSURE_DRAIN_COMPLETION (R383 to R385, R390): an exposure that stops too long ends with E.TIME, and one whose
image area is too small with E.DESC; otherwise the image stands in its area with the XID and the frames it names are held; the module
resumes, and its collectives look again at their passes; the drain of a frame set that is over clears its XP, and that of the exposure every
XP left, and leaves E.OK, or E.BUDDY where it failed or the buddy is silent; the exposure of a
peer stands in a slot of the keep area, and the next one goes to the other slot. -/
def Claims.ExposuresAreDrained : Prop :=
  ∀ (s : State), memoryOk s = true →
    (s.expo.stopped = true → s.expo.since + s.expo.maxst * 2400 < s.clk.toNat →
      ∃ t, exec .exposureStopEnd s = .next t.recheckAll ∧ ExposureEnds eTime s t ∧ { t with expo := s.expo } = s) ∧
    (s.expo.stopped = true → s.clk.toNat ≤ s.expo.since + s.expo.maxst * 2400 → s.expo.isz < s.exposeImage.length →
      ∃ t, exec .exposureStopEnd s = .next t.recheckAll ∧ ExposureEnds eDesc s t ∧ { t with expo := s.expo } = s) ∧
    (∀ pas b l, s.expo.stopped = true → s.clk.toNat ≤ s.expo.since + s.expo.maxst * 2400 → s.exposeImage.length ≤ s.expo.isz →
      s.xlateBytes s.expo.ctx .write (vaRange (s.expo.img % 2 ^ 50) s.exposeImage.length) = .ok (pas, b, l) → pas.Nodup →
      s.canWrite (linesOf pas) none = true → (∀ x, x < 64 → (s.ctx x).saved = 0) → (∀ a ∈ pas, ∀ x, s.guardByte a x = x) →
      (∀ r, s.expo.regions = [r] → PlainRecord s r ∧ (∀ a ∈ pas, a < r ∨ r + 64 ≤ a)) → s.expo.regions.length ≤ 1 →
      ∃ t, exec .exposureStopEnd s = .next t.recheckAll ∧ t.expo.stopped = false ∧ t.expo.draining = true ∧
        t.outbox = .drain s.stepCtx.buddy s.expo.xid s.exposeImage.length :: s.outbox ∧
        (∀ q ∈ (pas.drop 4).zip (s.exposeImage.drop 4), t.mem.get q.1 = q.2) ∧
        (∀ q ∈ (pas.take 4).zip (leBytes 4 s.expo.xid), t.mem.get q.1 = q.2) ∧
        (∀ r, s.expo.regions = [r] → (t.vrec r).xp (s.vrec r).pix = true ∧ t.expo.pins = [(r, (s.vrec r).pix)]) ∧
        (s.mons = [] → LanesStand s t)) ∧
    (∀ ok, s.expo.draining = true → s.expo.pins = [] →
      ∃ t, exec (.exposureDrainCompletion (.own ok)) s = .next t ∧
        ExposureEnds (if ok = true ∧ s.buddySilent = false then eOk else eBuddy) s t ∧
        { t with expo := s.expo } = s) ∧
    (∀ ok r f, s.expo.draining = true → s.expo.pins = [(r, f)] → f < 4 → PlainRecord s r →
      ∃ t, exec (.exposureDrainCompletion (.own ok)) s = .next t ∧
        ExposureEnds (if ok = true ∧ s.buddySilent = false then eOk else eBuddy) s t ∧
        (t.vrec r).xp f = false ∧ MemoryStandsBut (r + 0x20) 4 s t ∧ (s.mons = [] → LanesStand s t)) ∧
    (∀ r f, s.expo.draining = true → s.expo.pins.find? (·.1 == r) = some (r, f) → f < 4 → PlainRecord s r →
      ∃ t, exec (.exposureDrainCompletion (.frame r)) s = .next t ∧ t.expo = { s.expo with pins := listDelFirst (· == (r, f)) s.expo.pins } ∧
        (t.vrec r).xp f = false ∧ MemoryStandsBut (r + 0x20) 4 s t ∧ (s.mons = [] → LanesStand s t)) ∧
    (∀ bytes, s.life = .run → s.stepCtx.bound = true → bytes.length ≤ s.stepCtx.ksz * 2 ^ 19 → 4 ≤ bytes.length →
      let a := s.stepCtx.keep + s.stepCtx.keepSlot * (s.stepCtx.ksz * 2 ^ 19)
      (∀ b ∈ natRange a bytes.length, noBack b = false ∧ ∀ x, s.guardByte b x = x) → (∀ x, x < 64 → (s.ctx x).saved = 0) →
      s.canWrite (linesOf (natRange a bytes.length)) none = true →
      ∃ t, exec (.exposureDrainCompletion (.kept bytes)) s = .next t ∧ t.stepCtx = { s.stepCtx with keepSlot := 1 - s.stepCtx.keepSlot } ∧
        (∀ q ∈ (natRange a bytes.length).zip bytes, t.mem.get q.1 = q.2) ∧ MemoryStandsBut a bytes.length s t ∧
        (s.mons = [] → LanesStand s t))

/-- JOIN_COMPLETION of the module's own join (R388, R390): with no image to find it ends with E.DESC; an image that holds no queue, range,
collective, late contribution or log entry restores the step context: RANK, the context's random key, and STEP, which is LMIN of the
replica. -/
def Claims.JoinsComplete : Prop :=
  ∀ (d : JoinData) (s : State), s.stepCtx.bound = true → s.expo.joining = true →
    (d.found = false →
      ∃ t, exec (.joinCompletion d) s = .next t ∧ ExposureEnds eDesc s t ∧ { t with expo := s.expo } = s) ∧
    (∀ pas b l, d.found = true → d.image.length ≤ s.expo.isz →
      s.xlateBytes s.expo.ctx .write (vaRange (s.expo.img % 2 ^ 50) d.image.length) = .ok (pas, b, l) →
      s.canWrite (linesOf pas) none = true → le32 d.image 0x34 = 0 → le32 d.image 0x3C = 0 → le32 d.image 0x5C = 0 →
      le32 d.image 0x64 = 0 → le32 d.image 0x74 = 0 → d.logFrom = 0 → d.log = [] → s.expo.regions = [] → s.stepCtx.sctx < 64 →
      ∃ t, exec (.joinCompletion d) s = .next t ∧ ExposureEnds eOk s t ∧ t.stepCtx.rank = s.expo.rank ∧
        t.stepCtx.epoch = s.stepCtx.epoch + 1 ∧ (t.ctx s.stepCtx.sctx).rkey = BitVec.ofNat 64 (le64 d.image 0x10) ∧
        (t.ctx s.stepCtx.sctx).step = BitVec.ofNat 32 (s.lmin 0) ∧ t.outbox = .advance (s.lmin 0 % 2 ^ 32) :: s.outbox ∧
        ((s.replica 0).steps s.ownPod ≠ [] → s.lmin 0 ∈ (s.replica 0).steps s.ownPod ∧ ∀ v ∈ (s.replica 0).steps s.ownPod, s.lmin 0 ≤ v) ∧
        (s.mons = [] → LanesStand s t))

/-- Exposures and joins (R383 to R385, R388, R390). -/
def Obligations.ExposuresAndJoins : Prop := Claims.ExposuresAreDrained ∧ Claims.JoinsComplete

/-- PWRGD_ASSERT, PWRGD_DEASSERT, RESET_N_ASSERT, MCTP_RECOVER and MCTP_COMMIT (R402, R405, R412): each leaves the module in the life
state that R402 names, with nothing of the earlier run but flash and fuses; a RECOVER that comes in RUN waits for every context to be HALTED or
EMPTY. -/
def Claims.LifeStatesChange : Prop :=
  ∀ (s : State),
    (s.life = .off → ∃ t, exec .pwrgdAssert s = .next t ∧ Restarted .selftest s t ∧ t.root.pwrgd = true) ∧
    (s.life ≠ .off → exec .pwrgdAssert s = .next s) ∧
    (s.life ≠ .off → ∃ t, exec .pwrgdDeassert s = .next t ∧ Restarted .off s t ∧ t.root.pwrgd = false ∧ t.root.spdm = 0) ∧
    (∃ t, exec .resetNAssert s = .next t ∧ Restarted .selftest s t) ∧
    ((s.life = .safe ∨ s.life = .halt ∨ (s.life = .run ∧ ∀ x, x < 64 → (s.ctx x).state = .halted ∨ (s.ctx x).state = .empty)) →
      ∃ t, exec .mctpRecover s = .next t ∧ Restarted .recovery s t ∧ t.link = s.link) ∧
    (s.life = .run → (∃ x, x < 64 ∧ (s.ctx x).state ≠ .halted ∧ (s.ctx x).state ≠ .empty) →
      exec .mctpRecover s = .next { s with root := { s.root with recover := true } }) ∧
    (∀ len, s.life = .recovery →
      let img := s.root.staging.read 0 (min len 0x4000000)
      ∃ t, exec (.mctpCommit len) s = .next t ∧
        (s.root.check img = 0 → Restarted .selftest { s with root := { s.root with flash := img } } t) ∧
        (s.root.check img ≠ 0 → Answers [BitVec.ofNat 8 (s.root.check img)] s t))

/-- SELFTEST_COMPLETION (R402 to R404, R406): a failed self-test, or an image that is refused, ends in SAFE with its RESULT and STAGE; a
good image boots the module: CLK is 0, slot 0 holds the boot record, and queue 0 of die 0 stands in memory. -/
def Claims.SelftestEnds : Prop :=
  ∀ (f : SelfTest) (s : State), s.life = .selftest →
    let img := s.root.check s.root.flash
    ∃ t, exec (.selftestCompletion f) s = .next t ∧ t.root.dieMap = f.dieMap ∧ t.root.mdMap = f.mdMap ∧ t.root.flash = s.root.flash ∧
      (selfTestPass f = false → t.life = .safe ∧ t.root.result = 1 ∧ t.root.stage = (if s.root.tripped then 7 else f.stage) ∧
        t.root.failUnit = f.unit % 256 ∧ t.root.fusedSvn = s.root.fusedSvn) ∧
      (selfTestPass f = true → t.root.failUnit = 0xFF) ∧
      (selfTestPass f = true → img ≠ 0 → t.life = .safe ∧ t.root.result = img ∧ t.root.stage = (if s.root.tripped then 7 else 6) ∧
        t.root.fusedSvn = s.root.fusedSvn) ∧
      (selfTestPass f = true → img = 0 → t.life = .run ∧ t.clk = 0 ∧ t.root.result = 0 ∧ s.root.fusedSvn ≤ t.root.fusedSvn ∧
        (t.ctx 0).state = .loaded ∧ (t.ctx 0).hbase = 0 ∧ (t.ctx 0).hlim = 0x1E00000000 ∧ (t.ctx 0).tqbase = 0x10000 ∧
        (t.ctx 0).svbase = 0x1000000 ∧ (∀ x, 0 < x → x < 64 → t.ctx x = s.ctx x) ∧
        memNat t 0 8 = 0x2000 ∧ memNat t 0x2040 8 = 0x2000 ∧ memNat t 0x2048 8 = 0x2000 ∧ memNat t 0x200 8 = 1)

/-- The life of the module (R402 to R406, R412). -/
def Obligations.LifeStates : Prop := Claims.LifeStatesChange ∧ Claims.SelftestEnds

/-- MODULE_HALT and THERMAL_SENSE (R22, R410): a halt leaves every context that is not EMPTY HALTED and the module in HALT; above 95 °C
once in a period of 10 µs, 24,000 clocks, GBUD falls by 24, but not below 144, and rises again by 24, up to 576, once every die is at 90 °C or less; above 110 °C the
module halts. -/
def Claims.ModuleIsHalted : Prop :=
  ∀ (s : State), s.life = .run →
    (∃ t, exec .moduleHalt s = .next t ∧ t.life = .halt ∧ t.expo.stopped = false ∧ t.root = s.root ∧
      (∀ x, x < 64 → ((s.ctx x).state = .empty → t.ctx x = s.ctx x) ∧ ((s.ctx x).state ≠ .empty → t.ctx x = { s.ctx x with state := .halted })) ∧
      (s.mons = [] → LanesStand s t)) ∧
    (∀ ts, s.power.sensed < s.clk.toNat / 24000 → (∃ a ∈ ts, 110 < a) →
      ∃ t, exec (.thermalSense ts) s = .next t ∧ t.life = .halt ∧ t.root.tripped = true) ∧
    (∀ ts, s.power.sensed < s.clk.toNat / 24000 → (∀ a ∈ ts, a ≤ 110) → 144 ≤ s.power.gbud → s.power.gbud ≤ 576 →
      let hot := (∃ a ∈ ts, 95 < a) ∨ (s.power.cooling = true ∧ ∃ a ∈ ts, 90 < a)
      ∃ t, exec (.thermalSense ts) s = .next t ∧ { t with power := s.power } = s ∧ t.power.shares = s.power.shares ∧
        t.power.sensed = s.clk.toNat / 24000 ∧ (hot → t.power.gbud = max 144 (s.power.gbud - 24) ∧ t.power.cooling = true) ∧
        (¬ hot → t.power.gbud = min 576 (s.power.gbud + 24) ∧ t.power.cooling = false)) ∧
    (∀ ts, s.clk.toNat / 24000 ≤ s.power.sensed → exec (.thermalSense ts) s = .next s)

/-- POWER_PERIOD and AGEING_SENSE (R408, R411): at the boundary of a period no die's share exceeds its demand, the shares keep within GBUD, a die that is held back
has no less than any other but one core, and only the budget holds it back; a core whose margin is below the guard band has its voltage
raised by one step, or is retired at the next start. -/
def Claims.PowerIsShared : Prop :=
  ∀ (s : State), s.life = .run →
    (s.clk.toNat / 24000 ≤ s.power.shared → exec .powerPeriod s = .next s) ∧
    (s.power.shared < s.clk.toNat / 24000 → ∃ t, exec .powerPeriod s = .next t ∧
      { t with power := { t.power with shares := s.power.shares, shared := s.power.shared } } = s ∧ t.power.shared = s.clk.toNat / 24000 ∧
      (∀ i : Fin 24, t.power.shares[i] ≤ s.demand i.val) ∧ t.power.shares.toList.sum ≤ s.power.gbud ∧
      (∀ i j : Fin 24, t.power.shares[i] < s.demand i.val → t.power.shares[j] ≤ t.power.shares[i] + 1) ∧
      ((∃ i : Fin 24, t.power.shares[i] < s.demand i.val) → t.power.shares.toList.sum = s.power.gbud)) ∧
    (∀ ms, ∃ t, exec (.ageingSense ms) s = .next t ∧
      { t with root := { t.root with volts := s.root.volts, retireNext := s.root.retireNext } } = s ∧
      ∀ c, c < 576 →
        (Config.guardBand ≤ listGet Config.guardBand ms c →
          tabGet 0 t.root.volts c = tabGet 0 s.root.volts c ∧ (c ∈ t.root.retireNext ↔ c ∈ s.root.retireNext)) ∧
        (listGet Config.guardBand ms c < Config.guardBand →
          (tabGet 0 s.root.volts c < Config.maxVoltSteps → tabGet 0 t.root.volts c = tabGet 0 s.root.volts c + 1) ∧
          (Config.maxVoltSteps ≤ tabGet 0 s.root.volts c → c ∈ t.root.retireNext ∧ tabGet 0 t.root.volts c = tabGet 0 s.root.volts c)))

/-- The module halt, heat, power and ageing (R22, R408, R410, R411). -/
def Obligations.PowerAndHeat : Prop := Claims.ModuleIsHalted ∧ Claims.PowerIsShared

/-- The MCTP endpoint (R403, R407): GET_SELFTEST answers the self-test record; the exchanges of the security protocol take place in their
order, and one that comes too early, or names what is not offered, is answered with an error. The message codes are the model's own
(log entry 40). -/
def Obligations.EndpointAnswers : Prop :=
  ∀ (s : State), s.life ≠ .off →
    let r := s.root
    let d := Config.sha256 Config.certChain
    let late (need : Nat) (b : List Byte) : List Byte := if r.spdm < need then spdmError 4 else b
    (∃ t, exec .getSelftest s = .next t ∧ Answers r.record s t) ∧
    (∃ t, exec .getVersion s = .next t ∧ Answers [0x10, 4, 0, 0, 0, 1, 0, 0x12] s t ∧ t.root.spdm = 1) ∧
    (∃ t, exec .getCapabilities s = .next t ∧ Answers (late 1 (spdmReply 0x61 0 0 [0, 0, 0, 0, 0x16, 0, 0, 0])) s t ∧
      (1 ≤ r.spdm → t.root.spdm = max 2 r.spdm)) ∧
    (∀ al, 0 ∈ al → 1 ∈ al →
      ∃ t, exec (.negotiateAlgorithms al) s = .next t ∧
        Answers (late 2 (spdmReply 0x63 0 0 ((al.filter fun a => a ≤ 1).map (BitVec.ofNat 8 ·)))) s t ∧ (2 ≤ r.spdm → t.root.spdm = 3)) ∧
    (∃ t, exec .getDigests s = .next t ∧ Answers (late 3 (spdmReply 1 0 1 d)) s t) ∧
    (∀ o n, ∃ t, exec (.getCertificate 0 o n) s = .next t ∧ Answers (late 3
      (let part := (Config.certChain.drop o).take n
       spdmReply 2 0 0 (leBytes 2 part.length ++ leBytes 2 (Config.certChain.length - o - part.length) ++ part))) s t) ∧
    (∀ nonce, ∃ t, exec (.challenge 0 nonce) s = .next t ∧ Answers (late 3 (spdmReply 3 0 1 (d ++ Config.signature (nonce ++ d)))) s t) ∧
    (∀ k n, k ≠ 0 → (∃ t, exec (.getCertificate k n n) s = .next t ∧ Answers (late 3 (spdmError 1)) s t) ∧
      (∃ t, exec (.challenge k []) s = .next t ∧ Answers (late 3 (spdmError 1)) s t)) ∧
    (∃ t, exec (.getMeasurements 1) s = .next t ∧ Answers (late 3 (spdmReply 0x60 0 0 (1 :: Config.sha256 r.flash))) s t) ∧
    (∃ t, exec (.getMeasurements 2) s = .next t ∧ Answers (late 3 (spdmReply 0x60 0 0 (2 :: r.record))) s t) ∧
    (∃ t, exec (.getMeasurements 0) s = .next t ∧ Answers (late 3 (spdmReply 0x60 4 0 [])) s t)

/-- A step runs the word at the cursor of the group that the schedule names: it is decoded, and its meaning runs with that group in focus;
a word that waits is put back on the schedule, and so is one whose port is not free yet (R138). A word that no row encodes is a decode
fault (R28, R45). -/
def Claims.StepRunsDecodedWord : Prop :=
  ∀ (c g w : Nat) (s : State) (x : Group) (cu : Cursor) (rest : List Sched), s.agenda = .word c g :: rest →
    s.nextWord c g = some (x, cu, w) →
    (∀ i, cu.start ≤ s.clk.toNat → decodeNat w (selOf x w) = .ok i →
      i.wellFormed = true ∧ step s = stepWord c g (exec i { s with agenda := rest, focus := some (c, g) })) ∧
    (∀ r, cu.start ≤ s.clk.toNat → decodeNat w (selOf x w) = .error r → step s = .next (execBadWord c g x cu w { s with agenda := rest })) ∧
    (s.clk.toNat < cu.start → step s = .next { s with agenda := rest ++ [.tick 1, .word c g] })

/-- Time passes: CLK counts `n` clocks in RUN and HALT, and nothing else happens in any other life state (R18). With no monitor registered
no lane's registers, no context and no schedule changes, and with no line in a core nor does memory. -/
def TimePasses (n : Nat) (s t : State) : Prop :=
  (s.life ≠ .run → s.life ≠ .halt → t = s) ∧
  (s.life = .run ∨ s.life = .halt → t.clk = s.clk + BitVec.ofNat 64 n ∧
    (s.mons = [] → LanesStand s t ∧ t.ctxs = s.ctxs ∧ t.agenda = s.agenda ∧ t.life = s.life ∧
      ((∀ c ∈ s.cores, c.2.wcb = [] ∧ c.2.l1 = []) → t.mem = s.mem)))

/-- A step takes the first entry of the schedule: an event happens as its meaning says, a command of an engine makes its next move, or
time passes; with nothing scheduled one clock passes, in RUN and HALT (R18). A RECOVER that waits takes effect first, once every context is HALTED
or EMPTY (R402). -/
def Claims.StepTakesTheSchedule : Prop :=
  ∀ (s : State) (rest : List Sched),
    (s.agenda = [] → s.takeRecover = s → ∃ t, step s = .next t ∧ TimePasses 1 s t) ∧
    (s.agenda = [] → s.life = .run → s.root.recover = true → (∀ x, x < 64 → (s.ctx x).state = .halted ∨ (s.ctx x).state = .empty) →
      ∃ t, step s = .next t ∧ Restarted .recovery s t ∧ t.link = s.link) ∧
    (s.life = .run → s.root.recover = false → s.takeRecover = s) ∧
    (∀ x, x < 64 → (s.ctx x).state ≠ .halted → (s.ctx x).state ≠ .empty → s.takeRecover = s) ∧
    (∀ i, s.agenda = .event i :: rest → step s = exec i { s with agenda := rest }) ∧
    (∀ c id, s.agenda = .cmd c id :: rest → step s = .next (State.cmdStep { s with agenda := rest } c id)) ∧
    (∀ n, s.agenda = .tick n :: rest → s.takeRecover = s → ∃ t, step s = .next t ∧ TimePasses n { s with agenda := rest } t)

/-- A step takes the first entry of the schedule, and runs a scheduled word as decoded (R18, R28, R45). -/
def Obligations.StepRunsDecodedWord : Prop := Claims.StepRunsDecodedWord ∧ Claims.StepTakesTheSchedule

/-- Words that the spec writes out in its examples decode to the instructions they stand for (R29 to R38, R53 to R59). -/
def Obligations.SampleWordsDecode : Prop := ∀ q ∈ sampleWords, decodeTableWord 64 q.1 = some q.2 ∧ encodeNat q.2 = some q.1

/-- Every well-formed instruction has a word, and decoding that word gives the instruction back; a word that decodes is the word of the
instruction that it decodes to (R29 to R38, R53 to R59). -/
def Obligations.DecodeEncodeRoundTrip : Prop :=
  (∀ (i : Instr), i.wellFormed = true → ∃ w, encodeNat i = some w ∧ w < 2 ^ 64 ∧ decodeNat w (opSel i) = .ok i) ∧
  ∀ (w k : Nat) (i : Instr), decodeNat w k = .ok i → encodeNat i = some w ∧ i.wellFormed = true

/-- What reset leaves: no power, no context, PV clear, every port DOWN and enabled with its counters at 0, and every memory in its
canonical form (R87, R347, R350, R351, R402). -/
def Obligations.ResetHoldsSpecValues : Prop :=
  State.reset.life = .off ∧ (∀ x, x < 64 → State.reset.ctx x = emptyCtx) ∧ State.reset.link.pv = false ∧
  (∀ p, p < 45 → let k := State.reset.link.port p
    k.st = 0 ∧ k.lanes = 0 ∧ k.en = true ∧ k.corr = 0 ∧ k.uncorr = 0 ∧ k.replay = 0 ∧ k.drop = 0) ∧
  memoryOk State.reset = true

/-- Every step keeps every memory of the module in its canonical form: device memory, the scratchpads, the staging window and the
MSI-X table list no byte that reads as an unlisted one, and each address once, rising. -/
def Obligations.StepKeepsMemoryCanonical : Prop :=
  ∀ (s t : State), memoryOk s = true → step s = .next t → memoryOk t = true
end

