-- ==== Sys2Proof/Laws/PerInstr.lean ====
section
/-! SUPPORT. Laws stated per instruction: an event of the module has no word (R28, R29). -/

namespace Sys2Proof.Laws

/-- An instruction is a word of a program, or an event, which has no word. -/
def EventsHaveNoWord.Statement (i : Instr) : Prop := Machine.isWord i = true ∨ encodeNat i = none

theorem EventsHaveNoWord.clauseIssue (core : Nat) (port : Nat) : EventsHaveNoWord.Statement (.clauseIssue core port) := by first | exact .inl rfl | exact .inr rfl
theorem EventsHaveNoWord.nop (p : Pfx) : EventsHaveNoWord.Statement (.nop p) := by first | exact .inl rfl | exact .inr rfl
theorem EventsHaveNoWord.br (p : Pfx) (c : BrCond) (ofs : BitVec 32) : EventsHaveNoWord.Statement (.br p c ofs) := by first | exact .inl rfl | exact .inr rfl
theorem EventsHaveNoWord.brc (p : Pfx) (c : BrCond) (ofs : BitVec 32) : EventsHaveNoWord.Statement (.brc p c ofs) := by first | exact .inl rfl | exact .inr rfl
theorem EventsHaveNoWord.jmp (p : Pfx) (a : Operand) : EventsHaveNoWord.Statement (.jmp p a) := by first | exact .inl rfl | exact .inr rfl
theorem EventsHaveNoWord.jmpv (p : Pfx) (a : Operand) : EventsHaveNoWord.Statement (.jmpv p a) := by first | exact .inl rfl | exact .inr rfl
theorem EventsHaveNoWord.call (p : Pfx) (c : BrCond) (ofs : BitVec 32) : EventsHaveNoWord.Statement (.call p c ofs) := by first | exact .inl rfl | exact .inr rfl
theorem EventsHaveNoWord.ret (p : Pfx) (a : Operand) : EventsHaveNoWord.Statement (.ret p a) := by first | exact .inl rfl | exact .inr rfl
theorem EventsHaveNoWord.exit (p : Pfx) : EventsHaveNoWord.Statement (.exit p) := by first | exact .inl rfl | exact .inr rfl
theorem EventsHaveNoWord.yieldpt (p : Pfx) (pbase : Fin 256) : EventsHaveNoWord.Statement (.yieldpt p pbase) := by first | exact .inl rfl | exact .inr rfl
theorem EventsHaveNoWord.gsplit (p : Pfx) (d : Operand) (a : Operand) : EventsHaveNoWord.Statement (.gsplit p d a) := by first | exact .inl rfl | exact .inr rfl
theorem EventsHaveNoWord.gfuse (p : Pfx) (d : Operand) (a : Operand) : EventsHaveNoWord.Statement (.gfuse p d a) := by first | exact .inl rfl | exact .inr rfl
theorem EventsHaveNoWord.gfuseLimitExpiry (core : Nat) (ctx : Nat) : EventsHaveNoWord.Statement (.gfuseLimitExpiry core ctx) := by first | exact .inl rfl | exact .inr rfl
theorem EventsHaveNoWord.launch (t : TW) : EventsHaveNoWord.Statement (.launch t) := by first | exact .inl rfl | exact .inr rfl
theorem EventsHaveNoWord.mov (o : I1) : EventsHaveNoWord.Statement (.mov o) := by first | exact .inl rfl | exact .inr rfl
theorem EventsHaveNoWord.add (o : I2) : EventsHaveNoWord.Statement (.add o) := by first | exact .inl rfl | exact .inr rfl
theorem EventsHaveNoWord.sub (o : I2) : EventsHaveNoWord.Statement (.sub o) := by first | exact .inl rfl | exact .inr rfl
theorem EventsHaveNoWord.addc (o : I3) : EventsHaveNoWord.Statement (.addc o) := by first | exact .inl rfl | exact .inr rfl
theorem EventsHaveNoWord.subb (o : I3) : EventsHaveNoWord.Statement (.subb o) := by first | exact .inl rfl | exact .inr rfl
theorem EventsHaveNoWord.neg (o : I1) : EventsHaveNoWord.Statement (.neg o) := by first | exact .inl rfl | exact .inr rfl
theorem EventsHaveNoWord.abs (o : I1) : EventsHaveNoWord.Statement (.abs o) := by first | exact .inl rfl | exact .inr rfl
theorem EventsHaveNoWord.min (o : I2) : EventsHaveNoWord.Statement (.min o) := by first | exact .inl rfl | exact .inr rfl
theorem EventsHaveNoWord.max (o : I2) : EventsHaveNoWord.Statement (.max o) := by first | exact .inl rfl | exact .inr rfl
theorem EventsHaveNoWord.mad (o : I3) : EventsHaveNoWord.Statement (.mad o) := by first | exact .inl rfl | exact .inr rfl
theorem EventsHaveNoWord.mul (o : I2) : EventsHaveNoWord.Statement (.mul o) := by first | exact .inl rfl | exact .inr rfl
theorem EventsHaveNoWord.mulh (o : I2) : EventsHaveNoWord.Statement (.mulh o) := by first | exact .inl rfl | exact .inr rfl
theorem EventsHaveNoWord.and (o : I2) : EventsHaveNoWord.Statement (.and o) := by first | exact .inl rfl | exact .inr rfl
theorem EventsHaveNoWord.or (o : I2) : EventsHaveNoWord.Statement (.or o) := by first | exact .inl rfl | exact .inr rfl
theorem EventsHaveNoWord.xor (o : I2) : EventsHaveNoWord.Statement (.xor o) := by first | exact .inl rfl | exact .inr rfl
theorem EventsHaveNoWord.andn (o : I2) : EventsHaveNoWord.Statement (.andn o) := by first | exact .inl rfl | exact .inr rfl
theorem EventsHaveNoWord.not (o : I1) : EventsHaveNoWord.Statement (.not o) := by first | exact .inl rfl | exact .inr rfl
theorem EventsHaveNoWord.shl (o : I2) : EventsHaveNoWord.Statement (.shl o) := by first | exact .inl rfl | exact .inr rfl
theorem EventsHaveNoWord.shr (o : I2) : EventsHaveNoWord.Statement (.shr o) := by first | exact .inl rfl | exact .inr rfl
theorem EventsHaveNoWord.sar (o : I2) : EventsHaveNoWord.Statement (.sar o) := by first | exact .inl rfl | exact .inr rfl
theorem EventsHaveNoWord.rol (o : I2) : EventsHaveNoWord.Statement (.rol o) := by first | exact .inl rfl | exact .inr rfl
theorem EventsHaveNoWord.bfx (o : I2) : EventsHaveNoWord.Statement (.bfx o) := by first | exact .inl rfl | exact .inr rfl
theorem EventsHaveNoWord.bfi (o : I3) : EventsHaveNoWord.Statement (.bfi o) := by first | exact .inl rfl | exact .inr rfl
theorem EventsHaveNoWord.popc (o : I1) : EventsHaveNoWord.Statement (.popc o) := by first | exact .inl rfl | exact .inr rfl
theorem EventsHaveNoWord.clz (o : I1) : EventsHaveNoWord.Statement (.clz o) := by first | exact .inl rfl | exact .inr rfl
theorem EventsHaveNoWord.ctz (o : I1) : EventsHaveNoWord.Statement (.ctz o) := by first | exact .inl rfl | exact .inr rfl
theorem EventsHaveNoWord.brev (o : I1) : EventsHaveNoWord.Statement (.brev o) := by first | exact .inl rfl | exact .inr rfl
theorem EventsHaveNoWord.sel (o : I3) : EventsHaveNoWord.Statement (.sel o) := by first | exact .inl rfl | exact .inr rfl
theorem EventsHaveNoWord.cvt (src : IntTy) (o : I1) : EventsHaveNoWord.Statement (.cvt src o) := by first | exact .inl rfl | exact .inr rfl
theorem EventsHaveNoWord.dp4 (p : Pfx) (natural : Bool) (dst : Option Operand) (a : Operand) (b : Operand) (c : Operand) : EventsHaveNoWord.Statement (.dp4 p natural dst a b c) := by first | exact .inl rfl | exact .inr rfl
theorem EventsHaveNoWord.movi (p : Pfx) (k : MoviKind) (dst : Option Operand) (imm : BitVec 32) : EventsHaveNoWord.Statement (.movi p k dst imm) := by first | exact .inl rfl | exact .inr rfl
theorem EventsHaveNoWord.cmp (p : Pfx) (c : Cmp) (ty : IntTy) (dst : Option (Fin 8)) (a : Operand) (b : Operand) : EventsHaveNoWord.Statement (.cmp p c ty dst a b) := by first | exact .inl rfl | exact .inr rfl
theorem EventsHaveNoWord.pand (o : P2) : EventsHaveNoWord.Statement (.pand o) := by first | exact .inl rfl | exact .inr rfl
theorem EventsHaveNoWord.por (o : P2) : EventsHaveNoWord.Statement (.por o) := by first | exact .inl rfl | exact .inr rfl
theorem EventsHaveNoWord.pxor (o : P2) : EventsHaveNoWord.Statement (.pxor o) := by first | exact .inl rfl | exact .inr rfl
theorem EventsHaveNoWord.pnot (p : Pfx) (dst : Option (Fin 8)) (a : Fin 8) : EventsHaveNoWord.Statement (.pnot p dst a) := by first | exact .inl rfl | exact .inr rfl
theorem EventsHaveNoWord.fadd (o : F2) : EventsHaveNoWord.Statement (.fadd o) := by first | exact .inl rfl | exact .inr rfl
theorem EventsHaveNoWord.fsub (o : F2) : EventsHaveNoWord.Statement (.fsub o) := by first | exact .inl rfl | exact .inr rfl
theorem EventsHaveNoWord.fmul (o : F2) : EventsHaveNoWord.Statement (.fmul o) := by first | exact .inl rfl | exact .inr rfl
theorem EventsHaveNoWord.ffma (o : F3) : EventsHaveNoWord.Statement (.ffma o) := by first | exact .inl rfl | exact .inr rfl
theorem EventsHaveNoWord.fmin (o : F2) : EventsHaveNoWord.Statement (.fmin o) := by first | exact .inl rfl | exact .inr rfl
theorem EventsHaveNoWord.fmax (o : F2) : EventsHaveNoWord.Statement (.fmax o) := by first | exact .inl rfl | exact .inr rfl
theorem EventsHaveNoWord.fclass (o : F1) : EventsHaveNoWord.Statement (.fclass o) := by first | exact .inl rfl | exact .inr rfl
theorem EventsHaveNoWord.fround (o : F1) : EventsHaveNoWord.Statement (.fround o) := by first | exact .inl rfl | exact .inr rfl
theorem EventsHaveNoWord.fscale (o : F2) : EventsHaveNoWord.Statement (.fscale o) := by first | exact .inl rfl | exact .inr rfl
theorem EventsHaveNoWord.frcp (o : FS1) : EventsHaveNoWord.Statement (.frcp o) := by first | exact .inl rfl | exact .inr rfl
theorem EventsHaveNoWord.frsq (o : FS1) : EventsHaveNoWord.Statement (.frsq o) := by first | exact .inl rfl | exact .inr rfl
theorem EventsHaveNoWord.fsqrt (o : FS1) : EventsHaveNoWord.Statement (.fsqrt o) := by first | exact .inl rfl | exact .inr rfl
theorem EventsHaveNoWord.fdiv (o : FS1) (b : Operand) : EventsHaveNoWord.Statement (.fdiv o b) := by first | exact .inl rfl | exact .inr rfl
theorem EventsHaveNoWord.divideUnitCompletion (core : Nat) (p : Portion) : EventsHaveNoWord.Statement (.divideUnitCompletion core p) := by first | exact .inl rfl | exact .inr rfl
theorem EventsHaveNoWord.fexp2 (o : F1) : EventsHaveNoWord.Statement (.fexp2 o) := by first | exact .inl rfl | exact .inr rfl
theorem EventsHaveNoWord.flog2 (o : F1) : EventsHaveNoWord.Statement (.flog2 o) := by first | exact .inl rfl | exact .inr rfl
theorem EventsHaveNoWord.fsin (o : F1) : EventsHaveNoWord.Statement (.fsin o) := by first | exact .inl rfl | exact .inr rfl
theorem EventsHaveNoWord.fcos (o : F1) : EventsHaveNoWord.Statement (.fcos o) := by first | exact .inl rfl | exact .inr rfl
theorem EventsHaveNoWord.ftanh (o : F1) : EventsHaveNoWord.Statement (.ftanh o) := by first | exact .inl rfl | exact .inr rfl
theorem EventsHaveNoWord.ferf (o : F1) : EventsHaveNoWord.Statement (.ferf o) := by first | exact .inl rfl | exact .inr rfl
theorem EventsHaveNoWord.fsig (o : F1) : EventsHaveNoWord.Statement (.fsig o) := by first | exact .inl rfl | exact .inr rfl
theorem EventsHaveNoWord.fdot2 (o : F3) : EventsHaveNoWord.Statement (.fdot2 o) := by first | exact .inl rfl | exact .inr rfl
theorem EventsHaveNoWord.fdot4 (o : F3) : EventsHaveNoWord.Statement (.fdot4 o) := by first | exact .inl rfl | exact .inr rfl
theorem EventsHaveNoWord.fpack (p : Pfx) (f : PackFmt) (m : Rnd) (dst : Option Operand) (a : Operand) (b : Option Operand) (c : Option Operand) : EventsHaveNoWord.Statement (.fpack p f m dst a b c) := by cases f <;> exact .inl rfl
theorem EventsHaveNoWord.funpack (p : Pfx) (f : PackFmt) (dst : Option Operand) (a : Operand) (b : Operand) : EventsHaveNoWord.Statement (.funpack p f dst a b) := by cases f <;> exact .inl rfl
theorem EventsHaveNoWord.fcmp (p : Pfx) (c : Cmp) (f : Fmt) (dst : Option (Fin 8)) (a : Operand) (b : Operand) : EventsHaveNoWord.Statement (.fcmp p c f dst a b) := by first | exact .inl rfl | exact .inr rfl
theorem EventsHaveNoWord.fcvt (src : Fmt) (o : F1) : EventsHaveNoWord.Statement (.fcvt src o) := by first | exact .inl rfl | exact .inr rfl
theorem EventsHaveNoWord.ftoi (ty : IntTy) (o : F1) : EventsHaveNoWord.Statement (.ftoi ty o) := by first | exact .inl rfl | exact .inr rfl
theorem EventsHaveNoWord.itof (ty : IntTy) (o : F1) : EventsHaveNoWord.Statement (.itof ty o) := by first | exact .inl rfl | exact .inr rfl
theorem EventsHaveNoWord.rng (p : Pfx) (f32 : Bool) (dst : Option Operand) (a : Operand) : EventsHaveNoWord.Statement (.rng p f32 dst a) := by first | exact .inl rfl | exact .inr rfl
theorem EventsHaveNoWord.xidx (o : I2) : EventsHaveNoWord.Statement (.xidx o) := by first | exact .inl rfl | exact .inr rfl
theorem EventsHaveNoWord.xup (o : I2) : EventsHaveNoWord.Statement (.xup o) := by first | exact .inl rfl | exact .inr rfl
theorem EventsHaveNoWord.xdn (o : I2) : EventsHaveNoWord.Statement (.xdn o) := by first | exact .inl rfl | exact .inr rfl
theorem EventsHaveNoWord.xxor (o : I2) : EventsHaveNoWord.Statement (.xxor o) := by first | exact .inl rfl | exact .inr rfl
theorem EventsHaveNoWord.xbcast (o : I2) : EventsHaveNoWord.Statement (.xbcast o) := by first | exact .inl rfl | exact .inr rfl
theorem EventsHaveNoWord.ballot (p : Pfx) (dst : Option Operand) (a : PSrc) : EventsHaveNoWord.Statement (.ballot p dst a) := by first | exact .inl rfl | exact .inr rfl
theorem EventsHaveNoWord.vote (p : Pfx) (k : Vote) (dst : Option (Fin 8)) (a : PSrc) : EventsHaveNoWord.Statement (.vote p k dst a) := by first | exact .inl rfl | exact .inr rfl
theorem EventsHaveNoWord.popm (p : Pfx) (dst : Option Operand) (a : PSrc) : EventsHaveNoWord.Statement (.popm p dst a) := by first | exact .inl rfl | exact .inr rfl
theorem EventsHaveNoWord.xred (p : Pfx) (op : FoldOp) (ty : IntTy) (d : Operand) (a : Operand) (sb : Fin 8) : EventsHaveNoWord.Statement (.xred p op ty d a sb) := by first | exact .inl rfl | exact .inr rfl
theorem EventsHaveNoWord.xscan (p : Pfx) (inclusive : Bool) (op : FoldOp) (ty : IntTy) (d : Operand) (a : Operand) (sb : Fin 8) : EventsHaveNoWord.Statement (.xscan p inclusive op ty d a sb) := by first | exact .inl rfl | exact .inr rfl
theorem EventsHaveNoWord.reductionCompletion (core : Nat) (p : Portion) : EventsHaveNoWord.Statement (.reductionCompletion core p) := by first | exact .inl rfl | exact .inr rfl
theorem EventsHaveNoWord.ld (o : MLoad) : EventsHaveNoWord.Statement (.ld o) := by first | exact .inl rfl | exact .inr rfl
theorem EventsHaveNoWord.lds (o : MLoad) : EventsHaveNoWord.Statement (.lds o) := by first | exact .inl rfl | exact .inr rfl
theorem EventsHaveNoWord.ldc (o : MLoad) : EventsHaveNoWord.Statement (.ldc o) := by first | exact .inl rfl | exact .inr rfl
theorem EventsHaveNoWord.loadDataReturn (core : Nat) (id : Nat) (pos : Nat) (data : List Byte) (r : Returned) : EventsHaveNoWord.Statement (.loadDataReturn core id pos data r) := by first | exact .inl rfl | exact .inr rfl
theorem EventsHaveNoWord.st (o : MStore) : EventsHaveNoWord.Statement (.st o) := by first | exact .inl rfl | exact .inr rfl
theorem EventsHaveNoWord.ldx (o : MLoad) : EventsHaveNoWord.Statement (.ldx o) := by first | exact .inl rfl | exact .inr rfl
theorem EventsHaveNoWord.pref (p : Pfx) (m : MemRef) : EventsHaveNoWord.Statement (.pref p m) := by first | exact .inl rfl | exact .inr rfl
theorem EventsHaveNoWord.cwb (o : MRange) : EventsHaveNoWord.Statement (.cwb o) := by first | exact .inl rfl | exact .inr rfl
theorem EventsHaveNoWord.cwbi (o : MRange) : EventsHaveNoWord.Statement (.cwbi o) := by first | exact .inl rfl | exact .inr rfl
theorem EventsHaveNoWord.cinv (o : MRange) : EventsHaveNoWord.Statement (.cinv o) := by first | exact .inl rfl | exact .inr rfl
theorem EventsHaveNoWord.fence (p : Pfx) (sc : Scope) (k : FenceKind) : EventsHaveNoWord.Statement (.fence p sc k) := by first | exact .inl rfl | exact .inr rfl
theorem EventsHaveNoWord.atom (p : Pfx) (op : AtomOp) (team : Bool) (ty : IntTy) (d : Operand) (m : MemRef) (sb : Fin 8) : EventsHaveNoWord.Statement (.atom p op team ty d m sb) := by first | exact .inl rfl | exact .inr rfl
theorem EventsHaveNoWord.red (p : Pfx) (op : FoldOp) (team : Bool) (ty : IntTy) (d : Operand) (m : MemRef) : EventsHaveNoWord.Statement (.red p op team ty d m) := by first | exact .inl rfl | exact .inr rfl
theorem EventsHaveNoWord.cas (p : Pfx) (team : Bool) (w64 : Bool) (d : Operand) (m : MemRef) (sb : Fin 8) : EventsHaveNoWord.Statement (.cas p team w64 d m sb) := by first | exact .inl rfl | exact .inr rfl
theorem EventsHaveNoWord.bar (p : Pfx) (q : Operand) : EventsHaveNoWord.Statement (.bar p q) := by first | exact .inl rfl | exact .inr rfl
theorem EventsHaveNoWord.barArr (p : Pfx) (dst : Option Operand) (q : Operand) : EventsHaveNoWord.Statement (.barArr p dst q) := by first | exact .inl rfl | exact .inr rfl
theorem EventsHaveNoWord.barW (p : Pfx) (q : Operand) (t : Operand) : EventsHaveNoWord.Statement (.barW p q t) := by first | exact .inl rfl | exact .inr rfl
theorem EventsHaveNoWord.cbar (p : Pfx) : EventsHaveNoWord.Statement (.cbar p) := by first | exact .inl rfl | exact .inr rfl
theorem EventsHaveNoWord.gbar (p : Pfx) : EventsHaveNoWord.Statement (.gbar p) := by first | exact .inl rfl | exact .inr rfl
theorem EventsHaveNoWord.heldLaneRelease (core : Nat) (ctx : Nat) : EventsHaveNoWord.Statement (.heldLaneRelease core ctx) := by first | exact .inl rfl | exact .inr rfl
theorem EventsHaveNoWord.smadd (o : Sem2) : EventsHaveNoWord.Statement (.smadd o) := by first | exact .inl rfl | exact .inr rfl
theorem EventsHaveNoWord.smset (o : Sem2) : EventsHaveNoWord.Statement (.smset o) := by first | exact .inl rfl | exact .inr rfl
theorem EventsHaveNoWord.smwait (o : Sem2) : EventsHaveNoWord.Statement (.smwait o) := by first | exact .inl rfl | exact .inr rfl
theorem EventsHaveNoWord.semaphoreBind (core : Nat) (place : Nat) (k : Nat) : EventsHaveNoWord.Statement (.semaphoreBind core place k) := by first | exact .inl rfl | exact .inr rfl
theorem EventsHaveNoWord.waitc (p : Pfx) (c : WaitCmp) (w64 : Bool) (d : Operand) (m : MemRef) (sb : Fin 8) : EventsHaveNoWord.Statement (.waitc p c w64 d m sb) := by first | exact .inl rfl | exact .inr rfl
theorem EventsHaveNoWord.tcp (t : TW) : EventsHaveNoWord.Statement (.tcp t) := by first | exact .inl rfl | exact .inr rfl
theorem EventsHaveNoWord.tcpz (t : TW) : EventsHaveNoWord.Statement (.tcpz t) := by first | exact .inl rfl | exact .inr rfl
theorem EventsHaveNoWord.copyStart (core : Nat) (id : Nat) : EventsHaveNoWord.Statement (.copyStart core id) := by first | exact .inl rfl | exact .inr rfl
theorem EventsHaveNoWord.copyCompletion (core : Nat) (id : Nat) : EventsHaveNoWord.Statement (.copyCompletion core id) := by first | exact .inl rfl | exact .inr rfl
theorem EventsHaveNoWord.copyElementRetry (core : Nat) (id : Nat) : EventsHaveNoWord.Statement (.copyElementRetry core id) := by first | exact .inl rfl | exact .inr rfl
theorem EventsHaveNoWord.cseal (t : TW) : EventsHaveNoWord.Statement (.cseal t) := by first | exact .inl rfl | exact .inr rfl
theorem EventsHaveNoWord.cwait (t : TW) : EventsHaveNoWord.Statement (.cwait t) := by first | exact .inl rfl | exact .inr rfl
theorem EventsHaveNoWord.acalloc (d : Operand) (a : Operand) (p : Pfx) (sb : Fin 8) : EventsHaveNoWord.Statement (.acalloc d a p sb) := by first | exact .inl rfl | exact .inr rfl
theorem EventsHaveNoWord.acfree (p : Pfx) (a : Operand) (n : Operand) : EventsHaveNoWord.Statement (.acfree p a n) := by first | exact .inl rfl | exact .inr rfl
theorem EventsHaveNoWord.aczero (t : TW) : EventsHaveNoWord.Statement (.aczero t) := by first | exact .inl rfl | exact .inr rfl
theorem EventsHaveNoWord.acrd (t : TW) : EventsHaveNoWord.Statement (.acrd t) := by first | exact .inl rfl | exact .inr rfl
theorem EventsHaveNoWord.acwr (t : TW) : EventsHaveNoWord.Statement (.acwr t) := by first | exact .inl rfl | exact .inr rfl
theorem EventsHaveNoWord.mma (t : TW) : EventsHaveNoWord.Statement (.mma t) := by first | exact .inl rfl | exact .inr rfl
theorem EventsHaveNoWord.acst (t : TW) : EventsHaveNoWord.Statement (.acst t) := by first | exact .inl rfl | exact .inr rfl
theorem EventsHaveNoWord.zsplit (t : TW) : EventsHaveNoWord.Statement (.zsplit t) := by first | exact .inl rfl | exact .inr rfl
theorem EventsHaveNoWord.mmz (t : TW) : EventsHaveNoWord.Statement (.mmz t) := by first | exact .inl rfl | exact .inr rfl
theorem EventsHaveNoWord.zfold (t : TW) : EventsHaveNoWord.Statement (.zfold t) := by first | exact .inl rfl | exact .inr rfl
theorem EventsHaveNoWord.matrixCommandStart (core : Nat) (id : Nat) : EventsHaveNoWord.Statement (.matrixCommandStart core id) := by first | exact .inl rfl | exact .inr rfl
theorem EventsHaveNoWord.matrixCommandCompletion (core : Nat) (id : Nat) : EventsHaveNoWord.Statement (.matrixCommandCompletion core id) := by first | exact .inl rfl | exact .inr rfl
theorem EventsHaveNoWord.ldv (o : MLoad) : EventsHaveNoWord.Statement (.ldv o) := by first | exact .inl rfl | exact .inr rfl
theorem EventsHaveNoWord.ldvNt (o : MLoad) : EventsHaveNoWord.Statement (.ldvNt o) := by first | exact .inl rfl | exact .inr rfl
theorem EventsHaveNoWord.ldvResolution (core : Nat) (id : Nat) (region : Nat) : EventsHaveNoWord.Statement (.ldvResolution core id region) := by first | exact .inl rfl | exact .inr rfl
theorem EventsHaveNoWord.staleLimitExpiry (core : Nat) (id : Nat) (region : Nat) : EventsHaveNoWord.Statement (.staleLimitExpiry core id region) := by first | exact .inl rfl | exact .inr rfl
theorem EventsHaveNoWord.pinRelease (core : Nat) (id : Nat) (region : Nat) : EventsHaveNoWord.Statement (.pinRelease core id region) := by first | exact .inl rfl | exact .inr rfl
theorem EventsHaveNoWord.stv (o : MStore) : EventsHaveNoWord.Statement (.stv o) := by first | exact .inl rfl | exact .inr rfl
theorem EventsHaveNoWord.stvResolution (core : Nat) (id : Nat) : EventsHaveNoWord.Statement (.stvResolution core id) := by first | exact .inl rfl | exact .inr rfl
theorem EventsHaveNoWord.stvWriteCompletion (core : Nat) (id : Nat) : EventsHaveNoWord.Statement (.stvWriteCompletion core id) := by first | exact .inl rfl | exact .inr rfl
theorem EventsHaveNoWord.vpub (o : MRange) : EventsHaveNoWord.Statement (.vpub o) := by first | exact .inl rfl | exact .inr rfl
theorem EventsHaveNoWord.publicationAcceptance (core : Nat) (id : Nat) : EventsHaveNoWord.Statement (.publicationAcceptance core id) := by first | exact .inl rfl | exact .inr rfl
theorem EventsHaveNoWord.publish (rec : Nat) : EventsHaveNoWord.Statement (.publish rec) := by first | exact .inl rfl | exact .inr rfl
theorem EventsHaveNoWord.stepadv (p : Pfx) (d : Operand) (a : Operand) : EventsHaveNoWord.Statement (.stepadv p d a) := by first | exact .inl rfl | exact .inr rfl
theorem EventsHaveNoWord.steprd (p : Pfx) (d : Operand) (a : Operand) (sb : Fin 8) : EventsHaveNoWord.Statement (.steprd p d a sb) := by first | exact .inl rfl | exact .inr rfl
theorem EventsHaveNoWord.colopen (t : TW) : EventsHaveNoWord.Statement (.colopen t) := by first | exact .inl rfl | exact .inr rfl
theorem EventsHaveNoWord.colput (t : TW) : EventsHaveNoWord.Statement (.colput t) := by first | exact .inl rfl | exact .inr rfl
theorem EventsHaveNoWord.colwait (t : TW) : EventsHaveNoWord.Statement (.colwait t) := by first | exact .inl rfl | exact .inr rfl
theorem EventsHaveNoWord.colstat (p : Pfx) (d : Operand) (a : Operand) (sb : Fin 8) : EventsHaveNoWord.Statement (.colstat p d a sb) := by first | exact .inl rfl | exact .inr rfl
theorem EventsHaveNoWord.colclose (t : TW) : EventsHaveNoWord.Statement (.colclose t) := by first | exact .inl rfl | exact .inr rfl
theorem EventsHaveNoWord.trap (p : Pfx) (n : BitVec 27) : EventsHaveNoWord.Statement (.trap p n) := by first | exact .inl rfl | exact .inr rfl
theorem EventsHaveNoWord.tret (p : Pfx) (keep : Bool) (x : Option (Fin 64)) : EventsHaveNoWord.Statement (.tret p keep x) := by first | exact .inl rfl | exact .inr rfl
theorem EventsHaveNoWord.sget (p : Pfx) (dst : Option Operand) (r : SReg) : EventsHaveNoWord.Statement (.sget p dst r) := by first | exact .inl rfl | exact .inr rfl
theorem EventsHaveNoWord.sput (p : Pfx) (r : SReg) (a : Operand) : EventsHaveNoWord.Statement (.sput p r a) := by first | exact .inl rfl | exact .inr rfl
theorem EventsHaveNoWord.ctxldLoad (t : TW) : EventsHaveNoWord.Statement (.ctxldLoad t) := by first | exact .inl rfl | exact .inr rfl
theorem EventsHaveNoWord.ctxldUpdate (t : TW) : EventsHaveNoWord.Statement (.ctxldUpdate t) := by first | exact .inl rfl | exact .inr rfl
theorem EventsHaveNoWord.ctxldResume (t : TW) : EventsHaveNoWord.Statement (.ctxldResume t) := by first | exact .inl rfl | exact .inr rfl
theorem EventsHaveNoWord.ctxsvSnapshot (t : TW) : EventsHaveNoWord.Statement (.ctxsvSnapshot t) := by first | exact .inl rfl | exact .inr rfl
theorem EventsHaveNoWord.ctxsvStop (t : TW) : EventsHaveNoWord.Statement (.ctxsvStop t) := by first | exact .inl rfl | exact .inr rfl
theorem EventsHaveNoWord.ctxsvEvict (t : TW) : EventsHaveNoWord.Statement (.ctxsvEvict t) := by first | exact .inl rfl | exact .inr rfl
theorem EventsHaveNoWord.exposeExpose (t : TW) : EventsHaveNoWord.Statement (.exposeExpose t) := by first | exact .inl rfl | exact .inr rfl
theorem EventsHaveNoWord.exposeConfig (t : TW) : EventsHaveNoWord.Statement (.exposeConfig t) := by first | exact .inl rfl | exact .inr rfl
theorem EventsHaveNoWord.exposeJoin (t : TW) : EventsHaveNoWord.Statement (.exposeJoin t) := by first | exact .inl rfl | exact .inr rfl
theorem EventsHaveNoWord.exposureDrainCompletion (d : DrainEnd) : EventsHaveNoWord.Statement (.exposureDrainCompletion d) := by first | exact .inl rfl | exact .inr rfl
theorem EventsHaveNoWord.writeAtHome (core : Nat) (p : Portion) : EventsHaveNoWord.Statement (.writeAtHome core p) := by first | exact .inl rfl | exact .inr rfl
theorem EventsHaveNoWord.wcbDrain (core : Nat) (line : Nat) : EventsHaveNoWord.Statement (.wcbDrain core line) := by first | exact .inl rfl | exact .inr rfl
theorem EventsHaveNoWord.wcbLineTimeout (core : Nat) (line : Nat) : EventsHaveNoWord.Statement (.wcbLineTimeout core line) := by first | exact .inl rfl | exact .inr rfl
theorem EventsHaveNoWord.l1DirtyTimeout (core : Nat) (line : Nat) : EventsHaveNoWord.Statement (.l1DirtyTimeout core line) := by first | exact .inl rfl | exact .inr rfl
theorem EventsHaveNoWord.cleanLineExpiry (core : Nat) (line : Nat) : EventsHaveNoWord.Statement (.cleanLineExpiry core line) := by first | exact .inl rfl | exact .inr rfl
theorem EventsHaveNoWord.pageWalkCompletion (core : Nat) (ctx : Nat) (va : Nat) : EventsHaveNoWord.Statement (.pageWalkCompletion core ctx va) := by first | exact .inl rfl | exact .inr rfl
theorem EventsHaveNoWord.logRetry (core : Nat) (id : Nat) (timed : Bool) : EventsHaveNoWord.Statement (.logRetry core id timed) := by first | exact .inl rfl | exact .inr rfl
theorem EventsHaveNoWord.deferredTrapDelivery (core : Nat) (ctx : Nat) : EventsHaveNoWord.Statement (.deferredTrapDelivery core ctx) := by first | exact .inl rfl | exact .inr rfl
theorem EventsHaveNoWord.dlnExpiry (slot : Nat) : EventsHaveNoWord.Statement (.dlnExpiry slot) := by first | exact .inl rfl | exact .inr rfl
theorem EventsHaveNoWord.teamRestore (slot : Nat) (entry : Nat) (core : Nat) : EventsHaveNoWord.Statement (.teamRestore slot entry core) := by first | exact .inl rfl | exact .inr rfl
theorem EventsHaveNoWord.zenithInterval (slot : Nat) : EventsHaveNoWord.Statement (.zenithInterval slot) := by first | exact .inl rfl | exact .inr rfl
theorem EventsHaveNoWord.genWake (die : Nat) : EventsHaveNoWord.Statement (.genWake die) := by first | exact .inl rfl | exact .inr rfl
theorem EventsHaveNoWord.queueLinkArrival (die : Nat) (q : Nat) : EventsHaveNoWord.Statement (.queueLinkArrival die q) := by first | exact .inl rfl | exact .inr rfl
theorem EventsHaveNoWord.nodeKernel (die : Nat) (q : Nat) : EventsHaveNoWord.Statement (.nodeKernel die q) := by first | exact .inl rfl | exact .inr rfl
theorem EventsHaveNoWord.nodeCopy (die : Nat) (q : Nat) : EventsHaveNoWord.Statement (.nodeCopy die q) := by first | exact .inl rfl | exact .inr rfl
theorem EventsHaveNoWord.nodeCond (die : Nat) (q : Nat) : EventsHaveNoWord.Statement (.nodeCond die q) := by first | exact .inl rfl | exact .inr rfl
theorem EventsHaveNoWord.nodeLoop (die : Nat) (q : Nat) : EventsHaveNoWord.Statement (.nodeLoop die q) := by first | exact .inl rfl | exact .inr rfl
theorem EventsHaveNoWord.nodeWait (die : Nat) (q : Nat) : EventsHaveNoWord.Statement (.nodeWait die q) := by first | exact .inl rfl | exact .inr rfl
theorem EventsHaveNoWord.nodeWaitTimeout (die : Nat) (q : Nat) : EventsHaveNoWord.Statement (.nodeWaitTimeout die q) := by first | exact .inl rfl | exact .inr rfl
theorem EventsHaveNoWord.nodeSignal (die : Nat) (q : Nat) : EventsHaveNoWord.Statement (.nodeSignal die q) := by first | exact .inl rfl | exact .inr rfl
theorem EventsHaveNoWord.nodeColl (die : Nat) (q : Nat) : EventsHaveNoWord.Statement (.nodeColl die q) := by first | exact .inl rfl | exact .inr rfl
theorem EventsHaveNoWord.nodeExpose (die : Nat) (q : Nat) : EventsHaveNoWord.Statement (.nodeExpose die q) := by first | exact .inl rfl | exact .inr rfl
theorem EventsHaveNoWord.nodeEnd (die : Nat) (q : Nat) : EventsHaveNoWord.Statement (.nodeEnd die q) := by first | exact .inl rfl | exact .inr rfl
theorem EventsHaveNoWord.nodeCompletion (die : Nat) (q : Nat) (node : Nat) : EventsHaveNoWord.Statement (.nodeCompletion die q node) := by first | exact .inl rfl | exact .inr rfl
theorem EventsHaveNoWord.rangeHandDown (die : Nat) (cluster : Option Nat) : EventsHaveNoWord.Statement (.rangeHandDown die cluster) := by first | exact .inl rfl | exact .inr rfl
theorem EventsHaveNoWord.rangeSteal (die : Nat) (cluster : Option Nat) (victim : Nat) : EventsHaveNoWord.Statement (.rangeSteal die cluster victim) := by first | exact .inl rfl | exact .inr rfl
theorem EventsHaveNoWord.gbarGridPlacement (grid : Nat) : EventsHaveNoWord.Statement (.gbarGridPlacement grid) := by first | exact .inl rfl | exact .inr rfl
theorem EventsHaveNoWord.teamAdmission (core : Nat) : EventsHaveNoWord.Statement (.teamAdmission core) := by first | exact .inl rfl | exact .inr rfl
theorem EventsHaveNoWord.teamPark (core : Nat) : EventsHaveNoWord.Statement (.teamPark core) := by first | exact .inl rfl | exact .inr rfl
theorem EventsHaveNoWord.teamUnpark (core : Nat) (place : Nat) : EventsHaveNoWord.Statement (.teamUnpark core place) := by first | exact .inl rfl | exact .inr rfl
theorem EventsHaveNoWord.teamExit (core : Nat) (place : Nat) : EventsHaveNoWord.Statement (.teamExit core place) := by first | exact .inl rfl | exact .inr rfl
theorem EventsHaveNoWord.groupContextFree (core : Nat) (ctx : Nat) : EventsHaveNoWord.Statement (.groupContextFree core ctx) := by first | exact .inl rfl | exact .inr rfl
theorem EventsHaveNoWord.hostBarRead (bar0 : Bool) (o : Nat) (n : Nat) : EventsHaveNoWord.Statement (.hostBarRead bar0 o n) := by first | exact .inl rfl | exact .inr rfl
theorem EventsHaveNoWord.hostBarWrite (pa : Nat) (bytes : List Byte) : EventsHaveNoWord.Statement (.hostBarWrite pa bytes) := by first | exact .inl rfl | exact .inr rfl
theorem EventsHaveNoWord.hostAtomicop (op : HostOp) (n : Nat) (pa : Nat) (x : DWord) (y : DWord) : EventsHaveNoWord.Statement (.hostAtomicop op n pa x y) := by first | exact .inl rfl | exact .inr rfl
theorem EventsHaveNoWord.registerWrite (bar0 : Bool) (a : Nat) (x : DWord) (w64 : Bool) : EventsHaveNoWord.Statement (.registerWrite bar0 a x w64) := by first | exact .inl rfl | exact .inr rfl
theorem EventsHaveNoWord.linkRegisterWrite (w : LinkWrite) : EventsHaveNoWord.Statement (.linkRegisterWrite w) := by first | exact .inl rfl | exact .inr rfl
theorem EventsHaveNoWord.pstatWrite (port : Nat) (x : DWord) : EventsHaveNoWord.Statement (.pstatWrite port x) := by first | exact .inl rfl | exact .inr rfl
theorem EventsHaveNoWord.windowAnnouncement (m : Nat) (explog : Fin 16) : EventsHaveNoWord.Statement (.windowAnnouncement m explog) := by first | exact .inl rfl | exact .inr rfl
theorem EventsHaveNoWord.podPeerRequest (sender : Nat) (port : Nat) (ofs : Nat) (op : PeerOp) : EventsHaveNoWord.Statement (.podPeerRequest sender port ofs op) := by first | exact .inl rfl | exact .inr rfl
theorem EventsHaveNoWord.podPeerTimeout (core : Nat) (id : Nat) (pos : Nat) (port : Nat) : EventsHaveNoWord.Statement (.podPeerTimeout core id pos port) := by first | exact .inl rfl | exact .inr rfl
theorem EventsHaveNoWord.podFlush (sender : Nat) : EventsHaveNoWord.Statement (.podFlush sender) := by first | exact .inl rfl | exact .inr rfl
theorem EventsHaveNoWord.portSignalDetect (port : Nat) : EventsHaveNoWord.Statement (.portSignalDetect port) := by first | exact .inl rfl | exact .inr rfl
theorem EventsHaveNoWord.portTrainingDone (port : Nat) (lanes : Nat) : EventsHaveNoWord.Statement (.portTrainingDone port lanes) := by first | exact .inl rfl | exact .inr rfl
theorem EventsHaveNoWord.portLaneLost (port : Nat) : EventsHaveNoWord.Statement (.portLaneLost port) := by first | exact .inl rfl | exact .inr rfl
theorem EventsHaveNoWord.portErrorLimit (port : Nat) : EventsHaveNoWord.Statement (.portErrorLimit port) := by first | exact .inl rfl | exact .inr rfl
theorem EventsHaveNoWord.msixPendingSend (vec : Nat) : EventsHaveNoWord.Statement (.msixPendingSend vec) := by first | exact .inl rfl | exact .inr rfl
theorem EventsHaveNoWord.collectiveArrival (handle : Nat) (t : Nat) : EventsHaveNoWord.Statement (.collectiveArrival handle t) := by first | exact .inl rfl | exact .inr rfl
theorem EventsHaveNoWord.exponentTimerExpiry (handle : Nat) (t : Nat) : EventsHaveNoWord.Statement (.exponentTimerExpiry handle t) := by first | exact .inl rfl | exact .inr rfl
theorem EventsHaveNoWord.mantissaClose (handle : Nat) (t : Nat) : EventsHaveNoWord.Statement (.mantissaClose handle t) := by first | exact .inl rfl | exact .inr rfl
theorem EventsHaveNoWord.mantissaTimerExpiry (handle : Nat) (t : Nat) : EventsHaveNoWord.Statement (.mantissaTimerExpiry handle t) := by first | exact .inl rfl | exact .inr rfl
theorem EventsHaveNoWord.resultPublication (handle : Nat) (t : Nat) : EventsHaveNoWord.Statement (.resultPublication handle t) := by first | exact .inl rfl | exact .inr rfl
theorem EventsHaveNoWord.lateContribution (handle : Nat) (t : Nat) (pos : Nat) (m : LateMsg) : EventsHaveNoWord.Statement (.lateContribution handle t pos m) := by first | exact .inl rfl | exact .inr rfl
theorem EventsHaveNoWord.collectiveMessage (m : CollMsg) : EventsHaveNoWord.Statement (.collectiveMessage m) := by first | exact .inl rfl | exact .inr rfl
theorem EventsHaveNoWord.memberAdvanceMessage (replica : Nat) (podix : Nat) (step : BitVec 32) : EventsHaveNoWord.Statement (.memberAdvanceMessage replica podix step) := by first | exact .inl rfl | exact .inr rfl
theorem EventsHaveNoWord.podBeaconSend : EventsHaveNoWord.Statement .podBeaconSend := by first | exact .inl rfl | exact .inr rfl
theorem EventsHaveNoWord.podBeaconReceive (replica : Nat) (pod : Nat) (min : BitVec 32) (nlive : Nat) (epoch : BitVec 32) (need : BitVec 32) : EventsHaveNoWord.Statement (.podBeaconReceive replica pod min nlive epoch need) := by first | exact .inl rfl | exact .inr rfl
theorem EventsHaveNoWord.silentMarking (pod : Bool) (rank : Nat) (epoch : BitVec 32) (byPeer : Bool) : EventsHaveNoWord.Statement (.silentMarking pod rank epoch byPeer) := by first | exact .inl rfl | exact .inr rfl
theorem EventsHaveNoWord.detmCommit (grid : Nat) (team : Nat) : EventsHaveNoWord.Statement (.detmCommit grid team) := by first | exact .inl rfl | exact .inr rfl
theorem EventsHaveNoWord.moduleHalt : EventsHaveNoWord.Statement .moduleHalt := by first | exact .inl rfl | exact .inr rfl
theorem EventsHaveNoWord.powerPeriod : EventsHaveNoWord.Statement .powerPeriod := by first | exact .inl rfl | exact .inr rfl
theorem EventsHaveNoWord.thermalSense (temps : List Nat) : EventsHaveNoWord.Statement (.thermalSense temps) := by first | exact .inl rfl | exact .inr rfl
theorem EventsHaveNoWord.ageingSense (margins : List Nat) : EventsHaveNoWord.Statement (.ageingSense margins) := by first | exact .inl rfl | exact .inr rfl
theorem EventsHaveNoWord.pwrgdAssert : EventsHaveNoWord.Statement .pwrgdAssert := by first | exact .inl rfl | exact .inr rfl
theorem EventsHaveNoWord.pwrgdDeassert : EventsHaveNoWord.Statement .pwrgdDeassert := by first | exact .inl rfl | exact .inr rfl
theorem EventsHaveNoWord.resetNAssert : EventsHaveNoWord.Statement .resetNAssert := by first | exact .inl rfl | exact .inr rfl
theorem EventsHaveNoWord.selftestCompletion (r : SelfTest) : EventsHaveNoWord.Statement (.selftestCompletion r) := by first | exact .inl rfl | exact .inr rfl
theorem EventsHaveNoWord.mctpRecover : EventsHaveNoWord.Statement .mctpRecover := by first | exact .inl rfl | exact .inr rfl
theorem EventsHaveNoWord.mctpCommit (len : Nat) : EventsHaveNoWord.Statement (.mctpCommit len) := by first | exact .inl rfl | exact .inr rfl
theorem EventsHaveNoWord.getSelftest : EventsHaveNoWord.Statement .getSelftest := by first | exact .inl rfl | exact .inr rfl
theorem EventsHaveNoWord.getVersion : EventsHaveNoWord.Statement .getVersion := by first | exact .inl rfl | exact .inr rfl
theorem EventsHaveNoWord.getCapabilities : EventsHaveNoWord.Statement .getCapabilities := by first | exact .inl rfl | exact .inr rfl
theorem EventsHaveNoWord.negotiateAlgorithms (algos : List Nat) : EventsHaveNoWord.Statement (.negotiateAlgorithms algos) := by first | exact .inl rfl | exact .inr rfl
theorem EventsHaveNoWord.getDigests : EventsHaveNoWord.Statement .getDigests := by first | exact .inl rfl | exact .inr rfl
theorem EventsHaveNoWord.getCertificate (slot : Nat) (ofs : Nat) (len : Nat) : EventsHaveNoWord.Statement (.getCertificate slot ofs len) := by first | exact .inl rfl | exact .inr rfl
theorem EventsHaveNoWord.challenge (slot : Nat) (nonce : List Byte) : EventsHaveNoWord.Statement (.challenge slot nonce) := by first | exact .inl rfl | exact .inr rfl
theorem EventsHaveNoWord.getMeasurements (index : Nat) : EventsHaveNoWord.Statement (.getMeasurements index) := by first | exact .inl rfl | exact .inr rfl
theorem EventsHaveNoWord.podixAssignment (n : Fin 1024) : EventsHaveNoWord.Statement (.podixAssignment n) := by first | exact .inl rfl | exact .inr rfl
theorem EventsHaveNoWord.exposureStopEnd : EventsHaveNoWord.Statement .exposureStopEnd := by first | exact .inl rfl | exact .inr rfl
theorem EventsHaveNoWord.joinCompletion (d : JoinData) : EventsHaveNoWord.Statement (.joinCompletion d) := by first | exact .inl rfl | exact .inr rfl
theorem EventsHaveNoWord.engineElementRetry (core : Nat) (id : Nat) : EventsHaveNoWord.Statement (.engineElementRetry core id) := by first | exact .inl rfl | exact .inr rfl
theorem EventsHaveNoWord.fetchFaultReplay (core : Nat) (ctx : Nat) : EventsHaveNoWord.Statement (.fetchFaultReplay core ctx) := by first | exact .inl rfl | exact .inr rfl
theorem EventsHaveNoWord.fecCodewordEvent (port : Nat) (e : FecEvent) : EventsHaveNoWord.Statement (.fecCodewordEvent port e) := by first | exact .inl rfl | exact .inr rfl
theorem EventsHaveNoWord.stepadvNeedAnnounce (own : Bool) (core : Nat) (ctx : Nat) (step : BitVec 32) : EventsHaveNoWord.Statement (.stepadvNeedAnnounce own core ctx step) := by first | exact .inl rfl | exact .inr rfl

end Sys2Proof.Laws
end

