-- ==== Sys2Proof/Tests/Slice0.lean ====
section
/-!
SUPPORT. Sys2Proof/Tests/Slice0.lean: the author's own tests, each about one step or less, with results written out from the
spec; and for each statement a state and operands that meet its hypotheses.
-/
namespace Sys2Proof.Tests
open Sys2Proof Sys2Proof.Machine
set_option Elab.async false

/-! ### Decoding: words written out from the spec's encodings and examples -/

/-- R37's fields; the words of the divergence program. -/
theorem test_decode_control :
    decodeTableWord 64 0x0020000000000004 = some (.br np .always 4) ∧
    decodeTableWord 64 0x0030C0C8FFFFFFF8 = some (.brc np (.test .nz (.p 3)) (BitVec.ofInt 32 (-8))) ∧
    decodeTableWord 64 0x0080000000000000 = some (.exit np) ∧
    decodeTableWord 64 0x0100600000000000 = some (.yieldpt np 96) := by decide +kernel
/-- R32, R34; the words of `addc` chains and of the bit transpose. -/
theorem test_decode_integer :
    decodeTableWord 64 0x10C0801006020001 = some (.and ⟨np, .n32, none, .lat 0, .lit 1⟩) ∧
    decodeTableWord 64 0x11B000301C050200 = some (.sel ⟨np, .i32, some (.v 1), .lat 3, .lat 2, .lat 4⟩) ∧
    decodeTableWord 64 0x1001005010000000 = some (.mov ⟨⟨false, 1⟩, .i32, some (.v 2), .lat 2⟩) ∧
    decodeTableWord 64 0x1310246080040020 = some (.movi np .b32 (some (.s 35)) 0x80040020) := by decide +kernel
/-- R55: `fmul.f32 v2, v1, s12` of the quorum step program; OPC 0x280 + 8·4 of `fcvt.e4m3.f32`. -/
theorem test_decode_float :
    decodeTableWord 64 0x208000400A180000 = some (.fmul ⟨np, .f32, .rne, some (.v 2), .v 1, .s 12⟩) ∧
    decodeTableWord 64 0x2A00006040000004 = some (.fcvt .f32 ⟨np, .e4m3, .rsr, some (.v 3), .v 8⟩) := by decide +kernel
/-- R56: `xxor.b32 _, v1, #16` and `ballot` of the bit transpose. -/
theorem test_decode_crosslane :
    decodeTableWord 64 0x303080000E200000 = some (.xxor ⟨np, .i32, none, .v 1, .lit 16⟩) ∧
    decodeTableWord 64 0x3100801008000000 = some (.ballot np none (.lat 1)) := by decide +kernel
/-- R36: `ld.b32` with OFS 0x1FFC of the graph program, `lds.b128`, `st.b32`. -/
theorem test_decode_memory :
    decodeTableWord 64 0x402000480003FFC9 = some (.ld ⟨np, .b32, .v 2, ⟨.s 0, .v 1, 0x1FFC, true⟩, 1⟩) ∧
    decodeTableWord 64 0x41402288020A0101 = some (.lds ⟨np, .b128, .s 20, ⟨.s 0, .s 5, 0x010, false⟩, 1⟩) ∧
    decodeTableWord 64 0x40A0004800001008 = some (.st ⟨np, .b32, .v 2, ⟨.s 0, .v 0, 0x100, true⟩⟩) := by decide +kernel
/-- R58: `atom.add.n32`, `bar`, `cbar`, `smadd #3, #1`. -/
theorem test_decode_sync :
    decodeTableWord 64 0x501000C806000001 = some (.atom np (.fold .add) false .n32 (.v 6) ⟨.s 0, .lit 0, 0, false⟩ 1) ∧
    decodeTableWord 64 0x5C30000000000000 = some (.cbar np) ∧
    decodeTableWord 64 0x5C80181E02000000 = none ∧
    decodeTableWord 64 0x5C8000181E020000 = some (.smadd ⟨np, .lit 3, .lit 1⟩) := by decide +kernel
/-- R38, R58: `tcp s16` with INCEN, `acrd s26, sb3`, `zsplit s32, sb2`. -/
theorem test_decode_engines :
    decodeTableWord 64 0x6000100080000002 = some (.tcp ⟨np, 16, some ⟨0, 0⟩, none, 0, 2⟩) ∧
    decodeTableWord 64 0x71001A0000000003 = some (.acrd ⟨np, 26, none, none, 0, 3⟩) ∧
    decodeTableWord 64 0x7310200000000002 = some (.zsplit ⟨np, 32, none, none, 0, 2⟩) := by decide +kernel
/-- R59: `stv.b32`, `colopen s0, sb1`, `tret`, `trap #0x2A` under p1. -/
theorem test_decode_version_and_system :
    decodeTableWord 64 0x81200068C0000008 = some (.stv ⟨np, .b32, .v 3, ⟨.s 24, .v 0, 0, true⟩⟩) ∧
    decodeTableWord 64 0x8400000000000001 = some (.colopen ⟨np, 0, none, none, 0, 1⟩) ∧
    decodeTableWord 64 0x8300214858000000 = some (.stepadv np (.s 10) (.s 11)) ∧
    decodeTableWord 64 0x900100000000002A = some (.trap ⟨false, 1⟩ 0x2A) := by decide +kernel
/-- R62: an opcode that no row names, and R30: a reserved bit. -/
theorem test_decode_refuses : decodeTableWord 64 0x0090000000000000 = none ∧ decodeTableWord 64 0x0080000000000001 = none := by
  decide +kernel

/-! ### Well-formedness: one term that each check refuses -/

theorem test_form_event : Instr.wellFormed .podBeaconSend = false := by decide +kernel
theorem test_form_unassigned : formError (.fdot2 ⟨np, .f32, .rne, none, .v 0, .v 1, .v 2⟩) = some .unassigned := by decide +kernel
theorem test_form_modeField : formError (.fmin ⟨np, .f32, .rtz, none, .v 0, .v 1⟩) = some .modeField := by decide +kernel
theorem test_form_equalTypes : formError (.cvt .i32 ⟨np, .i32, none, .v 0⟩) = some .equalTypes := by decide +kernel
theorem test_form_reservedField : formError (.pref np ⟨.s 0, .v 0, 0, true⟩) = some .reservedField := by decide +kernel
theorem test_form_operandField : formError (.sput np .step (.s 0)) = some .operandField := by decide +kernel
theorem test_form_operandClass : formError (.mov ⟨np, .i32, some (.lat 0), .v 0⟩) = some .operandClass := by decide +kernel
theorem test_form_registerAlign : formError (.mov ⟨np, .i64, some (.v 3), .v 0⟩) = some .registerAlign := by decide +kernel
theorem test_form_predicateDest : formError (.pand ⟨np, some 0, 1, 2⟩) = some .predicateDest := by decide +kernel
theorem test_form_blockFields : formError (.tcp ⟨np, 252, none, none, 0, 1⟩) = some .blockFields := by decide +kernel
theorem test_form_prefixField : formError (.br ⟨false, 1⟩ .always 0) = some .prefixField := by decide +kernel
theorem test_form_good : Instr.wellFormed (.bar np (.lit 0)) = true ∧ Instr.wellFormed (.mov ⟨np, .i64, some (.v 4), .v 0⟩) = true := by
  decide +kernel

/-! ### One word in a small state -/

/-- The state in which `i` is the next word of the first group, that group in focus. -/
def stI (i : Instr) : State := { State.reset.placeWord ((encodeNat i).getD 0) with focus := some (0, 0) }

/-- The next state of an outcome. -/
def after (o : Host.Outcome State Fault Refusal) : State := match o with
  | .next t => t
  | _ => State.reset

/-- Every lane, in one pass. -/
def mapLanes (f : Nat → Lane → Lane) (s : State) : State :=
  { s with cores := s.cores.map fun k => (k.1, { k.2 with lanes := k.2.lanes.map fun l => (l.1, f l.1 l.2) }) }
/-- Registers of every lane of the first group. -/
def lanesWith (ws : List (Nat × Nat)) (s : State) : State :=
  mapLanes (fun _ l => { l with v := ws.foldl (fun v w => regsSet v w.1 1 w.2) l.v }) s
/-- Scalars of the first group. -/
def scalarsWith (ws : List (Nat × Nat)) (s : State) : State :=
  s.modGroup 0 0 fun x => { x with scal := ws.foldl (fun v w => regsSet v w.1 1 w.2) x.scal }

/-- Vector register `r` of lane `p` of core 0, and a scalar of the first group. -/
def vOf (s : State) (p r : Nat) : Nat := (regGet (s.lane 0 p).v r).toNat
def sOf (s : State) (r : Nat) : Nat := (s.group? 0 0).elim 0 fun x => (regGet x.scal r).toNat
def gstOf (s : State) : Nat := (s.group? 0 0).elim 0 fun x => x.gst.toNat

/-- The example of the integer section: v0 = 0x8000_00F0, s4 = 0x0404, s5 = 0x031C, v2 and v3 as given. -/
def intEx (i : Instr) : Nat :=
  vOf (after (exec i (scalarsWith [(4, 0x404), (5, 0x31C)] (lanesWith [(0, 0x800000F0), (2, 0x8001FF02), (3, 0x02030405)] (stI i))))) 3 1

theorem test_shl_whole : intEx (.shl ⟨np, .n32, some (.v 1), .v 0, .lit 32⟩) = 0 := by decide +kernel
theorem test_sar_whole : intEx (.sar ⟨np, .i32, some (.v 1), .v 0, .lit 40⟩) = 0xFFFFFFFF := by decide +kernel
theorem test_shr : intEx (.shr ⟨np, .i32, some (.v 1), .v 0, .lit 4⟩) = 0x0800000F := by decide +kernel
theorem test_rol : intEx (.rol ⟨np, .n32, some (.v 1), .v 0, .lit 36⟩) = 0xF08 := by decide +kernel
theorem test_abs : intEx (.abs ⟨np, .i32, some (.v 1), .v 0⟩) = 0x7FFFFF10 := by decide +kernel
theorem test_bfx_signed : intEx (.bfx ⟨np, .i32, some (.v 1), .v 0, .s 4⟩) = 0xFFFFFFFF := by decide +kernel
theorem test_bfx_natural : intEx (.bfx ⟨np, .n32, some (.v 1), .v 0, .s 4⟩) = 0xF := by decide +kernel
theorem test_bfi : intEx (.bfi ⟨np, .n32, some (.v 1), .v 0, .lit 5, .s 5⟩) = 0xD00000F0 := by decide +kernel
theorem test_cvt_saturates : intEx (.cvt .i32 ⟨np, .i8, some (.v 1), .v 0⟩) = 0xFFFFFF80 := by decide +kernel
theorem test_mov_narrow : intEx (.mov ⟨np, .i8, some (.v 1), .v 0⟩) = 0xFFFFFFF0 ∧ intEx (.mov ⟨np, .n16, some (.v 1), .v 0⟩) = 0xF0 := by
  decide +kernel
theorem test_popc : intEx (.popc ⟨np, .n32, some (.v 1), .v 0⟩) = 5 := by decide +kernel
theorem test_clz : intEx (.clz ⟨np, .n32, some (.v 1), .v 0⟩) = 0 ∧ intEx (.clz ⟨np, .n16, some (.v 1), .v 0⟩) = 8 := by decide +kernel
theorem test_ctz : intEx (.ctz ⟨np, .n32, some (.v 1), .v 0⟩) = 4 := by decide +kernel
theorem test_brev : intEx (.brev ⟨np, .n32, some (.v 1), .v 0⟩) = 0x0F000001 := by decide +kernel
theorem test_dp4 : intEx (.dp4 np false (some (.v 1)) (.v 2) (.v 3) (.lit 0)) = 0xFFFFFF09 ∧
    intEx (.dp4 np true (some (.v 1)) (.v 2) (.v 3) (.lit 0)) = 0x509 := by decide +kernel
/-- Second word of the carry chain of the same section. -/
theorem test_addc : let t := after (exec (.addc ⟨np, .n32, some (.v 10), .v 1, .v 4, .v 9⟩)
      (lanesWith [(1, 0xFFFFFFFF), (4, 0), (9, 1)] (stI (.addc ⟨np, .n32, some (.v 10), .v 1, .v 4, .v 9⟩))))
    vOf t 0 10 = 0 ∧ vOf t 0 11 = 1 := by decide +kernel
/-- R153: the exact sum wraps; R154: the high half of −1 × 1 is −1. -/
theorem test_add_wraps : intEx (.add ⟨np, .i32, some (.v 1), .v 0, .v 0⟩) = 0x1E0 := by decide +kernel
theorem test_mulh_signed : intEx (.mulh ⟨np, .i32, some (.v 1), .lit 0xFF, .lit 1⟩) = 0xFFFFFFFF := by decide +kernel
/-- `cmp.lt.i32 p1, v0, #0` and `cmp.lt.n32 p2, v0, #-1` of the same table; the source 0xFF reads as −1 (R32). -/
theorem test_cmp : let f := fun (i : Instr) => after (exec i (lanesWith [(0, 0x800000F0)] (stI i)))
    predGet ((f (.cmp np .lt .i32 (some 1) (.v 0) (.lit 0))).lane 0 5) 1 = true ∧
    predGet ((f (.cmp np .lt .n32 (some 2) (.v 0) (.lit 0xFF))).lane 0 5) 2 = true := by decide +kernel

/-- The worked examples of the float section. -/
theorem test_ffma_once : let i : Instr := .ffma ⟨np, .f32, .rne, some (.v 5), .v 1, .v 2, .s 3⟩
    let t := after (exec i (scalarsWith [(3, 0xBF801000)] (lanesWith [(1, 0x3F800800), (2, 0x3F800800)] (stI i))))
    vOf t 0 5 = 0x33800000 ∧ gstOf t = 0 := by decide +kernel
theorem test_fmul_tie : let i : Instr := .fmul ⟨np, .f32, .rne, some (.v 5), .v 1, .v 2⟩
    let t := after (exec i (lanesWith [(1, 0x3F800800), (2, 0x3F800800)] (stI i)))
    vOf t 0 5 = 0x3F801000 ∧ gstOf t = 16 := by decide +kernel
theorem test_fpack_saturates : let i : Instr := .fpack np .e4m3 .rne (some (.v 7)) (.v 1) (some (.v 2)) (some (.lit 0))
    let t := after (exec i (lanesWith [(1, 0x3E99999A), (2, 0xC3FA0000)] (stI i)))
    vOf t 0 7 = 0xFE2A ∧ gstOf t = 20 := by decide +kernel
theorem test_funpack : let i : Instr := .funpack np .e4m3 (some (.v 8)) (.v 7) (.lit 1)
    vOf (after (exec i (lanesWith [(7, 0xFE2A)] (stI i)))) 0 8 = 0xC3E00000 := by decide +kernel
/-- The grouped sum of the number section: the term 2⁻⁹ is cut, and the tie goes to the even code, with NX. -/
theorem test_fdot4 : let i : Instr := .fdot4 ⟨np, .e4m3, .rne, some (.v 3), .v 1, .v 2, .v 4⟩
    let t := after (exec i (lanesWith [(1, 0x08282830), (2, 0x20383838), (4, 0x4B800000)] (stI i)))
    vOf t 0 3 = 0x4B800000 ∧ gstOf t = 16 := by decide +kernel
/-- Codes of the .mk8 example: −96 is 0x9A, 0.375 is 0x6C (R65). -/
theorem test_mk8 : let i : Instr := .fcvt .mk8 ⟨np, .f32, .rne, some (.v 3), .v 1⟩
    vOf (after (exec i (lanesWith [(1, 0x9A)] (stI i)))) 0 3 = 0xC2C00000 ∧
    vOf (after (exec i (lanesWith [(1, 0x6C)] (stI i)))) 0 3 = 0x3EC00000 := by decide +kernel

/-- The cross-lane example, with a group at position 0: v1 = 100 + LANEIX. -/
def xEx (i : Instr) : List Nat :=
  let s := mapLanes (fun p l => { l with v := regsSet l.v 1 1 (100 + p) }) (stI i)
  let t := after (exec i s)
  (natRange 0 8).map fun p => vOf t p 2

theorem test_xup : xEx (.xup ⟨np, .i32, some (.v 2), .v 1, .lit 3⟩) = [105, 106, 107, 100, 101, 102, 103, 104] := by decide +kernel
theorem test_xdn : xEx (.xdn ⟨np, .i32, some (.v 2), .v 1, .lit 3⟩) = [103, 104, 105, 106, 107, 100, 101, 102] := by decide +kernel
theorem test_xxor : xEx (.xxor ⟨np, .i32, some (.v 2), .v 1, .lit 5⟩) = [105, 104, 107, 106, 101, 100, 103, 102] := by decide +kernel
theorem test_xidx : xEx (.xidx ⟨np, .i32, some (.v 2), .v 1, .lit 0xFF⟩) = [107, 107, 107, 107, 107, 107, 107, 107] := by decide +kernel
/-- R192: lanes 1, 2 and 5 are not zero. -/
theorem test_ballot : let i : Instr := .ballot np (some (.s 8)) (.v 1)
    sOf (after (exec i ((stI i).setV 0 1 1 1 7 |>.setV 0 2 1 1 1 |>.setV 0 5 1 1 9))) 8 = 0x26 := by decide +kernel
/-- `sget s10, CTXID` (R94) in slot 0, and a `trap` that halts its context where HVEC is zero (R332). -/
theorem test_sget_laneix : let i : Instr := .sget np (some (.v 2)) .laneix
    vOf (after (exec i (stI i))) 5 2 = 5 := by decide +kernel
theorem test_trap_without_vector : let i : Instr := .trap np 0x2A
    ((after (exec i (stI i))).ctx 0).state = .halted := by decide +kernel
/-- R144, R37: WOFS counts words from the header of the clause; `exit` leaves all ones in `lpc` (R134). -/
theorem test_br : let i : Instr := .br np .always 4
    ((after (exec i (stI i))).lane 0 7).lpc = BitVec.ofNat 64 (bootCode + 32) := by decide +kernel
theorem test_exit : let i : Instr := .exit np
    let t := after (exec i (stI i))
    (t.lane 0 0).lpc = BitVec.allOnes 64 ∧ (t.group? 0 0).map (·.state) = some .exiting := by decide +kernel
/-- R265: five `smadd #3, #1` and one more give 6. -/
theorem test_smadd : let i : Instr := .smadd ⟨np, .lit 3, .lit 1⟩
    ((after (exec i ((stI i).semSet 0 0 3 5))).team? 0 0).map (·.semCount 3) = some 6 := by decide +kernel
/-- A step takes the word that stands where it fetches (R28): `mov` of a literal runs as the first instruction after reset. -/
theorem test_first_step : vOf (after (step (State.reset.withFetchWord 64 ((encodeNat (.mov ⟨np, .i32, some (.v 2), .lit 7⟩)).getD 0)))) 4 2 = 7 := by
  decide +kernel
/-- The boot record of R406: a passed self-test with a good image is the one way to RUN; a failed one is SAFE with RESULT 1. -/
theorem test_selftest_fails : let s := after (exec (.selftestCompletion ⟨0, 0, 2, 5, []⟩) (after (exec .pwrgdAssert State.reset)))
    s.life = .safe ∧ s.root.result = 1 ∧ s.root.stage = 2 ∧ s.root.failUnit = 5 := by decide +kernel
/-- Water-filling (R408): 24 dies that ask for 24 cores each share 144: six each. -/
theorem test_waterFill : waterFill 144 (List.replicate 24 24) = List.replicate 24 6 ∧ waterFill 5 [1, 4, 4] = [1, 2, 2] := by decide +kernel

/-- What a test on the entry of a table says of the entry. -/
theorem someOf {α : Type} {o : Option α} {p : α → Prop} [DecidablePred p] (h : o.any (fun a => decide (p a)) = true) :
    ∃ a, o = some a ∧ p a := by
  cases o with
  | none => cases h
  | some a => exact ⟨a, rfl, of_decide_eq_true h⟩

theorem someOf2 {α β : Type} {o : Option α} {f : α → Option β} {p : α → β → Prop} [∀ a, DecidablePred (p a)]
    (h : o.any (fun a => (f a).any fun b => decide (p a b)) = true) : ∃ a b, o = some a ∧ f a = some b ∧ p a b := by
  cases o with
  | none => cases h
  | some a => obtain ⟨b, h1, h2⟩ := someOf (p := p a) (o := f a) h; exact ⟨a, b, rfl, h1, h2⟩
theorem someOf3 {α β γ : Type} {o : Option α} {f : α → Option β} {g : α → β → Option γ} {p : α → β → γ → Prop}
    [∀ a b, DecidablePred (p a b)] (h : o.any (fun a => (f a).any fun b => (g a b).any fun x => decide (p a b x)) = true) :
    ∃ a b x, o = some a ∧ f a = some b ∧ g a b = some x ∧ p a b x := by
  cases o with
  | none => cases h
  | some a => obtain ⟨b, x, h1, h2, h3⟩ := someOf2 (p := p a) (o := f a) (f := g a) h; exact ⟨a, b, x, rfl, h1, h2, h3⟩

/-! ### States and operands that meet the hypotheses of the statements about words -/

/-- Core, group, cursor and C of the first group. -/
def envOf (i : Instr) (s : State) : Env :=
  let x0 := newGroup (bootGrid .vector) 0 0 0 0 0
  let x := (s.group? 0 0).getD x0
  let cu := x.cur.getD { base := 0, ecl := .vector, words := [], k := 0, issuing := [], live := [], gx := Vector.replicate 16 0, step := 0 }
  { c := 0, g := 0, x := x, cu := cu, i := i, lanes := effectLanes s 0 cu ((pfxOf i).getD pfx0) }

/-- The conditions of `Runs`, as one test. -/
def runsOk (i : Instr) (s : State) : Bool :=
  let e := envOf i s
  s.focus == some (0, 0) && (s.group? 0 0).isSome && e.x.cur.isSome && i.wellFormed && !e.lanes.isEmpty &&
    (wordFault s 0 e.x e.cu i).isNone

theorem runs_of {i : Instr} {s : State} (h : runsOk i s = true) : Runs i (envOf i s) s := by
  simp only [runsOk, Bool.and_eq_true, beq_iff_eq, Option.isNone_iff_eq_none, Bool.not_eq_true', Option.isSome_iff_exists] at h
  obtain ⟨⟨⟨⟨⟨h1, x, h2⟩, y, h3⟩, h4⟩, h5⟩, h6⟩ := h
  have hx : (envOf i s).x = x := by simp [envOf, h2]
  have hy : (envOf i s).cu = y := by simp only [envOf, h2, Option.getD_some] at h3 ⊢; simp [h3]
  exact { focus := h1, group := by rw [hx]; exact h2, cursor := by rw [h3, hy], word := rfl, form := h4, lanes := rfl,
          active := fun he => by simp [he] at h5, fine := h6 }

/-- The conditions of `Quiet`, as one test. -/
def quietOk (s : State) (c : Nat) : Bool :=
  let k := s.core c
  k.pend.isEmpty && k.log.isEmpty && k.flights.isEmpty && k.wcb.isEmpty && (k.l1.all fun l => l.2.dirty == 0) && k.cmds.isEmpty &&
    k.peersWritten.isEmpty && s.transit.isEmpty

theorem quiet_of {s : State} {c : Nat} (h : quietOk s c = true) : Quiet s c := by
  simp only [quietOk, Bool.and_eq_true, List.isEmpty_iff, List.all_eq_true, beq_iff_eq] at h
  obtain ⟨⟨⟨⟨⟨⟨⟨h1, h2⟩, h3⟩, h4⟩, h5⟩, h6⟩, h7⟩, h8⟩ := h
  exact ⟨h1, h2, h3, h4, h5, h6, h7, h8⟩

def iAdd : Instr := .add ⟨np, .i32, some (.v 1), .v 0, .v 63⟩
theorem witness_IntegerResults : ∃ i e s f, Runs i e s ∧ intForm i = some f :=
  ⟨iAdd, _, stI iAdd, _, runs_of (by decide +kernel), rfl⟩
/-- The same of a clause that runs once, with scalars up to s255. -/
def iAddS : Instr := .add ⟨np, .i64, some (.s 254), .s 0, .lit 3⟩
theorem witness_IntegerResults_scalar : ∃ i e s f, Runs i e s ∧ intForm i = some f ∧ e.once = true :=
  ⟨iAddS, _, stI iAddS, _, runs_of (by decide +kernel), rfl, by decide +kernel⟩
def iVote : Instr := .vote np .all (some 7) (.v 2)
theorem witness_PredicateResults : ∃ i e s f, Runs i e s ∧ predForm i = some f := ⟨iVote, _, stI iVote, _, runs_of (by decide +kernel), rfl⟩
def iFcmp : Instr := .fcmp np .lt .f32 (some 1) (.v 0) (.v 1)
theorem witness_FloatCompareResult : ∃ q c f d a b e s, Runs (.fcmp q c f d a b) e s :=
  ⟨_, _, _, _, _, _, _, stI iFcmp, runs_of (i := iFcmp) (by decide +kernel)⟩
def iFadd : Instr := .fadd ⟨np, .f32, .rsr, some (.v 5), .v 0, .v 1⟩
theorem witness_FloatResults : ∃ i e s f, Runs i e s ∧ e.lanes.Nodup ∧ floatForm i = some f ∧ f.m = .rsr :=
  ⟨iFadd, _, stI iFadd, _, runs_of (by decide +kernel), by decide +kernel, rfl, rfl⟩
def iFcvt : Instr := .fcvt .f64 ⟨np, .e4m3, .rup, some (.v 63), .v 0⟩
theorem witness_FloatConversionsFollowTheirRules : ∃ src o e s, Runs (.fcvt src o) e s ∧ e.lanes.Nodup :=
  ⟨_, _, _, stI iFcvt, runs_of (i := iFcvt) (by decide +kernel), by decide +kernel⟩
def iFtoi : Instr := .ftoi .n64 ⟨np, .bf16, .rdn, some (.v 62), .v 0⟩
theorem witness_FloatConversionsFollowTheirRules_integer : ∃ ty o e s, Runs (.ftoi ty o) e s ∧ e.lanes.Nodup :=
  ⟨_, _, _, stI iFtoi, runs_of (i := iFtoi) (by decide +kernel), by decide +kernel⟩
def iFdiv : Instr := .fdiv ⟨np, .f64, .rne, .v 62, .v 0, 7⟩ (.v 2)
theorem witness_SlotResultsIssue : ∃ i e s f, Runs i e s ∧ e.lanes.Nodup ∧ slotForm i = some f ∧ e.x.sbCount f.sb.val < 63 :=
  ⟨iFdiv, _, stI iFdiv, _, runs_of (by decide +kernel), by decide +kernel, rfl, by decide +kernel⟩
def sPendingResult : State := after (exec iFdiv (stI iFdiv))
/-- All of the result, the pairs of eight lanes; and its first register alone. -/
theorem witness_SlotResultsLand : ∃ c p s r x, tabGet? (State.core s c).results (Portion.id p) = some r ∧ r.divide = true ∧
    s.group? c r.ctx = some x ∧ (r.left.map writePlace).Nodup ∧
    (∀ w ∈ r.left, (writePlace w).2 < (if (writePlace w).1.isSome then 64 else 256)) ∧ r.left.length = 16 ∧
    ∀ k, k < r.left.length → p.mask.testBit k = true := by
  obtain ⟨r, hr, h1, h2, h3, h4, h5, h6⟩ := someOf (o := tabGet? (sPendingResult.core 0).results 0) (p := fun r => r.divide = true ∧
    (sPendingResult.group? 0 r.ctx).isSome = true ∧ (r.left.map writePlace).Nodup ∧
    (∀ w ∈ r.left, (writePlace w).2 < (if (writePlace w).1.isSome then 64 else 256)) ∧ r.left.length = 16 ∧
    ∀ k, k < r.left.length → (0xFFFF : Nat).testBit k = true) (by decide +kernel)
  obtain ⟨x, hx⟩ := Option.isSome_iff_exists.mp h2
  exact ⟨0, ⟨0, 0xFFFF⟩, sPendingResult, r, x, hr, h1, hx, h3, h4, h5, h6⟩
theorem witness_SlotResultsLand_part : ∃ c s p, ∃ r, tabGet? (State.core s c).results (Portion.id p) = some r ∧ r.divide = true ∧
    p.mask.testBit 0 = true ∧ ∃ k, k < r.left.length ∧ p.mask.testBit k = false :=
  ⟨0, sPendingResult, ⟨0, 1⟩, someOf (by decide +kernel)⟩
/-- `xred` into s254 of the whole clause, and its result. -/
def iXred : Instr := .xred np .add .i64 (.s 254) (.v 62) 7
def sReduced : State := after (exec iXred (stI iXred))
theorem witness_SlotResultsLand_reduction : ∃ c p s, ∃ r x, tabGet? (State.core s c).results (Portion.id p) = some r ∧
    s.group? c r.ctx = some x ∧ r.divide = false ∧ (r.left.map writePlace).Nodup ∧
    (∀ w ∈ r.left, (writePlace w).2 < (if (writePlace w).1.isSome then 64 else 256)) ∧ r.left.length = 2 :=
  ⟨0, ⟨0, 3⟩, sReduced, someOf2 (by decide +kernel)⟩
def iXup : Instr := .xup ⟨np, .i32, some (.v 2), .v 1, .lit 3⟩
theorem witness_CrossLaneResults : ∃ i e s d w val, Runs i e s ∧ crossForm e s i = some (d, w, val) :=
  ⟨iXup, _, stI iXup, _, _, _, runs_of (by decide +kernel), rfl⟩
def iBallot : Instr := .ballot np (some (.s 255)) (.v 1)
theorem witness_BallotResult : ∃ q d a e s, Runs (.ballot q d a) e s ∧ e.lanes.Nodup ∧
    (∀ p ∈ e.lanes, e.x.gbase ≤ p ∧ p < e.x.gbase + e.x.gwid) ∧ e.x.gwid ≤ 256 ∧ e.x.gwid % 8 = 0 :=
  ⟨_, _, _, _, stI iBallot, runs_of (i := iBallot) (by decide +kernel), by decide +kernel, by decide +kernel, by decide +kernel, by decide +kernel⟩
def iRng : Instr := .rng np true (some (.v 3)) (.v 0)
theorem witness_RngDraws : ∃ q f32 d a e s, Runs (.rng q f32 d a) e s ∧ e.lanes.Nodup :=
  ⟨_, _, _, _, _, stI iRng, runs_of (i := iRng) (by decide +kernel), by decide +kernel⟩
def iFpack : Instr := .fpack np .bx16 .rne (some (.v 62)) (.v 1) none none
theorem witness_FpackResults : ∃ q f m d a b c e s, Runs (.fpack q f m d a b c) e s ∧ e.lanes.Nodup ∧
    ∀ p ∈ e.lanes, e.x.gbase ≤ p ∧ p < e.x.gbase + 256 :=
  ⟨_, _, _, _, _, _, _, _, stI iFpack, runs_of (i := iFpack) (by decide +kernel), by decide +kernel, by decide +kernel⟩

/-! ### Control -/

/-- An `Except` that is a given error, as a test. -/
def isErr (r : Except Nat (Nat × Group)) (n : Nat) : Bool := match r with
  | .error k => k == n
  | .ok _ => false
theorem err_of {r : Except Nat (Nat × Group)} {n : Nat} (h : isErr r n = true) : r = .error n := by
  cases r with
  | error k => simp only [isErr, beq_iff_eq] at h; rw [h]
  | ok _ => cases h

def iBr : Instr := .br np .always 4
theorem witness_ControlTransfers : ∃ i e s ts, Runs i e s ∧ jumpsOf e s i = some ts ∧ (∀ q ∈ ts, badTarget q.2 = false) ∧ ts ≠ [] :=
  ⟨iBr, _, stI iBr, _, runs_of (by decide +kernel), rfl, by decide +kernel, by decide +kernel⟩
/-- The trap table of slot 0 names a handler at 0x3000 for every cause. -/
def withVectors (s : State) : State :=
  { s with mem := (natRange 0 32).foldl (fun m c => m.write (0x10000 + 0x4040 + 8 * c) (leBytes 8 0x3000)) s.mem }

/-- The conditions of `CanTrap`, as one test. -/
def canTrapOk (e : Env) (s : State) (code : Nat) : Bool :=
  !e.x.hmode && decide (64 ≤ s.vregsOf e.c e.x) && hvecOf s (s.ctxOf e.c e.x) code != 0 &&
    decide ((s.ctx (s.ctxOf e.c e.x)).tqbase.toNat + 0x4048 + 8 * code ≤ 0x1E00000000) && decide (e.x.place < 16) &&
    (e.cu.live.all fun p => decide ((s.lane e.c p).rln < 8192)) && memoryOk s

theorem canTrap_of {e : Env} {s : State} {code : Nat} (h : canTrapOk e s code = true) : CanTrap e s code := by
  simp only [canTrapOk, Bool.and_eq_true, bne_iff_ne, ne_eq, decide_eq_true_eq, List.all_eq_true, Bool.not_eq_true'] at h
  obtain ⟨⟨⟨⟨⟨⟨h1, h2⟩, h3⟩, h4⟩, h5⟩, h6⟩, h7⟩ := h
  refine ⟨h1, h2, h3, fun a ha hb => ?_, h5, h6, h7⟩
  simp only [inFirmware, decide_eq_false_iff_not]
  omega

/-- v2 and v3 hold an address whose bits [2:0] are not zero. -/
def iJmpv : Instr := .jmpv np (.v 2)
def sJmpv : State := lanesWith [(2, 4)] (withVectors (stI iJmpv))
theorem witness_BadTargetTraps : ∃ i e s ts, Runs i e s ∧ jumpsOf e s i = some ts ∧ ts ≠ [] ∧ (∀ q ∈ ts, badTarget q.2 = true) ∧
    (∀ p ∈ ts.map (·.1), p ∈ e.cu.live) ∧ (ts.map (·.1)).Nodup ∧ CanTrap e s tIllop :=
  ⟨iJmpv, _, sJmpv, _, runs_of (by decide +kernel), rfl, by decide +kernel, by decide +kernel, by decide +kernel, by decide +kernel,
    canTrap_of (by decide +kernel)⟩
def iExit : Instr := .exit np
theorem witness_ExitLanes : ∃ p e s, Runs (.exit p) e s ∧ (s.ctx (s.ctxOf e.c e.x)).state ≠ .halted :=
  ⟨_, _, stI iExit, runs_of (i := iExit) (by decide +kernel), by decide +kernel⟩
/-- The group that has exited. -/
def sExiting : State := after (exec iExit (stI iExit))
theorem witness_GroupContextIsFreed : ∃ c g s x, State.group? s c g = some x ∧ x.state = .exiting ∧ x.sbClear = true ∧ x.cur = none ∧
    (∀ p ∈ (s.core c).pend, p.2.ctx ≠ g) ∧ ∀ m ∈ (s.core c).cmds, m.2.ctx ≠ g := by
  obtain ⟨x, h, h1, h2, h3⟩ := someOf (o := State.group? sExiting 0 0)
    (p := fun x => x.state = .exiting ∧ x.sbClear = true ∧ x.cur = none) (by decide +kernel)
  exact ⟨0, 0, sExiting, x, h, h1, h2, h3, by decide +kernel, by decide +kernel⟩
/-- A group of width 16. -/
def wide (s : State) : State := s.modGroup 0 0 fun x => { x with gwid := 16 }
def iSplit : Instr := .gsplit np (.s 255) (.lit 0)
theorem witness_GroupSplits : ∃ p d a e s, Runs (.gsplit p (.s d) a) e s ∧ e.x.sbClear = true ∧ e.x.hmode = false ∧
    e.opnd s a e.low 32 ≤ 5 ∧ 8 * 2 ^ e.opnd s a e.low 32 < e.x.gwid ∧ s.splitKids e.c e.x (8 * 2 ^ e.opnd s a e.low 32) ≠ [] ∧
    (s.splitKids e.c e.x (8 * 2 ^ e.opnd s a e.low 32)).length ≤ (s.core e.c).freeCtx.length + 1 ∧ e.g < 512 :=
  ⟨_, _, _, _, wide (stI iSplit), runs_of (i := iSplit) (by decide +kernel), by decide +kernel, by decide +kernel, by decide +kernel,
    by decide +kernel, by decide +kernel, by decide +kernel, by decide +kernel⟩
theorem witness_SplitFuseStatus : ∃ i p d a e s st, Runs i e s ∧ i = Instr.gsplit p (.s d) a ∧ e.x.sbClear = true ∧
    e.x.hmode = false ∧ st = sWidth ∧ e.x.gwid ≤ 8 * 2 ^ e.opnd s a e.low 32 :=
  ⟨iSplit, _, _, _, _, stI iSplit, _, runs_of (by decide +kernel), rfl, by decide +kernel, by decide +kernel, rfl, by decide +kernel⟩
def iFuse : Instr := .gfuse np (.s 0) (.lit 4)
theorem witness_SplitFuseStatus_fuse : ∃ i p d a e s st, Runs i e s ∧ i = Instr.gfuse p (.s d) a ∧ e.x.fuseFail = none ∧
    s.fuseLate e.c e.x = false ∧ (s.core e.c).fuseCheck e.x = .error st :=
  ⟨iFuse, _, _, _, _, stI iFuse, fAbsent, runs_of (by decide +kernel), rfl, by decide +kernel, by decide +kernel, err_of (by decide +kernel)⟩
/-- A change of the buddy failed the checks while the group waited. -/
def sFuseFailed : State := (stI iFuse).modGroup 0 0 fun x => { x with fuseFail := some fAlign }
theorem witness_SplitFuseStatus_failed : ∃ i p d a e s, Runs i e s ∧ i = Instr.gfuse p (.s d) a ∧ e.x.fuseFail = some fAlign :=
  ⟨iFuse, _, _, _, _, sFuseFailed, runs_of (by decide +kernel), rfl, by decide +kernel⟩

/-- Two groups of width 8, at positions 0 and 8, the upper one waiting in its own `gfuse`. -/
def sFuse : State :=
  let s := stI iFuse
  let x := (envOf iFuse s).x
  { s with cores := s.cores.map fun k => (k.1, { k.2 with
      groups := k.2.groups ++ [(1, { x with gbase := 8, blk := some .gfuse, state := .wait })],
      lanes := k.2.lanes ++ (natRange 8 8).map fun p => (p, newLane (BitVec.ofNat 64 bootCode) p) }) }
/-- An `Except` that holds a given group context, as a test. -/
def isFuseOk (r : Except Nat (Nat × Group)) (u : Nat) : Bool := match r with
  | .error _ => false
  | .ok q => q.1 == u && q.2.inFuse && q.2.sbClear && q.2.cur.isSome
theorem fuse_of {r : Except Nat (Nat × Group)} {u : Nat} (h : isFuseOk r u = true) :
    ∃ y, r = .ok (u, y) ∧ y.inFuse = true ∧ y.sbClear = true ∧ y.cur.isSome = true := by
  cases r with
  | error k => cases h
  | ok q =>
    simp only [isFuseOk, Bool.and_eq_true, beq_iff_eq] at h
    obtain ⟨⟨⟨h1, h2⟩, h3⟩, h4⟩ := h
    exact ⟨q.2, by rw [← h1], h2, h3, h4⟩
def fuseIs (r : Except Nat (Nat × Group)) (z : Group) : Bool := match r with
  | .error _ => false
  | .ok q => decide (q.2 = z)
theorem witness_GroupsFuse : ∃ p d a e s u y, Runs (.gfuse p (.s d) a) e s ∧ (s.core e.c).fuseCheck e.x = .ok (u, y) ∧ y.inFuse = true ∧
    u ≠ e.g ∧ y.cur.isSome = true ∧ s.fuseLate e.c y = false ∧ y.sbClear = true ∧ e.x.gbase < y.gbase ∧ s.group? e.c u = some y ∧
    e.x.fuseFail = none ∧ s.fuseLate e.c e.x = false ∧ (s.core e.c).loggedSlot e.g = false := by
  obtain ⟨y, h1, h2, h3, h4⟩ := fuse_of (r := (sFuse.core 0).fuseCheck (envOf iFuse sFuse).x) (u := 1) (by decide +kernel)
  obtain ⟨z, hz, h5, h6, h7⟩ := someOf (o := sFuse.group? 0 1) (p := fun z => sFuse.fuseLate 0 z = false ∧ (envOf iFuse sFuse).x.gbase < z.gbase ∧
    fuseIs ((sFuse.core 0).fuseCheck (envOf iFuse sFuse).x) z = true) (by decide +kernel)
  obtain rfl : y = z := by rw [h1] at h7; exact of_decide_eq_true h7
  exact ⟨_, _, _, _, sFuse, 1, y, runs_of (i := iFuse) (by decide +kernel), h1, h2, by decide, h4, h5, h3, h6, hz, by decide +kernel,
    by decide +kernel, by decide +kernel⟩
/-- The lower group waits in `gfuse` since clock 0, its limit has passed and its buddy is absent. -/
def sFuseWaits : State := { (stI iFuse).modGroup 0 0 fun x => { x with blk := some .gfuse, state := .wait, phase := 9 } with clk := 1024 }
theorem witness_FuseLimitExpires : ∃ c g s, ∃ x, State.group? s c g = some x ∧ x.inFuse = true ∧ x.cur.isSome = true ∧
    x.fuseMet = false ∧ (s.ctx (s.ctxOf c x)).detm = false ∧ x.fuseEnd = s.clk.toNat :=
  ⟨0, 0, sFuseWaits, someOf (by decide +kernel)⟩

/-! ### Traps -/

def iTrap : Instr := .trap np 0x7FFFFFF
def sTrap : State := withVectors (stI iTrap)
theorem witness_TrapEntersHandler : ∃ p n e s, Runs (.trap p n) e s ∧ e.lanes.Nodup ∧ CanTrap e s tTrap :=
  ⟨_, _, _, sTrap, runs_of (i := iTrap) (by decide +kernel), by decide +kernel, canTrap_of (by decide +kernel)⟩
/-- A latch that no word before it leaves (R39). -/
def iLatch : Instr := .mov ⟨np, .i32, some (.v 1), .lat 3⟩
def sLatch : State := withVectors (stI iLatch)
theorem witness_DecodeFaultTraps : ∃ i e s code, State.focus s = some (e.c, e.g) ∧ (s.group? e.c e.g).isSome = true ∧
    e.x.cur.isSome = true ∧ e.lanes = effectLanes s e.c e.cu ((pfxOf i).getD pfx0) ∧ e.lanes ≠ [] ∧ e.lanes.Nodup ∧
    wordFault s e.c e.x e.cu i = some code ∧ CanTrap e s code :=
  ⟨iLatch, envOf iLatch sLatch, sLatch, tIllop, by decide +kernel, by decide +kernel, by decide +kernel, rfl, by decide +kernel,
    by decide +kernel, by decide +kernel, canTrap_of (by decide +kernel)⟩
/-- A read of TQBASE in user mode. -/
def iTqbase : Instr := .sget np (some (.v 2)) .tqbase
def sUser : State := (withVectors (stI iTqbase)).modCtx 0 fun x => { x with ctxcfg := 0 }
theorem witness_PrivilegedWordsTrapInUserMode : ∃ i e s, State.focus s = some (e.c, e.g) ∧ (s.group? e.c e.g).isSome = true ∧
    e.x.cur.isSome = true ∧ e.lanes = effectLanes s e.c e.cu ((pfxOf i).getD pfx0) ∧ e.lanes ≠ [] ∧ e.lanes.Nodup ∧
    supervisorOnly i = true ∧ (s.ctx (s.ctxOf e.c e.x)).mode = false ∧ wordFault s e.c e.x e.cu i ≠ some tIllop ∧
    wordFault s e.c e.x e.cu i ≠ some tClass ∧ CanTrap e s tPriv :=
  ⟨iTqbase, envOf iTqbase sUser, sUser, by decide +kernel, by decide +kernel, by decide +kernel, rfl, by decide +kernel, by decide +kernel,
    by decide +kernel, by decide +kernel, by decide +kernel, by decide +kernel, canTrap_of (by decide +kernel)⟩
/-- The group in handler mode. -/
def sHandler2 : State := after (exec iTrap sTrap)
theorem witness_DoubleFaultHalts : ∃ c g s x, State.group? s c g = some x ∧ x.hmode = true ∧ s.ctxOf c x < 64 ∧
    (s.ctx (s.ctxOf c x)).state = .active := by
  obtain ⟨x, hx⟩ : ∃ x, sHandler2.group? 0 0 = some x := Option.isSome_iff_exists.mp (by decide +kernel)
  have h : (sHandler2.group? 0 0).all (fun x => x.hmode && decide (sHandler2.ctxOf 0 x < 64) &&
    (sHandler2.ctx (sHandler2.ctxOf 0 x)).state == .active) = true := by decide +kernel
  rw [hx] at h
  simp only [Option.all_some, Bool.and_eq_true, beq_iff_eq, decide_eq_true_eq] at h
  obtain ⟨⟨h1, h2⟩, h3⟩ := h
  exact ⟨0, 0, sHandler2, x, hx, h1, h2, h3⟩
/-- `tret` in the handler that the trap entered. -/
def iTret : Instr := .tret np false none
def sTret : State :=
  let s := stI iTret
  { s.modGroup 0 0 (fun x => { x with hmode := true, hcause := tTrap }) with
    cores := s.cores.map fun k => (k.1, { k.2 with
      lanes := k.2.lanes.map fun l => (l.1, { l.2 with inHandler := true, thdr := BitVec.ofNat 64 bootCode, tw := 1 }),
      groups := k.2.groups.map fun g => (g.1, { g.2 with hmode := true, hcause := tTrap }) }) }
theorem witness_TretReturns : ∃ p keep x e s, Runs (.tret p keep x) e s ∧ e.lanes.Nodup ∧
    (∀ q ∈ e.lanes, badTarget (s.lane e.c q).thdr.toNat = false) ∧ x = none ∧
    ∀ q ∈ e.x.positions, q ∈ e.lanes ∨ (s.lane e.c q).inHandler = false :=
  ⟨_, _, _, _, sTret, runs_of (i := iTret) (by decide +kernel), by decide +kernel, by decide +kernel, rfl, by decide +kernel⟩
/-- A deferred T.POISON of lane 7, due at the boundary. -/
def dPoison : Deferred := { code := tPoison, lanes := [7], resume := none, detail := 0, info := [], inHandler := false, lats := [] }
def sDeferred : State := (withVectors (stI iTrap)).modGroup 0 0 fun x => { x with cur := none, deferred := [dPoison] }
theorem witness_DeferredTrapIsTaken : ∃ c g s, ∃ x, State.group? s c g = some x ∧ s.dueTraps c x = [dPoison] ∧ x.cur = none ∧
    (x.state = .run ∨ x.state = .wait) ∧ x.hmode = false ∧ 64 ≤ s.vregsOf c x ∧
    (∀ d ∈ s.dueTraps c x, d.code = tPoison ∧ d.lats = [] ∧ d.lanes.Nodup) ∧ (s.lane c 7).exited = false ∧ (s.lane c 7).hk = .none ∧
    hvecOf s (s.ctxOf c x) tPoison ≠ 0 :=
  ⟨0, 0, sDeferred, someOf (by decide +kernel)⟩
/-- A second trap of the cause names lanes 6 and 7, and lane 6 is held at a barrier. -/
def sDeferredTwo : State := ((withVectors (stI iTrap)).modGroup 0 0 fun x => { x with cur := none, deferred := [dPoison, { dPoison with lanes := [6, 7] }] }).modLane 0 6
  fun l => { l with hk := .arrive, hr := .team 0, hg := 0 }
theorem witness_DeferredTrapIsTaken_held : ∃ c g s, ∃ x, State.group? s c g = some x ∧ (s.dueTraps c x).length = 2 ∧ x.cur = none ∧
    (x.state = .run ∨ x.state = .wait) ∧ x.hmode = false ∧ 64 ≤ s.vregsOf c x ∧
    (∀ d ∈ s.dueTraps c x, d.code = tPoison ∧ d.lats = [] ∧ d.lanes.Nodup) ∧ (s.lane c 6).hk ≠ .none ∧ hvecOf s (s.ctxOf c x) tPoison ≠ 0 :=
  ⟨0, 0, sDeferredTwo, someOf (by decide +kernel)⟩

/-! ### Special registers, fences, barriers, semaphores -/

def iSget : Instr := .sget np (some (.v 63)) .laneix
theorem witness_SgetReads : ∃ p d r e s, Runs (.sget p d r) e s := ⟨_, _, _, _, stI iSget, runs_of (i := iSget) (by decide +kernel)⟩
def iSput : Instr := .sput np .ftv (.lit 4)
theorem witness_SputWrites : ∃ p r a e s, Runs (.sput p r a) e s ∧ r = .ftv ∧ e.opnd s a e.low 32 = 4 :=
  ⟨_, _, _, _, stI iSput, runs_of (i := iSput) (by decide +kernel), rfl, by decide +kernel⟩
def iFence : Instr := .fence np .die .ar
theorem witness_FenceOrders : ∃ p sc k e s, Runs (.fence p sc k) e s ∧ Quiet s e.c ∧ e.x.phase = 0 ∧ k ≠ .acq ∧ k ≠ .rel ∧
    3 ≤ scopeRank sc :=
  ⟨np, .die, .ar, envOf iFence (stI iFence), stI iFence, runs_of (by decide +kernel), quiet_of (by decide +kernel), by decide +kernel,
    by decide, by decide, by decide⟩
def iFenceM : Instr := .fence np .module .ar
theorem witness_FenceOrders_module : ∃ p sc k e s, Runs (.fence p sc k) e s ∧ Quiet s e.c ∧ e.x.phase = 0 ∧ k ≠ .acq ∧ k ≠ .rel ∧
    5 ≤ scopeRank sc :=
  ⟨np, .module, .ar, envOf iFenceM (stI iFenceM), stI iFenceM, runs_of (by decide +kernel), quiet_of (by decide +kernel),
    by decide +kernel, by decide, by decide, by decide⟩
def iFenceW : Instr := .fence np .group .acq
theorem witness_FenceOrders_group : ∃ p sc k e s, Runs (.fence p sc k) e s ∧ Quiet s e.c ∧ e.x.phase = 0 ∧ k = .acq ∧
    scopeRank sc < 3 :=
  ⟨np, .group, .acq, envOf iFenceW (stI iFenceW), stI iFenceW, runs_of (by decide +kernel), quiet_of (by decide +kernel),
    by decide +kernel, rfl, by decide⟩

/-- Predicate 1 is 1 in lanes 0 to 3. -/
def half (s : State) : State := mapLanes (fun p l => if p < 4 then { l with p := l.p.setIfInBounds 1 true } else l) s
/-- Record 1 with members 0 to 7, in s4: all of them arrive. -/
def iBar : Instr := .bar np (.s 4)
def sBar (i : Instr) : State := scalarsWith [(4, 769)] (half (stI i))
theorem witness_BarrierArrives : ∃ i e s q, (Runs i e s ∧ barForm e s i = some (.team 1, q) ∧ Quiet s e.c ∧ e.lanes.Nodup ∧
    e.x.hmode = false) ∧ ∃ tm gr x, s.teamOf e.c e.x = some tm ∧ s.grid? tm.grid = some gr ∧ s.barRec tm (.team 1) = some x ∧
      (∀ p ∈ e.lanes, tm.arriveBad gr.teamLanes q (s.lane e.c p).rln = false) ∧ e.cu.base % 8 = 0 ∧
      (∀ p ∈ e.lanes, (s.lane e.c p).exited = false) ∧ x.arr + e.lanes.length = armed e s (.team 1) q x :=
  ⟨iBar, envOf iBar (sBar iBar), sBar iBar, 769, ⟨runs_of (by decide +kernel), by decide +kernel, quiet_of (by decide +kernel),
    by decide +kernel, by decide +kernel⟩, someOf3 (by decide +kernel)⟩
/-- The same where lanes 0 to 3 only execute it: they wait. -/
def iBarHalf : Instr := .bar ⟨false, 1⟩ (.s 4)
theorem witness_BarrierArrives_waits : ∃ i e s q, (Runs i e s ∧ barForm e s i = some (.team 1, q) ∧ Quiet s e.c ∧ e.lanes.Nodup ∧
    e.x.hmode = false) ∧ ∃ tm gr x, s.teamOf e.c e.x = some tm ∧ s.grid? tm.grid = some gr ∧ s.barRec tm (.team 1) = some x ∧
      (∀ p ∈ e.lanes, tm.arriveBad gr.teamLanes q (s.lane e.c p).rln = false) ∧ e.cu.base % 8 = 0 ∧
      (∀ p ∈ e.lanes, (s.lane e.c p).exited = false) ∧ x.arr + e.lanes.length ≠ armed e s (.team 1) q x :=
  ⟨iBarHalf, envOf iBarHalf (sBar iBarHalf), sBar iBarHalf, 769, ⟨runs_of (by decide +kernel), by decide +kernel,
    quiet_of (by decide +kernel), by decide +kernel, by decide +kernel⟩, someOf3 (by decide +kernel)⟩
def iBarArr : Instr := .barArr np (some (.v 63)) (.s 4)
theorem witness_BarrierToken : ∃ p d o e s, (Runs (.barArr p d o) e s ∧ Quiet s e.c ∧ e.lanes.Nodup ∧ e.x.hmode = false) ∧
    ∃ tm gr x, s.teamOf e.c e.x = some tm ∧ s.grid? tm.grid = some gr ∧ s.barRec tm (.team (barB (e.opnd s o e.low 32))) = some x ∧
      ∀ l ∈ e.lanes, tm.arriveBad gr.teamLanes (e.opnd s o e.low 32) (s.lane e.c l).rln = false :=
  ⟨np, some (.v 63), .s 4, envOf iBarArr (sBar iBarArr), sBar iBarArr, ⟨runs_of (i := iBarArr) (by decide +kernel),
    quiet_of (by decide +kernel), by decide +kernel, by decide +kernel⟩, someOf3 (by decide +kernel)⟩
/-- Lane 0 holds a token of the generation before, the other lanes one of the current generation. -/
def iBarW : Instr := .barW np (.s 4) (.v 63)
def sBarW : State := (sBar iBarW).setV 0 0 63 1 0xFFFFFFFF
theorem witness_BarrierWaits : ∃ p o w e s, (Runs (.barW p o w) e s ∧ Quiet s e.c ∧ e.x.hmode = false) ∧
    ∃ tm x, s.teamOf e.c e.x = some tm ∧ s.barRec tm (.team (barB (e.opnd s o e.low 32))) = some x ∧
      (∃ l ∈ e.lanes, (x.gen - BitVec.ofNat 32 (e.opnd s w l 32)).toNat = 1) ∧
      ∃ l ∈ e.lanes, (x.gen - BitVec.ofNat 32 (e.opnd s w l 32)).toNat = 0 :=
  ⟨np, .s 4, .v 63, envOf iBarW sBarW, sBarW, ⟨runs_of (i := iBarW) (by decide +kernel), quiet_of (by decide +kernel),
    by decide +kernel⟩, someOf2 (by decide +kernel)⟩
/-- Lane 0 waits for a generation of record 0 that has completed, lane 1 for the current one. -/
def sHeld : State :=
  (stI iBarW).modLane 0 0 (fun l => { l with hk := .arrive, hr := .team 0, hg := 0xFFFFFFFF }) |>.modLane 0 1
    fun l => { l with hk := .arrive, hr := .team 0, hg := 0 }
theorem witness_HeldLanesAreReleased : ∃ c g s, Quiet s c ∧ ∃ x tm, State.group? s c g = some x ∧ s.teamOf c x = some tm ∧
    (∃ p ∈ x.positions, s.passes tm (s.lane c p) = true) ∧ ∃ p ∈ x.positions, (s.lane c p).hk ≠ .none ∧ s.passes tm (s.lane c p) = false :=
  ⟨0, 0, sHeld, quiet_of (by decide +kernel), someOf2 (by decide +kernel)⟩
/-- Semaphore 63 is bound and holds 5. -/
def withSem (s : State) : State := s.modTeam 0 0 fun t => { t with sems := tabSet t.sems 63 5 }
def iSmadd : Instr := .smadd ⟨np, .lit 63, .lit 7⟩
theorem witness_SemaphoreWrites : ∃ i o e s, (Runs i e s ∧ i = Instr.smadd o ∧ Quiet s e.c ∧ e.opnd s o.k e.low 32 = 63 ∧
    s.canBind e.c e.x.place (e.opnd s o.k e.low 32) = true) ∧ ∃ tm, s.team? e.c e.x.place = some tm ∧ tm.semCount 63 = 5 :=
  ⟨iSmadd, _, envOf iSmadd (withSem (stI iSmadd)), withSem (stI iSmadd), ⟨runs_of (by decide +kernel), rfl, quiet_of (by decide +kernel),
    by decide +kernel, by decide +kernel⟩, someOf (by decide +kernel)⟩
/-- The same of an index that is not bound yet. -/
def iSmset : Instr := .smset ⟨np, .lit 0, .lit 7⟩
theorem witness_SemaphoreWrites_set : ∃ i o e s, (Runs i e s ∧ i = Instr.smset o ∧ Quiet s e.c ∧ e.opnd s o.k e.low 32 = 0 ∧
    s.canBind e.c e.x.place (e.opnd s o.k e.low 32) = true) ∧ ∃ tm, s.team? e.c e.x.place = some tm ∧ tabGet? tm.sems 0 = none :=
  ⟨iSmset, _, envOf iSmset (stI iSmset), stI iSmset, ⟨runs_of (by decide +kernel), rfl, quiet_of (by decide +kernel),
    by decide +kernel, by decide +kernel⟩, someOf (by decide +kernel)⟩
def iSmwait : Instr := .smwait ⟨np, .lit 63, .lit 5⟩
theorem witness_SemaphoreWaitPasses : ∃ o e s, (Runs (.smwait o) e s ∧ Quiet s e.c ∧ e.opnd s o.k e.low 32 ≤ 63 ∧
    s.canBind e.c e.x.place (e.opnd s o.k e.low 32) = true) ∧ ∃ tm, s.team? e.c e.x.place = some tm ∧
      semHolds (tm.semCount (e.opnd s o.k e.low 32)) (BitVec.ofNat 32 (e.opnd s o.a e.low 32)) = true :=
  ⟨_, envOf iSmwait (withSem (stI iSmwait)), withSem (stI iSmwait), ⟨runs_of (i := iSmwait) (by decide +kernel),
    quiet_of (by decide +kernel), by decide +kernel, by decide +kernel⟩, someOf (by decide +kernel)⟩
theorem witness_SemaphoreIsBound : ∃ c j k s, (k = 63 ∧ State.canBind s c j k = true) ∧ ∃ tm, s.team? c j = some tm ∧ tm.semCount k = 0 :=
  ⟨0, 0, 63, stI iSmset, ⟨rfl, by decide +kernel⟩, someOf (by decide +kernel)⟩

/-! ### Memory -/

/-- What `Accepted` asks of the state and of one request, as a test. -/
def acceptedOk (e : Env) (s : State) (f : MemForm) : Bool :=
  (s.teamOf e.c e.x).any fun t =>
    (f.reqs.all fun r => f.path (pathOf r.ea) && (r.eas.all fun a => pathOf a == pathOf r.ea &&
      s.pathOk e.c t.ctx t a (decide (f.u = .write ∨ f.u = .readWrite)) && (pathOf a != 10 || fld a 50 10 == fld r.ea 50 10)) &&
      (f.align == 0 || r.ea % f.align == 0) &&
      (match s.resolveKind e.c t.ctx t f.kind f.u r.eas r.y with | .ok _ => true | .error _ => false) &&
      ((s.regionsOf t.ctx r.eas).all fun q => decide ((s.vrec q).pin ((s.vrec q).choose (s.ctx t.ctx).detm 0) < 65535))) &&
    (f.slot.all fun b => decide (e.x.sbCount b.val < 63)) && (s.core e.c).pend.isEmpty && (s.core e.c).log.isEmpty && s.mons.isEmpty
theorem accepted_of {e : Env} {s : State} {f : MemForm} (h : acceptedOk e s f = true) :
    ∃ t, s.teamOf e.c e.x = some t ∧ Accepted e s t f := by
  unfold acceptedOk at h
  cases ht : s.teamOf e.c e.x with
  | none => rw [ht] at h; cases h
  | some t =>
    rw [ht] at h
    simp only [Option.any_some, Bool.and_eq_true, List.all_eq_true, List.isEmpty_iff, Bool.or_eq_true, beq_iff_eq, bne_iff_ne, ne_eq,
      decide_eq_true_eq, Option.all_eq_true_iff_get] at h
    obtain ⟨⟨⟨⟨h1, h2⟩, h3⟩, h4⟩, h5⟩ := h
    refine ⟨t, rfl, ⟨ht, fun r hr => ⟨(h1 r hr).1.1.1.1, fun a ha => ?_⟩, fun hn r hr => ?_, fun b hb => ?_, h3, h4, by simp [h5], fun r hr => ?_,
      fun r hr => (h1 r hr).2⟩⟩
    · obtain ⟨⟨q1, q2⟩, q3⟩ := (h1 r hr).1.1.1.2 a ha
      exact ⟨q1, q2, fun h10 => q3.resolve_left (fun hh => hh h10)⟩
    · exact (h1 r hr).1.1.2.resolve_left hn
    · simpa [hb] using h2 (by simp [hb])
    · have := (h1 r hr).1.2
      revert this
      cases s.resolveKind e.c t.ctx t f.kind f.u r.eas r.y with
      | error _ => intro h; cases h
      | ok q => intro _; exact ⟨q, rfl⟩
/-- Registers v0 and v1 of lane `p` hold `a + d * p`. -/
def addrs (a d : Nat) (s : State) : State := mapLanes (fun p l => { l with v := regsSet l.v 0 2 (a + d * p) }) s
/-- A versioned region at 0x1E00000000 of slot 0, read from frame set 0. -/
def withRegion (s : State) : State :=
  let m := [(0x300000, 8, 0x301001), (0x3010F0, 8, 0x302001), (0x302000, 8, 0x303009), (0x303000, 8, 0x304000), (0x303008, 8, 0x305000),
            (0x303010, 8, 0x306000), (0x303018, 4, 7), (0x30301C, 4, 5), (0x303020, 4, 0x104), (0x304000, 8, 0x310001),
            (0x305000, 8, 0x320001), (0x306000, 8, 0x330001)].foldl (fun m w => m.write w.1 (leBytes w.2.1 w.2.2)) s.mem
  { s with mem := m, ctxs := s.ctxs.setIfInBounds 0 { s.ctx 0 with ptroot := 0x300000 } }
def mem0 : MemRef := ⟨.v 0, .lit 0, 0, false⟩
def acceptsOk (i : Instr) (s : State) : Bool :=
  runsOk i s && (memForm (envOf i s) s i).any fun f => acceptedOk (envOf i s) s f

theorem accepts_of {i : Instr} {s : State} (h : acceptsOk i s = true) :
    ∃ tm f, Runs i (envOf i s) s ∧ memForm (envOf i s) s i = some f ∧ Accepted (envOf i s) s tm f := by
  simp only [acceptsOk, Bool.and_eq_true] at h
  cases hf : memForm (envOf i s) s i with
  | none => rw [hf] at h; cases h.2
  | some f =>
    rw [hf] at h
    obtain ⟨t, _, ht⟩ := accepted_of h.2
    exact ⟨t, f, runs_of h.1, rfl, ht⟩

/-- The slot of a team is not in deterministic operation. -/
theorem noDetm {s : State} {c : Nat} {x : Group} {tm : Team} (h : s.teamOf c x = some tm)
    (hd : (s.teamOf c x).all (fun t => !(s.ctx t.ctx).detm) = true) : (s.ctx tm.ctx).detm = false := by
  rw [h] at hd
  simpa using hd

/-- A load of the last byte of a scratchpad: the other lanes read the bytes before it. -/
def iLd : Instr := .ld ⟨np, .i8, .v 63, mem0, 7⟩
def sLd : State := addrs 0x1000000000000FF8 1 (stI iLd)
theorem witness_MemoryWordsIssue : ∃ i e s tm f, Runs i e s ∧ memForm e s i = some f ∧ Accepted e s tm f ∧ entryAccepts s tm f := by
  obtain ⟨tm, f, h1, h2, h3⟩ := accepts_of (i := iLd) (s := sLd) (by decide +kernel)
  exact ⟨_, _, _, tm, f, h1, h2, h3, by cases h2; trivial⟩
def iWaitc : Instr := .waitc np .ge true (.v 60) mem0 0
def sWaitc : State := addrs 0x1DFFFFFFC0 8 (stI iWaitc)
theorem witness_MemoryWordsIssue_waitc : ∃ p c w d m b e s tm f, Runs (.waitc p c w d m b) e s ∧ memForm e s (.waitc p c w d m b) = some f ∧
    Accepted e s tm f ∧ entryAccepts s tm f := by
  obtain ⟨tm, f, h1, h2, h3⟩ := accepts_of (i := iWaitc) (s := sWaitc) (by decide +kernel)
  exact ⟨_, _, _, _, _, _, _, _, tm, f, h1, h2, h3, by cases h2; exact fun _ => rfl⟩
/-- `cinv` of lines that do not meet, of 64 bytes each. -/
def iCinv : Instr := .cinv ⟨np, .v 2, mem0, 7⟩
def sCinv : State := lanesWith [(2, 64)] (addrs 0x400000 64 (stI iCinv))
theorem witness_MemoryWordsIssue_cinv : ∃ o e s tm f, Runs (.cinv o) e s ∧ memForm e s (.cinv o) = some f ∧ Accepted e s tm f ∧
    entryAccepts s tm f := by
  obtain ⟨tm, f, h1, h2, h3⟩ := accepts_of (i := iCinv) (s := sCinv) (by decide +kernel)
  refine ⟨_, _, _, tm, f, h1, h2, h3, ?_⟩
  cases h2
  exact fun _ => by decide +kernel
/-- Predicate 1 is 1 in lanes 6 and 7. -/
def two (s : State) : State := mapLanes (fun p l => if 6 ≤ p then { l with p := l.p.setIfInBounds 1 true } else l) s
def p1 : Pfx := ⟨false, 1⟩
/-- Versioned accesses to the first bytes of the region. -/
def iLdv : Instr := .ldv ⟨p1, .b32, .v 4, mem0, 1⟩
def sLdv : State := withRegion (two <| addrs 0x1E00000000 4 (stI iLdv))
theorem witness_MemoryWordsIssue_ldv : ∃ o e s tm f, Runs (.ldv o) e s ∧ memForm e s (.ldv o) = some f ∧ Accepted e s tm f ∧
    entryAccepts s tm f := by
  obtain ⟨tm, f, h1, h2, h3⟩ := accepts_of (i := iLdv) (s := sLdv) (by decide +kernel)
  refine ⟨_, _, _, tm, f, h1, h2, h3, ?_⟩
  cases h2
  show ∀ r ∈ _, _
  decide +kernel
def iStv : Instr := .stv ⟨p1, .b32, .v 4, mem0⟩
def sStv : State := withRegion (two <| addrs 0x1E00000000 4 (stI iStv))
theorem witness_MemoryWordsIssue_stv : ∃ o e s tm f, Runs (.stv o) e s ∧ memForm e s (.stv o) = some f ∧ Accepted e s tm f ∧
    entryAccepts s tm f := by
  obtain ⟨tm, f, h1, h2, h3⟩ := accepts_of (i := iStv) (s := sStv) (by decide +kernel)
  refine ⟨_, _, _, tm, f, h1, h2, h3, ?_⟩
  have ht := h3.team
  cases h2
  show _ ∧ _
  exact ⟨noDetm ht (by decide +kernel), by decide +kernel⟩
def iRed : Instr := .red np .add true .i32 (.v 2) mem0
def sRed : State := addrs 0x400000 4 (stI iRed)
theorem witness_MemoryWordsIssue_red : ∃ p o b ty d m e s tm f, Runs (.red p o b ty d m) e s ∧ memForm e s (.red p o b ty d m) = some f ∧
    Accepted e s tm f ∧ entryAccepts s tm f := by
  obtain ⟨tm, f, h1, h2, h3⟩ := accepts_of (i := iRed) (s := sRed) (by decide +kernel)
  refine ⟨_, _, _, _, _, _, _, _, tm, f, h1, h2, h3, ?_⟩
  have ht := h3.team
  cases h2
  exact noDetm ht (by decide +kernel)
/-- A store to the last bytes of the scratchpad, and one to device memory, by lane 7 alone. -/
def iSt : Instr := .st ⟨np, .n16, .v 2, mem0⟩
def sSt : State := addrs 0x1000000000000FF0 2 (stI iSt)
theorem witness_StoresIssue : ∃ o e s tm, Runs (.st o) e s ∧ e.lanes.Nodup ∧
    Accepted e s tm ⟨.store (widthBytes o.w), none, o.d, storeReqs e s o, .write, anyPath, 0⟩ ∧
    ∀ r ∈ storeReqs e s o, pathOf r.ea ≠ 10 ∧ ((s.ctx tm.ctx).detm = true → pathOf r.ea ≠ 0) := by
  obtain ⟨tm, _, h⟩ := accepted_of (e := envOf iSt sSt) (s := sSt)
    (f := ⟨.store 2, none, .v 2, storeReqs (envOf iSt sSt) sSt ⟨np, .n16, .v 2, mem0⟩, .write, anyPath, 0⟩) (by decide +kernel)
  have hp : ∀ r ∈ storeReqs (envOf iSt sSt) sSt ⟨np, .n16, .v 2, mem0⟩, pathOf r.ea = 1 := by decide +kernel
  exact ⟨_, _, _, tm, runs_of (i := iSt) (by decide +kernel), by decide +kernel, h,
    fun r hr => by rw [hp r hr]; exact ⟨by decide, fun _ => by decide⟩⟩
/-- A store to device memory of lane 7 alone: its only part. -/
def iStOne : Instr := .st ⟨⟨false, 1⟩, .b64, .v 2, mem0⟩
def sStOne : State := (addrs 0x1DFFFFFFC0 8 (stI iStOne)).modLane 0 7 fun l => { l with p := l.p.setIfInBounds 1 true }
theorem witness_StoresIssue_home : ∃ o e s tm, Runs (.st o) e s ∧ e.lanes.Nodup ∧
    Accepted e s tm ⟨.store (widthBytes o.w), none, o.d, storeReqs e s o, .write, anyPath, 0⟩ ∧
    ∀ r ∈ storeReqs e s o, pathOf r.ea ≠ 10 ∧ ((s.ctx tm.ctx).detm = true → pathOf r.ea ≠ 0) := by
  obtain ⟨tm, ht, h⟩ := accepted_of (e := envOf iStOne sStOne) (s := sStOne)
    (f := ⟨.store 8, none, .v 2, storeReqs (envOf iStOne sStOne) sStOne ⟨⟨false, 1⟩, .b64, .v 2, mem0⟩, .write, anyPath, 0⟩) (by decide +kernel)
  have hp : ∀ r ∈ storeReqs (envOf iStOne sStOne) sStOne ⟨⟨false, 1⟩, .b64, .v 2, mem0⟩, pathOf r.ea = 0 := by decide +kernel
  have hd := noDetm ht (by decide +kernel)
  exact ⟨_, _, _, tm, runs_of (i := iStOne) (by decide +kernel), by decide +kernel, h,
    fun r hr => by rw [hp r hr, hd]; exact ⟨by decide, nofun⟩⟩
/-- What `PartDue` asks, as a test. -/
def partDueOk (c : Nat) (p : Portion) (s : State) (q : Pend) (a : Acc) (n : Nat) : Bool :=
  (tabGet? (s.core c).flights p.id).isNone && decide (q.kind = .store n) && q.slot.isNone && q.pins.isEmpty &&
    decide (maskPick p.mask true q.accs = [a]) && a.st == 0 && a.own.isNone && !q.beforeOverlap a
theorem partDue_of {c : Nat} {p : Portion} {s : State} {q : Pend} {a : Acc} {n : Nat} (h : tabGet? (s.core c).pend p.id = some q)
    (hp : partDueOk c p s q a n = true) : PartDue c p s q a n := by
  simp only [partDueOk, Bool.and_eq_true, Option.isNone_iff_eq_none, decide_eq_true_eq, List.isEmpty_iff, beq_iff_eq, Bool.not_eq_true'] at hp
  obtain ⟨⟨⟨⟨⟨⟨⟨h1, h2⟩, h3⟩, h4⟩, h5⟩, h6⟩, h7⟩, h8⟩ := hp
  exact ⟨h, h1, h2, h3, h4, h5, h6, h7, h8⟩
/-- The store of every lane has been issued; lane 7's part is the one performed. -/
def sStoring : State := after (exec iSt sSt)
theorem witness_ScratchpadStores : ∃ c k p s q a n, PartDue c p s q a n ∧ a.n = 2 ∧ a.tgt = some (.scr k [0xFFE, 0xFFF]) ∧
    s.earlierOverlap c a.pos (.scr k [0xFFE, 0xFFF]) p.id = false ∧ memoryOk s = true := by
  obtain ⟨q, a, h1, _, h2, h3, h4, h5⟩ := someOf2 (o := tabGet? (sStoring.core 0).pend 0) (f := fun q => q.accs.find? (·.pos == 7))
    (p := fun q a => partDueOk 0 ⟨0, 2 ^ 7⟩ sStoring q a 2 = true ∧ a.n = 2 ∧ a.tgt = some (.scr 0 [0xFFE, 0xFFF]) ∧
      sStoring.earlierOverlap 0 a.pos (.scr 0 [0xFFE, 0xFFF]) 0 = false) (by decide +kernel)
  exact ⟨0, 0, ⟨0, 2 ^ 7⟩, sStoring, q, a, 2, partDue_of h1 h2, h3, h4, h5, by decide +kernel⟩
/-- An access whose bytes are in device memory. -/
def isHome (r : Except (Nat × PFault) Resolved) (p : List Nat → Bool) : Bool := match r with
  | .ok ⟨some (.home pas _ _), none, _⟩ => p pas
  | _ => false
theorem home_of {r : Except (Nat × PFault) Resolved} {p : List Nat → Bool} (h : isHome r p = true) :
    ∃ pas attr deps d, r = .ok ⟨some (.home pas attr deps), none, d⟩ ∧ p pas = true := by
  unfold isHome at h
  split at h
  · exact ⟨_, _, _, _, rfl, h⟩
  · cases h
def sStoringHome : State := after (exec iStOne sStOne)
/-- A test on the target of an access to device memory. -/
def homeTgt (a : Acc) (p : List Nat → List Nat → Nat → Bool) : Bool := match a.tgt with
  | some (.home pas attr deps) => p pas deps attr
  | _ => false
theorem homeTgt_of {a : Acc} {p : List Nat → List Nat → Nat → Bool} (h : homeTgt a p = true) :
    ∃ pas attr deps, a.tgt = some (.home pas attr deps) ∧ p pas deps attr = true := by
  unfold homeTgt at h
  split at h
  · exact ⟨_, _, _, by assumption, h⟩
  · cases h
theorem witness_DeviceStores : ∃ c p s q a n pas deps attr, PartDue c p s q a n ∧ q.accs = [a] ∧ a.tgt = some (.home pas attr deps) ∧
    s.earlierOverlap c a.pos (.home pas attr deps) p.id = false ∧ pas.length = a.n ∧
    (∀ m, s.team? c q.place = some m → (s.ctx m.ctx).detm = false) ∧ (∀ b ∈ pas, inLinkRegs b = false) ∧
    (∀ l ∈ (s.core c).l1, l.2.data.length = 64) ∧ pas.Nodup := by
  obtain ⟨q, a, h1, _, h2, h3, h4, h5⟩ := someOf2 (o := tabGet? (sStoringHome.core 0).pend 0) (f := fun q => q.accs.head?)
    (p := fun q a => partDueOk 0 ⟨0, 1⟩ sStoringHome q a 8 = true ∧ q.accs = [a] ∧
      (sStoringHome.team? 0 q.place).all (fun m => !(sStoringHome.ctx m.ctx).detm) = true ∧
      homeTgt a (fun pas deps attr => !sStoringHome.earlierOverlap 0 a.pos (.home pas attr deps) 0 && decide (pas.length = a.n) &&
        (pas.all fun b => !inLinkRegs b) && decide pas.Nodup) = true) (by decide +kernel)
  obtain ⟨pas, attr, deps, h6, h7⟩ := homeTgt_of h5
  simp only [Bool.and_eq_true, Bool.not_eq_true', decide_eq_true_eq, List.all_eq_true] at h7
  exact ⟨0, ⟨0, 1⟩, sStoringHome, q, a, 8, pas, deps, attr, partDue_of h1 h2, h3, h6, h7.1.1.1, h7.1.1.2,
    fun m hm => by rw [hm] at h4; simpa using h4, h7.1.2, by decide +kernel, h7.2⟩
def sBadPath : State := addrs 0x1000000000001000 1 (withVectors (stI iLd))
theorem witness_BadPathTraps : ∃ o e s, (Runs (.ld o) e s ∧ e.lanes.Nodup ∧ CanTrap e s tPath) ∧ ∃ tm, s.teamOf e.c e.x = some tm ∧
    ∀ p ∈ e.lanes, s.pathOk e.c tm.ctx tm (e.effAddr s o.m (widthBytes o.w) p) false = false :=
  ⟨_, envOf iLd sBadPath, sBadPath, ⟨runs_of (i := iLd) (by decide +kernel), by decide +kernel, canTrap_of (by decide +kernel)⟩,
    someOf (by decide +kernel)⟩

/-- The load of `sLd` has been issued: lane 7 reads the last byte of the scratchpad. -/
def sLoading : State := after (exec iLd sLd)
/-- Everything at once. -/
def whole : Returned := ⟨false, 0xFFFF, 0xFFFF⟩
theorem witness_Whole : Whole whole 16 4 := ⟨rfl, by decide, by decide⟩
theorem witness_LoadReturns : ∃ c id pos s, ((∀ b ∈ [0xFFF], b ∉ (State.core s c).scratchPoison) ∧
    s.earlierOverlap c pos (.scr c [0xFFF]) id = false) ∧ ∃ q a tm, tabGet? (State.core s c).pend id = some q ∧
    (q.accs.find? fun a => a.pos == pos && (a.st == 0 || a.st == 6)) = some a ∧ s.team? c q.place = some tm ∧
    (a.st = 0 ∧ a.got = [] ∧ a.bad = false ∧ a.own.isNone = true) ∧ q.kind = .load .i8 false ∧ q.dst = .v 63 ∧
    q.pins = [] ∧ (s.ctx tm.ctx).detm = false ∧ a.n = 1 ∧ q.beforeOverlap a = false ∧ a.tgt = some (.scr c [0xFFF]) :=
  ⟨0, 0, 7, sLoading, ⟨by decide +kernel, by decide +kernel⟩, someOf3 (by decide +kernel)⟩
def sLoadingHome : State := after (exec iLd (addrs 0x1DFFFFFFF8 1 (stI iLd)))
theorem witness_LoadReturns_home : ∃ c id pos s, ((State.core s c).l1 = [] ∧ (s.core c).wcb = [] ∧ (s.core c).flights = [] ∧
    (∀ b ∈ [0x1DFFFFFFFF], inLinkRegs b = false ∧ b ∉ s.poison) ∧
    s.earlierOverlap c pos (.home [0x1DFFFFFFFF] 0 []) id = false) ∧ ∃ q a tm, tabGet? (State.core s c).pend id = some q ∧
    (q.accs.find? fun a => a.pos == pos && (a.st == 0 || a.st == 6)) = some a ∧ s.team? c q.place = some tm ∧
    (a.st = 0 ∧ a.got = [] ∧ a.bad = false ∧ a.own.isNone = true) ∧ q.kind = .load .i8 false ∧ q.dst = .v 63 ∧
    q.pins = [] ∧ (s.ctx tm.ctx).detm = false ∧ a.n = 1 ∧ q.beforeOverlap a = false ∧ a.tgt = some (.home [0x1DFFFFFFFF] 0 []) :=
  ⟨0, 0, 7, sLoadingHome, ⟨by decide +kernel, by decide +kernel, by decide +kernel, by decide +kernel, by decide +kernel⟩,
    someOf3 (by decide +kernel)⟩
/-- The last lane of the same load: its slot counts one less. -/
def iLdOne : Instr := .ld ⟨⟨false, 1⟩, .i8, .v 63, mem0, 7⟩
def sLoadingOne : State := after (exec iLdOne
  ((addrs 0x1000000000000FF8 1 (stI iLdOne)).modLane 0 7 fun l => { l with p := l.p.setIfInBounds 1 true }))
theorem witness_LoadReturns_last : ∃ c id pos s, ∃ q, tabGet? (State.core s c).pend id = some q ∧ q.accs.length = 1 ∧
    (∀ x ∈ q.accs, x.pos = pos) ∧ q.slot = some 7 := ⟨0, 0, 7, sLoadingOne, someOf (by decide +kernel)⟩
/-- The data of a pair is known, and both registers are to be written; the event writes the second. -/
def sLoaded : State := sLoadingOne.modCore 0 fun k => { k with pend := k.pend.map fun p =>
  (p.1, { p.2 with accs := p.2.accs.map fun a => { a with st := 6, left := [.vec 7 62 5, .vec 7 63 9] } }) }
theorem witness_ResultsLandByRegister : ∃ c id pos r s, ∃ q a, tabGet? (State.core s c).pend id = some q ∧
    (q.accs.find? fun a => a.pos == pos && (a.st == 0 || a.st == 6)) = some a ∧ a.st = 6 ∧ a.left.Nodup ∧ q.pins = [] ∧
    a.left = [.vec 7 62 5, .vec 7 63 9] ∧ (a.left.map writePlace).Nodup ∧ Returned.regs r = 2 :=
  ⟨0, 0, 7, ⟨false, 0, 2⟩, sLoaded, someOf2 (by decide +kernel)⟩
def iAtom : Instr := .atom ⟨false, 1⟩ (.fold .max) true .i32 (.v 63) mem0 0
def sAtom : State := after (exec iAtom ((addrs 0x1000000000000FE0 4 (stI iAtom)).modLane 0 7 fun l => { l with p := l.p.setIfInBounds 1 true }))
theorem witness_AtomicReturns : ∃ c id pos s, (memoryOk s = true ∧ (∀ b ∈ [0xFFC, 0xFFD, 0xFFE, 0xFFF], b ∉ (State.core s c).scratchPoison) ∧
    s.earlierOverlap c pos (.scr c [0xFFC, 0xFFD, 0xFFE, 0xFFF]) id = false) ∧ ∃ q tm, tabGet? (State.core s c).pend id = some q ∧
    s.team? c q.place = some tm ∧ q.kind = .atom (.fold .max) .i32 true ∧ q.dst = .v 63 ∧ q.pins = [] ∧
    q.accs.map (fun a => (a.pos, a.st, a.tgt)) = [(pos, 0, some (.scr c [0xFFC, 0xFFD, 0xFFE, 0xFFF]))] ∧
    q.accs.all (·.own.isNone) = true :=
  ⟨0, 0, 7, sAtom, ⟨by decide +kernel, by decide +kernel, by decide +kernel⟩, someOf2 (by decide +kernel)⟩
/-- A store's line in the buffer, and the same line in flight. -/
def sBuffered : State := { after (exec (.writeAtHome 0 ⟨0, 1⟩) sStoringHome) with clk := 1024 }
def lineOne : Nat := 0x1DFFFFFFF8 / 64
theorem witness_LinesLeaveTheCore_wcb : ∃ c line s, ∃ w, tabGet? (State.core s c).wcb line = some w ∧ w.firstClk + 1024 ≤ s.clk.toNat ∧
    w.bytes ≠ [] := ⟨0, lineOne, sBuffered, someOf (by decide +kernel)⟩
def sFlying : State := after (exec (.wcbDrain 0 lineOne) sBuffered)
def flightId : Nat := ((sFlying.core 0).flights.map (·.1)).headD 0
theorem witness_WritesArriveHome : ∃ c p s, memoryOk s = true ∧ ∃ f, tabGet? (State.core s c).flights (Portion.id p) = some f ∧
    (∀ q ∈ (s.core c).flights, q.1 < p.id → q.2.line ≠ f.line) ∧ s.canWrite [f.line] (some (c, p.id)) = true ∧
    inLinkRegs (f.line * 64) = false ∧ (f.bytes.map (·.1)).Nodup ∧ ∀ u ∈ f.units, u &&& p.mask = u :=
  ⟨0, ⟨flightId, 2 ^ 64 - 1⟩, sFlying, by decide +kernel, someOf (by decide +kernel)⟩
/-- A line of L1 with one dirty byte, and a clean one. -/
def sL1 : State :=
  let l : Line := { data := List.replicate 64 0, dirty := 2 ^ 63, teamMask := 0, lost := 0, poison := 0, ro := false, fillClk := 0, dirtyClk := 0, deps := [], units := [2 ^ 63] }
  { sBuffered with cores := sBuffered.cores.map fun k => (k.1, { k.2 with l1 := [(4, l), (5, { l with dirty := 0, units := [] })] }) }
theorem witness_LinesLeaveTheCore_l1 : ∃ c line s, ∃ l, tabGet? (State.core s c).l1 line = some l ∧ l.teamMask = 0 ∧ bitAt l.dirty 63 = true :=
  ⟨0, 4, sL1, someOf (by decide +kernel)⟩
theorem witness_LinesLeaveTheCore_clean : ∃ c line s, ∃ l, tabGet? (State.core s c).l1 line = some l ∧ l.dirty = 0 :=
  ⟨0, 5, sL1, someOf (by decide +kernel)⟩
/-- A plain page of 1 MiB at 0x1E00800000. -/
def withPage (s : State) : State :=
  let s := withRegion s
  { s with mem := [(0x302008, 8, 0x307005), (0x307000, 8, 0x500011)].foldl (fun m w => m.write w.1 (leBytes w.2.1 w.2.2)) s.mem }
/-- A walk that ends at a page. -/
def isPage (r : WalkRes) : Bool := match r with
  | .page _ _ _ => true
  | _ => false
theorem page_of {r : WalkRes} (h : isPage r = true) : ∃ pa attr deps, r = .page pa attr deps := by
  unfold isPage at h
  split at h
  · exact ⟨_, _, _, rfl⟩
  · cases h
def sPage : State := withPage (stI iLd)
def isRegion (r : WalkRes) : Bool := match r with
  | .region _ _ _ _ => true
  | _ => false
theorem region_of {r : WalkRes} (h : isRegion r = true) : ∃ a b c d, r = .region a b c d := by
  unfold isRegion at h
  split at h
  · exact ⟨_, _, _, _, rfl⟩
  · cases h
theorem witness_WalksFillTheTlb : ∃ x va pa attr deps s, inWindow (State.ctx s x) va = false ∧
    (∀ r a ro d, s.walk x va .vread ≠ .region r a ro d) ∧ s.walk x va .fetch = .page pa attr deps := by
  obtain ⟨pa, attr, deps, h⟩ := page_of (r := sPage.walk 0 0x1E008FFFFF .fetch) (by decide +kernel)
  have hn : isRegion (sPage.walk 0 0x1E008FFFFF .vread) = false := by decide +kernel
  exact ⟨0, 0x1E008FFFFF, pa, attr, deps, sPage, by decide +kernel, (fun r a ro d he => by rw [he] at hn; cases hn), h⟩
theorem witness_WalksFillTheTlb_region : ∃ x va r attr ro deps s, inWindow (State.ctx s x) va = false ∧
    s.walk x va .vread = .region r attr ro deps := by
  obtain ⟨r, attr, ro, deps, h⟩ := region_of (r := sPage.walk 0 0x1E007FFFFF .vread) (by decide +kernel)
  exact ⟨0, 0x1E007FFFFF, r, attr, ro, deps, sPage, by decide +kernel, h⟩

/-! ### Commands and banks -/

def iTcp : Instr := .tcp ⟨np, 248, some ⟨63, 0⟩, none, 0, 7⟩
/-- A copy of two 16-byte elements from the start of the scratchpad to its middle; its shape record is in the last 32 bytes. -/
def sTcp : State :=
  let s := scalarsWith [(248, 0), (249, 0x10000000), (250, 0x800), (251, 0x10000000), (252, 0xFE0), (253, 0x10000000), (254, 0x10002), (255, 0)] (stI iTcp)
  { s with cores := s.cores.map fun k => (k.1, { k.2 with scratch := k.2.scratch.write 0xFE0 (leBytes 8 0x100000004) }) }
theorem witness_CommandsAreIssued : ∃ i e s t n, Runs i e s ∧ cmdForm i = some (t, n) ∧ Quiet s e.c ∧ e.x.sbCount t.sb.val < 63 ∧
    t.wait = none := ⟨iTcp, _, sTcp, _, _, runs_of (by decide +kernel), rfl, quiet_of (by decide +kernel), by decide +kernel, rfl⟩
def iMmaWait : Instr := .mma ⟨np, 249, none, some ⟨0, 255⟩, 0, 0⟩
theorem witness_CommandsAreIssued_wait : ∃ i e s t n w, Runs i e s ∧ cmdForm i = some (t, n) ∧ Quiet s e.c ∧ e.x.sbCount t.sb.val < 63 ∧
    t.wait = some w := ⟨iMmaWait, _, stI iMmaWait, _, _, _, runs_of (by decide +kernel), rfl, quiet_of (by decide +kernel), by decide +kernel, rfl⟩
def tSeal : TW := ⟨np, 0, none, none, 15, 7⟩
def sCopying : State := after (exec iTcp sTcp)
theorem witness_BatchesAreSealed_copy : ∃ t e s, e.x.sbCount t.sb.val < 63 ∧ e.lanes.Nodup ∧ Runs (.tcp t) e s ∧
    ((s.core e.c).cmds.filter fun m => isCopy m.2.i).length < 128 :=
  ⟨_, _, sTcp, by decide +kernel, by decide +kernel, runs_of (i := iTcp) (by decide +kernel), by decide +kernel⟩
/-- `cseal` with a copy in the open set of lane 0. -/
def sSeal : State :=
  let s := stI (.cseal tSeal)
  (s.modCore 0 fun k => { k with cmds := (sCopying.core 0).cmds, nextId := 1 }).modLane 0 0 fun l => { l with open_ := [0] }
theorem witness_BatchesAreSealed_seal : ∃ t e s, e.x.sbCount t.sb.val < 63 ∧ e.lanes.Nodup ∧ Runs (.cseal t) e s ∧
    ∃ p ∈ e.lanes, ∃ id ∈ (s.lane e.c p).open_, (tabGet? (s.core e.c).cmds id).isSome = true :=
  ⟨tSeal, _, sSeal, by decide +kernel, by decide +kernel, runs_of (i := .cseal tSeal) (by decide +kernel), by decide +kernel⟩
/-- The copy of `sTcp`, without a semaphore's condition, waits; its shape is in the scratchpad. -/
theorem witness_CopiesStart : ∃ c id s, ((State.core s c).pend = [] ∧ s.expo.stopped = false) ∧ ∃ m tm, s.cmd? c id = some m ∧ s.team? c m.place = some tm ∧
    isCopy m.i = true ∧ m.state = .waiting ∧ m.shape = [] ∧ s.cmdAlive c m = true ∧ (twOf m.i).wait = none ∧
    (pathOf (blk64 m.block 4) = 1 ∧ fld (blk64 m.block 4) 22 38 = 0 ∧ blk64 m.block 4 % 32 = 0 ∧
      blk64 m.block 4 % 2 ^ 22 + 32 = tm.size ∧ tm.size ≤ 2 ^ 22) ∧
    (∀ a ∈ natRange (tm.base + blk64 m.block 4 % 2 ^ 22) 32, a ∉ (s.core c).scratchPoison) ∧
    shapeBad ((natRange (tm.base + blk64 m.block 4 % 2 ^ 22) 32).map (s.core c).scratch.get) = false :=
  ⟨0, 0, sCopying, ⟨by decide +kernel, by decide +kernel⟩, someOf2 (by decide +kernel)⟩
/-- It is stalled at its first element. -/
def sStalled : State := sCopying.modCmd 0 0 fun m => { m with state := .stalled, touched := true, shape := [4, 1, 1, 2, 0, 0, 0, 0, 0, 0] }
theorem witness_CopyElementsAreRetried : ∃ c id s, ((State.core s c).pend = [] ∧ memoryOk s = true) ∧ ∃ m tm, s.cmd? c id = some m ∧
    s.team? c m.place = some tm ∧ (isCopy m.i = true ∧ m.state = .stalled ∧ m.touched = true ∧ m.shape ≠ [] ∧ s.cmdAlive c m = true ∧ tm.size ≤ 2 ^ 22) ∧
    listGet 0 m.shape 0 = 4 ∧ m.prog < shapeCount m.shape ∧
    ((shapeIx m.shape m.prog).2.1 < fld (blk32 m.block 6) 16 16 ∧ (shapeIx m.shape m.prog).2.2 < fld (blk32 m.block 6) 0 16) ∧
    (∀ k ∈ [shapeAddr m.shape (blk64 m.block 0) 4 m.prog, shapeAddr m.shape (blk64 m.block 2) 7 m.prog],
      pathOf k = 1 ∧ fld k 22 38 = 0 ∧ k % 16 = 0 ∧ k % 2 ^ 22 + 16 ≤ tm.size) ∧
    ∀ a ∈ natRange (tm.base + shapeAddr m.shape (blk64 m.block 0) 4 m.prog % 2 ^ 22) 16, a ∉ (s.core c).scratchPoison :=
  ⟨0, 0, sStalled, ⟨by decide +kernel, by decide +kernel⟩, someOf2 (by decide +kernel)⟩
/-- Its elements are done, with poison met. -/
def sCopied : State := withSem (sStalled.modCmd 0 0 fun m => { m with state := .draining, prog := 2, poisoned := true })
theorem witness_CopiesComplete : ∃ c id s, ((State.core s c).engineBusy id false = false) ∧ ∃ m x, s.cmd? c id = some m ∧
    s.group? c m.ctx = some x ∧ m.i = iTcp ∧ m.state = .draining ∧ s.canInc c m = true ∧ m.status = cOk ∧ m.poisoned = true :=
  ⟨0, 0, sCopied, by decide +kernel, someOf2 (by decide +kernel)⟩

def iAcalloc : Instr := .acalloc (.s 254) (.lit 2) np 0
theorem witness_BanksAreAllocated : ∃ p d a sb e s, (Runs (.acalloc (.s d) a p sb) e s ∧ e.x.sbCount sb.val < 63 ∧ (s.core e.c).cmds = [] ∧
    e.opnd s a e.low 32 = 2 ∧ 2 ≤ (s.core e.c).freePhys.length) ∧ ∃ tm b, s.team? e.c e.x.place = some tm ∧ tm.bankRun 2 = some b ∧ b = 0 :=
  ⟨_, _, _, _, _, stI iAcalloc, ⟨runs_of (i := iAcalloc) (by decide +kernel), by decide +kernel, by decide +kernel, by decide +kernel,
    by decide +kernel⟩, someOf2 (by decide +kernel)⟩
/-- The banks of `iAcalloc` are allocated; the team frees the second and whatever lies behind it. -/
def iAcfree : Instr := .acfree np (.lit 1) (.lit 127)
def sAcfree : State :=
  let s := stI iAcfree
  let t := after (exec iAcalloc (stI iAcalloc))
  s.modTeam 0 0 fun tm => { tm with banks := (t.team? 0 0).elim [] (·.banks) }
theorem witness_BanksAreFreed : ∃ p a n e s, (Runs (.acfree p a n) e s ∧ (s.core e.c).cmds = []) ∧ ∃ tm, s.team? e.c e.x.place = some tm ∧
    tm.banks.length = 2 ∧ ∀ b ∈ tm.banks, b.2.freeAt = none :=
  ⟨_, _, _, _, sAcfree, ⟨runs_of (i := iAcfree) (by decide +kernel), by decide +kernel⟩, someOf (by decide +kernel)⟩
/-- `acalloc` awaits its completion. -/
theorem witness_MatrixCommandsComplete_alloc : ∃ c id s, ∃ m x, State.cmd? s c id = some m ∧ s.group? c m.ctx = some x ∧ m.state = .draining ∧
    m.i = .acalloc (.s 254) (.lit 2) np 0 := ⟨0, 0, after (exec iAcalloc (stI iAcalloc)), someOf2 (by decide +kernel)⟩
def iAczero : Instr := .aczero ⟨np, 252, none, none, 0, 0⟩
def sAczero : State := after (exec iAczero (stI iAczero))
/-- What `StartDue` asks where the core holds one command, as a test. -/
def startDueOk (c id : Nat) (s : State) (m : Cmd) (tm : Team) : Bool :=
  !s.expo.stopped && isMatrix m.i && m.state == .waiting && m.order.isNone && (s.ctx tm.ctx).state != .halted &&
    ((s.group? c m.ctx).all fun x => x.state != .saved) &&
    ((twOf m.i).wait.all fun w => s.canBind c m.place w.ix.val && semHolds (tm.semCount w.ix.val) m.thr) &&
    (!isAtomCmd m.i || ((s.core c).cmds.all fun q => !isAtomCmd q.2.i || !q.2.held) && s.granted c) &&
    (isAtomCmd m.i || decide (((s.core c).cmds.filter fun q => q.2.held && !isAtomCmd q.2.i).length < 3)) && (s.core c).cmds.map (·.1) == [id]
theorem startDue_of {c id : Nat} {s : State} {m : Cmd} {tm : Team} (h : startDueOk c id s m tm = true) :
    StartDue c id s m tm ∧ ((s.core c).cmds.map (·.1)).Nodup := by
  simp only [startDueOk, Bool.and_eq_true, Bool.or_eq_true, Bool.not_eq_true', beq_iff_eq, bne_iff_ne, ne_eq, Option.isNone_iff_eq_none,
    decide_eq_true_eq] at h
  obtain ⟨⟨⟨⟨⟨⟨⟨⟨⟨h1, h2⟩, h3⟩, h4⟩, h5⟩, h6⟩, h7⟩, h8⟩, h9⟩, h10⟩ := h
  have hid : ∀ q ∈ (s.core c).cmds, q.1 = id := fun q hq => by
    have := List.mem_map_of_mem (f := (·.1)) hq
    rw [h10] at this
    simpa using this
  refine ⟨⟨h1, h2, h3, h4, h5, fun x hx => ?_, fun w hw => ?_, fun ha => ?_, fun ha => h9.resolve_left (by simp [ha]),
    fun q hq hn => absurd (hid q hq) hn, fun _ q hq hn => absurd (hid q hq) (Nat.ne_of_lt hn)⟩, by rw [h10]; simp⟩
  · rw [hx] at h6; simpa using h6
  · rw [hw] at h7; simpa using h7
  · obtain ⟨h11, h12⟩ := h8.resolve_left (by simp [ha])
    refine ⟨fun q hq hi => ?_, h12⟩
    have := List.all_eq_true.mp h11 q hq
    simpa [hi] using this
theorem witness_MatrixCommandsStart : ∃ c id s m tm, State.cmd? s c id = some m ∧ s.team? c m.place = some tm ∧ StartDue c id s m tm ∧
    ((s.core c).cmds.map (·.1)).Nodup ∧ ∀ q ∈ (s.core c).cmds, isMatrix q.2.i = true := by
  obtain ⟨m, tm, h1, h2, h3⟩ := someOf2 (o := sAczero.cmd? 0 0) (f := fun m => sAczero.team? 0 m.place)
    (p := fun m tm => startDueOk 0 0 sAczero m tm = true) (by decide +kernel)
  exact ⟨0, 0, sAczero, m, tm, h1, h2, (startDue_of h3).1, (startDue_of h3).2, by decide +kernel⟩
/-- `mmz` in a die that shares have been given to. -/
def iMmz : Instr := .mmz ⟨np, 246, none, none, 0, 0⟩
def sMmz : State := let s := after (exec iMmz (stI iMmz)); { s with power := { s.power with shares := Vector.replicate 24 24 } }
theorem witness_MatrixCommandsStart_atom : ∃ c id s m tm, State.cmd? s c id = some m ∧ s.team? c m.place = some tm ∧
    StartDue c id s m tm ∧ isAtomCmd m.i = true := by
  obtain ⟨m, tm, h1, h2, h3, h4⟩ := someOf2 (o := sMmz.cmd? 0 0) (f := fun m => sMmz.team? 0 m.place)
    (p := fun m tm => startDueOk 0 0 sMmz m tm = true ∧ isAtomCmd m.i = true) (by decide +kernel)
  exact ⟨0, 0, sMmz, m, tm, h1, h2, (startDue_of h3).1, h4⟩
def sAczeroDone : State := sAczero.modCmd 0 0 fun m => { m with state := .draining, gst := 5 }
theorem witness_MatrixCommandsComplete : ∃ c id s, ((State.core s c).engineBusy id false = false) ∧ ∃ m x, s.cmd? c id = some m ∧
    s.group? c m.ctx = some x ∧ m.state = .draining ∧ isMatrix m.i = true ∧ s.canInc c m = true ∧ (twOf m.i).pbase.val + statusIx m.i < 256 :=
  ⟨0, 0, sAczeroDone, by decide +kernel, someOf2 (by decide +kernel)⟩
/-- The product is done; the place after its last pass is its ninth scalar. -/
def sMmzDone : State := sMmz.modCmd 0 0 fun m => { m with state := .draining, status := aOk }
theorem witness_MatrixCommandsComplete_mmz : ∃ c id s, ((State.core s c).engineBusy id false = false) ∧ ∃ m x, s.cmd? c id = some m ∧
    s.group? c m.ctx = some x ∧ m.state = .draining ∧ m.i = iMmz ∧ m.status = aOk ∧ s.canInc c m = true ∧ (twOf m.i).pbase.val + statusIx m.i < 256 :=
  ⟨0, 0, sMmzDone, by decide +kernel, someOf2 (by decide +kernel)⟩
/-- `acst` of two columns, stalled at the first, which goes to the last word of the scratchpad. -/
def iAcst : Instr := .acst ⟨np, 247, none, none, 0, 0⟩
def sAcst : State := (after (exec iAcst (scalarsWith [(247, 0xFFC), (248, 0x10000000), (251, 0xFFFFFFFF), (253, 2 ^ 21), (254, 0x200)]
  (stI iAcst)))).modCmd 0 0 fun m => { m with state := .stalled, touched := true }
theorem witness_EngineElementsAreRetried : ∃ c id s, ((State.core s c).pend = [] ∧ memoryOk s = true) ∧ ∃ m tm, s.cmd? c id = some m ∧
    s.team? c m.place = some tm ∧ (m.i = iAcst ∧ m.state = .stalled ∧ m.touched = true ∧ s.cmdAlive c m = true ∧ tm.size ≤ 2 ^ 22) ∧
    m.prog + 1 < m.win.rows * m.win.cols ∧ listGet 0 m.block 4 = 2 ^ 32 - 1 ∧ fld (listGet 0 m.block 5) 0 3 = 0 ∧ fld (listGet 0 m.block 5) 6 4 = 0 ∧
    let ea := wrap ((blk64 m.block 0 : Int) + (m.prog / m.win.cols : Nat) * sext (listGet 0 m.block 2) 32 + (4 * (m.prog % m.win.cols) : Nat)) 64
    pathOf ea = 1 ∧ fld ea 22 38 = 0 ∧ ea % 4 = 0 ∧ ea % 2 ^ 22 + 4 = tm.size :=
  ⟨0, 0, sAcst, ⟨by decide +kernel, by decide +kernel⟩, someOf2 (by decide +kernel)⟩

/-! ### Collectives -/

/-- A collective of two members of ranks 0 and 1, of 33 elements in blocks of 32, one block to a chunk; this module has position 0. -/
def theParams : CollParams := { nblk := 2, frac := false, op := 0, w24 := false, obf16 := false, chb := 1, lcap := 1, quorum := 1, timer := 0,
                                mva := 0, nmem := 2, cid := 7 }
def theInst : Inst := {
  t := 5, st := 1, live := [0, 1], quorum := 1, values := [], chunks := [], poisonedOwn := false, arrived := [], firstArr := none,
  closedAt := 0, onTime := [], lateSet := [], xa := [], timed := false, ndisc := 0, npois := 0, limited := false, sums := [],
  late := [], result := [], flags := 0, written := false, published := 0 }
def theColl : Coll := {
  ctx := 0, rva := 0, step0 := 5, params := theParams, ranks := [0, 1], own := 0, closing := false,
  broken := false, disc := 0, mism := 0, next := 6, insts := [theInst], newest := none, freed := [], held := [], closer := none }
def withColl (c : Coll) (s : State) : State := { s with colls := [(63, c)] }
/-- `colput` of both chunks of handle 63, stalled at the last block, which stands in the last 128 bytes of the scratchpad. -/
def iColput : Instr := .colput ⟨np, 250, none, none, 0, 0⟩
def sColput : State := withColl theColl ((after (exec iColput (scalarsWith
  [(250, 0xF00), (251, 0x10000000), (252, 5), (253, 63 * 2 ^ 20), (254, 2)] (stI iColput)))).modCmd 0 0 fun m =>
    { m with state := .stalled, touched := true, prog := 1 })
theorem witness_EngineElementsAreRetried_put : ∃ c id s, ((State.core s c).pend = [] ∧ memoryOk s = true) ∧ ∃ m tm col, s.cmd? c id = some m ∧
    s.team? c m.place = some tm ∧ s.coll? (putH m.block) = some col ∧ (m.i = iColput ∧ m.state = .stalled ∧ m.touched = true ∧ s.cmdAlive c m = true ∧
    tm.size ≤ 2 ^ 22) ∧
    putFirst m.block * col.params.chb + m.prog + 1 = min col.params.nblk ((putFirst m.block + putCount m.block) * col.params.chb) ∧
    pathOf (blk64 m.block 0 + 128 * m.prog) = 1 ∧ fld (blk64 m.block 0 + 128 * m.prog) 22 38 = 0 ∧
    (blk64 m.block 0 + 128 * m.prog) % 2 ^ 22 + 128 = tm.size :=
  ⟨0, 0, sColput, ⟨by decide +kernel, by decide +kernel⟩, someOf3 (by decide +kernel)⟩

/-! ### Clauses, yield points, versioned accesses -/

/-- The group is at a boundary before the clause that holds `iAdd`. -/
def sBoundary : State := (stI iAdd).modGroup 0 0 fun x => { x with cur := none }
/-- A clause that was fetched. -/
def isClause (r : Fetched) (p : Nat → List Nat → Bool) : Bool := match r with
  | .clause h ws => p h ws
  | _ => false
theorem clause_of {r : Fetched} {p : Nat → List Nat → Bool} (h : isClause r p = true) : ∃ n ws, r = .clause n ws ∧ p n ws = true := by
  unfold isClause at h
  split at h
  · exact ⟨_, _, rfl, h⟩
  · cases h
theorem witness_ClausesIssue : ∃ c port g base resw h ps ws s x, State.group? s c g = some x ∧ ((s.core c).groups.map (·.1)).Nodup ∧
    (∀ q ∈ (s.core c).groups, q.1 ≠ g → s.atBoundary q.2 = false) ∧ s.readyClass c x = some (headerClass h) ∧
    s.issuing c x = some (base, resw, ps) ∧ s.fetchClause (s.ctxOf c x) base = .clause h ws ∧ port ∈ portsOf (headerClass h) ∧
    (s.expo.stopped = false ∧ ((s.core c).portFree[port]?).getD 0 ≤ s.clk.toNat ∧ resw < ws.length ∧ port < 4 ∧
      ((s.core c).pipeTurn.1 = s.clk.toNat → (s.core c).pipeTurn.2 ≤ port)) ∧ headerClass h ≠ .memory ∧ headerClass h ≠ .sync := by
  obtain ⟨x, q, h1, h2, h3⟩ := someOf2 (o := sBoundary.group? 0 0) (f := fun x => sBoundary.issuing 0 x) (p := fun x q =>
    isClause (sBoundary.fetchClause (sBoundary.ctxOf 0 x) q.1) (fun h ws => sBoundary.readyClass 0 x == some (headerClass h) &&
      (portsOf (headerClass h)).contains 3 && decide (q.2.1 < ws.length) && headerClass h != .memory && headerClass h != .sync) = true)
    (by decide +kernel)
  obtain ⟨h, ws, h4, h5⟩ := clause_of h3
  simp only [Bool.and_eq_true, beq_iff_eq, List.contains_iff_mem, decide_eq_true_eq, bne_iff_ne] at h5
  exact ⟨0, 3, 0, q.1, q.2.1, h, q.2.2, ws, sBoundary, x, h1, by decide +kernel, by decide +kernel, h5.1.1.1.1, h2, h4, h5.1.1.1.2,
    ⟨by decide +kernel, by decide +kernel, h5.1.1.2, by decide +kernel⟩, h5.1.2, h5.2⟩
/-- The clause of a load, whose requests fit. -/
def sBoundaryLd : State := sLd.modGroup 0 0 fun x => { x with cur := none }
theorem witness_ClausesIssue_memory : ∃ c port g base resw h ps ws s x z, State.group? s c g = some x ∧
    s.readyClass c x = some (headerClass h) ∧ s.issuing c x = some (base, resw, ps) ∧ s.fetchClause (s.ctxOf c x) base = .clause h ws ∧
    port ∈ portsOf (headerClass h) ∧ resw < ws.length ∧ headerClass h = .memory ∧
    ((s.headerFaults c).refresh c s.clk.toNat).group? c g = some z ∧
    let u := ((s.headerFaults c).refresh c s.clk.toNat).enterClause c z h resw ps
    u.clauseFits c g z (u.clauseCursor c z base h resw ws ps) = true := by
  obtain ⟨x, q, z, h1, h2, h6, h3⟩ := someOf3 (o := sBoundaryLd.group? 0 0) (f := fun x => sBoundaryLd.issuing 0 x)
    (g := fun _ _ => ((sBoundaryLd.headerFaults 0).refresh 0 sBoundaryLd.clk.toNat).group? 0 0) (p := fun x q z =>
    isClause (sBoundaryLd.fetchClause (sBoundaryLd.ctxOf 0 x) q.1) (fun h ws => sBoundaryLd.readyClass 0 x == some (headerClass h) &&
      (portsOf (headerClass h)).contains 5 && decide (q.2.1 < ws.length) && headerClass h == .memory &&
      (let u := ((sBoundaryLd.headerFaults 0).refresh 0 sBoundaryLd.clk.toNat).enterClause 0 z h q.2.1 q.2.2
       u.clauseFits 0 0 z (u.clauseCursor 0 z q.1 h q.2.1 ws q.2.2))) = true) (by decide +kernel)
  obtain ⟨h, ws, h4, h5⟩ := clause_of h3
  simp only [Bool.and_eq_true, beq_iff_eq, List.contains_iff_mem, decide_eq_true_eq] at h5
  exact ⟨0, 5, 0, q.1, q.2.1, h, q.2.2, ws, sBoundaryLd, x, z, h1, h5.1.1.1.1, h2, h4, h5.1.1.1.2, h5.1.1.2, h5.1.2, h6, h5.2⟩
/-- The group waits for the fetch of that clause, whose entry has been written since. -/
def sFetchWaits : State := sBoundary.modGroup 0 0 fun x => { x with blk := some (.fetch bootCode 5 true false), state := .wait }
theorem witness_FetchesReplay : ∃ c g base resw va line ps tch dr s x, State.group? s c g = some x ∧ x.blk = some (.fetch va line tch dr) ∧ tch = true ∧
    s.issuing c x = some (base, resw, ps) ∧ ∀ va f, s.fetchClause (s.ctxOf c x) base ≠ .fault va f := by
  obtain ⟨x, q, h1, h2, h3, h4⟩ := someOf2 (o := sFetchWaits.group? 0 0) (f := fun x => sFetchWaits.issuing 0 x) (p := fun x q =>
    x.blk = some (.fetch bootCode 5 true false) ∧ isClause (sFetchWaits.fetchClause (sFetchWaits.ctxOf 0 x) q.1) (fun _ _ => true) = true)
    (by decide +kernel)
  obtain ⟨h, ws, h5, _⟩ := clause_of h4
  exact ⟨0, 0, q.1, q.2.1, _, _, q.2.2, _, _, sFetchWaits, x, h1, h3, rfl, h2, fun va f => by rw [h5]; exact nofun⟩

def iYield : Instr := .yieldpt np 245
theorem witness_YieldPoints : ∃ p pb e s, Runs (.yieldpt p pb) e s ∧ (s.ctx (s.ctxOf e.c e.x)).state ≠ .stopping ∧
    ∀ q ∈ (s.core e.c).teams, (s.ctx q.2.ctx).state ≠ .stopping :=
  ⟨_, _, _, stI iYield, runs_of (i := iYield) (by decide +kernel), by decide +kernel, by decide +kernel⟩
/-- The context is STOPPING; a second group of the team, which no lane position has yet, is not saved. -/
def sStopping : State :=
  let s := stI iYield
  let s := s.modCore 0 fun k => { k with groups := k.groups ++ [(1, { (envOf iYield s).x with gbase := 8 })] }
  { s with ctxs := s.ctxs.setIfInBounds 0 { s.ctx 0 with state := .stopping } }
theorem witness_YieldPoints_stop : ∃ p pb e s h, (Runs (.yieldpt p pb) e s ∧ (s.ctx (s.ctxOf e.c e.x)).state = .stopping ∧
    e.x.hmode = false ∧ (∀ q ∈ s.liveLanes e.c e.x, q ∈ e.cu.issuing) ∧ s.saveReady e.c e.g = true ∧
    e.cu.words.length ≤ e.cu.k + 1 ∧ h ≠ e.g ∧ (s.core e.c).cmds = [] ∧ (s.core e.c).teams.map (·.1) = [e.x.place] ∧
    (((s.core e.c).groups.filter fun q => q.2.place == e.x.place).map (·.2.gbase)).Nodup ∧ (s.core e.c).pend = []) ∧
    ∃ z, s.group? e.c h = some z ∧ z.place = e.x.place ∧ z.state ≠ .saved :=
  ⟨_, _, _, sStopping, 1, ⟨runs_of (i := iYield) (by decide +kernel), by decide +kernel, by decide +kernel, by decide +kernel,
    by decide +kernel, by decide +kernel, by decide +kernel, by decide +kernel, by decide +kernel, by decide +kernel, by decide +kernel⟩,
    someOf (by decide +kernel)⟩

/-- What `PlainRecord` asks, as a test. -/
def plainOk (s : State) (r : Nat) : Bool := (natRange r 64).all fun a => !inLinkRegs a && (s.mapAt a).isNone
theorem plain_of {s : State} {r : Nat} (h : plainOk s r = true) : PlainRecord s r := by
  intro a x h1 h2
  have := List.all_eq_true.mp h a (mem_natRange.mpr ⟨h1, h2⟩)
  simp only [Bool.and_eq_true, Bool.not_eq_true', Option.isNone_iff_eq_none] at this
  exact ⟨this.1, by unfold State.guardByte; rw [this.2]⟩
/-- A list of bytes that was found. -/
def isBytes (r : Except (Nat × PFault) (List Nat)) (p : List Nat → Bool) : Bool := match r with
  | .ok l => p l
  | _ => false
theorem bytes_of {r : Except (Nat × PFault) (List Nat)} {p : List Nat → Bool} (h : isBytes r p = true) : ∃ l, r = .ok l ∧ p l = true := by
  unfold isBytes at h
  split at h
  · exact ⟨_, rfl, h⟩
  · cases h

/-- The `ldv` of `iLdv` is outstanding, at steps up to the record's PSTAMP. -/
def reg0 : Nat := 0x303000
def iLdvMin : Instr := .ldv ⟨p1, .b32, .v 4, ⟨.v 0, .v 2, 0, false⟩, 1⟩
def sVread (y : Nat) : State := after (exec iLdvMin (withRegion (two <| lanesWith [(2, y)] (addrs 0x1E00000000 4 (stI iLdvMin)))))
def readsOk (s : State) (f : Nat) (r : Pend) : Bool := (r.waiting reg0).all fun a =>
  isBytes ((s.setPin reg0 f ((s.vrec reg0).pin f + 1)).frameBytes reg0 f ((eaRange a.va a.n).map (· % 2 ^ 50))) fun _ => true
theorem reads_of {s : State} {f : Nat} {r : Pend} (h : readsOk s f r = true) : ∀ a ∈ r.waiting reg0, ∃ pas,
    (s.setPin reg0 f ((s.vrec reg0).pin f + 1)).frameBytes reg0 f ((eaRange a.va a.n).map (· % 2 ^ 50)) = .ok pas := fun a ha => by
  obtain ⟨l, h, _⟩ := bytes_of (List.all_eq_true.mp h a ha)
  exact ⟨l, h⟩
/-- What the statements about versioned accesses ask of the record and of memory, as one test. -/
def vOk (s : State) : Bool := memoryOk s && plainOk s reg0 && !s.vrecBad reg0 && s.mons.isEmpty
theorem v_of {s : State} (h : vOk s = true) : memoryOk s = true ∧ PlainRecord s reg0 ∧ s.vrecBad reg0 = false ∧ s.mons = [] := by
  simp only [vOk, Bool.and_eq_true, Bool.not_eq_true', List.isEmpty_iff] at h
  exact ⟨h.1.1.1, plain_of h.1.1.2, h.1.2, h.2⟩
theorem witness_VersionedReadsResolve : ∃ c id f s, (memoryOk s = true ∧ PlainRecord s reg0 ∧ s.vrecBad reg0 = false ∧ s.mons = []) ∧
    ((s.vrec reg0).pin f < 65535 ∧ ∀ x, x < 64 → s.logFree c x = true) ∧ ∃ p tm, tabGet? (State.core s c).pend id = some p ∧
    s.team? c p.place = some tm ∧ (p.accs.map (·.pos)).Nodup ∧ p.kind = .ldv .b32 false ∧ p.waiting reg0 ≠ [] ∧ readsOk s f p = true ∧
    f = (s.vrec reg0).choose (s.ctx tm.ctx).detm (minStep (p.waiting reg0)) ∧ minStep (p.waiting reg0) = (s.vrec reg0).pstamp :=
  ⟨0, 0, 0, sVread 7, v_of (by decide +kernel), by decide +kernel, someOf2 (by decide +kernel)⟩
/-- Past the stale limit: the record's stamp is below the steps that the lanes ask for. -/
def sStale (s : State) : State :=
  let s := s.modCore 0 fun k => { k with pend := k.pend.map fun p => (p.1, { p.2 with refused := tabSet p.2.refused reg0 0 }) }
  { s with clk := 512, ctxs := s.ctxs.setIfInBounds 0 { s.ctx 0 with zwt := 1 } }
theorem witness_VersionedReadsResolve_stale : ∃ c id s, (memoryOk s = true ∧ PlainRecord s reg0 ∧ s.vrecBad reg0 = false ∧ s.mons = []) ∧ ∃ p tm x, tabGet? (State.core s c).pend id = some p ∧ s.team? c p.place = some tm ∧
    s.group? c p.ctx = some x ∧ ((p.accs.map (·.pos)).Nodup ∧ p.kind = .ldv .b32 false ∧ p.waiting reg0 ≠ [] ∧ p.pins = []) ∧
    tabGet? p.refused reg0 = some 0 ∧ (s.ctx tm.ctx).detm = false ∧ (s.ctx tm.ctx).zwt = 1 ∧ s.clk = 512 ∧
    (s.vrec reg0).pstamp < minStep (p.waiting reg0) :=
  ⟨0, 0, sStale (sVread 8), v_of (by decide +kernel), someOf3 (by decide +kernel)⟩
def iLdvNt : Instr := .ldvNt ⟨p1, .b32, .v 4, ⟨.v 0, .v 2, 0, false⟩, 1⟩
def sVreadNt : State := sStale (after (exec iLdvNt (withRegion (two <| lanesWith [(2, 8)] (addrs 0x1E00000000 4 (stI iLdvNt))))))
theorem witness_VersionedReadsResolve_nt : ∃ c id s, (memoryOk s = true ∧ PlainRecord s reg0 ∧ s.vrecBad reg0 = false ∧ s.mons = []) ∧
    ((s.vrec reg0).pin (s.vrec reg0).pix < 65535 ∧ ∀ x, x < 64 → s.logFree c x = true) ∧
    ∃ p tm, tabGet? (State.core s c).pend id = some p ∧ s.team? c p.place = some tm ∧
    ((p.accs.map (·.pos)).Nodup ∧ p.kind = .ldv .b32 true ∧ p.waiting reg0 ≠ [] ∧ readsOk s (s.vrec reg0).pix p = true) ∧
    tabGet? p.refused reg0 = some 0 ∧ (s.ctx tm.ctx).detm = false ∧ (s.ctx tm.ctx).zwt = 1 ∧ s.clk = 512 ∧
    (s.vrec reg0).pstamp < minStep (p.waiting reg0) :=
  ⟨0, 0, sVreadNt, v_of (by decide +kernel), by decide +kernel, someOf2 (by decide +kernel)⟩
/-- The last lane has read; its frame set drains and one pin is left. -/
def sPinned : State :=
  let s := (sVread 7).modCore 0 fun k => { k with pend := k.pend.map fun p => (p.1, { p.2 with accs := [], pins := [(reg0, 2)] }) }
  { s with mem := ((s.mem.write 0x303020 (leBytes 4 0x114)).write 0x30302C (leBytes 2 1)) }
theorem witness_VersionedReadsResolve_pin : ∃ c id s, (memoryOk s = true ∧ PlainRecord s reg0 ∧ s.vrecBad reg0 = false ∧ s.mons = []) ∧
    ((s.vrec reg0).drn = true ∧ (s.vrec reg0).wix = 2 ∧ (s.vrec reg0).pin 2 = 1 ∧ (s.vrec reg0).xp 2 = false) ∧
    ∃ p tm x, tabGet? (State.core s c).pend id = some p ∧ s.team? c p.place = some tm ∧ s.group? c p.ctx = some x ∧
    p.kind = .ldv .b32 false ∧ p.pins = [(reg0, 2)] ∧ p.accs = [] ∧ p.slot = some 1 :=
  ⟨0, 0, sPinned, v_of (by decide +kernel), by decide +kernel, someOf3 (by decide +kernel)⟩

/-- The `stv` of `iStv` has been issued. -/
def sVwrite : State := after (exec iStv sStv)
theorem witness_VersionedWritesLand : ∃ c id s, (memoryOk s = true ∧ PlainRecord s reg0 ∧ s.vrecBad reg0 = false ∧ s.mons = []) ∧
    s.stvHeld reg0 = false ∧ ∃ p tm a, tabGet? (State.core s c).pend id = some p ∧ s.team? c p.place = some tm ∧
    (p.accs.find? fun a => a.st == 0 && a.tgt.isNone && !s.stvBehind c id p a) = some a ∧ (s.ctx tm.ctx).detm = false ∧ p.kind = .stv 4 ∧ a.reg = some reg0 ∧
    isBytes (s.frameBytes reg0 (s.vrec reg0).wix ((eaRange a.va a.n).map (· % 2 ^ 50))) (fun _ => true) = true :=
  ⟨0, 0, sVwrite, v_of (by decide +kernel), by decide +kernel,
    someOf3 (by decide +kernel)⟩
/-- Its lowest lane has resolved into frame set 2, whose pages lie from 0x330000 on. -/
def sVwriting : State := after (exec (.stvResolution 0 0) sVwrite)
theorem witness_VersionedWritesLand_home : ∃ c id s pas, (memoryOk s = true ∧ PlainRecord s reg0 ∧ s.vrecBad reg0 = false ∧ s.mons = []) ∧
    (pas.length = 4 ∧ pas.Nodup ∧ (∀ b ∈ pas, b < reg0 ∨ reg0 + 64 ≤ b) ∧ s.earlierOverlap c 6 (.home pas 1 []) id = false ∧
    s.canWrite (linesOf pas) (some (c, id)) = true) ∧ ∃ p tm a, tabGet? (State.core s c).pend id = some p ∧ s.team? c p.place = some tm ∧
    (p.accs.find? (·.st == 1)) = some a ∧ p.kind = .stv 4 ∧ a.reg = some reg0 ∧ a.pos = 6 ∧ a.tgt = some (.home pas 1 []) :=
  ⟨0, 0, sVwriting, [0x330018, 0x330019, 0x33001A, 0x33001B], v_of (by decide +kernel),
    by decide +kernel, someOf3 (by decide +kernel)⟩

/-- A publication of the region at stamp 8 by lanes 6 and 7. -/
def iVpub : Instr := .vpub ⟨p1, .v 2, ⟨.v 0, .lit 0, 0, false⟩, 1⟩
def sVpub : State := withRegion (two <| lanesWith [(2, 8)] (addrs 0x1E00000000 0 (stI iVpub)))
theorem witness_PublicationsAreMade : ∃ o e s tm, Runs (.vpub o) e s ∧ e.x.phase = 0 ∧ Quiet s e.c ∧
    Accepted e s tm ⟨.vpub, some o.sb, o.d,
      e.lanes.map fun p => { pos := p, ea := e.effAddr s o.m 1 p, eas := eaRange (e.effAddr s o.m 1 p) 1, x := e.opnd s o.d p 32 },
      .vwrite, (· == 0), 0⟩ ∧ ∀ p ∈ e.lanes, fld (e.effAddr s o.m 1 p) 50 10 = 0 := by
  let e := envOf iVpub sVpub
  let ea (p : Nat) : Nat := e.effAddr sVpub ⟨.v 0, .lit 0, 0, false⟩ 1 p
  obtain ⟨tm, _, h⟩ := accepted_of (e := envOf iVpub sVpub) (s := sVpub) (f := ⟨.vpub, some 1, .v 2,
      e.lanes.map fun p => { pos := p, ea := ea p, eas := eaRange (ea p) 1, x := e.opnd sVpub (.v 2) p 32 }, .vwrite, (· == 0), 0⟩)
    (by decide +kernel)
  exact ⟨_, _, _, tm, runs_of (i := iVpub) (by decide +kernel), by decide +kernel, quiet_of (by decide +kernel), h, by decide +kernel⟩
/-- The word has issued; its lowest lane is not decided yet. -/
def sVpubbed : State := after (exec iVpub sVpub)
theorem witness_PublicationsAreMade_accept : ∃ c id s, (memoryOk s = true ∧ PlainRecord s reg0 ∧ s.vrecBad reg0 = false ∧ s.mons = []) ∧
    ∃ p tm a, tabGet? (State.core s c).pend id = some p ∧ s.team? c p.place = some tm ∧ (p.accs.find? (·.st == 0)) = some a ∧
    p.kind = .vpub ∧ p.sent = true ∧ a.reg = some reg0 ∧ (s.ctx tm.ctx).detm = false ∧ (s.vrec reg0).lstamp < a.x :=
  ⟨0, 0, sVpubbed, v_of (by decide +kernel), someOf3 (by decide +kernel)⟩
/-- Lane 6 is accepted: its publication is due, and the stamp of lane 7, which is not above it, is refused. -/
def sAccepted : State := after (exec (.publicationAcceptance 0 0) sVpubbed)
theorem witness_PublicationsAreMade_refuse : ∃ c id s, (memoryOk s = true ∧ PlainRecord s reg0 ∧ s.vrecBad reg0 = false ∧ s.mons = []) ∧
    ∃ p tm a, tabGet? (State.core s c).pend id = some p ∧ s.team? c p.place = some tm ∧ (p.accs.find? (·.st == 0)) = some a ∧
    p.kind = .vpub ∧ p.sent = true ∧ a.reg = some reg0 ∧ (s.ctx tm.ctx).detm = false ∧ a.x = (s.vrec reg0).lstamp :=
  ⟨0, 0, sAccepted, v_of (by decide +kernel), someOf3 (by decide +kernel)⟩
theorem witness_PublicationsAreMade_publish : ∃ s, (memoryOk s = true ∧ PlainRecord s reg0 ∧ s.vrecBad reg0 = false ∧ s.mons = []) ∧
    ((s.vrec reg0).ready = true ∧ s.expo.stopped = false) ∧ ∃ b p, (s.pubs.find? (·.record == reg0)) = some b ∧
    tabGet? (State.core s b.core).pend b.pend = some p ∧ b.source = 0 ∧ p.kind = .vpub ∧ p.dst = .v 2 ∧ ∃ a ∈ p.accs, a.pos = b.pos :=
  ⟨sAccepted, v_of (by decide +kernel), by decide +kernel, someOf2 (by decide +kernel)⟩
/-- Every lane is accepted, and the word is run again. -/
def sAllAccepted : State := { sVpubbed.modCore 0 fun k => { k with pend := k.pend.map fun p =>
  (p.1, { p.2 with accs := p.2.accs.map fun a => { a with st := 1 } }) } with focus := some (0, 0) }
theorem witness_PublicationsAreMade_done : ∃ o e s id, (Runs (.vpub o) e s ∧ e.x.phase = 2 * id + 1) ∧
    ∃ q, tabGet? (State.core s e.c).pend id = some q ∧ ∀ a ∈ q.accs, a.st = 1 :=
  ⟨_, _, sAllAccepted, 0, ⟨runs_of (i := iVpub) (by decide +kernel), by decide +kernel⟩, someOf (by decide +kernel)⟩
/-- An entry of the operand log whose lane can be tried again: the load of `sLoadingHome`. -/
def sLogged : State := sLoadingHome.modCore 0 fun k => { k with
  pend := k.pend.map fun p => (p.1, { p.2 with accs := p.2.accs.map fun a => if a.pos == 7 then { a with st := 3, tgt := none } else a })
  log := [(0, { pend := 0, slotCtx := 0, acc := 0, since := 0, lanes := [{ pos := 7, va := 0x1DFFFFFFFF, code := 0, level := 3, line := 5, touched := true, dropped := false }] })] }
/-- The bytes of an access through the frame sets of its instruction. -/
def isPinned (r : Except (Nat × PFault) (List Nat × Nat × List Nat)) : Bool := match r with
  | .ok _ => true
  | _ => false
theorem pinned_of {r : Except (Nat × PFault) (List Nat × Nat × List Nat)} (h : isPinned r = true) : ∃ a b c, r = .ok (a, b, c) := by
  unfold isPinned at h
  split at h
  · exact ⟨_, _, _, rfl⟩
  · cases h
/-- The load as given, in a state with its only entry. -/
def loggedOk (s : State) (p : Pend) (a : Acc) (tm : Team) (rs : List Nat) : Bool :=
  let eas := eaRange a.va (max a.n 1)
  let new := ((s.regionsOf tm.ctx eas).filter fun r => !(p.pins.any (·.1 == r))).map fun r => (r, (s.vrec r).choose (s.ctx tm.ctx).detm 0)
  new.map (·.1) == rs && (new.all fun q => decide ((s.vrec q.1).pin q.2 < 65535)) &&
    isPinned (s.pinnedBytes tm.ctx (p.pins ++ new) (eas.map (· % 2 ^ 50)))
theorem witness_LoggedAccessesReplay : ∃ c id s p a tm pas attr deps, c ≠ 576 ∧
    (∃ le l, tabGet? (State.core s c).log id = some le ∧ le.lanes = [l] ∧ l.touched = true ∧ l.pos = 7) ∧
    tabGet? (s.core c).pend id = some p ∧ (p.accs.find? fun a => a.pos == 7 && a.st == 3) = some a ∧ s.team? c p.place = some tm ∧
    p.kind = .load .i8 false ∧ s.regionsOf tm.ctx (eaRange a.va (max a.n 1)) = [] ∧
    s.pinnedBytes tm.ctx p.pins ((eaRange a.va (max a.n 1)).map (· % 2 ^ 50)) = .ok (pas, attr, deps) := by
  obtain ⟨p, a, tm, h1, h2, h3, h4, h5, h6⟩ := someOf3 (o := tabGet? (sLogged.core 0).pend 0) (f := fun p => p.accs.find? fun a => a.pos == 7 && a.st == 3)
    (g := fun p _ => sLogged.team? 0 p.place) (p := fun p a tm => p.kind = .load .i8 false ∧ sLogged.regionsOf tm.ctx (eaRange a.va (max a.n 1)) = [] ∧
      isPinned (sLogged.pinnedBytes tm.ctx p.pins ((eaRange a.va (max a.n 1)).map (· % 2 ^ 50))) = true) (by decide +kernel)
  obtain ⟨x, y, z, h7⟩ := pinned_of h6
  exact ⟨0, 0, sLogged, p, a, tm, x, y, z, by decide, ⟨_, _, rfl, rfl, rfl, rfl⟩, h1, h2, h3, h4, h5, h7⟩
/-- A load of a versioned region, whose lane pins the version that it reads. -/
def iLdRegion : Instr := .ld ⟨⟨false, 1⟩, .b32, .v 4, mem0, 1⟩
def sLoggedRegion : State :=
  let s := after (exec iLdRegion (withRegion ((addrs 0x1E00000000 4 (stI iLdRegion)).modLane 0 7 fun l => { l with p := l.p.setIfInBounds 1 true })))
  s.modCore 0 fun k => { k with
    pend := k.pend.map fun p => (p.1, { p.2 with pins := [], accs := p.2.accs.map fun a => { a with st := 3, tgt := none } })
    log := [(0, { pend := 0, slotCtx := 0, acc := 0, since := 0, lanes := [{ pos := 7, va := 0x1E0000001C, code := 0, level := 3, line := 5, touched := true, dropped := false }] })] }
theorem witness_LoggedAccessesReplay_pins : ∃ c id s, State.mons s = [] ∧ ∃ p a tm, tabGet? (State.core s c).pend id = some p ∧
    (p.accs.find? fun a => a.pos == 7 && a.st == 3) = some a ∧ s.team? c p.place = some tm ∧ p.kind = .load .b32 false ∧
    loggedOk s p a tm [reg0] = true := ⟨0, 0, sLoggedRegion, by decide +kernel, someOf3 (by decide +kernel)⟩

/-! ### Steps and staged stores -/

/-- Slot 0 is the step context of member 0 of pod 0; members 0 and 1 are live, at steps 7 and 6. -/
def withMembers (s : State) : State :=
  { s with stepCtx := { s.stepCtx with bound := true, rank := 0, sctx := 0 },
           replicas := s.replicas.map fun r => { r with members := [(0, ⟨true, false, 7⟩), (1, ⟨true, false, 6⟩)] },
           ctxs := s.ctxs.setIfInBounds 0 { s.ctx 0 with step := 7, lead := 1 } }
def iStepadv : Instr := .stepadv np (.s 255) (.s 4)
theorem witness_StepAdvances_passed : ∃ p d a e s, (Runs (.stepadv p d a) e s ∧ Quiet s e.c) ∧ (e.c < 576 ∧ e.x.phase = 0 ∧
    e.opnd s a e.low 32 = (s.ctx (s.ctxOf e.c e.x)).step.toNat) :=
  ⟨_, _, _, _, scalarsWith [(4, 7)] (withMembers (stI iStepadv)), ⟨runs_of (i := iStepadv) (by decide +kernel), quiet_of (by decide +kernel)⟩,
    by decide +kernel⟩
theorem witness_StepAdvances : ∃ p d a e s, (Runs (.stepadv p d a) e s ∧ Quiet s e.c) ∧ (e.c < 576 ∧ e.x.phase = 0 ∧
    (s.ctx (s.ctxOf e.c e.x)).step.toNat < e.opnd s a e.low 32 ∧ s.ctxOf e.c e.x < 64 ∧ s.isStepCtx (s.ctxOf e.c e.x) = true ∧
    s.ownLive (quadrant e.c) = true ∧
    ∀ v ∈ (s.replica (quadrant e.c)).steps s.ownPod, e.opnd s a e.low 32 ≤ v + 1 + (s.ctx (s.ctxOf e.c e.x)).lead.toNat) :=
  ⟨_, _, _, _, scalarsWith [(4, 8)] (withMembers (stI iStepadv)), ⟨runs_of (i := iStepadv) (by decide +kernel), quiet_of (by decide +kernel)⟩,
    by decide +kernel⟩
theorem witness_StepAdvances_alone : ∃ p d a e s, (Runs (.stepadv p d a) e s ∧ Quiet s e.c) ∧ (e.c < 576 ∧ e.x.phase = 0 ∧
    (s.ctx (s.ctxOf e.c e.x)).step.toNat < e.opnd s a e.low 32 ∧ s.ctxOf e.c e.x < 64 ∧ s.isStepCtx (s.ctxOf e.c e.x) = false) :=
  ⟨_, _, _, _, scalarsWith [(4, 1)] (stI iStepadv), ⟨runs_of (i := iStepadv) (by decide +kernel), quiet_of (by decide +kernel)⟩,
    by decide +kernel⟩
def iSteprd : Instr := .steprd np (.s 254) (.lit 0) 7
theorem witness_StatusReads_step : ∃ p d a sb e s, Runs (.steprd p d a sb) e s ∧ (e.x.sbCount sb.val < 63 ∧ e.opnd s a e.low 32 = 0) :=
  ⟨_, _, _, _, _, withMembers (stI iSteprd), runs_of (i := iSteprd) (by decide +kernel), by decide +kernel⟩
def iColstat : Instr := .colstat np (.s 252) (.lit 63) 0
theorem witness_StatusReads_none : ∃ p d a sb e s, Runs (.colstat p d a sb) e s ∧ (e.x.sbCount sb.val < 63 ∧
    (s.coll? (e.opnd s a e.low 32 % 64)).filter (·.ctx == s.ctxOf e.c e.x) = none) :=
  ⟨_, _, _, _, _, stI iColstat, runs_of (i := iColstat) (by decide +kernel), by decide +kernel⟩
theorem witness_StatusReads_coll : ∃ p d a sb e s, (Runs (.colstat p d a sb) e s ∧ (e.x.sbCount sb.val < 63 ∧ (s.ctxOf e.c e.x) = 0)) ∧
    ∃ k, (s.coll? (e.opnd s a e.low 32 % 64)).filter (·.ctx == s.ctxOf e.c e.x) = some k ∧ k.insts = [] :=
  ⟨_, _, _, _, _, withColl { theColl with insts := [] } (stI iColstat), ⟨runs_of (i := iColstat) (by decide +kernel), by decide +kernel⟩,
    someOf (by decide +kernel)⟩
theorem witness_StatusReads_insts : ∃ p d a sb e s, (Runs (.colstat p d a sb) e s ∧ (e.x.sbCount sb.val < 63 ∧ (s.ctxOf e.c e.x) = 0)) ∧
    ∃ k, (s.coll? (e.opnd s a e.low 32 % 64)).filter (·.ctx == s.ctxOf e.c e.x) = some k ∧ k.insts = [theInst] ∧ k.closing = true :=
  ⟨_, _, _, _, _, withColl { theColl with closing := true } (stI iColstat), ⟨runs_of (i := iColstat) (by decide +kernel), by decide +kernel⟩,
    someOf (by decide +kernel)⟩
/-- A wait at `stepadv` for step 10. -/
def sNeeds : State := (scalarsWith [(4, 10)] (withMembers (stI iStepadv))).modGroup 0 0 fun x => { x with blk := some .stepadv, state := .wait }
theorem witness_NeedsAreAnnounced : ∃ c g n s, ∃ x, State.group? s c g = some x ∧ s.isStepCtx (s.ctxOf c x) = true ∧ s.waitNeed c x = some n ∧
    s.leads = true := ⟨0, 0, 8, sNeeds, someOf (by decide +kernel)⟩
theorem witness_NeedsAreAnnounced_member : ∃ c g n s, ∃ x, State.group? s c g = some x ∧ s.isStepCtx (s.ctxOf c x) = true ∧
    s.waitNeed c x = some n ∧ s.leads = false :=
  ⟨0, 0, 8, { sNeeds with stepCtx := { sNeeds.stepCtx with rank := 1 } }, someOf (by decide +kernel)⟩
/-- A store of team 0 of a grid, staged and due. -/
def theStaged : Staged :=
  { grid := 0, n := 0, core := 0, ctx := 0, pend := none, rln := 0, kind := .store 2,
    acc := { pos := 0, va := 0x500000, n := 2, tgt := some (.home [0x500000, 0x500001] 0 []), x := 0xABCD, y := 0, reg := none, fs := 0, st := 1 },
    bytes := [(0x500000, 0xCD), (0x500001, 0xAB)], due := some 0, epoch := 0, seq := 0 }
def sStaged : State := { stI iAdd with transit := [theStaged] }
theorem witness_StagedStoresCommit : ∃ grid n s, State.detTurn s grid n = true ∧ s.firstDue grid n = some theStaged ∧ s.conflicts = [] ∧
    s.canWrite (linesOf [0x500000, 0x500001]) none (some theStaged.grid) = true ∧ theStaged.pend = none ∧ theStaged.kind = .store 2 ∧ (∀ a ∈ [0x500000, 0x500001], inLinkRegs a = false) ∧
    theStaged.acc.own = none ∧ theStaged.bytes.map (·.1) = [0x500000, 0x500001] ∧ [0x500000, 0x500001].Nodup ∧ (∀ m ∈ s.mons, m.core ≠ theStaged.core) ∧ memoryOk s = true :=
  ⟨0, 0, sStaged, by decide +kernel⟩

/-! ### Queues -/

/-- Memory with values written: address, bytes, value. -/
def puts (ws : List (Nat × Nat × Nat)) (s : State) : State := { s with mem := ws.foldl (fun m w => m.write w.1 (leBytes w.2.1 w.2.2)) s.mem }
theorem witness_QueuesAreEnabled : ∃ die q s, State.life s = .run ∧ die < 24 ∧ q < 32 ∧ memoryOk s = true ∧
    s.homeRead (queueTable die + 0x200) 8 ≠ (s.walker die).gen ∧ (s.queue die q).st = qFree ∧
    bitAt (s.homeRead (queueTable die + 16 * q + 8) 8) 31 = true ∧
    tableBad (s.homeRead (queueTable die + 16 * q) 8) (s.homeRead (queueTable die + 16 * q + 8) 8) = false ∧
    s.homeRead (queueTable die + 16 * q) 8 ≠ 0 ∧
    (s.homeRead (queueTable die + 16 * q) 8 + 0x80 ≤ queueTable die ∨ queueTable die + 0x208 ≤ s.homeRead (queueTable die + 16 * q) 8) ∧
    ∀ r, r < 32 → r ≠ q → (s.queue die r).st = qFree ∧ s.homeRead (queueTable die + 16 * r) 8 = 0 :=
  ⟨0, 0, State.reset.boot, by decide +kernel⟩
/-- Queue 31 of die 23 is READY at a node of four words. -/
def theQueue : Queue := { desc := 0x2000, ctx := 0, newDesc := 0x2000, newCtx := 0, en := true, prio := 7, st := qReady, cur := 0x400000, busy := none, nowait := [], sig := 0x11 }
def sNode (w : List Nat) : State :=
  let s := puts ((natRange 0 4).map fun i => (0x400000 + 8 * i, 8, listGet 0 w i)) State.reset.boot
  { s with walkers := tabSet s.walkers 23 { s.walker 23 with queues := (s.walker 23).queues.setIfInBounds 31 theQueue } }
/-- The header of a node whose NEXT is 0x400040. -/
def nodeHdr (t : Nat) : Nat := t * 2 ^ 56 + 0x400040
def nodeOk (die q typ : Nat) (s : State) : Bool :=
  let k := s.queue die q
  let w := s.nodeWords k.cur
  s.life == .run && !s.expo.stopped && s.nextQueue die == some q && decide (q < 32) && nodeAddr k.cur && !nodeBad w && nodeType w == typ &&
    (!needsCtx typ || !s.ctxGone k.ctx) && k.busy.isNone && k.desc % 64 == 0 && k.desc != 0 && memoryOk s
theorem node_of {die q typ : Nat} {s : State} (h : nodeOk die q typ s = true) :
    NodeAt die q typ s (s.queue die q) (s.nodeWords (s.queue die q).cur) := by
  simp only [nodeOk, Bool.and_eq_true, beq_iff_eq, bne_iff_ne, Bool.not_eq_true', Option.isNone_iff_eq_none, decide_eq_true_eq, Bool.or_eq_true] at h
  obtain ⟨⟨⟨⟨⟨⟨⟨⟨⟨⟨⟨h1, h2⟩, h3⟩, h4⟩, h5⟩, h6⟩, h7⟩, h8⟩, h9⟩, h10⟩, h11⟩, h12⟩ := h
  exact { life := h1, going := h2, chosen := h3, index := h4, queue := rfl, words := rfl, address := h5, good := h6, type := h7,
          context := fun hn => h8.resolve_left (by simp [hn]), idle := h9, aligned := h10, held := h11, memory := h12 }
def wordsOf (s : State) : List Nat := s.nodeWords (s.queue 23 31).cur
def sCond : State := sNode [nodeHdr 3, 0x500000, 0x400080, 5]
theorem witness_NodesGoOn_cond : ∃ die q s k w, NodeAt die q 3 s k w ∧ ∃ pas, (s.beginNode die q).nodeXlate k.ctx (listGet 0 w 1) 4 .read = some pas ∧ pas.length = 4 :=
  ⟨23, 31, sCond, _, _, node_of (by decide +kernel), someOf (by decide +kernel)⟩
def sLoop (n : Nat) : State := sNode [nodeHdr 4, 0x400000, 2, n]
theorem witness_NodesGoOn_loop : ∃ die q s k w, NodeAt die q 4 s k w ∧ listGet 0 w 3 < listGet 0 w 2 ∧ listGet 0 w 2 ≠ 2 ^ 32 - 1 :=
  ⟨23, 31, sLoop 1, _, _, node_of (by decide +kernel), by decide +kernel⟩
theorem witness_NodesGoOn_loop_end : ∃ die q s k w, NodeAt die q 4 s k w ∧ ¬ (listGet 0 w 2 = 2 ^ 32 - 1 ∨ listGet 0 w 3 < listGet 0 w 2) :=
  ⟨23, 31, sLoop 2, _, _, node_of (by decide +kernel), by decide +kernel⟩
/-- An add to eight bytes, with a vector. -/
def sSignal : State := sNode [nodeHdr 6, 0x500000, 3, 2 ^ 16 + 13]
theorem witness_NodesGoOn_signal : ∃ die q s k w, NodeAt die q 6 s k w ∧ ∃ pas, (s.beginNode die q).nodeXlate k.ctx (listGet 0 w 1)
      (if bitAt (listGet 0 w 3) 2 then 8 else 4) (if fld (listGet 0 w 3) 0 2 = 1 then .readWrite else .write) = some pas ∧ pas.Nodup ∧
    (s.beginNode die q).canWrite (linesOf pas) none = true ∧ ∀ a ∈ pas, inLinkRegs a = false ∧ (a < k.desc + 0x48 ∨ k.desc + 0x60 ≤ a) :=
  ⟨23, 31, sSignal, _, _, node_of (by decide +kernel), someOf (by decide +kernel)⟩
def sEnd (next : Nat) : State := sNode [15 * 2 ^ 56 + next, 0, 0, 0]
theorem witness_NodesGoOn_end : ∃ die q s k w, NodeAt die q 15 s k w ∧ inLinkRegs (k.desc + 0x50) = false ∧ nodeNext w = 0 :=
  ⟨23, 31, sEnd 0, _, _, node_of (by decide +kernel), by decide +kernel⟩
theorem witness_NodesGoOn_end_next : ∃ die q s k w, NodeAt die q 15 s k w ∧ inLinkRegs (k.desc + 0x50) = false ∧ nodeNext w ≠ 0 :=
  ⟨23, 31, sEnd 0x400040, _, _, node_of (by decide +kernel), by decide +kernel⟩
/-- The queue is IDLE at an END that has been linked. -/
def sIdle : State := (puts [(0x2040, 8, 0x400040)] (sEnd 0x400040)).modQueue 23 31 fun k => { k with st := qIdle }
theorem witness_NodesGoOn_link : ∃ die q s, State.life s = .run ∧ s.expo.stopped = false ∧ q < 32 ∧ (s.queue die q).st = qIdle ∧
    (s.queue die q).busy = none ∧ memoryOk s = true ∧ s.homeRead ((s.queue die q).desc + 0x40) 8 ≠ (s.queue die q).cur ∧
    (s.queue die q).desc ≠ 0 ∧ nodeNext (s.nodeWords (s.queue die q).cur) ≠ 0 := ⟨23, 31, sIdle, by decide +kernel⟩

/-- A launch record at 0x600000 of one team, and its kernel header at 0x601000. -/
def withKernel (s : State) : State :=
  puts [(0x600000, 8, 0x601000), (0x600008, 4, 1), (0x60000C, 4, 1), (0x600010, 4, 1), (0x600014, 4, 0x11), (0x601000, 4, 1), (0x601008, 8, 0x80),
    (0x601010, 4, 0x400001), (0x601014, 4, 0x1000)] s
def sKernel (nowait : Nat) : State := withKernel (sNode [nodeHdr 1 + nowait * 2 ^ 48, 0x600000, 0, 0])
theorem pair_of {α β : Type} {r : α × β} {b : β} (h : r.2 = b) : ∃ u, r = (u, b) := ⟨r.1, by rw [← h]⟩
theorem triple_of {α β γ : Type} {r : α × β × γ} {b : β} (h : r.2.1 = b) : ∃ u g, r = (u, b, g) := ⟨r.1, r.2.2, by rw [← h]⟩
theorem witness_NodesStart_kernel : ∃ die q s k w, NodeAt die q 1 s k w ∧ nodeNowait w = false ∧
    ∃ u g, (s.beginNode die q).launch k.ctx (listGet 0 w 1) k.prio true false (some (die, q, k.cur)) = (u, lOk, g) :=
  ⟨23, 31, sKernel 0, _, _, node_of (by decide +kernel), by decide +kernel, triple_of (by decide +kernel)⟩
theorem witness_NodesStart_nowait : ∃ die q s k w, NodeAt die q 1 s k w ∧ nodeNowait w = true ∧
    ∃ u g, (s.beginNode die q).launch k.ctx (listGet 0 w 1) k.prio true false (some (die, q, k.cur)) = (u, lOk, g) :=
  ⟨23, 31, sKernel 1, _, _, node_of (by decide +kernel), by decide +kernel, triple_of (by decide +kernel)⟩
/-- A COPY of one byte, and one of none that lets the queue go on. -/
def sCopyNode (nowait n : Nat) : State := sNode [nodeHdr 2 + nowait * 2 ^ 48, 0x500000, 0x50003F, n]
theorem witness_NodesStart_copy : ∃ die q s k w, NodeAt die q 2 s k w ∧ nodeNowait w = false :=
  ⟨23, 31, sCopyNode 0 1, _, _, node_of (by decide +kernel), by decide +kernel⟩
theorem witness_NodesStart_copy_nowait : ∃ die q s k w, NodeAt die q 2 s k w ∧ nodeNowait w = true :=
  ⟨23, 31, sCopyNode 1 0, _, _, node_of (by decide +kernel), by decide +kernel⟩
def sWaitNode : State := sNode [nodeHdr 5, 0x500000, 7, 2 + 2 ^ 32]
theorem witness_NodesStart_wait : ∃ die q s k w, NodeAt die q 5 s k w ∧ ((s.beginNode die q).waitMet k.ctx w).isSome = true :=
  ⟨23, 31, sWaitNode, _, _, node_of (by decide +kernel), by decide +kernel⟩
def sCollNode : State := withColl theColl (sNode [nodeHdr 7, 63, 5, 0])
theorem witness_NodesStart_coll : ∃ die q s k w, NodeAt die q 7 s k w ∧ bitAt (listGet 0 w 1) 8 = false ∧
    ((s.beginNode die q).openColl k.ctx (fld (listGet 0 w 1) 0 6)).isSome = true ∧
    (s.beginNode die q).waitClose k.ctx (fld (listGet 0 w 1) 0 6) (listGet 0 w 2) ≠ 2 :=
  ⟨23, 31, sCollNode, _, _, node_of (by decide +kernel), by decide +kernel⟩
theorem witness_NodesStart_coll_close : ∃ die q s k w, NodeAt die q 7 s k w ∧ bitAt (listGet 0 w 1) 8 = true ∧ (s.ctx k.ctx).mode = true ∧
    ((s.beginNode die q).openColl k.ctx (fld (listGet 0 w 1) 0 6)).isSome = true :=
  ⟨23, 31, withColl theColl (sNode [nodeHdr 7, 63 + 256, 5, 0]), _, _, node_of (by decide +kernel), by decide +kernel⟩
/-- An exposure of no region for one step at most, by the step context. -/
def withDesc (s : State) : State := puts [(0x700000, 8, 0x710000), (0x700010, 8, 0x720000), (0x700018, 4, 9), (0x70001C, 4, 300)] (withMembers s)
def sExposeNode : State := withDesc (sNode [nodeHdr 8, 0, 0x700000, 0])
theorem witness_NodesStart_expose : ∃ die q s k w, NodeAt die q 8 s k w ∧ (s.ctx k.ctx).mode = true ∧
    ∃ u, (s.beginNode die q).exposeBegin k.ctx [listGet 0 w 1, listGet 0 w 2, listGet 0 w 3] (.node die q) = (u, none) :=
  ⟨23, 31, sExposeNode, _, _, node_of (by decide +kernel), by decide +kernel, pair_of (by decide +kernel)⟩
/-- A CONFIG of the step context, by a module that is member 0 of pod 0. -/
def sConfigNode : State :=
  let s := puts [(0x700004, 4, 0), (0x700008, 4, 1000), (0x70000C, 4, 10), (0x700010, 4, 1), (0x700014, 4, 1), (0x700018, 8, 0x710000)]
    (sNode [nodeHdr 8, 1, 0x700000, 0])
  { s with link := { s.link with pv := true, podix := 0 } }
theorem witness_NodesStart_config : ∃ die q s k w, NodeAt die q 8 s k w ∧ (s.ctx k.ctx).mode = true ∧
    ∃ u, (s.beginNode die q).exposeBegin k.ctx [listGet 0 w 1, listGet 0 w 2, listGet 0 w 3] (.node die q) = (u, some eOk) :=
  ⟨23, 31, sConfigNode, _, _, node_of (by decide +kernel), by decide +kernel, pair_of (by decide +kernel)⟩
/-- The same nodes while they run: the COPY at its only byte, the WAIT at its limit of a microsecond, the COPY done. -/
def busyAt (r : NodeRun) (s : State) : State := s.modQueue 23 31 fun k => { k with st := qBusy, busy := some { r with words := s.nodeWords r.node, desc := k.desc } }
def sCopyRuns : State := busyAt { node := 0x400000, typ := 2, words := [], desc := 0, grid := none, prog := 0, done := false, since := 0 } (sCopyNode 0 1)
theorem witness_NodesEnd_copy : ∃ die q s, (memoryOk s = true ∧ State.life s = .run ∧ q < 32 ∧
    (∀ o ∈ (s.queue die q).nowait, o.typ = 2 → o.done = true) ∧ s.ctxGone (s.queue die q).ctx = false ∧ (s.queue die q).st = qBusy ∧ (s.queue die q).desc ≠ 0) ∧ ∃ r src dst,
    (s.queue die q).busy = some r ∧ s.nodeXlate (s.queue die q).ctx (listGet 0 r.words 1 % 2 ^ 50 + r.prog) 1 .read = some src ∧
    s.nodeXlate (s.queue die q).ctx (listGet 0 r.words 2 % 2 ^ 50 + r.prog) 1 .write = some dst ∧
    min (listGet 0 r.words 3 - r.prog) (64 - (listGet 0 r.words 2 + r.prog) % 64) = 1 ∧ r.typ = 2 ∧ r.done = false ∧
    dst.Nodup ∧ s.canWrite (linesOf dst) none = true ∧ ∀ a ∈ dst, inLinkRegs a = false :=
  ⟨23, 31, sCopyRuns, by decide +kernel, someOf3 (by decide +kernel)⟩
def sWaitRuns : State := { busyAt { node := 0x400000, typ := 5, words := [], desc := 0, grid := none, prog := 0, done := false, since := 0 } sWaitNode with clk := 2400 }
theorem witness_NodesEnd_timeout : ∃ die q s, (memoryOk s = true ∧ State.life s = .run ∧ q < 32 ∧ (s.queue die q).st = qBusy ∧
    (s.queue die q).newDesc = (s.queue die q).desc ∧ (s.queue die q).desc ≠ 0) ∧ ∃ r, (s.queue die q).busy = some r ∧ r.typ = 5 ∧ r.done = false ∧
    s.waitMet (s.queue die q).ctx r.words ≠ some true ∧
    fld (listGet 0 r.words 3) 32 32 = 1 ∧ r.since + 2400 = s.clk.toNat :=
  ⟨23, 31, sWaitRuns, by decide +kernel, someOf (by decide +kernel)⟩
def sCopyDone : State := busyAt { node := 0x400000, typ := 2, words := [], desc := 0, grid := none, prog := 1, done := true, since := 0 } (sCopyNode 0 1)
theorem witness_NodesEnd_done : ∃ die q s, (memoryOk s = true ∧ State.life s = .run ∧ q < 32 ∧ (s.queue die q).st = qBusy ∧ (s.queue die q).desc ≠ 0 ∧ (s.queue die q).en = true) ∧
    ∃ r, (s.queue die q).busy = some r ∧ r.typ = 2 ∧ r.done = true ∧ nodeNext r.words ≠ 0 :=
  ⟨23, 31, sCopyDone, by decide +kernel, someOf (by decide +kernel)⟩
def sKernelRuns : State := busyAt { node := 0x400000, typ := 1, words := [], desc := 0, grid := some 4, prog := 0, done := false, since := 0 } (sKernel 0)
theorem witness_NodesEnd_kernel : ∃ die q s, (memoryOk s = true ∧ State.life s = .run ∧ q < 32 ∧ (s.queue die q).st = qBusy ∧
    (s.queue die q).desc ≠ 0 ∧ (s.queue die q).en = true) ∧ ∃ r g, (s.queue die q).busy = some r ∧ r.grid = some g ∧ r.typ = 1 ∧ s.grid? g = none ∧ nodeNext r.words ≠ 0 :=
  ⟨23, 31, sKernelRuns, by decide +kernel, someOf2 (by decide +kernel)⟩
/-- A WAIT whose condition holds, and a COLL whose step is published. -/
def sWaitHolds : State := busyAt { node := 0x400000, typ := 5, words := [], desc := 0, grid := none, prog := 0, done := false, since := 0 }
  (puts [(0x500000, 4, 7)] (sNode [nodeHdr 5, 0x500000, 7, 2 ^ 32]))
def sCollDone : State := busyAt { node := 0x400000, typ := 7, words := [], desc := 0, grid := none, prog := 63, done := true, since := 0 } sCollNode
theorem witness_NodesEnd_wait : (∃ die q s, (memoryOk s = true ∧ State.life s = .run ∧ q < 32 ∧ (s.queue die q).st = qBusy ∧
      (s.queue die q).desc ≠ 0 ∧ (s.queue die q).en = true ∧ s.ctxGone (s.queue die q).ctx = false) ∧ ∃ r, (s.queue die q).busy = some r ∧ r.typ = 5 ∧
      s.waitMet (s.queue die q).ctx r.words = some true) ∧
    ∃ die q s, (memoryOk s = true ∧ State.life s = .run ∧ q < 32 ∧ (s.queue die q).st = qBusy ∧ (s.queue die q).desc ≠ 0 ∧
      (s.queue die q).en = true) ∧ ∃ r, (s.queue die q).busy = some r ∧ r.typ = 7 ∧ bitAt (listGet 0 r.words 1) 8 = false ∧ r.done = true :=
  ⟨⟨23, 31, sWaitHolds, by decide +kernel, someOf (by decide +kernel)⟩, 23, 31, sCollDone, by decide +kernel, someOf (by decide +kernel)⟩

/-! ### Distribution, admission, parking, saves -/

/-- Slot 0 ACTIVE with a grid of ten teams, of which `lo` are handed down, and ranges at the distributors. -/
def sGrid (lo : Nat) (dies clus : Tab (List Range)) : State :=
  let s := State.reset.boot
  { s with ctxs := s.ctxs.setIfInBounds 0 { s.ctx 0 with state := .active }, grids := [(0, { bootGrid .vector with gx := 10, lo := lo, args := 0x1234 })],
           nextGrid := 1, dieRanges := dies, cluRanges := clus }
def theRange (lo hi : Nat) : Range := { grid := 0, lo := lo, hi := hi, prio := 0 }
theorem witness_RangesMove_die : ∃ die id s, (die < 24 ∧ rangeCount (State.dieR s die) < 8 ∧ s.expo.stopped = false) ∧
    ∃ q, s.nextGridDown = some q ∧ q.1 = id ∧ s.grid? id = some q.2 :=
  ⟨23, 0, sGrid 9 [(23, [theRange 0 7])] [], by decide +kernel, someOf (by decide +kernel)⟩
theorem witness_RangesMove_cluster : ∃ die k s, (die < 24 ∧ k < 4 ∧ rangeCount (State.cluR s (die * 4 + k)) < 2 ∧ s.expo.stopped = false) ∧
    ∃ r, s.bestRange ((s.dieR die).filter fun r => (s.grid? r.grid).any (·.cs == 1)) = some r ∧ r.lo + 1 < r.hi :=
  ⟨23, 3, sGrid 10 [(23, [theRange 1 10])] [(95, [theRange 0 1])], by decide +kernel, someOf (by decide +kernel)⟩
theorem witness_RangesMove_steal : ∃ die v s, (die < 24 ∧ v < 24 ∧ v ≠ die ∧ State.dieR s die = [] ∧ s.nextGridDown = none ∧ s.expo.stopped = false ∧
    MostLoaded s s.dieR v ((natRange 0 24).filter (· != die))) ∧ ∃ r, s.victimRange (s.dieR v) = some r ∧ 0 < halfRange s r :=
  ⟨0, 23, sGrid 10 [(23, [theRange 0 10])] [], by unfold MostLoaded; decide +kernel, someOf (by decide +kernel)⟩
theorem witness_RangesMove_steal_cluster : ∃ die k v s, (die < 24 ∧ k < 4 ∧ v < 4 ∧ v ≠ k ∧ State.cluR s (die * 4 + k) = [] ∧
    s.expo.stopped = false ∧ (∀ q ∈ s.dieR die, s.rangeLive q = true → (s.grid? q.grid).any (·.cs == 1) = false) ∧
    MostLoaded s (fun j => s.cluR (die * 4 + j)) v ((natRange 0 4).filter (· != k))) ∧
    ∃ r, s.victimRange (s.cluR (die * 4 + v)) = some r ∧ 0 < halfRange s r :=
  ⟨23, 0, 3, sGrid 10 [] [(95, [theRange 8 10])], by unfold MostLoaded; decide +kernel, someOf (by decide +kernel)⟩
/-- A GBAR grid of one team, as large as a scratchpad, waits. -/
def sGbar : State :=
  let s := sGrid 0 [] []
  { s with grids := [(0, { bootGrid .vector with gx := 1, gbar := true, placed := false, scratch := 0x400000 })] }
theorem le_foldl {α : Type} {F : Nat → α → Nat} (h : ∀ n a, n ≤ F n a) (l : List α) (n : Nat) : n ≤ l.foldl F n := by
  induction l generalizing n with
  | nil => exact Nat.le_refl n
  | cons a l ih => exact Nat.le_trans (h n a) (ih (F n a))
theorem le_foldl_mem {α : Type} {F : Nat → α → Nat} {k : Nat} {a : α} {l : List α} (ha : a ∈ l) (h : ∀ n b, n ≤ F n b)
    (hk : ∀ n, k ≤ F n a) (n : Nat) : k ≤ l.foldl F n := by
  induction l generalizing n with
  | nil => cases ha
  | cons b l ih =>
    rcases List.mem_cons.mp ha with rfl | hm
    · exact Nat.le_trans (hk n) (le_foldl h l _)
    · exact ih hm _
/-- The capacity counts the first core. -/
theorem le_capacity {s : State} {g : Grid} (h : g.cs = 1) (hr : s.root.retired = []) :
    (s.core 0).admits g (s.ctx g.ctx).detm g.perCore ≤ s.freeCapacity g := by
  unfold State.freeCapacity
  simp only [h, if_true, hr, List.contains_nil, Bool.false_eq_true, if_false]
  refine le_foldl_mem (a := 0) ?_ (fun n d => le_foldl ?_ _ _) (fun n => ?_) 0
  · exact mem_natRange.mpr ⟨Nat.le_refl 0, by omega⟩
  · exact fun n c => Nat.le_add_right _ _
  · refine le_foldl_mem (a := 0) ?_ (fun n c => Nat.le_add_right _ _) (fun n => ?_) n
    · exact mem_natRange.mpr ⟨Nat.le_refl _, by omega⟩
    · exact Nat.le_add_left _ _
theorem witness_RangesMove_place : ∃ id s, ((s.grids.filter fun q => q.2.placed && q.2.rec_.isSome).length < 64 ∧ (State.expo s).stopped = false) ∧
    ∃ g, s.grid? id = some g ∧ (g.gbar = true ∧ g.placed = false ∧ (s.ctx g.ctx).state = .active ∧ g.rec_ = none ∧ s.reserved id = false ∧
      ∀ k, k < (s.ctx g.ctx).saved.toNat → imgGrid s (s.image g.ctx k) ≠ id) ∧ s.unplaced id g = 1 ∧ s.unplaced id g ≤ s.freeCapacity g := by
  refine ⟨0, sGbar, by decide +kernel, ?_⟩
  obtain ⟨g, h1, h2, h3, h4, h5⟩ := someOf (o := sGbar.grid? 0) (p := fun g => (g.gbar = true ∧ g.placed = false ∧ (sGbar.ctx g.ctx).state = .active ∧
    g.rec_ = none ∧ sGbar.reserved 0 = false ∧ ∀ k, k < (sGbar.ctx g.ctx).saved.toNat → imgGrid sGbar (sGbar.image g.ctx k) ≠ 0) ∧
    sGbar.unplaced 0 g = 1 ∧ g.cs = 1 ∧
    1 ≤ (sGbar.core 0).admits g (sGbar.ctx g.ctx).detm g.perCore) (by decide +kernel)
  exact ⟨g, h1, h2, h3, by rw [h3]; exact Nat.le_trans h5 (le_capacity h4 rfl)⟩
theorem witness_TeamsAreAdmitted : ∃ c s, (c < 576 ∧ State.life s = .run ∧ s.expo.stopped = false ∧ ∀ q ∈ (s.core c).teams, q.2.state ≠ .parked) ∧
    ∃ r g room, s.bestRange (s.cluR (clusterOf c)) = some r ∧ s.grid? r.grid = some g ∧ s.roomFor c g = some room ∧ s.reserved r.grid = false :=
  ⟨575, sGrid 10 [] [(95, [theRange 9 10])], by decide +kernel, someOf3 (by decide +kernel)⟩
/-- The groups of a team are gone: of a grid of two teams, and of one of a single team. -/
def sGone (n : Nat) : State :=
  let s := (stI iAdd).modCore 0 fun k => { k with groups := [] }
  { s with grids := [(0, { bootGrid .vector with gx := n })] }
theorem witness_TeamsExit : ∃ c place s, (Quiet s c ∧ ∀ q ∈ (State.core s c).groups, q.2.place ≠ place) ∧ ∃ tm g, s.team? c place = some tm ∧
    s.grid? tm.grid = some g ∧ tm.state = .active ∧ (insSorted tm.n g.gone).length ≠ g.n :=
  ⟨0, 0, sGone 2, ⟨quiet_of (by decide +kernel), by decide +kernel⟩, someOf2 (by decide +kernel)⟩
theorem witness_TeamsExit_last : ∃ c place s, (Quiet s c ∧ (∀ q ∈ (State.core s c).groups, q.2.place ≠ place) ∧ (s.grids.map (·.1)).Nodup) ∧
    ∃ tm g, s.team? c place = some tm ∧ s.grid? tm.grid = some g ∧ tm.state = .active ∧ (insSorted tm.n g.gone).length = g.n ∧ g.compl = 0 ∧
    (∀ h ∈ s.grids, h.1 ≠ tm.grid → h.2.ctx ≠ g.ctx) ∧ g.ctx < 64 ∧ (s.ctx g.ctx).state = .active ∧ (s.ctx g.ctx).saved = 0 :=
  ⟨0, 0, sGone 1, ⟨quiet_of (by decide +kernel), by decide +kernel⟩, someOf2 (by decide +kernel)⟩
/-- The group waits at a barrier since clock 0, and a grid of teams with the whole scratchpad asks for room. -/
def sPark : State :=
  let s := (stI iAdd).modGroup 0 0 fun x => { x with cur := none, blk := some .header, state := .wait, since := 0 }
  let s := mapLanes (fun _ l => { l with hk := .arrive, hr := .team 0, hg := 0 }) s
  { s with clk := 4096, grids := s.grids ++ [(1, { bootGrid .vector with gx := 2, scratch := 0x400000 })], cluRanges := [(0, [{ grid := 1, lo := 0, hi := 2, prio := 7 }])] }
theorem witness_TeamsParkAndReturn_park : ∃ c j s, (memoryOk s = true ∧ (State.expo s).stopped = false) ∧ (((s.core c).groups.map (·.1)).Nodup ∧
    (∀ l ∈ (s.core c).lanes, l.2.rln < 8192) ∧ (s.teamGroups c j).length ≤ 512 ∧ (s.core c).teams.map (·.1) = [j] ∧ s.lacksRoom c = true) ∧
    ∃ tm g, s.team? c j = some tm ∧ s.grid? tm.grid = some g ∧ tm.size ≤ 2 ^ 22 ∧ s.parkable c j tm = true ∧ g.vregs ≤ 64 :=
  ⟨0, 0, sPark, by decide +kernel, by decide +kernel, someOf2 (by decide +kernel)⟩
/-- The team is parked and ready. -/
def sParked : State := ((stI iAdd).modTeam 0 0 fun t => { t with state := .parked, ready := some 5 }).modCore 0 fun k =>
  { k with groups := k.groups.map fun g => (512, { g.2 with cur := none, state := .parked, blk := none }) }
theorem witness_TeamsParkAndReturn_return : ∃ c j s, (memoryOk s = true ∧ (State.expo s).stopped = false) ∧ (((s.core c).groups.map (·.1)).Nodup ∧
    (s.core c).pend = [] ∧ (s.core c).teams.map (·.1) = [j]) ∧
    ∃ tm room, s.team? c j = some tm ∧ s.parkRoom c j tm = some room ∧ tm.size ≤ 2 ^ 22 ∧ s.reserved tm.grid = false ∧ tm.state = .parked ∧ tm.ready = some 5 ∧
    (s.ctx tm.ctx).state = .active := ⟨0, 0, sParked, by decide +kernel, by decide +kernel, someOf2 (by decide +kernel)⟩
/-- A directory of one entry: team 9 of the grid, with one group of eight lanes. -/
def sSaved : State :=
  let s := puts [(0x1010000, 8, 0x110000), (0x101000C, 4, 8), (0x1110000, 8, 0x200000), (0x1110008, 4, 9), (0x1110030, 2, 1), (0x1110040, 4, 0x100),
    (0x1110044, 4, 1), (0x1110048, 4, 0x600), (0x111004C, 4, 8), (0x1110050, 4, 0xA00), (0x1110054, 4, 8), (0x1110104, 4, 8)] (sGrid 10 [] [])
  { s with ctxs := s.ctxs.setIfInBounds 0 { s.ctx 0 with saved := 1 } }
theorem witness_TeamsAreSavedAndRestored : ∃ x k c s, (x < 64 ∧ (State.ctx s x).state = .active ∧ (s.ctx x).detm = false ∧ k < (s.ctx x).saved.toNat ∧
    c < 576 ∧ s.expo.stopped = false) ∧ ∃ g room, s.imgGridOf x (s.image x k) = some g ∧ s.restoreRoom c (s.image x k) g = some room ∧
    g.cs = 1 ∧ g.gbar = false ∧ (∀ e ∈ s.clusterEntries x (s.image x k) g, e.1 = k) ∧ s.imgBad (s.image x k) g = false ∧ s.reserved (imgGrid s (s.image x k)) = false :=
  ⟨0, 0, 575, sSaved, by decide +kernel, someOf2 (by decide +kernel)⟩
/-- A STOPPING context past its deadline, one group of whose team may not issue yet. -/
def sLate : State :=
  let s := stI iYield
  let x : Group := { (envOf iYield s).x with cur := none }
  let s := s.modCore 0 fun k => { k with groups := [(0, x), (1, { x with gbase := 8, nextClk := 240001 })] }
  { s with clk := 240000, ctxs := s.ctxs.setIfInBounds 0 { s.ctx 0 with state := .stopping } }
theorem witness_TeamsAreSavedAndRestored_late : ∃ x c g h s, ((State.ctx s x).state = .stopping ∧ s.pastDln x = true ∧ s.cores.map (·.1) = [c] ∧
    (s.core c).groups.map (·.1) = [g, h] ∧ g ≠ h ∧ (s.core c).cmds = [] ∧ s.saveReady c g = true ∧
    ∀ q ∈ (s.core c).pend, q.2.ctx = g → ∀ e ∈ q.2.accs, e.st ≠ 5) ∧ ∃ a b tm, s.group? c g = some a ∧
    s.group? c h = some b ∧ s.team? c a.place = some tm ∧ (s.core c).teams.map (·.1) = [a.place] ∧ tm.ctx = x ∧ b.place = a.place ∧ a.gbase ≠ b.gbase ∧
    (a.state = .run ∧ a.cur = none ∧ a.nextClk ≤ s.clk.toNat) ∧ b.state = .run ∧ b.cur = none ∧ b.nextClk = s.clk.toNat + 1 :=
  ⟨0, 0, 0, 1, sLate, by decide +kernel, someOf3 (by decide +kernel)⟩
theorem witness_ZenithCounts : ∃ x s, x < 64 ∧ (State.clk s).toNat % 1024 = 0 ∧ (s.ctx x).zclk < s.clk.toNat / 1024 ∧ (s.ctx x).state ≠ .active :=
  ⟨63, { stI iAdd with clk := 1024 }, by decide +kernel⟩
def sHangs : State := { sPark with ctxs := sPark.ctxs.setIfInBounds 0 { sPark.ctx 0 with zwt := 2 } }
theorem witness_ZenithCounts_hang : ∃ x s, let u : State := (State.cores s).foldl (fun s k => s.refresh k.1 s.clk.toNat) s
    x < 64 ∧ s.clk.toNat % 1024 = 0 ∧ (s.ctx x).zclk < s.clk.toNat / 1024 ∧ (s.ctx x).zissued = false ∧ (s.ctx x).state = .active ∧
    (s.ctx x).zcount + 1 < (s.ctx x).zwt.toNat ∧ u.ctxGroups x ≠ [] ∧ ∀ q ∈ u.ctxGroups x, u.waitedInterval q.1 q.2.1 q.2.2 = true :=
  ⟨0, sHangs, by decide +kernel⟩

/-! ### Ports, host, pod -/

/-- The module in RUN, with port 44 as given. -/
def sPort (f : Port → Port) : State := let s := State.reset.boot; { s with link := s.link.modPort 44 f }
/-- The errors of a port, 150,000 clocks apart: 17 of them within 2,400,000 clocks. -/
def theErrs : List Nat := (natRange 0 17).map fun i => 2400000 - 149999 * i
theorem witness_PortsChangeState :
    (∃ p s, p < 45 ∧ State.life s ≠ .off ∧ (s.link.port p).en = true ∧ (s.link.port p).st = 0) ∧
    (∃ p s, p < 45 ∧ State.life s ≠ .off ∧ (s.link.port p).st = 1 ∧ (s.link.port p).fails = 2) ∧
    (∃ p s, p < 45 ∧ State.life s ≠ .off ∧ (s.link.port p).st = 2 ∧ (s.link.port p).errs.head? = some 2400000 ∧
      (s.link.port p).errs[16]? = some 16 ∧ 2400000 < 16 + 2400000) ∧
    (∃ p s, p < 45 ∧ State.life s ≠ .off ∧ (s.link.port 44).st = 3 ∧ (s.link.port p).st = 3) ∧
    ∃ x : DWord, x.getLsbD 0 = true ∧ x.getLsbD 1 = true :=
  ⟨⟨44, sPort id, by decide +kernel⟩, ⟨44, sPort fun q => { q with st := 1, fails := 2 }, by decide +kernel⟩,
    ⟨44, sPort fun q => { q with st := 2, errs := theErrs }, by decide +kernel⟩, ⟨44, sPort fun q => { q with st := 3 }, by decide +kernel⟩,
    3, by decide +kernel⟩
/-- A vector that is pending, PCIe being UP. -/
def sMsix : State := let s := sPort fun q => { q with st := 2, lanes := 16 }; { s with link := { s.link with msixPend := [2047] } }
/-- A store to PEERCTX is in flight. -/
def sLinkFlight : State := sBuffered.modCore 0 fun k =>
  { k with flights := [(9, { line := 64, bytes := (natRange 8 8).map fun i => (i, BitVec.ofNat 8 i), lost := 0, deps := [], units := [] })] }
theorem witness_LinkRegistersChange :
    (∃ s, State.life s = .run ∧ s.link.msixPend.contains 2047 = true ∧ (s.link.port 44).st = 2 ∧ s.hostGone = false) ∧
    ∃ c id s, State.life s ≠ .off ∧ ∃ f, tabGet? (s.core c).flights id = some f ∧ f.line = 0x1000 / 64 ∧ f.bytes.length = 8 ∧
      (f.bytes.map (·.1)) = natRange 8 8 ∧ ∀ q ∈ (s.core c).flights, q.1 < id → q.2.line ≠ f.line :=
  ⟨⟨sMsix, by decide +kernel⟩, 0, 9, sLinkFlight, by decide +kernel, someOf (by decide +kernel)⟩
/-- The host is there, PCIe DEGRADED to eight lanes; the signature of its posted writes as given. -/
def sHost (sig : Nat) : State := let s := sPort fun q => { q with st := 3, lanes := 8 }; { s with link := { s.link with hostSig := sig } }
def sRecovery : State := { sHost 0 with life := .recovery }
theorem witness_HostReads :
    (∃ s o n, State.hostGone s = false ∧ s.life = .run ∧ s.link.hostSig ≠ 0 ∧ n = 8 ∧ ∀ a ∈ natRange o n, barHole a = false) ∧
    (∃ s, State.hostGone s = false ∧ s.life ≠ .run ∧ s.life ≠ .halt) ∧
    ∃ s o n, State.hostGone s = false ∧ s.life = .run ∧ n = 2 ∧ ∃ a ∈ natRange o n, barHole a = true :=
  ⟨⟨sHost 1, 0x1DFFFFFFF8, 8, by decide +kernel⟩, ⟨sRecovery, by decide +kernel⟩,
    sHost 0, 0x1E00000000 - 1, 2, by decide +kernel, rfl, rfl, 0x1E00000000, by decide +kernel⟩
theorem witness_HostWrites :
    (∃ s o, memoryOk s = true ∧ State.hostGone s = false ∧ s.life = .run ∧ (∀ a ∈ natRange o 8, barHole a = false) ∧
      s.canWrite (linesOf (natRange o 8)) none = true ∧ o % 8 = 0) ∧
    (∃ s o n, memoryOk s = true ∧ State.hostGone s = false ∧ s.life = .recovery ∧ o + n = 0x4000000 ∧ n = 8) ∧
    ∃ s o, memoryOk s = true ∧ State.hostGone s = false ∧ s.life = .run ∧ ∃ a ∈ natRange o 2, barHole a = true :=
  ⟨⟨sHost 0, 0x1DFFFFFFF8, by decide +kernel⟩, ⟨sRecovery, 0x3FFFFF8, 8, by decide +kernel⟩,
    sHost 0, 0x1E00000000 - 1, by decide +kernel, by decide +kernel, rfl, 0x1E00000000, by decide +kernel⟩
theorem witness_HostAtomics :
    (∃ s n pa, memoryOk s = true ∧ State.hostGone s = false ∧ n = 8 ∧ s.life = .run ∧ (∀ a ∈ natRange pa n, barHole a = false) ∧ pa % n = 0 ∧
      s.canWrite (linesOf (natRange pa n)) none = true) ∧ ∃ s, memoryOk s = true ∧ State.hostGone s = false :=
  ⟨⟨sHost 0, 8, 0x1DFFFFFFF8, by decide +kernel⟩, sHost 0, by decide +kernel⟩
theorem witness_RegistersAreWritten : ∃ s a, memoryOk s = true ∧ State.hostGone s = false ∧ a % 8 = 0 ∧ 0x8000 ≤ a ∧ a + 8 = 0x10000 ∧
    (∀ b ∈ natRange a 8, barHole b = false) ∧ s.canWrite [a / 64] none = true := ⟨sHost 0, 0xFFF8, by decide +kernel⟩
/-- A window of 1 GiB is exported, member 1 has written, and PODIX is valid; port 35 is UP. -/
def withWindow (s : State) : State :=
  { s with link := ({ s.link with pv := true, podix := 0, expbase := 1, explog := 1, peerSigs := [(1, 5)] } : Link).modPort 35 fun q => { q with st := 2 } }
theorem witness_PodPeersAreServed :
    (∃ s port ofs, memoryOk s = true ∧ State.life s = .run ∧ port < 36 ∧ (s.link.port port).st = 2 ∧ ∃ pas, s.link.export ofs 8 = some pas ∧
      pas.length = 8 ∧ (∀ a ∈ pas, inLinkRegs a = false ∧ a ∉ s.poison) ∧ s.canWrite (linesOf pas) none = true) ∧
    (∃ s port ofs, memoryOk s = true ∧ State.life s = .run ∧ port < 36 ∧ (s.link.port port).st = 2 ∧ s.link.export ofs 8 = none) ∧
    ∃ s m, memoryOk s = true ∧ State.life s = .run ∧ tabGet 0 s.link.peerSigs m ≠ 0 :=
  ⟨⟨withWindow State.reset.boot, 35, 0x3FFFFFF8, by decide +kernel, by decide +kernel, by decide, by decide +kernel, someOf (by decide +kernel)⟩,
    ⟨withWindow State.reset.boot, 35, 0x3FFFFFF9, by decide +kernel⟩, withWindow State.reset.boot, 1, by decide +kernel⟩
/-- A load of one lane from member 1 is outstanding, on port 35, since clock 0. -/
def sPeerLoad : State := { sLoadingOne.modCore 0 fun k => { k with pend := k.pend.map fun p =>
  (p.1, { p.2 with accs := p.2.accs.map fun a => { a with tgt := some (.peer 1 64), clk := 0, port := some 35 } }) } with clk := 38400 }
theorem witness_PodPeersAreServed_timeout : ∃ c id pos s, memoryOk s = true ∧ ∃ p a x, tabGet? (State.core s c).pend id = some p ∧
    (p.accs.find? fun a => a.pos == pos && a.st == 0) = some a ∧ s.group? c p.ctx = some x ∧ a.tgt = some (.peer 1 64) ∧ p.kind = .load .i8 false ∧
    p.slot.isSome = true ∧ a.port = some 35 ∧ a.clk + 38400 = s.clk.toNat ∧ (p.accs.map (·.pos)).Nodup :=
  ⟨0, 0, 7, sPeerLoad, by decide +kernel, someOf3 (by decide +kernel)⟩

/-! ### Collectives, membership, exposures -/

/-- The collective with an instance as given; this module and member 1 are live. -/
def sColl (i : Inst) : State := withMembers (withColl { theColl with insts := [i] } (withWindow State.reset.boot))
/-- Handle, step and state of an instance, as the statements name them. -/
theorem inst_of {s : State} {p : Coll → Inst → Prop} [∀ c, DecidablePred (p c)]
    (h : ((s.coll? 63).any fun c => (c.inst 5).any fun i => decide (p c i)) = true) : ∃ c i, InstAt 63 5 c i s ∧ p c i := by
  obtain ⟨c, i, h1, h2, h3⟩ := someOf2 (f := fun c => Coll.inst c 5) h
  exact ⟨c, i, ⟨h1, h2⟩, h3⟩
/-- Both chunks of the own contribution are in. -/
def iPut : Inst := { theInst with values := [(0, List.replicate 32 0x3F800000), (1, [0x3F800000])], chunks := [0, 1] }
theorem witness_MembersArrive : ∃ s, (State.expo s).stopped = false ∧ s.memberOk 63 = true ∧ ∃ c i, InstAt 63 5 c i s ∧
    c.params.nch = i.chunks.length ∧ i.poisonedOwn = false ∧ (∀ k ∈ i.arrived, k.pos ≠ c.own) ∧ c.held = [] ∧ i.st = 1 ∧ s.coordinates 63 c i = true ∧
    i.quorum = i.arrived.length + 1 := ⟨sColl iPut, by decide +kernel, by decide +kernel, inst_of (by decide +kernel)⟩
/-- The same where member 1 coordinates, and after the close. -/
def sMember (i : Inst) : State := withColl { theColl with insts := [i], own := 1 } (sColl i)
theorem witness_MembersArrive_member : ∃ s, (State.expo s).stopped = false ∧ s.memberOk 63 = true ∧ ∃ c i, InstAt 63 5 c i s ∧
    c.params.nch = i.chunks.length ∧ i.poisonedOwn = false ∧ (∀ k ∈ i.arrived, k.pos ≠ c.own) ∧ c.held = [] ∧ i.st = 1 ∧ s.coordinates 63 c i = false :=
  ⟨sMember iPut, by decide +kernel, by decide +kernel, inst_of (by decide +kernel)⟩
theorem witness_MembersArrive_late : ∃ s, (State.expo s).stopped = false ∧ s.memberOk 63 = true ∧ ∃ c i, InstAt 63 5 c i s ∧
    c.params.nch = i.chunks.length ∧ i.poisonedOwn = false ∧ (∀ k ∈ i.arrived, k.pos ≠ c.own) ∧ i.st = 2 :=
  ⟨sMember { iPut with st := 2 }, by decide +kernel, by decide +kernel, inst_of (by decide +kernel)⟩
/-- A microsecond after member 1 has arrived. -/
def timed (s : State) : State := { s with clk := 2400, colls := s.colls.map fun k => (k.1, { k.2 with params := { k.2.params with timer := 1 } }) }
theorem witness_TimedPassesClose : ∃ s, (State.expo s).stopped = false ∧ ∃ c i, InstAt 63 5 c i s ∧ i.st = 1 ∧ c.held = [] ∧ s.coordinates 63 c i = true ∧
    c.params.timer = 1 ∧ i.firstArr = some 0 ∧ s.clk.toNat = 2400 :=
  ⟨timed (sColl { theInst with arrived := [⟨1, [127, 0], []⟩], firstArr := some 0 }), by decide +kernel, inst_of (by decide +kernel)⟩
/-- The exponents are agreed on by both members. -/
def iAgreed (sums : List Contrib) : Inst := { iPut with st := 2, onTime := [0, 1], xa := [127, 127], sums := sums }
theorem witness_MantissaPassesClose : ∃ s, (State.expo s).stopped = false ∧ ∃ c i, InstAt 63 5 c i s ∧ i.st = 2 ∧ c.prevPublished 5 = true ∧
    (∃ ch ∈ s.ownChunks 63 c i, tabGet? i.result ch = none) ∧ (∀ p ∈ i.onTime, ∃ k ∈ i.sums, k.pos = p ∧ k.exps = []) ∧
    i.lateSet = [1] ∧ ∃ k ∈ i.sums, k.pos = 1 ∧ k.exps ≠ [] :=
  ⟨sColl { iAgreed [⟨0, [], []⟩, ⟨1, [], []⟩, ⟨1, [127, 0], []⟩] with lateSet := [1] }, by decide +kernel, inst_of (by decide +kernel)⟩
/-- Another root's chunk is in, and the own one is not. -/
theorem witness_MantissaPassesClose_inherited : ∃ s, (State.expo s).stopped = false ∧ ∃ c i, InstAt 63 5 c i s ∧ i.st = 3 ∧
    c.prevPublished 5 = true ∧ (∃ ch ∈ s.ownChunks 63 c i, tabGet? i.result ch = none) ∧
    (∀ p ∈ i.onTime, ∃ k ∈ i.sums, k.pos = p ∧ k.exps = []) ∧ i.lateSet = [] :=
  ⟨sColl { iAgreed [⟨0, [], []⟩, ⟨1, [], []⟩] with st := 3, result := [(1, [0])] }, by decide +kernel, inst_of (by decide +kernel)⟩
theorem witness_MantissaPassesClose_timed : ∃ s, (State.expo s).stopped = false ∧ ∃ c i, InstAt 63 5 c i s ∧ i.st = 2 ∧ c.params.timer = 1 ∧
    i.closedAt + 2400 = s.clk.toNat ∧ s.coordinates 63 c i = true ∧ (∃ p ∈ i.onTime, ∀ k ∈ i.sums, k.pos = p → k.exps ≠ []) ∧
    ∀ p ∈ i.onTime, p = c.own → ∃ k ∈ i.sums, k.pos = p ∧ k.exps = [] :=
  ⟨timed (sColl (iAgreed [⟨0, [], []⟩])), by decide +kernel, inst_of (by decide +kernel)⟩
/-- The results of both chunks are in; the result region is the region of `withRegion`. -/
def iResult : Inst := { iAgreed [] with st := 3, result := [(0, List.replicate 32 0), (1, [0])] }
def sResult (i : Inst) : State :=
  puts [(0x303010, 8, 0x306001), (0x306000, 8, 0x10000001)] (withMembers (withColl { theColl with rva := 0x1E00000000, insts := [i] }
    (withRegion State.reset.boot)))
/-- The byte of the W frame for an address of the region. -/
def inFrame (va : Nat) : Nat := 0x10000000 + (va - 0x1E00000000)
theorem add_sub_same (a b j : Nat) : b + (a + j - a) = b + j := by rw [Nat.add_sub_cancel_left]
theorem inFrame_add (j : Nat) : inFrame (0x1E00000000 + j) = 0x10000000 + j := add_sub_same 0x1E00000000 0x10000000 j
theorem frameBytes_of {s : State} {r f : Nat} {F : Nat → Nat} (l : List Nat) (h : ∀ va ∈ l, ∃ a d, s.frame r f va = .page (F va) a d) :
    s.frameBytes r f l = .ok (l.map F) := by
  induction l with
  | nil => rfl
  | cons va l ih =>
    obtain ⟨a, d, hv⟩ := h va (by simp)
    simp only [State.frameBytes, hv, ih fun v hm => h v (by simp [hm]), List.map_cons]
theorem nodup_natRange (a n : Nat) : (natRange a n).Nodup := by
  induction n generalizing a with
  | zero => exact List.nodup_nil
  | succ n ih => exact List.nodup_cons.mpr ⟨fun h => by have := (mem_natRange.mp h).1; omega, ih (a + 1)⟩
theorem nodup_map {f : Nat → Nat} (hf : ∀ a b, f a = f b → a = b) {l : List Nat} (h : l.Nodup) : (l.map f).Nodup := by
  induction l with
  | nil => exact List.nodup_nil
  | cons a l ih =>
    rw [List.nodup_cons] at h
    refine List.nodup_cons.mpr ⟨fun hm => ?_, ih h.2⟩
    obtain ⟨b, hb, he⟩ := List.mem_map.mp hm
    exact h.1 (hf _ _ he ▸ hb)
/-- The W frame of the region is one page of 1 MiB at 0x10000000. -/
theorem frame_of {s : State} (h : s.vrecBad reg0 = false ∧ (s.vrec reg0).leaf 2 = 0x306001 ∧ s.homeRead 0x306000 8 = 0x10000001) {j : Nat}
    (hj : j < 2 ^ 20) : ∃ a d, s.frame reg0 2 (0x1E00000000 + j) = .page (0x10000000 + j) a d := by
  obtain ⟨h1, h2, h3⟩ := h
  have e1 : fld (0x1E00000000 + j) 20 3 = 0 := by unfold fld; omega
  have e2 : (0x1E00000000 + j) % 1048576 = j := by omega
  have e0 : ¬ 24 ≤ paDie (0x10000000 + j) := by unfold paDie; omega
  have e3 : noBack (0x10000000 + j) = false := by simp [noBack, e0]
  have e4 : leafFault 0x10000001 0x306000 true = none := by decide
  refine ⟨1, [0x306000 / 64], ?_⟩
  unfold State.frame
  simp only [h1, h2, e1, e2, show bitAt 0x306001 0 = true from rfl, show fld 0x306001 12 30 = 0x306 from rfl, if_true, Nat.reduceMul, Nat.reduceAdd, h3,
    Bool.false_eq_true, if_false, e4, show fld 0x10000001 6 2 = 0 from rfl, show fld 0x10000001 4 1 = 0 from rfl,
    show fld 0x10000001 3 1 = 0 from rfl, show fld 0x10000001 14 28 = 0x4000 from rfl, ne_eq, not_true, or_self, Nat.reducePow, e3]
theorem frames_of {s : State} (h : s.vrecBad reg0 = false ∧ (s.vrec reg0).leaf 2 = 0x306001 ∧ s.homeRead 0x306000 8 = 0x10000001) {n : Nat}
    (hn : n ≤ 2 ^ 20) : s.frameBytes reg0 2 (vaRange 0x1E00000000 n) = .ok ((vaRange 0x1E00000000 n).map inFrame) ∧
    ((vaRange 0x1E00000000 n).map inFrame).Nodup := by
  have hm : ∀ va ∈ vaRange 0x1E00000000 n, ∃ j, j < n ∧ va = 0x1E00000000 + j := fun va hv => by
    obtain ⟨j, hj, he⟩ := List.mem_map.mp hv
    have := (mem_natRange.mp hj).2
    exact ⟨j, by omega, he.symm⟩
  refine ⟨frameBytes_of _ fun va hv => ?_, ?_⟩
  · obtain ⟨j, hj, he⟩ := hm va hv
    rw [he, inFrame_add]
    exact frame_of h (Nat.lt_of_lt_of_le hj hn)
  · have he : (vaRange 0x1E00000000 n).map inFrame = (natRange 0 n).map (0x10000000 + ·) := by
      simp only [vaRange, List.map_map, Function.comp_def, inFrame_add]
    rw [he]
    exact nodup_map (fun a b => Nat.add_left_cancel) (nodup_natRange _ _)
theorem canWrite_idle {s : State} (hc : s.cores = []) (ht : s.transit = []) (l : List Nat) : s.canWrite l none = true := by
  unfold State.canWrite
  rw [hc, ht]
  rfl
theorem witness_ResultsArePublished : ∃ s c i pas, InstAt 63 5 c i s ∧ (memoryOk s = true ∧ s.expo.stopped = false ∧ s.vrecBad reg0 = false ∧
    (s.vrec reg0).drn = false ∧ s.pubs = []) ∧ i.st = 3 ∧ c.prevPublished 5 = true ∧
    (∀ ch, ch < c.params.nch → (tabGet? i.result ch).isSome = true) ∧ i.written = false ∧ c.params.nr = 1 ∧ s.resultRegion c 0 = some reg0 ∧
    s.frameBytes reg0 (s.vrec reg0).wix (vaRange (c.rva % 2 ^ 50) ((i.resultBytes c.params).take (2 ^ 23)).length) = .ok pas ∧ pas.Nodup ∧
    s.canWrite (linesOf pas) none = true := by
  obtain ⟨c, i, h1, h2, h3, h4, h5, h6, h7, h8, h9⟩ := inst_of (s := sResult iResult) (p := fun c i => i = iResult ∧ c.params = theParams ∧
    c.prevPublished 5 = true ∧ (∀ ch, ch < c.params.nch → (tabGet? i.result ch).isSome = true) ∧ c.params.nr = 1 ∧
    (sResult iResult).resultRegion c 0 = some reg0 ∧ c.rva % 2 ^ 50 = 0x1E00000000 ∧ ((sResult iResult).vrec reg0).wix = 2) (by decide +kernel)
  subst h2
  have hl : ((iResult.resultBytes c.params).take (2 ^ 23)).length ≤ 2 ^ 20 := by
    have hr : ((natRange 0 theParams.nch).flatMap fun ch => (tabGet [] iResult.result ch).flatMap fun x => leBytes (theParams.ob / 32) x).length =
      132 := by decide +kernel
    rw [h3, List.length_take, Inst.resultBytes, List.length_append, hr]
    simp [Inst.header]
  obtain ⟨h10, h11⟩ := frames_of (s := sResult iResult) (by decide +kernel) hl
  have hc : (sResult iResult).cores = [] := rfl
  have h12 : (sResult iResult).frameBytes reg0 ((sResult iResult).vrec reg0).wix (vaRange (c.rva % 2 ^ 50)
      ((iResult.resultBytes c.params).take (2 ^ 23)).length) = .ok ((vaRange 0x1E00000000
      ((iResult.resultBytes c.params).take (2 ^ 23)).length).map inFrame) := by rw [h8, h9]; exact h10
  exact ⟨sResult iResult, c, iResult, _, h1, by decide +kernel, rfl, h4, h5, rfl, h6, h7, h12, h11,
    canWrite_idle hc (by decide +kernel) _⟩
/-- They are written, and the record's LSTAMP is below the step, or not. -/
def sWritten (ls : Nat) : State := puts [(0x303030, 4, ls)] (sResult { iResult with written := true })
theorem witness_ResultsArePublished_accept : ∃ s, (memoryOk s = true ∧ PlainRecord s reg0 ∧ s.vrecBad reg0 = false ∧ s.mons = []) ∧
    (s.expo.stopped = false ∧ s.pubs = [] ∧ (s.vrec reg0).lstamp = 4) ∧ ∃ c i, InstAt 63 5 c i s ∧ i.st = 3 ∧ c.prevPublished 5 = true ∧
    (∀ ch, ch < c.params.nch → (tabGet? i.result ch).isSome = true) ∧ i.written = true ∧
    s.resultRegion c (pubOrder c.params.nr i.published) = some reg0 :=
  ⟨sWritten 4, v_of (by decide +kernel), by decide +kernel, inst_of (by decide +kernel)⟩
theorem witness_ResultsArePublished_refuse : ∃ s, (memoryOk s = true ∧ s.expo.stopped = false ∧ s.pubs = [] ∧ (s.vrec reg0).lstamp = 5) ∧
    ∃ c i, InstAt 63 5 c i s ∧ i.st = 3 ∧ c.prevPublished 5 = true ∧ c.held = [] ∧
    (∀ ch, ch < c.params.nch → (tabGet? i.result ch).isSome = true) ∧ i.written = true ∧
    s.resultRegion c (pubOrder c.params.nr i.published) = some reg0 :=
  ⟨sWritten 5, by decide +kernel, inst_of (by decide +kernel)⟩
/-- The collective at step 6, whose pass is closed over the late contributions of members `late` to step 5; that has ended. -/
def sNext (late : List Nat) : State :=
  withColl { theColl with next := 7, insts := [{ iAgreed [] with t := 6, lateSet := late }] } (sColl theInst)
theorem witness_LateContributionsAreTaken :
    (∃ s, ∃ c i, InstAt 63 5 c i s ∧ c.held = [] ∧ c.own = 0 ∧ c.params = theParams ∧ i.st = 1) ∧
    (∃ s, ∃ c i, InstAt 63 5 c i s ∧ c.held = [] ∧ c.own = 0 ∧ c.params = theParams ∧ i.st = 2 ∧ c.inst 6 = none ∧
      (∀ k ∈ i.late, k.pos ≠ 1) ∧ 1 ∉ i.lateGone) ∧
    (∃ s c, State.coll? s 63 = some c ∧ c.held = [] ∧ c.own = 0 ∧ c.inst 5 = none ∧ 5 < c.next ∧
      (c.inst 6).any fun q => q.st == 2 && decide (1 ∈ q.lateSet) && q.sums.isEmpty) ∧
    (∃ s c, State.coll? s 63 = some c ∧ c.held = [] ∧ c.own = 0 ∧ c.inst 5 = none ∧ 5 < c.next ∧
      (c.inst 6).any fun q => q.st == 2 && decide (1 ∉ q.lateSet) && q.sums.isEmpty) ∧
    (∃ s c, State.coll? s 63 = some c ∧ c.held = [] ∧ c.inst 4 = none ∧ 4 < c.next ∧ (c.inst 5).any (·.st == 1)) ∧
    (∃ s c, State.coll? s 63 = some c ∧ c.held = [] ∧ c.own = 0 ∧ c.params ≠ { theParams with cid := 8 }) ∧
    ∃ s, ∃ c i, InstAt 63 5 c i s ∧ c.held = [] ∧ c.own = 0 ∧ i.ownLate = some ⟨0, [127, 0], []⟩ ∧ c.inst 6 = none ∧
      (∀ k ∈ i.late, k.pos ≠ 0) ∧ 0 ∉ i.lateGone :=
  ⟨⟨sColl theInst, inst_of (by decide +kernel)⟩, ⟨sColl (iAgreed []), inst_of (by decide +kernel)⟩, ⟨sNext [1], someOf (by decide +kernel)⟩,
    ⟨sNext [], someOf (by decide +kernel)⟩, ⟨sColl theInst, someOf (by decide +kernel)⟩, ⟨sColl theInst, someOf (by decide +kernel)⟩,
    sColl { iAgreed [] with ownLate := some ⟨0, [127, 0], []⟩ }, inst_of (by decide +kernel)⟩
theorem witness_PeerMessagesAreTaken :
    (∃ s c, State.coll? s 63 = some c ∧ c.held = [] ∧ c.params ≠ { theParams with cid := 8 }) ∧
    (∃ s c, State.coll? s 63 = some c ∧ c.held = [] ∧ c.params = theParams ∧ c.inst 4 = none ∧ 4 < c.next) ∧
    (∃ s, ∃ c i, InstAt 63 5 c i s ∧ c.held = [] ∧ c.params = theParams ∧ s.coordinates 63 c i = false ∧ ∀ k ∈ i.arrived, k.pos ≠ 0) ∧
    ∃ s, ∃ c i, InstAt 63 5 c i s ∧ c.held = [] ∧ c.params = theParams ∧ i.st = 2 ∧ 1 ∈ i.onTime ∧ ∀ k ∈ i.sums, k.pos = 1 → k.exps ≠ [] :=
  ⟨⟨sColl theInst, someOf (by decide +kernel)⟩, ⟨sColl theInst, someOf (by decide +kernel)⟩, ⟨sMember theInst, inst_of (by decide +kernel)⟩,
    sColl (iAgreed []), inst_of (by decide +kernel)⟩
/-- The module leads its pod, and member 1 of it has been silent for a microsecond. -/
def sLeads : State :=
  let s := withMembers State.reset.boot
  { s with clk := 2400, stepCtx := { s.stepCtx with sto := 1, need := 7 }, replicas := s.replicas.map fun r => { r with pods := [(1, ⟨8, true, false, 5⟩)] } }
theorem witness_MembersAdvance : ∃ s, State.leads s = true ∧ s.ownPod = 0 := ⟨sLeads, by decide +kernel⟩
theorem witness_MembershipChanges :
    (∃ s, (State.stepCtx s).bound = true ∧ memoryOk s = true ∧ QueueHasRoom s s.stepCtx.sctx ∧ (s.replica 0).due = [] ∧ s.colls = [] ∧ s.mayMark false 1 = true ∧
      1 / 1024 = s.ownPod) ∧
    ∃ s, (State.stepCtx s).bound = true ∧ memoryOk s = true ∧ QueueHasRoom s s.stepCtx.sctx ∧ (s.replica 0).due = [] ∧ s.colls = [] ∧ s.mayMark true 1 = true ∧
      s.expo.joining = false :=
  ⟨⟨sLeads, by unfold QueueHasRoom; decide +kernel⟩, sLeads, by unfold QueueHasRoom; decide +kernel⟩
/-- An exposure of the region as given; its image area is at 0x800000. -/
def sExpo (f : Exposure → Exposure) : State :=
  let s := withMembers (withRegion State.reset.boot)
  { s with expo := f { s.expo with maxst := 1, owner := some (.node 0 0), ctx := 0, img := 0x800000, isz := 0x10000, regions := [reg0], xid := 9 } }
theorem xlate_of {s : State} {x : Nat} {u : Use2} (l : List Nat) (h : ∀ va ∈ l, s.walk x va u = .page va 0 []) :
    s.xlateBytes x u l = .ok (l, 0, []) := by
  induction l with
  | nil => rfl
  | cons va l ih => simp [State.xlateBytes, State.xlate, h va (by simp), ih fun v hm => h v (by simp [hm])]
/-- In the window of slot 0 after boot, addresses are physical. -/
theorem window_of {s : State} {x va : Nat} {u : Use2} (h : (s.ctx x).hbase = 0 ∧ (s.ctx x).hofs = 0 ∧ (s.ctx x).hlim = 0x1E00000000)
    (hu : u ≠ .vread ∧ u ≠ .vwrite) (hv : va < 0x1E00000000) : s.walk x va u = .page va 0 [] := by
  obtain ⟨h1, h2, h3⟩ := h
  have e1 : inWindow (s.ctx x) va = true := by simp [inWindow, h1, h3, hv]
  have e0 : ¬ 24 ≤ paDie va := by unfold paDie; omega
  have e2 : noBack va = false := by simp [noBack, e0]
  simp [State.walk, e1, h1, h2, e2, hu.1, hu.2]
/-- Beyond the trap queues in force, and with no queue and no directory of images in force, a write leaves what it writes. -/
theorem guard_of {s : State} {lo : Nat} (h : ((s.walkers.all fun w => w.2.queues.toList.all fun q => q.st == 0) &&
    s.ctxs.toList.all fun k => k.state == .empty || (k.saved == 0 && decide (k.tqbase.toNat + 0x8000 ≤ lo))) = true) {a : Nat} (ha : lo ≤ a)
    (x : Byte) : s.guardByte a x = x := by
  simp only [Bool.and_eq_true, List.all_eq_true, Bool.or_eq_true, beq_iff_eq, decide_eq_true_eq] at h
  have e1 : (s.walkers.findSome? fun w => w.2.queues.toList.find? fun q => q.st != 0 && (within a q.desc 0x80).isSome) = none := by
    rw [List.findSome?_eq_none_iff]
    intro w hw
    rw [List.find?_eq_none]
    intro q hq
    simp [h.1 w hw q hq]
  have e2 : s.mapAt a = none := by
    unfold State.mapAt
    rw [e1]
    simp only [List.findSome?_eq_none_iff]
    intro k hk
    rcases h.2 k hk with hk | hk
    · simp [hk]
    · have : within a k.tqbase.toNat 0x8000 = none := by unfold within; rw [if_neg]; omega
      simp [hk.1, this]
  unfold State.guardByte
  rw [e2]
def sStopped (isz : Nat) : State := sExpo fun e => { e with stopped := true, isz := isz }
theorem witness_ExposuresAreDrained_time : ∃ s, memoryOk s = true ∧ (State.expo s).stopped = true ∧ s.expo.since + s.expo.maxst * 2400 < s.clk.toNat :=
  ⟨{ sStopped 0 with clk := 2401 }, by decide +kernel⟩
theorem witness_ExposuresAreDrained_small : ∃ s, memoryOk s = true ∧ (State.expo s).stopped = true ∧ s.clk.toNat ≤ s.expo.since + s.expo.maxst * 2400 ∧
    s.expo.isz + 1 = s.exposeImage.length := ⟨sStopped 10399, by decide +kernel⟩
theorem witness_ExposuresAreDrained : ∃ s pas b l, memoryOk s = true ∧ (State.expo s).stopped = true ∧
    s.clk.toNat ≤ s.expo.since + s.expo.maxst * 2400 ∧ s.exposeImage.length ≤ s.expo.isz ∧
    s.xlateBytes s.expo.ctx .write (vaRange (s.expo.img % 2 ^ 50) s.exposeImage.length) = .ok (pas, b, l) ∧ pas.Nodup ∧
    (∀ a ∈ pas, ∀ x, s.guardByte a x = x) ∧ PlainRecord s reg0 ∧ (∀ a ∈ pas, a < reg0 ∨ reg0 + 64 ≤ a) ∧ s.expo.regions = [reg0] ∧
    s.canWrite (linesOf pas) none = true ∧ ∀ x, x < 64 → (s.ctx x).saved = 0 := by
  have hb : (sStopped 0x10000).exposeImage.length ≤ 0x10000 := by decide +kernel
  have hm : ∀ va ∈ vaRange 0x800000 (sStopped 0x10000).exposeImage.length, 0x800000 ≤ va ∧ va < 0x900000 := fun va hv => by
    obtain ⟨j, hj, rfl⟩ := List.mem_map.mp hv
    have := (mem_natRange.mp hj).2
    omega
  refine ⟨sStopped 0x10000, _, _, _, by decide +kernel, rfl, by decide +kernel, hb, xlate_of _ fun va hv => ?_,
    nodup_map (fun a b => Nat.add_left_cancel) (nodup_natRange _ _), fun a ha x => ?_, plain_of (by decide +kernel), fun a ha => ?_, rfl, ?_,
    by decide +kernel⟩
  · exact window_of (by decide +kernel) ⟨nofun, nofun⟩ (Nat.lt_trans (hm va hv).2 (by decide))
  · exact guard_of (lo := 0x800000) (by decide +kernel) (hm a ha).1 x
  · exact .inr (Nat.le_trans (by decide) (hm a ha).1)
  · have hc : (sStopped 0x10000).cores = [] := rfl
    exact canWrite_idle hc (by decide +kernel) _
theorem witness_ExposuresAreDrained_kept : ∃ s n, memoryOk s = true ∧ (State.life s = .run ∧ s.stepCtx.bound = true ∧
    n ≤ s.stepCtx.ksz * 2 ^ 19 ∧ 4 ≤ n ∧ s.stepCtx.keepSlot = 1) ∧ (∀ b ∈ natRange (s.stepCtx.keep + s.stepCtx.keepSlot * (s.stepCtx.ksz * 2 ^ 19)) n,
      noBack b = false ∧ ∀ x, s.guardByte b x = x) ∧ (∀ x, x < 64 → (s.ctx x).saved = 0) ∧
    s.canWrite (linesOf (natRange (s.stepCtx.keep + s.stepCtx.keepSlot * (s.stepCtx.ksz * 2 ^ 19)) n)) none = true := by
  let s := withMembers (withRegion State.reset.boot)
  refine ⟨{ s with stepCtx := { s.stepCtx with bound := true, keep := 0x900000, ksz := 1, keepSlot := 1 } }, 130, by decide +kernel, by decide +kernel,
    fun b hb => ⟨?_, fun x => guard_of (lo := 0x900000) (by decide +kernel) ?_ x⟩, by decide +kernel, by decide +kernel⟩
  · exact (by decide +kernel : ∀ b ∈ natRange (0x900000 + 1 * (1 * 2 ^ 19)) 130, noBack b = false) b hb
  · exact Nat.le_trans (by decide) (mem_natRange.mp hb).1
theorem witness_ExposuresAreDrained_end :
    (∃ s, memoryOk s = true ∧ (State.expo s).draining = true ∧ s.expo.pins = []) ∧
    ∃ s f, memoryOk s = true ∧ (State.expo s).draining = true ∧ s.expo.pins = [(reg0, f)] ∧ s.expo.pins.find? (·.1 == reg0) = some (reg0, f) ∧
      f < 4 ∧ PlainRecord s reg0 :=
  ⟨⟨sExpo fun e => { e with draining := true }, by decide +kernel⟩, sExpo fun e => { e with draining := true, pins := [(reg0, 3)] }, 3,
    by decide +kernel, rfl, rfl, by decide +kernel, by decide, plain_of (by decide +kernel)⟩
def sJoins : State := sExpo fun e => { e with joining := true, regions := [] }
def theJoin (found : Bool) : JoinData := { found := found, image := List.replicate 128 0, regions := [], logFrom := 0, log := [], rank := 1, step := 5 }
theorem witness_JoinsComplete :
    (∃ d s, (State.stepCtx s).bound = true ∧ s.expo.joining = true ∧ d = theJoin false) ∧
    ∃ d s pas b l, (State.stepCtx s).bound = true ∧ s.expo.joining = true ∧ d = theJoin true ∧ d.image.length ≤ s.expo.isz ∧
      s.xlateBytes s.expo.ctx .write (vaRange (s.expo.img % 2 ^ 50) d.image.length) = .ok (pas, b, l) ∧ s.expo.regions = [] ∧ s.stepCtx.sctx < 64 ∧
      s.canWrite (linesOf pas) none = true ∧ le32 d.image 0x34 = 0 ∧ le32 d.image 0x3C = 0 ∧ le32 d.image 0x5C = 0 ∧ le32 d.image 0x64 = 0 ∧ le32 d.image 0x74 = 0 ∧ d.logFrom = 0 ∧ d.log = [] := by
  refine ⟨⟨_, sJoins, by decide +kernel, by decide +kernel, rfl⟩, _, sJoins, _, _, _, by decide +kernel, by decide +kernel, rfl, by decide +kernel,
    xlate_of _ fun va hv => ?_, by decide +kernel⟩
  obtain ⟨j, hj, he⟩ := List.mem_map.mp hv
  have := (mem_natRange.mp hj).2
  have h128 : (theJoin true).image.length = 128 := by decide +kernel
  have hi : sJoins.expo.img % 2 ^ 50 = 0x800000 := by decide +kernel
  rw [h128] at this
  rw [hi] at he
  exact window_of (by decide +kernel) ⟨nofun, nofun⟩ (by omega)

/-! ### Life, power, the endpoint, the step -/

/-- Whether the image is good is the model's free value, so the two cases of a passed self-test have no witness apart. -/
theorem witness_LifeStates :
    (∃ s, State.life s = .off) ∧ (∃ s, State.life s ≠ .off ∧ s.life = .safe) ∧ (∃ s, State.life s = .recovery) ∧
    (∃ s, State.life s = .run ∧ ∀ x, x < 64 → (s.ctx x).state = .halted ∨ (s.ctx x).state = .empty) ∧
    (∃ s, State.life s = .run ∧ ∃ x, x < 64 ∧ (s.ctx x).state ≠ .halted ∧ (s.ctx x).state ≠ .empty) ∧
    (∃ s, State.life s = .selftest) ∧ (∃ f, selfTestPass f = true) ∧ ∃ f, selfTestPass f = false :=
  ⟨⟨State.reset, rfl⟩, ⟨{ State.reset with life := .safe }, by decide⟩, ⟨sRecovery, rfl⟩,
    ⟨{ State.reset with life := .run, ctxs := State.reset.ctxs.setIfInBounds 63 { emptyCtx with state := .halted } }, by decide +kernel⟩,
    ⟨State.reset.boot, by decide +kernel⟩, ⟨{ State.reset with life := .selftest }, rfl⟩, ⟨⟨BitVec.allOnes 24, BitVec.allOnes 4, 0, 0, []⟩, by decide⟩,
    ⟨BitVec.allOnes 24, BitVec.allOnes 4, 1, 0, []⟩, by decide⟩
/-- A period after boot. -/
def sPeriod : State := { State.reset.boot with clk := 24000 }
theorem witness_PowerAndHeat :
    (∃ s, State.life s = .run ∧ s.power.sensed < s.clk.toNat / 24000 ∧ s.power.shared < s.clk.toNat / 24000 ∧ 144 ≤ s.power.gbud ∧
      s.power.gbud = 576) ∧ (∃ s, State.life s = .run ∧ s.clk.toNat / 24000 ≤ s.power.sensed ∧ s.clk.toNat / 24000 ≤ s.power.shared) ∧
    (∃ ts : List Nat, ∃ a ∈ ts, 110 < a) ∧ (∃ ts : List Nat, (∀ a ∈ ts, a ≤ 110) ∧ ∃ a ∈ ts, 95 < a) ∧
    ∃ ts : List Nat, (∀ a ∈ ts, a ≤ 110) ∧ ∀ a ∈ ts, a ≤ 90 :=
  ⟨⟨sPeriod, by decide +kernel⟩, ⟨State.reset.boot, by decide +kernel⟩, ⟨[111], by decide⟩, ⟨[110, 96], by decide⟩, [90], by decide⟩
theorem witness_EndpointAnswers : (∃ s, State.life s ≠ .off) ∧ ∃ al : List Nat, 0 ∈ al ∧ 1 ∈ al ∧ al.length = 3 :=
  ⟨⟨sRecovery, by decide⟩, [0, 1, 2], by decide⟩
/-- The cursor's word, and one that no row encodes. -/
theorem witness_StepRunsDecodedWord : ∃ c g rest s, State.agenda s = .word c g :: rest ∧ ∃ q, s.nextWord c g = some q ∧
    q.2.1.start ≤ s.clk.toNat ∧ (decodeNat q.2.2 (selOf q.1 q.2.2)).toOption = some iAdd := ⟨0, 0, [], stI iAdd, by decide +kernel, someOf (by decide +kernel)⟩
def sBadWord : State := (stI iAdd).modGroup 0 0 fun x => { x with cur := x.cur.map fun k => { k with words := [2 ^ 64 - 1] } }
theorem witness_StepRunsDecodedWord_bad : ∃ c g rest s, State.agenda s = .word c g :: rest ∧ ∃ q, s.nextWord c g = some q ∧
    q.2.1.start ≤ s.clk.toNat ∧ (decodeNat q.2.2 (selOf q.1 q.2.2)).toOption = none := ⟨0, 0, [], sBadWord, by decide +kernel, someOf (by decide +kernel)⟩
/-- The port of the word is busy until clock 4. -/
def sBusyPort : State := (stI iAdd).modGroup 0 0 fun x => { x with cur := x.cur.map fun k => { k with start := 4 } }
theorem witness_StepRunsDecodedWord_wait : ∃ c g rest s, State.agenda s = .word c g :: rest ∧ ∃ q, s.nextWord c g = some q ∧
    s.clk.toNat < q.2.1.start := ⟨0, 0, [], sBusyPort, by decide +kernel, someOf (by decide +kernel)⟩
/-- A RECOVER waits. -/
def sRecovers (s : State) : State := { s with root := { s.root with recover := true } }
theorem witness_StepTakesTheSchedule :
    (∃ s, State.agenda s = [] ∧ s.life = .run ∧ s.takeRecover = s) ∧
    (∃ s, State.agenda s = [] ∧ s.life = .run ∧ s.root.recover = true ∧ ∀ x, x < 64 → (s.ctx x).state = .halted ∨ (s.ctx x).state = .empty) ∧
    (∃ s, State.life s = .run ∧ s.root.recover = true ∧ (s.ctx 0).state ≠ .halted ∧ (s.ctx 0).state ≠ .empty) ∧ (∃ s rest, State.agenda s = .event .pwrgdAssert :: rest) ∧
    (∃ s rest, State.agenda s = .cmd 0 0 :: rest) ∧ ∃ s rest, State.agenda s = .tick 5 :: rest ∧ s.life = .run ∧ s.takeRecover = s :=
  ⟨⟨State.reset.boot, by decide +kernel⟩, ⟨sRecovers { State.reset with life := .run }, by decide +kernel⟩,
    ⟨sRecovers State.reset.boot, by decide +kernel⟩, ⟨{ State.reset with agenda := [.event .pwrgdAssert] }, [], rfl⟩,
    ⟨{ State.reset with agenda := [.cmd 0 0] }, [], rfl⟩, { State.reset.boot with agenda := [.tick 5] }, [], by decide +kernel⟩
theorem witness_DecodeEncodeRoundTrip : ∃ w i, iAdd.wellFormed = true ∧ (decodeNat w 0).toOption = some i :=
  ⟨(encodeNat iAdd).getD 0, iAdd, by decide +kernel⟩
theorem witness_StepKeepsMemoryCanonical : ∃ s, memoryOk s = true ∧ (match step s with | .next t => t.clk == 1 | _ => false) = true :=
  ⟨State.reset.boot, by decide +kernel⟩

end Sys2Proof.Tests
end

section
/-!
SUPPORT. Taking a trap: what the spill of the latches leaves (R333), what the lanes of a clause keep when they leave it (R326),
and the state in which lanes of one cause stand in their handler (R331).
-/
namespace Sys2Proof.Machine

/-! ### Spilling latches -/

/-- The spill area of every lane lies in the firmware range of its die (R126, R333). -/
theorem outside_spill {c j r a : Nat} (hj : j < 16) (hr : r < 8192) (ha : inFirmware a = false) :
    a < spillAddr c j r ∨ spillAddr c j r + 240 ≤ a := by
  simp only [inFirmware, decide_eq_false_iff_not] at ha
  simp only [spillAddr, parkSlot]
  omega

section
variable {s t u : State} {c g j p k q : Nat} {lat : Vector QWord 16}

theorem length_latBytes (v : Vector QWord 16) : (latBytes v).length = 240 := by
  simp only [latBytes, natRange, List.map_cons, List.map_nil, List.flatten_cons, List.flatten_nil, List.length_append,
    length_leBytes, List.length_nil]

theorem spill_eq (s : State) (c j p : Nat) (lat : Vector QWord 16) :
    s.spill c j p lat = { s with mem := s.mem.write (spillAddr c j (s.lane c p).rln) (latBytes lat) } := by
  unfold State.spill latBytes; rfl

@[simp] theorem lane_spill : (s.spill c j p lat).lane k q = s.lane k q := by
  simp only [spill_eq, State.lane, State.core]

theorem homeBytes_congr {pas : List Nat} (hl : t.link = s.link) (hm : ∀ a ∈ pas, t.mem.get a = s.mem.get a) :
    t.homeBytes pas = s.homeBytes pas := by
  cases pas with
  | nil => rfl
  | cons a pas => simp only [State.homeBytes, hl, List.map_congr_left hm]

/-! ### What leaving a clause keeps -/

/-- A frame speaks of no byte of memory. -/
theorem Frame.withMem {L : Nat → Prop} {V P : Nat → Nat → Prop} {D S : Nat → Prop} {G : Prop} (h : Frame c g L V P D S G s t)
    (m : Memory) : Frame c g L V P D S G { s with mem := m } { t with mem := m } where
  rest := by rw [← h.rest]
  cores := h.cores
  ports := h.ports
  others := h.others
  group := h.group
  away := h.away
  lanes := h.lanes
  vregs := h.vregs
  preds := h.preds
  draws := h.draws

/-- Lanes of `L` have moved, and latches of theirs may have been spilled: registers stand, and so does every byte outside the
park slots. -/
structure SpillFrame (c g : Nat) (L : Nat → Prop) (s t : State) : Prop where
  frame : Frame c g L (fun _ _ => False) (fun _ _ => False) (fun _ => False) (fun _ => False) False s { t with mem := s.mem }
  wf : Memory.wf s.mem = true → Memory.wf t.mem = true
  mem : Memory.wf s.mem = true → ∀ a, inFirmware a = false → t.mem.get a = s.mem.get a

namespace SpillFrame
variable {L : Nat → Prop}

/-- A frame with no spill. -/
theorem of_frame (h : Frame c g L (fun _ _ => False) (fun _ _ => False) (fun _ => False) (fun _ => False) False s t) :
    SpillFrame c g L s t := by
  have hm : t.mem = s.mem := (congrArg State.mem h.rest :)
  exact { frame := by rw [← hm]; exact h, wf := by simp [hm], mem := by simp [hm] }

theorem trans (h : SpillFrame c g L s t) (k : SpillFrame c g L t u) : SpillFrame c g L s u where
  frame := h.frame.trans (k.frame.withMem s.mem)
  wf hw := k.wf (h.wf hw)
  mem hw a ha := (k.mem (h.wf hw) a ha).trans (h.mem hw a ha)

/-- Memory alone has changed, outside of what the frame speaks of. -/
theorem of_mem {m : Memory} (hwf : Memory.wf s.mem = true → Memory.wf m = true)
    (hget : Memory.wf s.mem = true → ∀ a, inFirmware a = false → m.get a = s.mem.get a) : SpillFrame c g L s { s with mem := m } :=
  ⟨Frame.refl s, hwf, hget⟩

theorem spill (s : State) (lat : Vector QWord 16) (hj : j < 16) (hr : (s.lane c p).rln < 8192) :
    SpillFrame c g L s (s.spill c j p lat) := by
  rw [spill_eq]
  refine of_mem (Memory.wf_write _ _) fun hw b hb => Memory.get_write_out _ _ _ hw ?_
  rw [length_latBytes]
  exact outside_spill hj hr hb

theorem ctx (h : SpillFrame c g L s t) (n : Nat) : t.ctx n = s.ctx n := by
  have : t.ctxs = s.ctxs := (congrArg State.ctxs h.frame.rest :)
  simp only [State.ctx, this]

theorem core (h : SpillFrame c g L s t) (k : Nat) :
    { t.core k with lanes := (s.core k).lanes, groups := (s.core k).groups, portFree := (s.core k).portFree } = s.core k :=
  h.frame.cores k

theorem teamOf (h : SpillFrame c g L s t) (k : Nat) (x : Group) : t.teamOf k x = s.teamOf k x := by
  have : (t.core k).teams = (s.core k).teams := (congrArg Core.teams (h.core k) :)
  simp only [State.teamOf, State.team?, this]

theorem ctxOf (h : SpillFrame c g L s t) (k : Nat) (x : Group) : t.ctxOf k x = s.ctxOf k x := by
  simp only [State.ctxOf, h.teamOf]

theorem vregsOf (h : SpillFrame c g L s t) (k : Nat) (x : Group) : t.vregsOf k x = s.vregsOf k x := by
  have : t.grids = s.grids := (congrArg State.grids h.frame.rest :)
  simp only [State.vregsOf, State.gridOf, State.grid?, h.teamOf, this]

/-- The trap table of a vector that no spill can reach still holds it. -/
theorem hvecOf {slot code : Nat} (h : SpillFrame c g L s t) (hw : Memory.wf s.mem = true) (ha : vectorApart s slot code) :
    hvecOf t slot code = hvecOf s slot code := by
  have hl : t.link = s.link := (congrArg State.link h.frame.rest :)
  have hm : ∀ a ∈ natRange ((s.ctx slot).tqbase.toNat + 0x4040 + 8 * code) 8, t.mem.get a = s.mem.get a := fun a hn => by
    have := mem_natRange.mp hn
    exact h.mem hw a (ha a this.1 (by omega))
  rw [Machine.hvecOf, Machine.hvecOf, h.ctx, State.homeRead, State.homeRead, homeBytes_congr hl hm]

end SpillFrame

/-! ### Leaving a clause -/

/-- A lane that stands at word `at_.2` of the clause at `at_.1`. -/
def Lane.placed (l : Lane) (at_ : Nat × Nat) : Lane := { l with lpc := BitVec.ofNat 64 at_.1, resw := at_.2 }

/-- One lane leaves its clause for a place: its latches are spilled where it is to go on inside the clause (R326, R333). -/
def State.leaveAt (s : State) (c j : Nat) (cu : Cursor) (p : Nat) (at_ : Nat × Nat) : State :=
  (if at_.2 = 0 then s else s.spill c j p (if onceClass cu.ecl then cu.gx else (s.lane c p).lat)).modLane c p (·.placed at_)

variable {cu : Cursor} {pt : Nat → Nat × Nat}

theorem lane_leaveAt (s : State) (at_ : Nat × Nat) (k q : Nat) :
    (s.leaveAt c j cu p at_).lane k q = if k = c ∧ q = p then (s.lane c p).placed at_ else s.lane k q := by
  unfold State.leaveAt
  rw [lane_modLane]
  split <;> split <;> simp

theorem SpillFrame.leaveAt {L : Nat → Prop} (s : State) (at_ : Nat × Nat) (hp : L p) (hj : j < 16) (hr : (s.lane c p).rln < 8192) :
    SpillFrame c g L s (s.leaveAt c j cu p at_) := by
  unfold State.leaveAt
  refine trans (t := if at_.2 = 0 then s else _) ?_
    (of_frame (Frame.modLane _ p _ hp (fun _ => rfl) (fun _ _ _ => rfl) (fun _ _ _ => rfl) (fun _ _ => ⟨rfl, rfl⟩)))
  split
  · exact of_frame (Frame.refl s)
  · exact spill s _ hj hr

/-- Lanes leave their clause, each at its place. -/
def State.leaveAll (s : State) (c j : Nat) (cu : Cursor) (pt : Nat → Nat × Nat) (ps : List Nat) : State :=
  ps.foldl (fun s p => s.leaveAt c j cu p (pt p)) s

theorem lane_leaveAll (s : State) (ps : List Nat) (k q : Nat) :
    (s.leaveAll c j cu pt ps).lane k q = if k = c ∧ q ∈ ps then (s.lane k q).placed (pt q) else s.lane k q := by
  unfold State.leaveAll
  induction ps generalizing s with
  | nil => simp
  | cons p ps ih =>
    rw [List.foldl_cons, ih, lane_leaveAt]
    by_cases hq : k = c ∧ q = p
    · obtain ⟨rfl, rfl⟩ := hq
      simp [Lane.placed]
    · simp only [hq, if_false, List.mem_cons]
      grind

theorem SpillFrame.leaveAll {L : Nat → Prop} (s : State) (ps : List Nat) (hj : j < 16) (hp : ∀ p ∈ ps, L p)
    (hr : ∀ p ∈ ps, (s.lane c p).rln < 8192) : SpillFrame c g L s (s.leaveAll c j cu pt ps) := by
  unfold State.leaveAll
  induction ps generalizing s with
  | nil => exact of_frame (Frame.refl s)
  | cons p ps ih =>
    obtain ⟨hp0, hps⟩ := List.forall_mem_cons.mp hp
    obtain ⟨hr0, hrs⟩ := List.forall_mem_cons.mp hr
    refine (leaveAt s (pt p) hp0 hj hr0).trans (ih (s.leaveAt c j cu p (pt p)) hps fun q hq => ?_)
    rw [lane_leaveAt]
    split
    · exact hr0
    · exact hrs q hq

/-! ### Entering the handler -/

/-- A lane in the handler (R331). -/
def Lane.enter (code hvec : Nat) (h : TrapLane) (l : Lane) : Lane :=
  let t := wordAddr l.lpc.toNat l.resw
  { l with
    thdr := l.lpc, tw := l.resw, hsave := Vector.ofFn fun i => regGet l.v (60 + i.val)
    v := regsSet (regSet (regSet l.v 60 (BitVec.ofNat 32 (code + 2 ^ 8 * l.resw + 2 ^ 16 * (h.detail % 2 ^ 16)))) 61
      (BitVec.ofNat 32 h.info)) 62 2 t
    tlpc := BitVec.ofNat 64 t, lpc := BitVec.ofNat 64 hvec, resw := 0, inHandler := true }

/-- The lanes of a trap enter the handler. -/
def State.enterAll (s : State) (c code hvec : Nat) (hs : List TrapLane) : State :=
  hs.foldl (fun s h => s.modLane c h.pos (Lane.enter code hvec h)) s

/-- The group is in handler mode (R331); its change is a change for the groups that wait for it (R149). -/
def State.setHandler (s : State) (c g code : Nat) : State :=
  (s.modGroup c g fun r => { r with hmode := true, hcause := code }).fuseRecheck c

theorem enterHandler_eq {x : Group} {code lpc : Nat} {hs : List TrapLane} (hg : s.group? c g = some x) (hm : x.hmode = false)
    (hv : 64 ≤ s.vregsOf c x) (hh : Machine.hvecOf s (s.ctxOf c x) code ≠ 0) :
    s.enterHandler c g code hs lpc = (s.setHandler c g code).enterAll c code (Machine.hvecOf s (s.ctxOf c x) code) hs := by
  have hcond : (x.hmode || decide (s.vregsOf c x < 64) || decide (Machine.hvecOf s (s.ctxOf c x) code = 0)) = false := by
    simp [hm, hh, hv]
  unfold State.enterHandler
  rw [hg]
  simp only [← Machine.hvecOf.eq_def, hcond]
  rfl

/-- A group after a change in its core: one that waits for its buddy, and has met no failure yet, keeps the first (R148, R149). -/
def Core.fuseAgain (k : Core) (y : Group) : Group :=
  if y.inFuse && y.fuseFail.isNone then
    { y with fuseFail := match k.fuseCheck y with | .error st => some st | .ok _ => none }
  else y

theorem fuseAgain_eq (k : Core) (y : Group) : ∃ f, k.fuseAgain y = { y with fuseFail := f } := by
  unfold Core.fuseAgain
  split
  · exact ⟨_, rfl⟩
  · exact ⟨y.fuseFail, rfl⟩

theorem fuseRecheck_eq (s : State) (c : Nat) :
    s.fuseRecheck c = s.modCore c fun k => { k with groups := k.groups.map fun p => (p.1, k.fuseAgain p.2) } := by
  unfold State.fuseRecheck
  refine congrArg (s.modCore c) (funext fun k => congrArg (fun gs => { k with groups := gs }) (List.map_congr_left fun p _ => ?_))
  unfold Core.fuseAgain
  split <;> rfl

theorem lane_fuseRecheck (s : State) (c k q : Nat) : (s.fuseRecheck c).lane k q = s.lane k q := by
  rw [fuseRecheck_eq, State.lane, core_modCore]
  split <;> simp_all [State.lane]

theorem cmds_fuseRecheck (s : State) (c k : Nat) : ((s.fuseRecheck c).core k).cmds = (s.core k).cmds := by
  rw [fuseRecheck_eq, core_modCore]
  split <;> simp_all

theorem group?_fuseRecheck (s : State) (c g : Nat) : (s.fuseRecheck c).group? c g = (s.group? c g).map (s.core c).fuseAgain := by
  rw [fuseRecheck_eq, State.group?, core_modCore_self]
  exact tabGet?_map (fun _ => (s.core c).fuseAgain) _ g

theorem lane_setHandler (s : State) (c g code k q : Nat) : (s.setHandler c g code).lane k q = s.lane k q := by
  rw [State.setHandler, lane_fuseRecheck, lane_modGroup]

theorem cmds_setHandler (s : State) (c g code k : Nat) : ((s.setHandler c g code).core k).cmds = (s.core k).cmds := by
  rw [State.setHandler, cmds_fuseRecheck, core_modGroup_cmds]

theorem mem_setHandler (s : State) (c g code : Nat) : (s.setHandler c g code).mem = s.mem := by
  rw [State.setHandler, fuseRecheck_eq, modCore_mem, modGroup_mem]

theorem group_setHandler {x : Group} {code : Nat} (hg : s.group? c g = some x) :
    ∃ f, (s.setHandler c g code).group? c g = some { x with hmode := true, hcause := code, fuseFail := f } := by
  rw [State.setHandler, group?_fuseRecheck, group?_modGroup_self, hg, Option.map_some, Option.map_some]
  obtain ⟨f, hf⟩ := fuseAgain_eq _ { x with hmode := true, hcause := code }
  exact ⟨f, congrArg some hf⟩

section
variable {code hvec : Nat} {hs : List TrapLane}

theorem group?_enterAll (s : State) (k h : Nat) : (s.enterAll c code hvec hs).group? k h = s.group? k h := by
  unfold State.enterAll
  induction hs generalizing s with
  | nil => rfl
  | cons a hs ih => rw [List.foldl_cons, ih, group?_modLane]

theorem cmds_enterAll (s : State) (k : Nat) : ((s.enterAll c code hvec hs).core k).cmds = (s.core k).cmds := by
  unfold State.enterAll
  induction hs generalizing s with
  | nil => rfl
  | cons a hs ih => rw [List.foldl_cons, ih, core_modLane_cmds]

theorem mem_enterAll (s : State) : (s.enterAll c code hvec hs).mem = s.mem := by
  unfold State.enterAll
  induction hs generalizing s with
  | nil => rfl
  | cons a hs ih => rw [List.foldl_cons, ih, modLane_mem]

theorem lane_enterAll_out (s : State) (hq : ¬ (k = c ∧ q ∈ hs.map (·.pos))) : (s.enterAll c code hvec hs).lane k q = s.lane k q := by
  unfold State.enterAll
  induction hs generalizing s with
  | nil => rfl
  | cons a hs ih =>
    simp only [List.map_cons, List.mem_cons] at hq
    rw [List.foldl_cons, ih _ fun h => hq ⟨h.1, .inr h.2⟩, lane_modLane, if_neg fun h => hq ⟨h.1, .inl h.2⟩]

theorem lane_enterAll_in {h : TrapLane} (s : State) (hn : (hs.map (·.pos)).Nodup) (hh : h ∈ hs) :
    (s.enterAll c code hvec hs).lane c h.pos = (s.lane c h.pos).enter code hvec h := by
  induction hs generalizing s with
  | nil => cases hh
  | cons a hs ih =>
    obtain ⟨ha, hn⟩ := List.nodup_cons.mp hn
    change ((s.modLane c a.pos (Lane.enter code hvec a)).enterAll c code hvec hs).lane c h.pos = _
    rcases List.mem_cons.mp hh with rfl | hh
    · rw [lane_enterAll_out _ (by simp [ha]), lane_modLane_self]
    · rw [ih _ hn hh, lane_modLane, if_neg fun e : c = c ∧ h.pos = a.pos => ha (List.mem_map.mpr ⟨h, hh, e.2⟩)]

/-- A lane that entered from a place is as R331 says. -/
theorem entered_of_enter {h : TrapLane} {hdr w : Nat}
    (ht : t.lane c h.pos = ((s.lane c h.pos).placed (hdr, w)).enter code hvec h) :
    Entered c h.pos code hdr w h.detail h.info hvec s t where
  lpc := by rw [ht]; rfl
  resw := by rw [ht]; rfl
  inHandler := by rw [ht]; rfl
  thdr := by rw [ht]; rfl
  tw := by rw [ht]; rfl
  cause := by
    rw [ht]
    simp only [Lane.enter, Lane.placed]
    rw [regGet_regsSet_out _ _ _ _ _ (by omega), regGet_regSet, regGet_regSet]
    simp
  info := by
    rw [ht]
    simp only [Lane.enter, Lane.placed]
    rw [regGet_regsSet_out _ _ _ _ _ (by omega), regGet_regSet]
    simp
  pair := by
    rw [ht]
    simp only [Lane.enter, Lane.placed, BitVec.toNat_ofNat]
    exact regsGet_regsSet _ _ _ _ (by omega)
  saved i hi := by
    rw [ht]
    simp [Lane.enter, Lane.placed, regGet, hi]
  low r hr := by
    rw [ht]
    simp only [Lane.enter, Lane.placed]
    rw [regGet_regsSet_out _ _ _ _ _ (by omega), regGet_regSet, regGet_regSet, if_neg (by omega), if_neg (by omega)]
  preds := by rw [ht]; rfl

end

/-! ### A trap of one cause -/

/-- Where a lane stands that traps with a cause at a word: `trap` itself is passed (R326, R331). -/
def Cursor.trapPoint (cu : Cursor) (code : Nat) : Nat × Nat := if code = tTrap then cu.after cu.k else (cu.base, cu.k)

/-- Where a lane of the clause stands once the lanes of `hs` have trapped at its word. -/
def Cursor.pointOf (cu : Cursor) (code : Nat) (hs : List TrapLane) (p : Nat) : Nat × Nat :=
  if hs.any (·.pos == p) then cu.trapPoint code else cu.after cu.k

/-- Lanes that trap with one cause all enter the handler; none performs the word again. -/
theorem takeTrap_eq {x : Group} {code : Nat} {hs : List TrapLane} (hg : s.group? c g = some x) (hne : hs ≠ []) :
    s.takeTrap c g cu (hs.map fun h => (h, code)) [] =
      (((s.leaveAll c x.place cu (cu.pointOf code hs) cu.live).endClause c g).enterHandler c g code hs (codeAddr cu.base cu.k)) := by
  cases hs with
  | nil => exact absurd rfl hne
  | cons a hs =>
    have hmin : (hs.map fun h => (h, code)).foldl (fun m h => if h.2 < m then h.2 else m) code = code := by
      clear hne
      induction hs with
      | nil => rfl
      | cons b hs ih => simpa using ih
    have htrap : ((a, code) :: hs.map fun h => (h, code)).filter (fun h => h.2 == code) = (a, code) :: hs.map fun h => (h, code) :=
      List.filter_eq_self.mpr (by simp)
    have hredo : ((a, code) :: hs.map fun h => (h, code)).filter (fun h => h.2 != code) = [] :=
      List.filter_eq_nil_iff.mpr (by simp)
    unfold State.takeTrap
    rw [hg]
    simp only [List.map_cons, hmin, htrap, hredo, List.map_nil, List.append_nil, List.contains_nil, Bool.false_eq_true, if_false,
      List.any_cons, List.any_map, List.map_map, Function.comp_def, List.map_id']
    rfl

/-- The lanes of `hs` have trapped with one cause at the word of `e` (R326, R331): each stands in the handler, the group is in
handler mode with its scalars as they were, and the other lanes of the clause stand behind the word. The registers of all other
lanes, the commands of every core and every byte outside the park slots stand. -/
structure TrapTaken (e : Env) (code : Nat) (hs : List TrapLane) (s t : State) : Prop where
  group : ∃ y, t.group? e.c e.g = some y ∧ y.hmode = true ∧ y.hcause = code ∧ y.cur = none ∧ y.scal = e.x.scal
  entered : ∀ h ∈ hs, Entered e.c h.pos code (e.cu.trapPoint code).1 (e.cu.trapPoint code).2 h.detail h.info
    (Machine.hvecOf s (s.ctxOf e.c e.x) code) s t
  others : ∀ k q, ¬ (k = e.c ∧ q ∈ hs.map (·.pos)) → (t.lane k q).v = (s.lane k q).v ∧ (t.lane k q).p = (s.lane k q).p
  passed : ∀ q ∈ e.cu.live, q ∉ hs.map (·.pos) →
    (t.lane e.c q).lpc = BitVec.ofNat 64 (e.cu.after e.cu.k).1 ∧ (t.lane e.c q).resw = (e.cu.after e.cu.k).2
  cmds : ∀ k, (t.core k).cmds = (s.core k).cmds
  mem : ∀ a, inFirmware a = false → t.mem.get a = s.mem.get a

theorem regs_ext {n : Nat} {r q : Regs n} (h : ∀ i, regGet r i = regGet q i) : r = q :=
  Vector.ext fun i hi => by simpa [regGet, hi] using h i

theorem wf_of_memoryOk (h : memoryOk s = true) : Memory.wf s.mem = true := by
  simp only [memoryOk, Bool.and_eq_true] at h
  obtain ⟨⟨⟨hmem, -⟩, -⟩, -⟩ := h
  exact hmem

/-- A group that can take a trap takes it. -/
theorem takeTrap_taken {e : Env} {code : Nat} {hs : List TrapLane} (hg : s.group? e.c e.g = some e.x) (h : CanTrap e s code)
    (hne : hs ≠ []) (hn : (hs.map (·.pos)).Nodup) (hl : ∀ a ∈ hs, a.pos ∈ e.cu.live) :
    TrapTaken e code hs s (s.takeTrap e.c e.g e.cu (hs.map fun a => (a, code)) []) := by
  rw [takeTrap_eq hg hne]
  generalize hu : (s.leaveAll e.c e.x.place e.cu (e.cu.pointOf code hs) e.cu.live).endClause e.c e.g = u
  have hf : SpillFrame e.c e.g (· ∈ e.cu.live) s u := by
    rw [← hu]
    exact (SpillFrame.leaveAll s _ h.place (fun _ hp => hp) h.rln).trans (.of_frame (Frame.endClause _))
  have hlane : ∀ k q, u.lane k q =
      if k = e.c ∧ q ∈ e.cu.live then (s.lane k q).placed (e.cu.pointOf code hs q) else s.lane k q := fun k q => by
    rw [← hu, lane_endClause, lane_leaveAll]
  obtain ⟨y, hy, hyx, hreg, -⟩ := hf.frame.group e.x hg
  replace hy : u.group? e.c e.g = some y := hy
  have hplace : y.place = e.x.place := (congrArg Group.place hyx :)
  have hmode : y.hmode = e.x.hmode := (congrArg Group.hmode hyx :)
  have hctx : u.ctxOf e.c y = s.ctxOf e.c e.x := by
    rw [hf.ctxOf, State.ctxOf, State.ctxOf, State.teamOf, State.teamOf, hplace]
  have hvregs : u.vregsOf e.c y = s.vregsOf e.c e.x := by
    rw [hf.vregsOf, State.vregsOf, State.vregsOf, State.gridOf, State.gridOf, State.teamOf, State.teamOf, hplace]
  have hhvec : hvecOf u (u.ctxOf e.c y) code = hvecOf s (s.ctxOf e.c e.x) code := by
    rw [hctx, hf.hvecOf (wf_of_memoryOk h.memory) h.apart]
  rw [enterHandler_eq hy (hmode.trans h.mode) (hvregs ▸ h.vregs) (hhvec ▸ h.hvec), hhvec]
  have hscal : y.scal = e.x.scal := regs_ext fun r => hreg r not_false
  refine ⟨?_, fun a ha => ?_, fun k q hq => ?_, fun q hq hout => ?_, fun k => ?_, fun a ha => ?_⟩
  · obtain ⟨f, hz⟩ := group_setHandler (code := code) hy
    obtain ⟨-, -, -, hcur⟩ := group_endClause _ _ _ y (hu ▸ hy)
    exact ⟨_, (group?_enterAll ..).trans hz, rfl, rfl, hcur, hscal⟩
  · have hany : (hs.any fun b => b.pos == a.pos) = true := List.any_eq_true.mpr ⟨a, ha, beq_self_eq_true _⟩
    refine entered_of_enter ?_
    rw [lane_enterAll_in _ hn ha, lane_setHandler, hlane, if_pos ⟨rfl, hl a ha⟩, Cursor.pointOf, if_pos hany]
  · rw [lane_enterAll_out _ hq, lane_setHandler, hlane]
    split <;> exact ⟨rfl, rfl⟩
  · have hnone : ¬ (hs.any fun b => b.pos == q) = true := by simpa using hout
    rw [lane_enterAll_out _ (by simpa using hout), lane_setHandler, hlane, if_pos ⟨rfl, hq⟩, Cursor.pointOf, if_neg hnone]
    exact ⟨rfl, rfl⟩
  · rw [cmds_enterAll, cmds_setHandler]
    exact (congrArg Core.cmds (hf.core k) :)
  · rw [mem_enterAll, mem_setHandler]
    exact hf.mem (wf_of_memoryOk h.memory) a ha

/-! ### A word that a rule refuses -/

/-- Lanes of C that can trap do so at the word that a rule refuses. -/
theorem faultWord_taken {e : Env} {code : Nat} (hg : s.group? e.c e.g = some e.x) (h : CanTrap e s code) (hne : e.lanes ≠ [])
    (hn : e.lanes.Nodup) (hl : ∀ p ∈ e.lanes, p ∈ e.cu.live) :
    TrapTaken e code (e.lanes.map fun p => { pos := p }) s (faultWord s e.c e.g e.cu e.lanes code) := by
  have hps : e.lanes.isEmpty = false := by simpa using hne
  have ht := takeTrap_taken (hs := e.lanes.map fun p => { pos := p }) hg h (by simpa using hne)
    (by simpa [Function.comp_def] using hn) (by simpa using hl)
  rw [List.map_map] at ht
  simp only [faultWord, hps, Bool.false_eq_true, if_false]
  exact ht

/-- Which group was in focus is nothing that a trap depends on. -/
theorem CanTrap.withFocus {e : Env} {code : Nat} (h : CanTrap e s code) (f : Option (Nat × Nat)) :
    CanTrap e { s with focus := f } code :=
  ⟨h.mode, h.vregs, h.hvec, h.apart, h.place, h.rln, h.memory⟩

theorem Entered.ofFocus {p code hdr w detail info hvec : Nat} {f : Option (Nat × Nat)}
    (h : Entered c p code hdr w detail info hvec { s with focus := f } t) : Entered c p code hdr w detail info hvec s t :=
  { h with saved := h.saved, low := h.low, preds := h.preds }

theorem TrapTaken.ofFocus {e : Env} {code : Nat} {hs : List TrapLane} {f : Option (Nat × Nat)}
    (h : TrapTaken e code hs { s with focus := f } t) : TrapTaken e code hs s t :=
  ⟨h.group, fun a ha => (h.entered a ha).ofFocus, h.others, h.passed, h.cmds, h.mem⟩

/-- The first fault of a word, as R45 orders them, is taken in every lane of C, and the word is not performed. -/
theorem execWord_fault {i : Instr} {e : Env} {code : Nat} (body : Env → State → Res) (hf : s.focus = some (e.c, e.g))
    (hg : s.group? e.c e.g = some e.x) (hc : e.x.cur = some e.cu) (hl : e.lanes = effectLanes s e.c e.cu ((pfxOf i).getD pfx0))
    (hne : e.lanes ≠ []) (hn : e.lanes.Nodup) (hw : wordFault s e.c e.x e.cu i = some code) (h : CanTrap e s code) :
    ∃ t, execWord i body s = .next t ∧ TrapTaken e code (e.lanes.map fun p => { pos := p }) s t := by
  have hlive : ∀ p ∈ e.lanes, p ∈ e.cu.live := hl ▸ effectLanes_sub s e.c e.cu _
  have hg' : State.group? { s with focus := none } e.c e.g = some e.x := hg
  have hw' : wordFault { s with focus := none } e.c e.x e.cu i = some code := hw
  have hl' : effectLanes { s with focus := none } e.c e.cu ((pfxOf i).getD pfx0) = e.lanes := hl.symm
  refine ⟨_, ?_, (faultWord_taken hg' (h.withFocus none) hne hn hlive).ofFocus⟩
  simp only [execWord, hf, hg, hc, hw', hl']

end
end Sys2Proof.Machine
end

section
/-!
PROOF. Privileged words in user mode (R61).
-/
namespace Sys2Proof.Machine

/-- What R59 and R94 keep for the supervisor is what the decoder refuses in user mode. -/
theorem privOf_of_supervisorOnly {i : Instr} (h : supervisorOnly i = true) : privOf i = true := by
  unfold supervisorOnly at h
  split at h
  case h_12 p d r =>
    change sregPriv r = true
    revert h
    cases r <;> decide
  case h_13 => cases h
  all_goals rfl

/-- A privileged word is executed as an instruction word. -/
theorem exec_of_supervisorOnly {i : Instr} (h : supervisorOnly i = true) (s : State) : ∃ body, exec i s = execWord i body s := by
  unfold supervisorOnly at h
  split at h
  case h_1 t => exact ⟨_, execColopen.eq_def t s⟩
  case h_2 t => exact ⟨_, execColclose.eq_def t s⟩
  case h_3 t => exact ⟨_, execExposeExpose.eq_def t s⟩
  case h_4 t => exact ⟨_, execExposeConfig.eq_def t s⟩
  case h_5 t => exact ⟨_, execExposeJoin.eq_def t s⟩
  case h_6 t => exact ⟨_, execCtxldLoad.eq_def t s⟩
  case h_7 t => exact ⟨_, execCtxldUpdate.eq_def t s⟩
  case h_8 t => exact ⟨_, execCtxldResume.eq_def t s⟩
  case h_9 t => exact ⟨_, execCtxsvSnapshot.eq_def t s⟩
  case h_10 t => exact ⟨_, execCtxsvStop.eq_def t s⟩
  case h_11 t => exact ⟨_, execCtxsvEvict.eq_def t s⟩
  case h_12 p d r => exact ⟨_, execSget.eq_def p d r s⟩
  case h_13 => cases h

/-- In user mode a privileged word that breaks no earlier rule of R45 is refused by R61. -/
theorem wordFault_priv {i : Instr} {s : State} {c : Nat} {x : Group} {cu : Cursor} (hi : privOf i = true)
    (hm : (s.ctx (s.ctxOf c x)).mode = false) (h1 : wordFault s c x cu i ≠ some tIllop) (h2 : wordFault s c x cu i ≠ some tClass) :
    wordFault s c x cu i = some tPriv := by
  simp only [wordFault, hi, hm, Bool.not_false, Bool.and_self, if_true] at h1 h2 ⊢
  split at h1
  · exact absurd rfl h1
  · rename_i hrules
    rw [if_neg hrules] at h2 ⊢
    split at h2
    · exact absurd rfl h2
    · rename_i hclass
      exact if_neg hclass

end Sys2Proof.Machine

namespace Sys2Proof
open Machine

/-- Settles O11: R45 finds T.PRIV before the word is performed, and every lane of C takes that trap. -/
theorem privilegedWordsTrapInUserMode : Obligations.PrivilegedWordsTrapInUserMode := by
  intro i e s hf hg hc hl hne hn hi hm hill hcls ht
  obtain ⟨body, hexec⟩ := exec_of_supervisorOnly hi s
  have hw := wordFault_priv (privOf_of_supervisorOnly hi) hm hill hcls
  obtain ⟨t, hnext, htaken⟩ := execWord_fault body hf hg hc hl hne hn hw ht
  obtain ⟨y, hy, hmode, hcause, -, hscal⟩ := htaken.group
  refine ⟨t, y, hexec.trans hnext, hy, hmode, hcause, hscal, fun q hq => ?_, htaken.cmds e.c, fun k q hq => ?_⟩
  · exact htaken.entered _ (List.mem_map_of_mem hq)
  · exact htaken.others k q (by simpa [Function.comp_def] using hq)

end Sys2Proof
end

section
/-!
SUPPORT. Conversions from float (R76, R77): rounding to an integer of values with no fraction and of large values, and the
machine's conversions as functions of the value alone.
-/
namespace Sys2Proof.Machine

/-! ### Rounding to an integer (R71, R86) -/

/-- On the grid of the units, a magnitude of at least 1 stands for itself. -/
theorem Mag.clampTo_zero_of_top {x : Mag} (h : 0 ≤ x.top) : x.clampTo 0 = x :=
  if_neg (by omega)

theorem Mag.top_nonneg_of_exp {x : Mag} (h : 0 ≤ x.e) : 0 ≤ x.top := by
  unfold Mag.top
  omega

/-- A magnitude with no fraction splits on the units into itself and nothing. -/
theorem Mag.split_zero_of_exp {x : Mag} (h : 0 ≤ x.e) : x.split 0 = (x.m * 2 ^ x.e.toNat, 0, 40) := by
  have hexp : (x.e - (0 - 40)).toNat = x.e.toNat + 40 := by omega
  simp only [Mag.split, clampTo_zero_of_top (top_nonneg_of_exp h), hexp]
  rw [if_neg (by omega), Nat.pow_add, ← Nat.mul_assoc, Nat.mul_div_cancel _ (Nat.two_pow_pos 40), Nat.mul_mod_left]

/-- Splitting on the units keeps the leading bit of a magnitude of at least 1. -/
theorem Mag.two_pow_top_le_split {x : Mag} (hm : x.m ≠ 0) (h : 0 ≤ x.top) : 2 ^ x.top.toNat ≤ (x.split 0).1 := by
  have hlog : 2 ^ Nat.log2 x.m ≤ x.m := Nat.log2_self_le hm
  simp only [Mag.split, clampTo_zero_of_top h]
  unfold Mag.top at h ⊢
  split
  · rw [Nat.le_div_iff_mul_le (Nat.two_pow_pos _), ← Nat.pow_add]
    exact Nat.le_trans (Nat.pow_le_pow_right (by decide) (by omega)) hlog
  · rw [Nat.le_div_iff_mul_le (Nat.two_pow_pos _), ← Nat.pow_add]
    calc 2 ^ ((x.e + Nat.log2 x.m).toNat + 40)
        ≤ 2 ^ (Nat.log2 x.m + (x.e - (0 - 40)).toNat) := Nat.pow_le_pow_right (by decide) (by omega)
      _ = 2 ^ Nat.log2 x.m * 2 ^ (x.e - (0 - 40)).toNat := Nat.pow_add ..
      _ ≤ x.m * 2 ^ (x.e - (0 - 40)).toNat := Nat.mul_le_mul_right _ hlog

/-- An integer rounds to itself (R77). -/
theorem roundInt_of_exp {m : Nat} {e : Int} (he : 0 ≤ e) (neg : Bool) (r : Rnd) (u : Nat) :
    roundInt neg ⟨m, e, false⟩ r u = (m * 2 ^ e.toNat, false) := by
  have hsplit : Mag.split ⟨m, e, false⟩ 0 = (m * 2 ^ e.toNat, 0, 40) := Mag.split_zero_of_exp he
  have hclamp : Mag.clampTo ⟨m, e, false⟩ 0 = ⟨m, e, false⟩ := Mag.clampTo_zero_of_top (Mag.top_nonneg_of_exp he)
  by_cases hm : m = 0
  · simp [roundInt, hm]
  · simp [roundInt, hm, hsplit, hclamp, roundAway]

/-- Rounding to an integer keeps a magnitude at or above its leading bit. -/
theorem two_pow_top_le_roundInt {m : Nat} {e : Int} (hm : m ≠ 0) (h : 0 ≤ e + Nat.log2 m) (neg : Bool) (r : Rnd) (u : Nat) :
    2 ^ (e + Nat.log2 m).toNat ≤ (roundInt neg ⟨m, e, false⟩ r u).1 := by
  have hsplit : 2 ^ (e + Nat.log2 m).toNat ≤ (Mag.split ⟨m, e, false⟩ 0).1 := Mag.two_pow_top_le_split (x := ⟨m, e, false⟩) hm h
  simp only [roundInt, hm, false_and, if_false]
  split <;> omega

/-! ### The ranges of the integer types (R64) -/

theorem tyMin_nonpos (t : IntTy) : tyMin t ≤ 0 := by cases t <;> decide
theorem tyMax_nonneg (t : IntTy) : 0 ≤ tyMax t := by cases t <;> decide
theorem neg_two_pow_lt_tyMin (t : IntTy) : -(2 ^ 64 : Int) < tyMin t := by cases t <;> decide
theorem tyMax_lt_two_pow (t : IntTy) : tyMax t < 2 ^ 64 := by cases t <;> decide

theorem wrap_lt (x : Int) (n : Nat) : wrap x n < 2 ^ n := by
  have hpos : (0 : Int) < (2 ^ n : Nat) := by exact_mod_cast Nat.two_pow_pos n
  exact (Int.toNat_lt (Int.emod_nonneg _ (Int.ne_of_gt hpos))).mpr (Int.emod_lt_of_pos _ hpos)

theorem tyWidth_le_tyOpWidth (t : IntTy) : tyWidth t ≤ tyOpWidth t := by cases t <;> decide

/-- A result of a type fits the operand width of the type (R150). -/
theorem tyRes_lt (t : IntTy) (x : Int) : tyRes t x < 2 ^ tyOpWidth t := by
  unfold tyRes
  split
  · exact wrap_lt ..
  · exact Nat.lt_of_lt_of_le (wrap_lt ..) (Nat.pow_le_pow_right (by decide) (tyWidth_le_tyOpWidth t))

/-! ### The conversions and their rules -/

/-- The formats without infinities (R65, R70). -/
theorem hasInf_eq_false_iff (d : Fmt) : hasInf d = false ↔ d = .e4m3 ∨ d = .mk8 := by cases d <;> decide

theorem roundFmt_zero (d : Fmt) (neg : Bool) (e : Int) (r : Rnd) (u : Nat) :
    roundFmt d neg ⟨0, e, false⟩ r u = (zeroCode d neg, noFlags) :=
  if_pos ⟨rfl, rfl⟩

theorem zeroCode_eq (d : Fmt) (neg : Bool) : zeroCode d neg = if neg = true ∧ d ≠ .mk8 then 2 ^ (fmtWidth d - 1) else 0 := by
  by_cases hd : d = .mk8 <;> cases neg <;> simp [zeroCode, b2n, hd]

/-- CvtFF is the rule of R76. -/
theorem cvtFF_eq_floatToFloat (d : Fmt) (r : Rnd) (v : FVal) (u : Nat) : cvtFF d r v u = floatToFloat d r v u := by
  cases v with
  | nan signalling => rfl
  | inf neg =>
    by_cases hd : d = .e4m3 ∨ d = .mk8
    · simp [cvtFF, floatToFloat, hd, (hasInf_eq_false_iff d).mpr hd, nanRes, flagIf]
    · have hinf : hasInf d = true := by simpa using mt (hasInf_eq_false_iff d).mp hd
      simp [cvtFF, floatToFloat, hd, hinf]
  | fin neg m e =>
    by_cases hm : m = 0
    · simp only [cvtFF, floatToFloat, hm, if_true, roundFmt_zero, zeroCode_eq]
    · simp only [cvtFF, floatToFloat, hm, if_false]

/-- The rule of R77 for a finite value: rounded, and limited to the range of the type. -/
theorem floatToInt_fin (t : IntTy) (r : Rnd) (neg : Bool) (m : Nat) (e : Int) (u : Nat) :
    floatToInt t r (.fin neg m e) u =
      if signed neg (roundInt neg ⟨m, e, false⟩ r u).1 < tyMin t then (tyMin t, flagIV)
      else if tyMax t < signed neg (roundInt neg ⟨m, e, false⟩ r u).1 then (tyMax t, flagIV)
      else (signed neg (roundInt neg ⟨m, e, false⟩ r u).1, flagIf (roundInt neg ⟨m, e, false⟩ r u).2 flagNX) := by
  by_cases he : 0 ≤ e
  · rw [roundInt_of_exp he]
    simp only [floatToInt, he, if_true]
    rfl
  · simp only [floatToInt, he, if_false]
    rfl

/-- A finite value of at least 2²⁰¹ is out of the range of every type (R77). -/
theorem floatToInt_of_top {m : Nat} {e : Int} (hm : m ≠ 0) (h : 200 < e + Nat.log2 m) (t : IntTy) (r : Rnd) (neg : Bool) (u : Nat) :
    floatToInt t r (.fin neg m e) u = (if neg then tyMin t else tyMax t, flagIV) := by
  have hround : 2 ^ (e + Nat.log2 m).toNat ≤ (roundInt neg ⟨m, e, false⟩ r u).1 :=
    two_pow_top_le_roundInt hm (by omega) neg r u
  have hpow : 2 ^ 64 ≤ 2 ^ (e + Nat.log2 m).toNat := Nat.pow_le_pow_right (by decide) (by omega)
  have hbig : (2 ^ 64 : Int) ≤ (roundInt neg ⟨m, e, false⟩ r u).1 := by exact_mod_cast Nat.le_trans hpow hround
  have hmin := neg_two_pow_lt_tyMin t
  have hmin0 := tyMin_nonpos t
  have hmax := tyMax_lt_two_pow t
  have hmax0 := tyMax_nonneg t
  rw [floatToInt_fin]
  cases neg with
  | true => exact if_pos (by simp only [signed, if_true]; omega)
  | false =>
    have hover : tyMax t < signed false (roundInt false ⟨m, e, false⟩ r u).1 := by
      simp only [signed, Bool.false_eq_true, if_false]
      omega
    rw [if_neg (by omega), if_pos hover]
    rfl

/-- CvtFI is the rule of R77. -/
theorem cvtFI_eq_floatToInt (t : IntTy) (r : Rnd) (v : FVal) (u : Nat) : cvtFI t r v u = floatToInt t r v u := by
  cases v with
  | nan signalling => rfl
  | inf neg => rfl
  | fin neg m e =>
    by_cases h : 200 < e + Nat.log2 m ∧ m ≠ 0
    · rw [floatToInt_of_top h.2 h.1]
      exact if_pos h
    · rw [floatToInt_fin]
      exact if_neg h

/-! ### Words with one float source -/

section
variable {i : Instr} {e : Env} {s : State}

/-- A float operand of the word reads what stood before the word. -/
theorem Runs.fv (h : Runs i e s) (f : Fmt) {o : Operand} (ho : o ∈ (usesOf i).map (·.o)) (p : Nat) :
    e.fv (e.entry s) f o p = e.fv s f o p := by
  simp only [Env.fv, Env.fopnd, h.opnd ho]

/-- A word that writes `F` of its float operand and of the lane's draw: what its destination and GST hold. -/
theorem Runs.floatOut_fv (h : Runs i e s) (f : Fmt) (a : Operand) (d : Option Operand) (w : Nat) (r : Rnd)
    (F : FVal → Nat → Nat × Flags) (hd : ∀ q ∈ dstUse d w, q ∈ usesOf i) (ha : a ∈ (usesOf i).map (·.o))
    (hw : w = 32 ∨ w = 64 ∨ w = 128) (hn : e.lanes.Nodup) :
    ∃ t y, execWord i (fun e s => .done (e.floatOut d w r (fun p u => F (e.fv s f a p) u) s)) s = .next t ∧
      t.group? e.c e.g = some y ∧
      RegResult e d w (fun p => (F (e.fv s f a p) (e.stoch r p s).1).1 % 2 ^ w) t ∧
      y.gst = e.x.gst ||| BitVec.ofNat 32 (flagsAll (e.runLanes.map fun p => (F (e.fv s f a p) (e.stoch r p s).1).2)).gst := by
  obtain ⟨t, hexec, hres, ⟨y, hy, hgst⟩, -, -⟩ :=
    h.floatOut (body := fun e s => .done (e.floatOut d w r (fun p u => F (e.fv s f a p) u) s)) d w r
      (fun p u => F (e.fv s f a p) u) (by simp only [h.fv f ha]) hd hw hn
  exact ⟨t, y, hexec, hy, hres, hgst⟩

end

theorem fW_cases (f : Fmt) : fW f = 32 ∨ fW f = 64 ∨ fW f = 128 := by cases f <;> decide
theorem tyOpWidth_cases (t : IntTy) : tyOpWidth t = 32 ∨ tyOpWidth t = 64 ∨ tyOpWidth t = 128 := by cases t <;> decide

/-- `fcvt` writes what the rule of R76 gives (R177). -/
theorem exec_fcvt (src : Fmt) (o : F1) (s : State) : exec (.fcvt src o) s = execWord (.fcvt src o) (fun e s =>
    .done (e.floatOut o.dst (fW o.f) o.m (fun p u => floatToFloat o.f o.m (e.fv s src o.a p) u) s)) s := by
  simp only [← cvtFF_eq_floatToFloat]
  rfl

/-- `ftoi` writes what the rule of R77 gives, in the bits of the type (R178). -/
theorem exec_ftoi (ty : IntTy) (o : F1) (s : State) : exec (.ftoi ty o) s = execWord (.ftoi ty o) (fun e s =>
    .done (e.floatOut o.dst (tyOpWidth ty) o.m (fun p u =>
      (tyRes ty (floatToInt ty o.m (e.fv s o.f o.a p) u).1, (floatToInt ty o.m (e.fv s o.f o.a p) u).2)) s)) s := by
  simp only [← cvtFI_eq_floatToInt]
  rfl

end Sys2Proof.Machine
end

section
/-!
PROOF. Conversions from float (R76, R77).
-/
namespace Sys2Proof
open Machine

/-- Settles O4: `fcvt` and `ftoi` apply CvtFF and CvtFI, which are the rules of R76 and R77 on every value. -/
theorem floatConversionsFollowTheirRules : Obligations.FloatConversionsFollowTheirRules := by
  refine ⟨fun src o e s h hn => ?_, fun ty o e s h hn => ?_⟩
  · rw [exec_fcvt]
    exact h.floatOut_fv src o.a o.dst (fW o.f) o.m (floatToFloat o.f o.m) (fun q hq => List.mem_append_left _ hq)
      (List.mem_map_of_mem (List.mem_append_right _ List.mem_cons_self)) (fW_cases o.f) hn
  · rw [exec_ftoi]
    have hword := h.floatOut_fv o.f o.a o.dst (tyOpWidth ty) o.m
      (fun v u => (tyRes ty (floatToInt ty o.m v u).1, (floatToInt ty o.m v u).2)) (fun q hq => List.mem_append_left _ hq)
      (List.mem_map_of_mem (List.mem_append_right _ List.mem_cons_self)) (tyOpWidth_cases ty) hn
    simpa only [Nat.mod_eq_of_lt (tyRes_lt ..)] using hword

end Sys2Proof
end
